-- ==== Sys2Proof/Word.lean ====
section
/-! DEFINITION. The two data widths of the machine (spec 00_scope.md R5, R9). -/

namespace Sys2Proof

/-- A 32-bit word: registers, addresses, instructions, the bus (R5, R9). -/
abbrev Word := BitVec 32

/-- An 8-bit byte, the smallest thing memory holds (R5, R61). -/
abbrev Byte := BitVec 8

end Sys2Proof
end

