-- ==== Sys2Proof/Syntax.lean ====
section
/-! DEFINITION. The instructions: one constructor for each row of spec/opcode_table.json, in its order. Every field
of an encoding is kept, the ones the processor ignores included (30_encoding.md R144), so that no bit is lost. -/

namespace Sys2Proof

/-- The sixteen conditions of the condition field (40_conditional_execution.md R161). -/
inductive Cond where
  | eq | ne | cs | cc | mi | pl | vs | vc | hi | ls | ge | lt | gt | le | al | nv
deriving DecidableEq, Repr

/-- A register number field: R0 to R15 (10_state.md R27). -/
abbrev RegNum := BitVec 4

/-- The four shift types of the two-bit type field (30_encoding.md R126). -/
inductive ShiftType where
  | lsl | lsr | asr | ror
deriving DecidableEq, Repr

/-- Operand 2 of a data processing instruction (42_data_processing.md R182): a rotated immediate, a register shifted
by an amount in the instruction, or a register shifted by the bottom byte of another register. -/
inductive Operand2 where
  | imm (rotate : BitVec 4) (imm8 : BitVec 8)
  | shiftImm (rm : RegNum) (ty : ShiftType) (amount : BitVec 5)
  | shiftReg (rm : RegNum) (ty : ShiftType) (rs : RegNum)
deriving DecidableEq, Repr

/-- The offset of a single data transfer (45_single_data_transfer.md R261): 12 bits, or a register shifted by an
amount in the instruction. -/
inductive Offset where
  | imm (offset : BitVec 12)
  | reg (rm : RegNum) (ty : ShiftType) (amount : BitVec 5)
deriving DecidableEq, Repr

/-- The instructions of the ARM7. Field names are the encoding's (30_encoding.md R125 to R138); each starts with its
condition. -/
inductive Instr where
  /-- B (R171). -/
  | b (c : Cond) (offset : BitVec 24)
  /-- BL (R172). -/
  | bl (c : Cond) (offset : BitVec 24)
  /-- SWI (R330). -/
  | swi (c : Cond) (comment : BitVec 24)
  /-- CDP (R350). -/
  | cdp (c : Cond) (cpOpc : BitVec 4) (crn crd cpNum : BitVec 4) (cp : BitVec 3) (crm : BitVec 4)
  /-- MRC (R353). -/
  | mrc (c : Cond) (cpOpc : BitVec 3) (crn : BitVec 4) (rd : RegNum) (cpNum : BitVec 4) (cp : BitVec 3)
      (crm : BitVec 4)
  /-- MCR (R354). -/
  | mcr (c : Cond) (cpOpc : BitVec 3) (crn : BitVec 4) (rd : RegNum) (cpNum : BitVec 4) (cp : BitVec 3)
      (crm : BitVec 4)
  /-- LDC (R351). -/
  | ldc (c : Cond) (p u n w : Bool) (rn : RegNum) (crd cpNum : BitVec 4) (offset : BitVec 8)
  /-- STC (R352). -/
  | stc (c : Cond) (p u n w : Bool) (rn : RegNum) (crd cpNum : BitVec 4) (offset : BitVec 8)
  /-- LDM (R291). -/
  | ldm (c : Cond) (p u s w : Bool) (rn : RegNum) (list : BitVec 16)
  /-- STM (R292). -/
  | stm (c : Cond) (p u s w : Bool) (rn : RegNum) (list : BitVec 16)
  /-- The undefined instruction, with the bits it ignores (R333, R144). -/
  | undefined (c : Cond) (high : BitVec 20) (low : BitVec 4)
  /-- LDRT (R266): post-indexed with W = 1. -/
  | ldrt (c : Cond) (u : Bool) (rn rd : RegNum) (off : Offset)
  /-- LDRBT (R267). -/
  | ldrbt (c : Cond) (u : Bool) (rn rd : RegNum) (off : Offset)
  /-- STRT (R269). -/
  | strt (c : Cond) (u : Bool) (rn rd : RegNum) (off : Offset)
  /-- STRBT (R270). -/
  | strbt (c : Cond) (u : Bool) (rn rd : RegNum) (off : Offset)
  /-- LDR (R262). -/
  | ldr (c : Cond) (p u w : Bool) (rn rd : RegNum) (off : Offset)
  /-- LDRB (R263). -/
  | ldrb (c : Cond) (p u w : Bool) (rn rd : RegNum) (off : Offset)
  /-- STR (R264). -/
  | str (c : Cond) (p u w : Bool) (rn rd : RegNum) (off : Offset)
  /-- STRB (R265). -/
  | strb (c : Cond) (p u w : Bool) (rn rd : RegNum) (off : Offset)
  /-- MUL (R250), with the Rn field it ignores. -/
  | mul (c : Cond) (s : Bool) (rd rn rs rm : RegNum)
  /-- MLA (R251). -/
  | mla (c : Cond) (s : Bool) (rd rn rs rm : RegNum)
  /-- SWP (R320). -/
  | swp (c : Cond) (rn rd rm : RegNum)
  /-- SWPB (R321). -/
  | swpb (c : Cond) (rn rd rm : RegNum)
  /-- A word of R142 (a): not defined, and no trap. `body` is bits 27 to 0. -/
  | notDefinedA (c : Cond) (body : BitVec 28)
  /-- MRS (R232). -/
  | mrs (c : Cond) (ps : Bool) (rd : RegNum)
  /-- MSR of a register to the whole PSR (R233). -/
  | msrRegAll (c : Cond) (pd : Bool) (rm : RegNum)
  /-- MSR of a register to the flag bits (R234). -/
  | msrRegFlg (c : Cond) (pd : Bool) (rm : RegNum)
  /-- MSR of an immediate to the flag bits (R235). -/
  | msrImmFlg (c : Cond) (pd : Bool) (rotate : BitVec 4) (imm8 : BitVec 8)
  /-- A word of R142 (b): not defined, and no trap. `body` is bits 27 to 0. -/
  | notDefinedB (c : Cond) (body : BitVec 28)
  /-- AND (R200). -/
  | and (c : Cond) (s : Bool) (rn rd : RegNum) (op2 : Operand2)
  /-- EOR (R201). -/
  | eor (c : Cond) (s : Bool) (rn rd : RegNum) (op2 : Operand2)
  /-- SUB (R202). -/
  | sub (c : Cond) (s : Bool) (rn rd : RegNum) (op2 : Operand2)
  /-- RSB (R203). -/
  | rsb (c : Cond) (s : Bool) (rn rd : RegNum) (op2 : Operand2)
  /-- ADD (R204). -/
  | add (c : Cond) (s : Bool) (rn rd : RegNum) (op2 : Operand2)
  /-- ADC (R205). -/
  | adc (c : Cond) (s : Bool) (rn rd : RegNum) (op2 : Operand2)
  /-- SBC (R206). -/
  | sbc (c : Cond) (s : Bool) (rn rd : RegNum) (op2 : Operand2)
  /-- RSC (R207). -/
  | rsc (c : Cond) (s : Bool) (rn rd : RegNum) (op2 : Operand2)
  /-- TST (R208), with its Rd field (R199). -/
  | tst (c : Cond) (rn rd : RegNum) (op2 : Operand2)
  /-- TEQ (R209). -/
  | teq (c : Cond) (rn rd : RegNum) (op2 : Operand2)
  /-- CMP (R210). -/
  | cmp (c : Cond) (rn rd : RegNum) (op2 : Operand2)
  /-- CMN (R211). -/
  | cmn (c : Cond) (rn rd : RegNum) (op2 : Operand2)
  /-- ORR (R212). -/
  | orr (c : Cond) (s : Bool) (rn rd : RegNum) (op2 : Operand2)
  /-- MOV (R213), with the Rn field it ignores. -/
  | mov (c : Cond) (s : Bool) (rn rd : RegNum) (op2 : Operand2)
  /-- BIC (R214). -/
  | bic (c : Cond) (s : Bool) (rn rd : RegNum) (op2 : Operand2)
  /-- MVN (R215), with the Rn field it ignores. -/
  | mvn (c : Cond) (s : Bool) (rn rd : RegNum) (op2 : Operand2)
deriving DecidableEq, Repr

/-- The condition field of an instruction (30_encoding.md R124). -/
def Instr.cond : Instr → Cond
  | .b c _ | .bl c _ | .swi c _ | .cdp c _ _ _ _ _ _ | .mrc c _ _ _ _ _ _ | .mcr c _ _ _ _ _ _
  | .ldc c _ _ _ _ _ _ _ _ | .stc c _ _ _ _ _ _ _ _ | .ldm c _ _ _ _ _ _ | .stm c _ _ _ _ _ _
  | .undefined c _ _ | .ldrt c _ _ _ _ | .ldrbt c _ _ _ _ | .strt c _ _ _ _ | .strbt c _ _ _ _
  | .ldr c _ _ _ _ _ _ | .ldrb c _ _ _ _ _ _ | .str c _ _ _ _ _ _ | .strb c _ _ _ _ _ _
  | .mul c _ _ _ _ _ | .mla c _ _ _ _ _ | .swp c _ _ _ | .swpb c _ _ _ | .notDefinedA c _
  | .mrs c _ _ | .msrRegAll c _ _ | .msrRegFlg c _ _ | .msrImmFlg c _ _ _ | .notDefinedB c _
  | .and c _ _ _ _ | .eor c _ _ _ _ | .sub c _ _ _ _ | .rsb c _ _ _ _ | .add c _ _ _ _ | .adc c _ _ _ _
  | .sbc c _ _ _ _ | .rsc c _ _ _ _ | .tst c _ _ _ | .teq c _ _ _ | .cmp c _ _ _ | .cmn c _ _ _
  | .orr c _ _ _ _ | .mov c _ _ _ _ | .bic c _ _ _ _ | .mvn c _ _ _ _ => c

end Sys2Proof
end

