-- ==== Sys2Proof/Config.lean ====
section
/-! DEFINITION. What the implementation decides and the spec leaves open: constants with no body, so that no proof can
see their values (notes/assumptions/2.md, 3.md, 4.md, 17.md). Each is applied to the machine's own step counter, so that the
value is chosen afresh at each step. -/

namespace Sys2Proof

/-- The C flag that a multiply with S = 1 leaves: "a meaningless value" (44_multiply.md R252;
93_implementation_defined.md U10). -/
opaque Config.mulCarry : Nat → Bool

/-- What the instruction right after a User bank LDM reads from register `n` banked in its mode
(46_block_data_transfer.md R297 (b); U20). -/
opaque Config.shadowRead : Nat → RegNum → Word

/-- R14_svc after a reset: "not defined" (70_reset_and_hazards.md R422; U24). -/
opaque Config.resetLink : Nat → Word

/-- SPSR_svc after a reset: "not defined" (R422; U24). -/
opaque Config.resetSpsr : Nat → Word

/-- A general register after the instruction that was executing when nRESET went LOW has been abandoned (R421; U23;
92_eei_decisions.md D22), by its place in the register file. -/
opaque Config.abandonedReg : Nat → Nat → Word

/-- The flags of the CPSR after that instruction (U23). -/
opaque Config.abandonedFlags : Nat → BitVec 4

/-- An SPSR after that instruction (U23), by its place among the five. -/
opaque Config.abandonedSpsr : Nat → Nat → Word

/-- A byte of memory that that instruction could write (U23), by its key. -/
opaque Config.abandonedByte : Nat → Nat → Byte

end Sys2Proof
end

