-- ==== Sys2Proof/Machine/State.lean ====
section
/-! DEFINITION. The state of the machine as plain data, the reasons a step can stop, and the state after reset. -/

namespace Sys2Proof.Machine

/-! ## Names -/

/-- The six processor modes (10_state.md R23). -/
inductive Mode where
  /-- User, the only non-privileged mode. -/
  | usr
  /-- FIQ. -/
  | fiq
  /-- IRQ. -/
  | irq
  /-- Supervisor. -/
  | svc
  /-- Abort. -/
  | abt
  /-- Undefined. -/
  | und
deriving DecidableEq, Repr

/-- The exceptions other than reset (60_exceptions.md R372). -/
inductive Exc where
  | undefined | swi | prefetchAbort | dataAbort | irq | fiq
deriving DecidableEq, Repr

/-- The thirty general registers other than R15, by physical name (R21). -/
inductive PhysReg where
  /-- R0 to R12. -/
  | low (n : Fin 13)
  /-- R8_fiq to R12_fiq, numbered from 0. -/
  | highFiq (n : Fin 5)
  /-- R13 of a mode. -/
  | r13 (m : Mode)
  /-- R14 of a mode. -/
  | r14 (m : Mode)
deriving DecidableEq, Repr

/-- The condition code flags of a PSR (R32, R33). -/
structure Flags where
  n : Bool
  z : Bool
  c : Bool
  v : Bool
deriving DecidableEq, Repr

/-! ## The memory system and the bus -/

/-- The attributes of a bus cycle (20_memory.md R60); `true` is HIGH. -/
structure BusAttrs where
  nRW : Bool
  nBW : Bool
  nOPC : Bool
  nTRANS : Bool
  nM : BitVec 5
  LOCK : Bool
deriving DecidableEq, Repr

/-- How the memory system answers the cycles a rule names (R60; 00_scope.md R13). -/
inductive Reply where
  /-- ABORT = 1: the access is not made (R80). -/
  | abort
  /-- A read-only memory: a read gives what the memory holds, a write changes nothing. -/
  | readOnly
  /-- A device: a read gives the word, a write changes nothing in the memory. What the access does to the device shows
  in the rules and the bytes of later moments. -/
  | device (word : Word)
deriving DecidableEq, Repr

/-- One rule of the memory system (R60, R74, R80, 60_exceptions.md R403): the reply to the cycles at byte addresses
`first` to `last` whose attributes match. An attribute given as none matches both levels. -/
structure MemoryRule where
  first : Nat
  last : Nat
  nRW : Option Bool
  nBW : Option Bool
  nOPC : Option Bool
  nTRANS : Option Bool
  nM : Option (BitVec 5)
  LOCK : Option Bool
  reply : Reply
deriving DecidableEq, Repr

/-- Memory: the bytes that are not 0, by address, strictly rising. The key of a byte is 4 times its word's number plus
its lane (R62), which is its address when BIGEND = 0; an unlisted byte reads as 0 (notes/assumptions/5.md). -/
abbrev Memory := List Host.Cell

/-- The four types of bus cycle (21_bus_interface_and_signals.md R104): non-sequential, sequential, internal,
coprocessor register transfer. -/
inductive CycleType where
  | n | s | i | c
deriving DecidableEq, Repr

/-- One bus cycle as the outside sees it (20_memory.md R60, 21_bus_interface_and_signals.md R100, R103, R104, R106). -/
structure BusCycle where
  /-- Its type, which nMREQ and SEQ tell (R104). -/
  type : CycleType
  /-- A[31:0]. Bits 1 and 0 of a fetch, which the spec leaves open (93_implementation_defined.md U32), are shown as
  those of the PC, 00: the model's choice (notes/assumptions/41.md). -/
  addr : Word
  attrs : BusAttrs
  /-- LOW while a coprocessor or undefined instruction is offered (49_coprocessor.md R342). -/
  nCPI : Bool
  /-- The word the processor or a coprocessor drives on the data bus; none in a read and in an internal cycle. -/
  data : Option Word
deriving DecidableEq, Repr

/-! ## The environment -/

/-- The input pins (21_bus_interface_and_signals.md R100; `true` is HIGH), with the answers of the memory system as
rules. -/
structure Inputs where
  /-- Not fast interrupt request (60_exceptions.md R389). -/
  nFIQ : Bool
  /-- Not interrupt request (R389). -/
  nIRQ : Bool
  /-- Not reset (70_reset_and_hazards.md R421). -/
  nRESET : Bool
  /-- Byte order: HIGH is big-endian (00_scope.md R10). -/
  BIGEND : Bool
  /-- 32-bit program space (R11). -/
  PROG32 : Bool
  /-- 32-bit data space (R11). -/
  DATA32 : Bool
  /-- How the memory system answers; the first rule that names a cycle decides, and a cycle that none names is served by
  the reference memory (R60, R62, R74). -/
  memoryRules : List MemoryRule
deriving DecidableEq, Repr

/-- What the environment does at one bus cycle (00_scope.md R10, R18, 20_memory.md R60, R69): the level of BIGEND and the
memory system's rules in this cycle, and the bytes other bus masters have written before it. -/
structure Moment where
  BIGEND : Bool
  memoryRules : List MemoryRule
  busWrites : List Host.Cell
deriving DecidableEq, Repr

/-- What the environment does at one instruction boundary (00_scope.md R18, 60_exceptions.md R390): the new levels of the
pins, the bytes other bus masters have written, and what it will do at the bus cycles up to its next event. -/
structure Event where
  inputs : Inputs
  busWrites : List Host.Cell
  moments : List Moment
deriving DecidableEq, Repr

/-- A coprocessor's answer to one offer of an instruction (49_coprocessor.md R343, R344, R347). -/
inductive CpAnswer where
  /-- CPA stays HIGH: absent, or it declines. -/
  | decline
  /-- CPA LOW, CPB HIGH for this cycle: the busy-wait, which an interrupt may break off. -/
  | busy
  /-- Busy for ever (U29). -/
  | hang
  /-- Committed. MRC takes the word; STC stores the word and then `more`; LDC transfers as many words as that; CDP and
  MCR use neither. -/
  | accept (word : Word) (more : List Word)
deriving DecidableEq, Repr

/-- What a coprocessor has seen or been told (R341, R347); `w` is the instruction word. -/
inductive CpEvent where
  /-- nCPI has gone LOW for the word, in the mode that nTRANS and nM[4:0] tell (R341, R342, R348). -/
  | offered (w : Word) (nTRANS : Bool) (nM : BitVec 5)
  /-- nCPI has gone HIGH before the commitment: the busy-wait was broken off (R344). -/
  | brokenOff
  | cdp (w : Word)
  /-- The i-th word of an LDC; none when its cycle was aborted. -/
  | load (w : Word) (i : Nat) (word : Option Word)
  /-- The i-th word of an STC has been driven, and whether its cycle was aborted (R358). -/
  | store (w : Word) (i : Nat) (aborted : Bool)
  | mrc (w : Word)
  | mcr (w : Word) (word : Word)
deriving DecidableEq, Repr

/-- Words a coprocessor declines (R343, R347, R348): those that agree with `value` in the bits of `mask`, offered in a
mode that nTRANS and nM[4:0] match; none matches every level. -/
structure CpRule where
  mask : Word
  value : Word
  nTRANS : Option Bool
  nM : Option (BitVec 5)
deriving DecidableEq, Repr

/-- An external coprocessor (00_scope.md R12; R340, R347): its number, the words it declines, the answers it will give to
the next offers of other words, and what it has seen so far, oldest first. With no answer left it is absent. -/
structure Coproc where
  number : BitVec 4
  declines : List CpRule
  answers : List CpAnswer
  seen : List CpEvent
deriving DecidableEq, Repr

/-! ## The state -/

/-- One prefetched word and its abort mark (10_state.md R41). -/
structure Slot where
  word : Word
  aborted : Bool
deriving DecidableEq, Repr

/-- The five saved program status registers (R22). -/
structure Spsrs where
  fiq : Word
  irq : Word
  svc : Word
  abt : Word
  und : Word
deriving DecidableEq, Repr

/-- The state of the machine. INVENTORY.md lists each field with the rule that names it. -/
structure State where
  /-- The thirty general registers other than R15 (R21). -/
  regs : Vector Word 30
  /-- R15: the address of the instruction to execute (R28). -/
  pc : Word
  /-- The current program status register (R32). -/
  cpsr : Word
  /-- The saved program status registers (R22). -/
  spsrs : Spsrs
  /-- The instruction pipeline: the words already fetched, from the one at `pc` on (R41). -/
  pipe : List Slot
  /-- The instruction before was a User bank LDM (70_reset_and_hazards.md R432). -/
  ldmShadow : Bool
  /-- nCPI is held LOW: a coprocessor busy-wait is under way (49_coprocessor.md R344). -/
  busyWait : Bool
  /-- SEQ as issued for the next instruction fetch (21_bus_interface_and_signals.md R100, R103, R104): the address at which
  it is an S-cycle (R105); none when it is an N-cycle wherever it goes. -/
  seq : Option Word
  /-- The memory behind the bus (R61, R62). -/
  mem : Memory
  /-- The input pins as they stand (R100). -/
  inputs : Inputs
  /-- What the environment will do at the next bus cycles; after the last moment nothing changes (00_scope.md R18). -/
  moments : List Moment
  /-- What the environment will do at the next instruction boundaries; after the last event the pins stay. -/
  schedule : List Event
  /-- The external coprocessors (R12). -/
  coprocs : List Coproc
  /-- The model's own counter of steps, which picks the free values. -/
  tick : Nat
  /-- The bus cycles of the last step, or of this one so far (R106): an output. -/
  bus : List BusCycle
deriving DecidableEq, Repr

/-! ## Why a step stops -/

/-- The machine never stops with a fault: every fault of the ARM7 is an exception it takes (60_exceptions.md R370). -/
inductive Fault where
deriving DecidableEq, Repr

/-- The runs the spec gives no meaning (93_implementation_defined.md, treatment `refuse`). Every refusal is safe: no
statement about a next state can come from it. -/
inductive Refusal where
  /-- An arm of exec with no meaning yet. Raised by Machine/Dispatch.lean only. Safe. -/
  | notModelled (mnemonic : String)
  /-- U1: PROG32 or DATA32 is LOW, at the start of a step or at a boundary within it. Raised by step. Safe. -/
  | configuration26Bit
  /-- U2, U35: M[4:0] in the CPSR is, or would become, none of the six modes. Raised by step, by MSR to the CPSR and by
  every copy of an SPSR to the CPSR. Safe. -/
  | illegalMode
  /-- U3: a not-defined word whose condition passes. Raised by the two not-defined constructors. Safe. -/
  | notDefinedWord
  /-- U5: data processing with S = 1 and Rd = R15 in User mode. Raised by data processing. Safe. -/
  | returnInUserMode
  /-- U6: R15 as Rs, the shift amount. Raised by data processing. Safe. -/
  | pcAsShiftAmount
  /-- U8: the SPSR in User mode. Raised by MRS and MSR. Safe. -/
  | spsrInUserMode
  /-- U9: R15 as Rd of MRS or Rm of MSR. Raised by MRS and MSR. Safe. -/
  | pcInPsrTransfer
  /-- U12: R15 as Rd, Rm, Rs or (MLA) Rn of a multiply. Raised by MUL and MLA. Safe. -/
  | pcInMultiply
  /-- U13: write-back to R15. Raised by the single data transfers. Safe. -/
  | pcWriteBack
  /-- U14: R15 as the offset register. Raised by the single data transfers. Safe. -/
  | pcAsOffset
  /-- U16: R15 as the base of a block transfer. Raised by LDM and STM. Safe. -/
  | pcAsBlockBase
  /-- U17: an empty register list. Raised by LDM and STM. Safe. -/
  | emptyRegisterList
  /-- U18: the S bit in User mode. Raised by LDM and STM. Safe. -/
  | blockSInUserMode
  /-- U19: write-back with a User bank transfer. Raised by LDM and STM. Safe. -/
  | userBankWriteBack
  /-- U21: R15 as Rd, Rn or Rm of a swap. Raised by SWP and SWPB. Safe. -/
  | pcInSwap
  /-- U22: write-back to R15. Raised by an accepted LDC or STC. Safe. -/
  | coprocessorPcWriteBack
deriving DecidableEq, Repr

/-- The outcome of an instruction or a step. -/
abbrev Result := Host.Outcome State Fault Refusal

/-! ## Reset -/

/-- The pins at reset: no request, no reset, little-endian, the 32-bit configuration, the reference memory
(notes/assumptions/6.md). -/
def Inputs.idle : Inputs :=
  { nFIQ := true, nIRQ := true, nRESET := true, BIGEND := false, PROG32 := true, DATA32 := true, memoryRules := [] }

/-- The machine right after reset (10_state.md R46): PC 0, Supervisor mode, I and F set, the pipeline empty. Every
value R46 leaves open is 0 here (notes/assumptions/7.md). -/
def State.reset : State :=
  { regs := Vector.replicate 30 0
    pc := 0
    cpsr := 0x000000D3
    spsrs := { fiq := 0, irq := 0, svc := 0, abt := 0, und := 0 }
    pipe := []
    ldmShadow := false
    busyWait := false
    seq := none
    mem := []
    inputs := Inputs.idle
    moments := []
    schedule := []
    coprocs := []
    tick := 0
    bus := [] }

end Sys2Proof.Machine
end

