-- ==== Sys2Proof/Machine/Flags.lean ====
section
/-! DEFINITION. The program status registers field by field, the condition test, and the flag computations
(10_state.md R32 to R38, 40_conditional_execution.md R161, 42_data_processing.md R196, R197). -/

namespace Sys2Proof.Machine

/-! ## Modes -/

/-- M[4:0] of a mode (R23). -/
def Mode.bits : Mode → BitVec 5
  | .usr => 0b10000 | .fiq => 0b10001 | .irq => 0b10010
  | .svc => 0b10011 | .abt => 0b10111 | .und => 0b11011

/-- The mode of M[4:0]; none for a value that is none of the six (R23, R35). -/
def Mode.ofBits (b : BitVec 5) : Option Mode :=
  match b with
  | 0b10000#5 => some .usr | 0b10001#5 => some .fiq | 0b10010#5 => some .irq
  | 0b10011#5 => some .svc | 0b10111#5 => some .abt | 0b11011#5 => some .und
  | _ => none

/-! ## Fields of a PSR -/

/-- The bits of a PSR that exist: N, Z, C, V, I, F and M[4:0]. The reserved bits 27 to 8 and 5 read as 0 and a write to
them is discarded (R36; notes/assumptions/8.md). -/
def psrKeep (v : Word) : Word := v &&& 0xF00000DF#32

/-- M[4:0] of a PSR. -/
def psrMode (p : Word) : BitVec 5 := p.extractLsb' 0 5

/-- I of a PSR: IRQ disabled (R34; bit 7, notes/assumptions/1.md). -/
def psrI (p : Word) : Bool := p.getLsbD 7

/-- F of a PSR: FIQ disabled (R34; bit 6). -/
def psrF (p : Word) : Bool := p.getLsbD 6

/-- N, Z, C, V of a PSR (R32). -/
def psrFlags (p : Word) : Flags :=
  { n := p.getLsbD 31, z := p.getLsbD 30, c := p.getLsbD 29, v := p.getLsbD 28 }

/-- Four flags as bits 31 to 28. -/
def Flags.bits (f : Flags) : BitVec 4 :=
  BitVec.ofBool f.n ++ BitVec.ofBool f.z ++ BitVec.ofBool f.c ++ BitVec.ofBool f.v

/-- A PSR with bits 31 to 28 replaced and bits 27 to 0 kept. -/
def psrWithTop (p : Word) (top : BitVec 4) : Word := top ++ p.extractLsb' 0 28

/-- A PSR with other flags and the same control bits. -/
def psrWithFlags (p : Word) (f : Flags) : Word := psrWithTop p f.bits

/-- A PSR with another mode. -/
def psrWithMode (p : Word) (m : Mode) : Word := p.extractLsb' 5 27 ++ m.bits

/-- A PSR with I set. -/
def psrSetI (p : Word) : Word := p ||| 0x80#32

/-- A PSR with F set. -/
def psrSetF (p : Word) : Word := p ||| 0x40#32

/-! ## The condition -/

/-- CondPassed (R161); NV never passes (R162; notes/assumptions/9.md). -/
def condPasses (c : Cond) (f : Flags) : Bool :=
  match c with
  | .eq => f.z
  | .ne => !f.z
  | .cs => f.c
  | .cc => !f.c
  | .mi => f.n
  | .pl => !f.n
  | .vs => f.v
  | .vc => !f.v
  | .hi => f.c && !f.z
  | .ls => !f.c || f.z
  | .ge => f.n == f.v
  | .lt => f.n != f.v
  | .gt => !f.z && f.n == f.v
  | .le => f.z || f.n != f.v
  | .al => true
  | .nv => false

/-! ## The flag computations -/

/-- A result and the four flags an S form would write. -/
structure AluResult where
  value : Word
  flags : Flags
deriving DecidableEq, Repr

/-- The logical flags (R196): C is the shifter's carry, V stays. -/
def logicalResult (old : Flags) (shifterCarry : Bool) (v : Word) : AluResult :=
  { value := v, flags := { n := v.msb, z := v == 0#32, c := shifterCarry, v := old.v } }

/-- AddWithCarry (R197): the sum over unbounded integers, unsigned for C and signed for V. -/
def addWithCarry (x y : Word) (carry : Bool) : AluResult :=
  let usum := x.toNat + y.toNat + carry.toNat
  let ssum := x.toInt + y.toInt + carry.toNat
  let value := BitVec.ofNat 32 usum
  { value
    flags :=
      { n := value.msb
        z := value == 0#32
        c := decide (2 ^ 32 ≤ usum)
        v := decide (ssum < -2 ^ 31 ∨ 2 ^ 31 ≤ ssum) } }

/-- The flags of a multiply with S = 1 (44_multiply.md R252): N and Z of the result, a C that means nothing, V kept. -/
def multiplyFlags (old : Flags) (carry : Bool) (v : Word) : Flags :=
  { n := v.msb, z := v == 0#32, c := carry, v := old.v }

end Sys2Proof.Machine
end

