-- ==== Sys2Proof/Machine/Ops.lean ====
section
/-! DEFINITION. The named operations over registers, memory, the bus and the coprocessors, taking an exception and
returning from one. Every meaning is written over these. -/

namespace Sys2Proof.Machine

/-! ## Registers -/

/-- The place of a mode's R13 and R14 among the six. -/
def Mode.index : Mode → Nat
  | .usr => 0 | .fiq => 1 | .irq => 2 | .svc => 3 | .abt => 4 | .und => 5

/-- The place of a physical register in the register file. -/
def PhysReg.index : PhysReg → Nat
  | .low n => n.val
  | .highFiq n => 13 + n.val
  | .r13 m => 18 + m.index
  | .r14 m => 24 + m.index

/-- A physical register. -/
def State.gpr (s : State) (p : PhysReg) : Word := s.regs.getD p.index 0

/-- The state with a physical register written. -/
def State.setGpr (s : State) (p : PhysReg) (v : Word) : State := { s with regs := s.regs.setIfInBounds p.index v }

/-- The register selection function (10_state.md R24): which physical register a number names in a mode; none for
R15. -/
def phys (m : Mode) (n : RegNum) : Option PhysReg :=
  match n with
  | 0#4 => some (.low 0) | 1#4 => some (.low 1) | 2#4 => some (.low 2) | 3#4 => some (.low 3)
  | 4#4 => some (.low 4) | 5#4 => some (.low 5) | 6#4 => some (.low 6) | 7#4 => some (.low 7)
  | 8#4 => some (if m = .fiq then .highFiq 0 else .low 8)
  | 9#4 => some (if m = .fiq then .highFiq 1 else .low 9)
  | 10#4 => some (if m = .fiq then .highFiq 2 else .low 10)
  | 11#4 => some (if m = .fiq then .highFiq 3 else .low 11)
  | 12#4 => some (if m = .fiq then .highFiq 4 else .low 12)
  | 13#4 => some (.r13 m)
  | 14#4 => some (.r14 m)
  | _ => none

/-- A register that is banked for a mode: R13 and R14 in every privileged mode, R8 to R12 in FIQ mode
(46_block_data_transfer.md R297 (b)). -/
def isBanked (m : Mode) (n : RegNum) : Bool :=
  phys m n != phys .usr n

/-- The current mode. A step refuses an illegal M[4:0] before anything reads the mode (R35). -/
def State.mode (s : State) : Mode := (Mode.ofBits (psrMode s.cpsr)).getD .usr

/-- The flags of the CPSR. -/
def State.flags (s : State) : Flags := psrFlags s.cpsr

/-- Read register `n` of a mode's bank. R15 reads as the address of the instruction plus `ahead` (R28). Right after a
User bank LDM a register number banked in the current mode reads as a free value (70_reset_and_hazards.md R432); that
this holds for a User bank STM's read of the User register of that number too is the model's choice
(notes/assumptions/3.md). -/
def State.regIn (s : State) (bank : Mode) (n : RegNum) (ahead : Word) : Word :=
  match phys bank n with
  | none => s.pc + ahead
  | some p => if s.ldmShadow && isBanked s.mode n then Config.shadowRead s.tick n else s.gpr p

/-- Read register `n` of the current mode; R15 reads as the instruction's address plus `ahead` (R24, R28). -/
def State.reg (s : State) (n : RegNum) (ahead : Word) : Word := s.regIn s.mode n ahead

/-- Write register `n` of a mode's bank. R15 is not written here (`State.branchTo` writes it). -/
def State.setRegIn (s : State) (bank : Mode) (n : RegNum) (v : Word) : State :=
  match phys bank n with
  | none => s
  | some p => s.setGpr p v

/-- Write register `n` of the current mode, R0 to R14. -/
def State.setReg (s : State) (n : RegNum) (v : Word) : State := s.setRegIn s.mode n v

/-- The SPSR of a mode; none for User (R22). -/
def Spsrs.get? (r : Spsrs) : Mode → Option Word
  | .usr => none
  | .fiq => some r.fiq
  | .irq => some r.irq
  | .svc => some r.svc
  | .abt => some r.abt
  | .und => some r.und

/-- The SPSRs with that of a mode written; User has none. -/
def Spsrs.set (r : Spsrs) (m : Mode) (v : Word) : Spsrs :=
  match m with
  | .usr => r
  | .fiq => { r with fiq := v }
  | .irq => { r with irq := v }
  | .svc => { r with svc := v }
  | .abt => { r with abt := v }
  | .und => { r with und := v }

/-- The SPSR of the current mode (R37). -/
def State.spsr? (s : State) : Option Word := s.spsrs.get? s.mode

/-- The state with other flags in the CPSR. -/
def State.setFlags (s : State) (f : Flags) : State := { s with cpsr := psrWithFlags s.cpsr f }

/-! ## The program counter -/

/-- Go on to the next instruction (10_state.md R31): the pipeline moves up one word. -/
def State.advance (s : State) : State :=
  { s with pc := s.pc + 4#32, pipe := s.pipe.tail, ldmShadow := false, busyWait := false }

/-- Write the PC (R30, R43): bits 1 and 0 are dropped (the spec's decision D4, notes/assumptions/22.md) and the pipeline
is discarded. -/
def State.branchTo (s : State) (target : Word) : State :=
  { s with pc := target &&& 0xFFFFFFFC#32, pipe := [], ldmShadow := false, busyWait := false, seq := none }

/-- End an instruction that writes `v` to register `rd`: a branch when it is R15 (R30). -/
def State.finish (s : State) (rd : RegNum) (v : Word) : State :=
  if rd = 15#4 then s.branchTo v else (s.setReg rd v).advance

/-- An instruction under its condition (40_conditional_execution.md R160): without it, the PC advances and nothing else
happens. -/
def State.conditional (s : State) (c : Cond) (body : Result) : Result :=
  if condPasses c s.flags then body else .next s.advance

/-! ## Memory -/

/-- The byte at a key; 0 when unlisted (notes/assumptions/5.md). -/
def Memory.get : Memory → Nat → Byte
  | [], _ => 0#8
  | (k, b) :: rest, a => if k = a then b else Memory.get rest a

/-- The memory with the byte at a key written, in canonical form: 0 is not listed. -/
def Memory.set : Memory → Nat → Byte → Memory
  | [], a, v => if v = 0#8 then [] else [(a, v)]
  | (k, b) :: rest, a, v =>
    if a < k then if v = 0#8 then (k, b) :: rest else (a, v) :: (k, b) :: rest
    else if a = k then if v = 0#8 then rest else (a, v) :: rest
    else (k, b) :: Memory.set rest a v

/-- The canonical form: keys strictly rising from `low` on and below 2^32, no byte equal to 0. -/
def Memory.wfFrom : Nat → Memory → Bool
  | _, [] => true
  | low, (k, b) :: rest => decide (low ≤ k) && decide (k < 2 ^ 32) && b != 0#8 && Memory.wfFrom (k + 1) rest

/-- The memory is in canonical form. -/
def Memory.wf (m : Memory) : Bool := Memory.wfFrom 0 m

/-- The key of the byte at a byte address (20_memory.md R62): lane a[1:0], or 3 - a[1:0] in big-endian. -/
def laneKey (bigEnd : Bool) (a : Word) : Nat := (if bigEnd then a ^^^ 3#32 else a).toNat

/-- The key of lane 0 of the word at an address (R62: the word's number is A[31:2]). -/
def wordKey (a : Word) : Nat := (a &&& 0xFFFFFFFC#32).toNat

/-- The bus word at an address, whatever its bits 1 and 0 (R62, R65). -/
def Memory.word (m : Memory) (a : Word) : Word :=
  m.get (wordKey a + 3) ++ m.get (wordKey a + 2) ++ m.get (wordKey a + 1) ++ m.get (wordKey a)

/-- The memory with the bus word at an address written (R67). -/
def Memory.setWord (m : Memory) (a v : Word) : Memory :=
  (((m.set (wordKey a) (v.extractLsb' 0 8)).set (wordKey a + 1) (v.extractLsb' 8 8)).set (wordKey a + 2)
    (v.extractLsb' 16 8)).set (wordKey a + 3) (v.extractLsb' 24 8)

/-- Byte(a) (R62) in the byte order of the BIGEND pin. -/
def State.byteAt (s : State) (a : Word) : Byte := s.mem.get (laneKey s.inputs.BIGEND a)

/-- The bytes other bus masters have written (00_scope.md R18). -/
def Memory.setAll : Memory → List Host.Cell → Memory
  | m, [] => m
  | m, (k, b) :: rest => Memory.setAll (m.set (k % 2 ^ 32) b) rest

/-! ## Bus cycles -/

/-- nMREQ of a type of cycle (21_bus_interface_and_signals.md R104): LOW asks the memory system for a transfer. -/
def CycleType.nMREQ : CycleType → Bool
  | .n | .s => false
  | .i | .c => true

/-- SEQ of a type of cycle (R104). -/
def CycleType.SEQ : CycleType → Bool
  | .s | .c => true
  | .n | .i => false

/-- nENOUT of a cycle (R100): LOW while the processor or a coprocessor writes. -/
def BusCycle.nENOUT (c : BusCycle) : Bool := !c.attrs.nRW

/-- Let the environment act before a bus cycle (00_scope.md R10, R18; notes/assumptions/29.md): BIGEND and the memory
system's rules in this cycle, and the bytes other bus masters have written. -/
def State.environment (s : State) : State :=
  match s.moments with
  | [] => s
  | m :: rest =>
    { s with
      inputs := { s.inputs with BIGEND := m.BIGEND, memoryRules := m.memoryRules }
      mem := s.mem.setAll m.busWrites
      moments := rest }

/-- The address at which the next instruction fetch after a cycle is an S-cycle (21_bus_interface_and_signals.md R105): one
word on after a fetch, the same after an internal cycle; after a data or coprocessor cycle there is none
(70_reset_and_hazards.md R446; notes/assumptions/31.md). -/
def BusCycle.nextSeq (c : BusCycle) : Option Word :=
  if c.type = .i then some c.addr else if c.attrs.nOPC then none else some (c.addr + 4#32)

/-- Make one bus cycle: the environment acts, and the cycle appears on the pins. -/
def State.cycle (s : State) (c : BusCycle) : State :=
  let t := s.environment
  { t with bus := t.bus ++ [c], seq := c.nextSeq }

/-- Make some bus cycles, one after the other. -/
def State.passing (s : State) (cs : List BusCycle) : State := cs.foldl State.cycle s

/-- A level against what a rule asks. -/
def levelMatches (want : Option Bool) (level : Bool) : Bool :=
  match want with
  | none => true
  | some w => w == level

/-- A mode on nM[4:0] against what a rule asks. -/
def modeMatches (want : Option (BitVec 5)) (nM : BitVec 5) : Bool :=
  match want with
  | none => true
  | some w => w == nM

/-- A cycle that a rule of the memory system names (20_memory.md R60, R80). -/
def MemoryRule.applies (r : MemoryRule) (a : Word) (t : BusAttrs) : Bool :=
  decide (r.first ≤ a.toNat) && decide (a.toNat ≤ r.last) && levelMatches r.nRW t.nRW && levelMatches r.nBW t.nBW
    && levelMatches r.nOPC t.nOPC && levelMatches r.nTRANS t.nTRANS && levelMatches r.LOCK t.LOCK
    && modeMatches r.nM t.nM

/-- What the memory system's rules reply to a memory cycle (R60); none when the reference memory serves it. -/
def State.reply (s : State) (a : Word) (t : BusAttrs) : Option Reply :=
  (s.inputs.memoryRules.find? (fun r => r.applies a t)).map MemoryRule.reply

/-- The ABORT answer of the memory system to a memory cycle (R60, R82). -/
def State.aborts (s : State) (a : Word) (t : BusAttrs) : Bool := s.reply a t == some .abort

/-- The word a read cycle gets on DATA[31:0] (BusRead of R60): a device's word, or that of the memory. -/
def State.busWord (s : State) (a : Word) (t : BusAttrs) : Word :=
  match s.reply a t with
  | some (.device word) => word
  | some .abort | some .readOnly | none => s.mem.word a

/-- nTRANS of a cycle in the current mode (R81): LOW in User mode. -/
def State.nTRANS (s : State) : Bool := s.mode != .usr

/-- nM[4:0]: the mode bits, inverted (R35, R81). -/
def State.nM (s : State) : BitVec 5 := ~~~(psrMode s.cpsr)

/-- The attributes of an instruction fetch (R63). -/
def State.fetchAttrs (s : State) : BusAttrs :=
  { nRW := false, nBW := true, nOPC := false, nTRANS := s.nTRANS, nM := s.nM, LOCK := false }

/-- The attributes of a data cycle of the current mode (R60, R81). -/
def State.dataAttrs (s : State) (write byte : Bool) : BusAttrs :=
  { nRW := write, nBW := !byte, nOPC := true, nTRANS := s.nTRANS, nM := s.nM, LOCK := false }

/-- The attributes of the data cycle of a T form: nTRANS is LOW in every mode (45_single_data_transfer.md R268). -/
def State.userDataAttrs (s : State) (write byte : Bool) : BusAttrs :=
  { s.dataAttrs write byte with nTRANS := false }

/-- The attributes of the data cycle of a single data transfer; `user` says that it is a T form. -/
def State.transferAttrs (s : State) (user write byte : Bool) : BusAttrs :=
  if user then s.userDataAttrs write byte else s.dataAttrs write byte

/-- The attributes of the two data cycles of a swap (47_swap.md R322). -/
def State.lockedAttrs (s : State) (write byte : Bool) : BusAttrs :=
  { s.dataAttrs write byte with LOCK := true }

/-- The instruction fetch cycle at an address (R63): an S-cycle when it goes on from the cycle before (R105). -/
def State.fetchCycle (s : State) (nCPI : Bool) (a : Word) : BusCycle :=
  { type := if s.seq = some a then .s else .n, addr := a, attrs := s.fetchAttrs, nCPI, data := none }

/-- A data read cycle. -/
def readCycle (type : CycleType) (a : Word) (t : BusAttrs) : BusCycle :=
  { type, addr := a, attrs := t, nCPI := true, data := none }

/-- A data write cycle, with the word on the data bus. -/
def writeCycle (type : CycleType) (a : Word) (t : BusAttrs) (data : Word) : BusCycle :=
  { type, addr := a, attrs := t, nCPI := true, data := some data }

/-- An internal cycle (R104), with the address the tables show (21_bus_interface_and_signals.md R106). The other pins
are shown as in a data read: the model's choice (notes/assumptions/31.md). -/
def State.internalCycle (s : State) (nCPI : Bool) (a : Word) : BusCycle :=
  { type := .i, addr := a, attrs := s.dataAttrs false false, nCPI, data := none }

/-- The address an instruction fetches next, 12 bytes on from its own, which its internal cycles show (R105, R106). -/
def State.ahead (s : State) : Word := s.pc + 12#32

/-- An internal cycle of an instruction that goes on. -/
def State.internal (s : State) : State := s.cycle (s.internalCycle true s.ahead)

/-- A coprocessor register transfer cycle (49_coprocessor.md R361); nRW is HIGH when the processor drives the word. Its
address is that of the cycle which follows (R105; notes/assumptions/31.md). -/
def State.transferCycle (s : State) (nRW : Bool) (word : Word) : BusCycle :=
  { type := .c, addr := s.ahead, attrs := s.dataAttrs nRW false, nCPI := true, data := some word }

/-- An instruction fetch whose word is discarded: the first cycle of an exception entry (48_swi_and_undefined.md R337,
60_exceptions.md R383). -/
def State.discardedFetch (s : State) (a : Word) : State := s.cycle (s.fetchCycle true a)

/-! ## Data on the bus -/

/-- The byte of a bus word at a byte address (20_memory.md R62, R66). -/
def laneByte (bigEnd : Bool) (a w : Word) : Byte :=
  w.extractLsb' (8 * (if bigEnd then 3 - (a.extractLsb' 0 2).toNat else (a.extractLsb' 0 2).toNat)) 8

/-- The value the processor takes from a data read: the word rotated by 8 times A[1:0] (R64), or with nBW LOW the byte
of its lane with zeros above it (R66). -/
def State.readData (s : State) (a : Word) (t : BusAttrs) : Word :=
  if t.nBW then (s.busWord a t).rotateRight (8 * (a.extractLsb' 0 2).toNat)
  else (laneByte s.inputs.BIGEND a (s.busWord a t)).zeroExtend 32

/-- The reference memory after a data write: the aligned word (R67; notes/assumptions/10.md), or one byte (R68). -/
def State.writeData (s : State) (byte : Bool) (a v : Word) : State :=
  if byte then { s with mem := s.mem.set (laneKey s.inputs.BIGEND a) (v.extractLsb' 0 8) }
  else { s with mem := s.mem.setWord a v }

/-- BusWrite (R60): the memory after a write cycle, which only the reference memory takes; an aborted write changes
nothing (R67; notes/assumptions/10.md). -/
def State.busWrite (s : State) (a : Word) (t : BusAttrs) (v : Word) : State :=
  match s.reply a t with
  | none => s.writeData (!t.nBW) a v
  | some _ => s

/-- What a data write puts on DOUT[31:0]: the word (R67), or the byte in all four lanes (R68). -/
def dataOut (t : BusAttrs) (v : Word) : Word :=
  if t.nBW then v else v.extractLsb' 0 8 ++ v.extractLsb' 0 8 ++ v.extractLsb' 0 8 ++ v.extractLsb' 0 8

/-- Make a data write cycle. -/
def State.store (s : State) (type : CycleType) (a : Word) (t : BusAttrs) (v : Word) : State :=
  (s.cycle (writeCycle type a t (dataOut t v))).busWrite a t v

/-! ## Exceptions -/

/-- The vector of an exception (60_exceptions.md R371). -/
def Exc.vector : Exc → Word
  | .undefined => 0x04
  | .swi => 0x08
  | .prefetchAbort => 0x0C
  | .dataAbort => 0x10
  | .irq => 0x18
  | .fiq => 0x1C

/-- The mode an exception enters (R372). -/
def Exc.mode : Exc → Mode
  | .undefined => .und
  | .swi => .svc
  | .prefetchAbort => .abt
  | .dataAbort => .abt
  | .irq => .irq
  | .fiq => .fiq

/-- The CPSR after an exception entry (R380, R381): M and I, and F for FIQ only; the flags stay. -/
def Exc.newCpsr (e : Exc) (old : Word) : Word :=
  let p := psrSetI (psrWithMode old e.mode)
  if e = .fiq then psrSetF p else p

/-- Taking an exception (R380): R14 of its mode gets the return address, its SPSR the old CPSR, and the PC goes to its
vector with the pipeline discarded. Nothing else changes. -/
def State.enter (s : State) (e : Exc) (ret : Word) : State :=
  { s with
    cpsr := e.newCpsr s.cpsr
    regs := s.regs.setIfInBounds (PhysReg.r14 e.mode).index ret
    spsrs := s.spsrs.set e.mode s.cpsr
    pc := e.vector
    pipe := []
    ldmShadow := false
    busyWait := false
    seq := none }

/-- The data abort of the instruction at the PC, after its cycles (R386): the entry's discarded fetch of the word 8 bytes on
in the old mode (R383, 21_bus_interface_and_signals.md R106, 48_swi_and_undefined.md R337), then the entry. That this fetch
comes after the instruction's own cycles is deduced (notes/assumptions/31.md). -/
def State.dataAbort (s : State) : State := (s.discardedFetch (s.pc + 8#32)).enter .dataAbort (s.pc + 8#32)

/-- Copy the SPSR of the current mode to the CPSR (R38), and go on with `after`. In User mode there is no SPSR (U5, U18);
an SPSR with an illegal mode is U2. -/
def State.restoreCpsr (s : State) (inUser : Result) (after : State → State) : Result :=
  match s.spsr? with
  | none => inUser
  | some p =>
    match Mode.ofBits (psrMode p) with
    | none => .refused .illegalMode
    | some _ => .next (after { s with cpsr := psrKeep p })

/-- The return from an exception (R395): CPSR from the SPSR and the PC at once (42_data_processing.md R194,
46_block_data_transfer.md R296). -/
def State.returnTo (s : State) (target : Word) (inUser : Refusal) : Result :=
  s.restoreCpsr (.refused inUser) (fun t => t.branchTo target)

/-- The reset sequence (70_reset_and_hazards.md R422): R14_svc and SPSR_svc get values the spec leaves open. -/
def State.resetEntry (s : State) : State :=
  { s with
    cpsr := psrSetF (psrSetI (psrWithMode s.cpsr .svc))
    regs := s.regs.setIfInBounds (PhysReg.r14 .svc).index (Config.resetLink s.tick)
    spsrs := { s.spsrs with svc := psrKeep (Config.resetSpsr s.tick) }
    pc := 0x00000000
    pipe := []
    ldmShadow := false
    busyWait := false
    seq := none }

/-! ## Coprocessors -/

/-- A word, offered in a mode, that a rule declines (49_coprocessor.md R343, R348). -/
def CpRule.applies (r : CpRule) (w : Word) (nTRANS : Bool) (nM : BitVec 5) : Bool :=
  w &&& r.mask == r.value && levelMatches r.nTRANS nTRANS && modeMatches r.nM nM

/-- A coprocessor declines a word by its rules. -/
def Coproc.declinesWord (cp : Coproc) (w : Word) (nTRANS : Bool) (nM : BitVec 5) : Bool :=
  cp.declines.any (fun r => r.applies w nTRANS nM)

/-- A coprocessor's answer to a word offered in a mode (R347): `decline` by its rules, else its next answer; with none
left it is absent. -/
def Coproc.answerTo (cp : Coproc) (w : Word) (nTRANS : Bool) (nM : BitVec 5) : CpAnswer :=
  if cp.declinesWord w nTRANS nM then .decline else cp.answers.headD .decline

/-- A coprocessor after it has answered. -/
def Coproc.answered (cp : Coproc) (w : Word) (nTRANS : Bool) (nM : BitVec 5) : Coproc :=
  if cp.declinesWord w nTRANS nM then cp else { cp with answers := cp.answers.tail }

/-- A coprocessor after it has seen `events`. -/
def Coproc.tell (events : List CpEvent) (cp : Coproc) : Coproc := { cp with seen := cp.seen ++ events }

/-- The coprocessor of a number; no two have the same (R342). -/
def State.coprocessor? (s : State) (num : BitVec 4) : Option Coproc := s.coprocs.find? (fun cp => cp.number == num)

/-- The answer of coprocessor `num` to the word `w` offered now (R343): absent when no coprocessor has that number. -/
def State.cpAnswer (s : State) (num : BitVec 4) (w : Word) : CpAnswer :=
  match s.coprocessor? num with
  | none => .decline
  | some cp => cp.answerTo w s.nTRANS s.nM

/-- The coprocessors with that of a number changed. -/
def cpUpdate (f : Coproc → Coproc) : List Coproc → BitVec 4 → List Coproc
  | [], _ => []
  | cp :: rest, num => if cp.number = num then f cp :: rest else cp :: cpUpdate f rest num

/-- The state after coprocessor `num` has given its answer to `w`. -/
def State.cpAnswered (s : State) (num : BitVec 4) (w : Word) : State :=
  { s with coprocs := cpUpdate (fun cp => cp.answered w s.nTRANS s.nM) s.coprocs num }

/-- The state after coprocessor `num` has been told `events`. -/
def State.cpTell (s : State) (num : BitVec 4) (events : List CpEvent) : State :=
  { s with coprocs := cpUpdate (Coproc.tell events) s.coprocs num }

/-- The state after every coprocessor has seen `events`. -/
def State.cpTellAll (s : State) (events : List CpEvent) : State :=
  { s with coprocs := s.coprocs.map (Coproc.tell events) }

/-- What every coprocessor sees when the processor starts to execute `w` (R341, R342, 48_swi_and_undefined.md R335): nCPI
goes LOW. In a busy-wait it is LOW already. -/
def State.offerEvents (s : State) (w : Word) : List CpEvent := if s.busyWait then [] else [.offered w s.nTRANS s.nM]

/-- The state after `w` has been offered to the coprocessors. -/
def State.present (s : State) (w : Word) : State := s.cpTellAll (s.offerEvents w)

/-- One cycle of the busy-wait (R344): an internal cycle with nCPI LOW; the instruction waits where it is, and the boundary
may break it off for an interrupt. -/
def State.waitCycle (s : State) : State :=
  { s.cycle (s.internalCycle false (s.pc + 8#32)) with busyWait := true }

/-- A coprocessor instruction offered to coprocessor `num` (R342 to R345). Declined: the undefined instruction trap with
nothing changed (R343). Accepted: `accepted` with the words the coprocessor supplies. The spec gives no coprocessor that
declines, or has no answer left, after it has been busy; that the trap is then taken out of the busy-wait, with no other
fetch of the word 8 bytes on, is the model's choice (notes/assumptions/28.md). -/
def State.offer (s : State) (num : BitVec 4) (w : Word) (accepted : State → Word → List Word → Result) : Result :=
  let t := s.present w
  match s.cpAnswer num w with
  | .decline => .next ((t.cpAnswered num w).enter .undefined (s.pc + 4#32))
  | .busy => .next (t.cpAnswered num w).waitCycle
  | .hang => .next t.waitCycle
  | .accept word more => accepted (t.cpAnswered num w) word more

/-! ## Fetching -/

/-- Fetch the next word of the pipeline in the current mode (10_state.md R41, R63): its abort is only marked
(60_exceptions.md R385). That A[1:0] of the fetch, which the spec leaves open (93_implementation_defined.md U32), are the
PC's, 00, on the pins and against the memory rules is the model's choice (notes/assumptions/41.md). -/
def State.fetchOne (s : State) (nCPI : Bool) : State :=
  let a := s.pc + BitVec.ofNat 32 (4 * s.pipe.length)
  let t := s.cycle (s.fetchCycle nCPI a)
  { t with pipe := s.pipe ++ [{ word := t.busWord a s.fetchAttrs, aborted := t.aborts a s.fetchAttrs }] }

/-- Fetch `k` more words. -/
def State.fetchMany : Nat → State → State
  | 0, s => s
  | k + 1, s => State.fetchMany k (s.fetchOne true)

/-- Fill the pipeline to `want` words (R41, R42). -/
def State.fillTo (s : State) (want : Nat) : State := State.fetchMany (want - s.pipe.length) s

end Sys2Proof.Machine
end

