-- ==== Sys2Proof/Machine/Operands.lean ====
section
/-! DEFINITION. Every operand form: the barrel shifter (42_data_processing.md R182 to R191), the offsets and addresses
of the single data transfers (45_single_data_transfer.md R261, R271), of the block data transfers
(46_block_data_transfer.md R290, R293) and of the coprocessor data transfers (49_coprocessor.md R355). -/

namespace Sys2Proof.Machine

/-! ## The barrel shifter: an operand and the shifter's carry output -/

/-- LSL by 1 to 31 (R183). -/
def shiftLeft (rm : Word) (n : Nat) : Word × Bool := (rm <<< n, rm.getLsbD (32 - n))

/-- LSR by 1 to 31 (R184). -/
def shiftRight (rm : Word) (n : Nat) : Word × Bool := (rm >>> n, rm.getLsbD (n - 1))

/-- ASR by 1 to 31 (R185). -/
def shiftArith (rm : Word) (n : Nat) : Word × Bool := (rm.sshiftRight n, rm.getLsbD (n - 1))

/-- ROR by 1 to 31 (R186). -/
def rotate (rm : Word) (n : Nat) : Word × Bool := (rm.rotateRight n, rm.getLsbD (n - 1))

/-- ASR by 32 or more (R185, R189): every bit is the sign. -/
def signFill (rm : Word) : Word × Bool := (if rm.msb then 0xFFFFFFFF#32 else 0#32, rm.msb)

/-- RRX (R187). -/
def rotateExtend (rm : Word) (carry : Bool) : Word × Bool :=
  (BitVec.ofBool carry ++ rm.extractLsb' 1 31, rm.getLsbD 0)

/-- A shift by the amount in the instruction (R183 to R187): amount 0 means LSL #0, LSR #32, ASR #32 or RRX. -/
def shiftByImm (ty : ShiftType) (amount : BitVec 5) (rm : Word) (carry : Bool) : Word × Bool :=
  let n := amount.toNat
  match ty with
  | .lsl => if n = 0 then (rm, carry) else shiftLeft rm n
  | .lsr => if n = 0 then (0#32, rm.msb) else shiftRight rm n
  | .asr => if n = 0 then signFill rm else shiftArith rm n
  | .ror => if n = 0 then rotateExtend rm carry else rotate rm n

/-- A shift by the bottom byte of a register (R188, R189): 0 leaves the operand and the carry. -/
def shiftByReg (ty : ShiftType) (amount : Byte) (rm : Word) (carry : Bool) : Word × Bool :=
  let n := amount.toNat
  if n = 0 then (rm, carry)
  else
    match ty with
    | .lsl =>
      if n < 32 then shiftLeft rm n else if n = 32 then (0#32, rm.getLsbD 0) else (0#32, false)
    | .lsr =>
      if n < 32 then shiftRight rm n else if n = 32 then (0#32, rm.msb) else (0#32, false)
    | .asr => if n < 32 then shiftArith rm n else signFill rm
    | .ror => if n % 32 = 0 then (rm, rm.msb) else rotate rm (n % 32)

/-- The rotated immediate (R127). -/
def rotatedImm (rot : BitVec 4) (imm8 : BitVec 8) : Word := (imm8.zeroExtend 32).rotateRight (2 * rot.toNat)

/-- The shifter's carry for an immediate (R191; notes/assumptions/11.md). -/
def immCarry (rot : BitVec 4) (imm8 : BitVec 8) (carry : Bool) : Bool :=
  if rot = 0#4 then carry else (rotatedImm rot imm8).msb

/-- How far R15 runs ahead in a data processing instruction (R181, 10_state.md R28): 12 with the shift amount in a
register, else 8. -/
def pcAhead : Operand2 → Word
  | .imm .. | .shiftImm .. => 8#32
  | .shiftReg .. => 12#32

/-- R15 gives the shift amount (R188). -/
def amountIsPc : Operand2 → Bool
  | .shiftReg _ _ rs => rs == 15#4
  | .imm .. | .shiftImm .. => false

/-- The value of operand 2 and the shifter's carry (R182). -/
def State.operand2 (s : State) (op2 : Operand2) : Word × Bool :=
  match op2 with
  | .imm rot imm8 => (rotatedImm rot imm8, immCarry rot imm8 s.flags.c)
  | .shiftImm rm ty amount => shiftByImm ty amount (s.reg rm 8#32) s.flags.c
  | .shiftReg rm ty rs => shiftByReg ty ((s.reg rs 12#32).extractLsb' 0 8) (s.reg rm 12#32) s.flags.c

/-! ## Single data transfer -/

/-- The value of an offset (R261); the shifter's carry is not used. -/
def State.offsetValue (s : State) (off : Offset) : Word :=
  match off with
  | .imm offset => offset.zeroExtend 32
  | .reg rm ty amount => (shiftByImm ty amount (s.reg rm 8#32) s.flags.c).1

/-- R15 is the offset register (R272). -/
def offsetUsesPc : Offset → Bool
  | .imm _ => false
  | .reg rm _ _ => rm == 15#4

/-- Base plus or minus offset, modulo 2^32 (R261, 20_memory.md R83). -/
def indexed (u : Bool) (base offset : Word) : Word := if u then base + offset else base - offset

/-- The transfer address: indexed first, or the base (R261). -/
def transferAddress (p : Bool) (base modified : Word) : Word := if p then modified else base

/-- The base is written back (R271): post-indexed always, pre-indexed with W = 1. -/
def writesBack (p w : Bool) : Bool := !p || w

/-- The base of a single or coprocessor data transfer: R15 reads as the instruction's address plus 8 (R272, R355). -/
def State.baseOf (s : State) (rn : RegNum) : Word := s.reg rn 8#32

/-- The base with the offset applied (R261). -/
def State.modifiedBase (s : State) (u : Bool) (rn : RegNum) (off : Offset) : Word :=
  indexed u (s.baseOf rn) (s.offsetValue off)

/-- The address of a single data transfer (R261). -/
def State.singleAddress (s : State) (p u : Bool) (rn : RegNum) (off : Offset) : Word :=
  transferAddress p (s.baseOf rn) (s.modifiedBase u rn off)

/-! ## Block data transfer -/

/-- The register numbers of a list, lowest first, from `n` up (R290). -/
def listFrom (list : BitVec 16) : Nat → Nat → List RegNum
  | _, 0 => []
  | n, k + 1 =>
    if list.getLsbD n then BitVec.ofNat 4 n :: listFrom list (n + 1) k else listFrom list (n + 1) k

/-- The registers of a list, lowest first (R290). -/
def listRegs (list : BitVec 16) : List RegNum := listFrom list 0 16

/-- A register is in a list (R290). -/
def inList (list : BitVec 16) (n : RegNum) : Bool := list.getLsbD n.toNat

/-- Four times the number of registers of a list. -/
def listBytes (list : BitVec 16) : Word := BitVec.ofNat 32 (4 * (listRegs list).length)

/-- The lowest transfer address (R293). -/
def blockStart (p u : Bool) (base bytes : Word) : Word :=
  match p, u with
  | false, true => base
  | true, true => base + 4#32
  | false, false => base - bytes + 4#32
  | true, false => base - bytes

/-- The written-back base (R293). -/
def blockFinal (u : Bool) (base bytes : Word) : Word := if u then base + bytes else base - bytes

/-! ## Coprocessor data transfer -/

/-- The base plus or minus the word offset (R355). -/
def State.cpModified (s : State) (u : Bool) (rn : RegNum) (offset : BitVec 8) : Word :=
  indexed u (s.baseOf rn) (offset.zeroExtend 32 <<< 2)

/-- The address of the first word of a coprocessor data transfer (R355). -/
def State.cpAddress (s : State) (p u : Bool) (rn : RegNum) (offset : BitVec 8) : Word :=
  transferAddress p (s.baseOf rn) (s.cpModified u rn offset)

/-! ## Runs of words: the cycles of block and coprocessor data transfers -/

/-- The read cycles of a run of `k` words from `a` on (R293, R355): the first of the type given, then S-cycles at
addresses up by 4, modulo 2^32 (20_memory.md R83). -/
def readCycles (t : BusAttrs) : CycleType → Nat → Word → List BusCycle
  | _, 0, _ => []
  | type, k + 1, a => readCycle type a t :: readCycles t .s k (a + 4#32)

/-- Make the read cycles of a run: what each read, none for an aborted one, and the state after them. Every cycle is made,
also after an aborted one (46_block_data_transfer.md R305, 49_coprocessor.md R358). -/
def State.readRun (t : BusAttrs) : CycleType → Nat → Word → State → List (Option Word) × State
  | _, 0, _, s => ([], s)
  | type, k + 1, a, s =>
    let u := s.cycle (readCycle type a t)
    let r := State.readRun t .s k (a + 4#32) u
    ((if u.aborts a t then none else some (u.busWord a t)) :: r.1, r.2)

/-- The write cycles of a run of words. -/
def writeCycles (t : BusAttrs) : CycleType → Word → List Word → List BusCycle
  | _, _, [] => []
  | type, a, v :: vs => writeCycle type a t v :: writeCycles t .s (a + 4#32) vs

/-- Make the write cycles of a run (46_block_data_transfer.md R292, R304, 49_coprocessor.md R352): whether each was aborted,
and the state after them. -/
def State.writeRun (t : BusAttrs) : CycleType → Word → List Word → State → List Bool × State
  | _, _, [], s => ([], s)
  | type, a, v :: vs, s =>
    let u := s.store type a t v
    let r := State.writeRun t .s (a + 4#32) vs u
    (u.aborts a t :: r.1, r.2)

end Sys2Proof.Machine
end

