-- ==== Sys2Proof/Machine/BlockTransfer.lean ====
section
/-! DEFINITION. LDM and STM (46_block_data_transfer.md). -/

namespace Sys2Proof.Machine

/-- What a block data transfer may not name: R15 as the base (R301), an empty list (R302), the S bit in User mode
(R297 (c)), write-back with a User bank transfer (R297 (a)). -/
def State.blockRefusal (s : State) (userBank sBit w : Bool) (rn : RegNum) (list : BitVec 16) : Option Refusal :=
  if rn = 15#4 then some .pcAsBlockBase
  else if list = 0#16 then some .emptyRegisterList
  else if sBit ∧ s.mode = .usr then some .blockSInUserMode
  else if userBank ∧ w then some .userBankWriteBack
  else none

/-- The bank a block data transfer moves: User's, or the current mode's (R297). -/
def State.blockBank (s : State) (userBank : Bool) : Mode := if userBank then .usr else s.mode

/-- The first transfer address of a block data transfer (R293). -/
def State.blockFirst (s : State) (p u : Bool) (rn : RegNum) (list : BitVec 16) : Word :=
  blockStart p u (s.baseOf rn) (listBytes list)

/-- The base as it is written back (R293, R300). -/
def State.blockBase (s : State) (u : Bool) (rn : RegNum) (list : BitVec 16) : Word :=
  blockFinal u (s.baseOf rn) (listBytes list)

/-- The registers of an LDM loaded in turn into a bank, up to the first aborted cycle (R291, R305 (i)); R15 is loaded
by the caller. -/
def State.loadRegs (bank : Mode) : List RegNum → List (Option Word) → State → State
  | r :: rs, some v :: vs, s => State.loadRegs bank rs vs (s.setRegIn bank r v)
  | _, _, s => s

/-- The last word of a run, which is R15's (R296). -/
def lastWord (words : List (Option Word)) : Word := (words.getLastD none).getD 0#32

/-- LDM (R291): every read cycle is made, and an internal one (R306). That a User bank LDM which ends in a data abort
leaves no hazard on the instruction at the vector is the model's choice (notes/assumptions/3.md). -/
def execLdm (c : Cond) (p u sBit w : Bool) (rn : RegNum) (list : BitVec 16) (s : State) : Result :=
  let hasPc := inList list 15#4
  let userBank := sBit && !hasPc
  s.conditional c (
    match s.blockRefusal userBank sBit w rn list with
    | some r => .refused r
    | none =>
      let final := s.blockBase u rn list
      let run := State.readRun (s.dataAttrs false false) .n (listRegs list).length (s.blockFirst p u rn list) s
      let t := State.loadRegs (s.blockBank userBank) (listRegs list) run.1 run.2.internal
      if run.1.any Option.isNone then
        .next ((t.setReg rn (if w then final else s.baseOf rn)).dataAbort)
      else
        let t := if w && !inList list rn then t.setReg rn final else t
        if hasPc then
          if sBit then t.returnTo (lastWord run.1) .blockSInUserMode else .next (t.branchTo (lastWord run.1))
        else if userBank then .next { t.advance with ldmShadow := true }
        else .next t.advance)

/-- The words an STM stores (R292, R298, R300): `first` says that the register is the lowest of the list. -/
def State.blockValues (s : State) (userBank w : Bool) (rn : RegNum) (base final : Word) :
    Bool → List RegNum → List Word
  | _, [] => []
  | first, r :: rs =>
    (if r = rn ∧ userBank = false then (if first ∨ w = false then base else final)
      else s.regIn (s.blockBank userBank) r 12#32)
      :: s.blockValues userBank w rn base final false rs

/-- STM (R292): every write cycle is made, the base is written back, then a data abort if any cycle was aborted
(R304). -/
def execStm (c : Cond) (p u sBit w : Bool) (rn : RegNum) (list : BitVec 16) (s : State) : Result :=
  s.conditional c (
    match s.blockRefusal sBit sBit w rn list with
    | some r => .refused r
    | none =>
      let final := s.blockBase u rn list
      let run := State.writeRun (s.dataAttrs true false) .n (s.blockFirst p u rn list)
        (s.blockValues sBit w rn (s.baseOf rn) final true (listRegs list)) s
      let t := if w then run.2.setReg rn final else run.2
      if run.1.any id then .next t.dataAbort else .next t.advance)

end Sys2Proof.Machine
end

