-- ==== Sys2Proof/Machine/Branch.lean ====
section
/-! DEFINITION. B and BL (41_branch.md). -/

namespace Sys2Proof.Machine

/-- The target of a branch (R170): the instruction's address plus 8 plus the offset in words, modulo 2^32. -/
def branchTarget (pc : Word) (offset : BitVec 24) : Word := pc + 8#32 + ((offset ++ 0#2).signExtend 32)

/-- B (R171). -/
def execB (c : Cond) (offset : BitVec 24) (s : State) : Result :=
  s.conditional c (.next (s.branchTo (branchTarget s.pc offset)))

/-- BL (R172): R14 of the current mode gets the address of the next instruction. -/
def execBl (c : Cond) (offset : BitVec 24) (s : State) : Result :=
  s.conditional c (.next ((s.setReg 14#4 (s.pc + 4#32)).branchTo (branchTarget s.pc offset)))

end Sys2Proof.Machine
end

