-- ==== Sys2Proof/Decode.lean ====
section
/-! DEFINITION. The decoder and the encoder, from the formats and the decode order of 30_encoding.md (R122, R123).
Every bit position is PRESUMED by the spec itself (R121): notes/assumptions/1.md. -/

namespace Sys2Proof

/-! ## The field codes -/

/-- The condition of a condition field (40_conditional_execution.md R161). -/
def Cond.ofBits (b : BitVec 4) : Cond :=
  match b with
  | 0x0#4 => .eq | 0x1#4 => .ne | 0x2#4 => .cs | 0x3#4 => .cc
  | 0x4#4 => .mi | 0x5#4 => .pl | 0x6#4 => .vs | 0x7#4 => .vc
  | 0x8#4 => .hi | 0x9#4 => .ls | 0xA#4 => .ge | 0xB#4 => .lt
  | 0xC#4 => .gt | 0xD#4 => .le | 0xE#4 => .al | _ => .nv

/-- The condition field of a condition (R161). -/
def Cond.bits : Cond → BitVec 4
  | .eq => 0x0 | .ne => 0x1 | .cs => 0x2 | .cc => 0x3
  | .mi => 0x4 | .pl => 0x5 | .vs => 0x6 | .vc => 0x7
  | .hi => 0x8 | .ls => 0x9 | .ge => 0xA | .lt => 0xB
  | .gt => 0xC | .le => 0xD | .al => 0xE | .nv => 0xF

/-- The shift type of a type field (R126). -/
def ShiftType.ofBits (b : BitVec 2) : ShiftType :=
  match b with
  | 0#2 => .lsl | 1#2 => .lsr | 2#2 => .asr | _ => .ror

/-- The type field of a shift type (R126). -/
def ShiftType.bits : ShiftType → BitVec 2
  | .lsl => 0 | .lsr => 1 | .asr => 2 | .ror => 3

/-! ## The patterns of R123 that overlap others, over bits 27 to 0 (decoding does not look at the condition) -/

/-- Bits 27 to 25 are 000 and bits 7 and 4 are 1: the space of priorities 9 to 11 of R123, with multiply, swap and
the not-defined words of R142 (a). -/
def isMultiplySpace (body : BitVec 28) : Bool :=
  body.extractLsb' 25 3 == 0#3 && body.getLsbD 7 && body.getLsbD 4

/-- Priority 9 of R123: bits 27 to 22 are 0 and bits 7 to 4 are 1001. -/
def isMultiply (body : BitVec 28) : Bool :=
  isMultiplySpace body && body.extractLsb' 22 3 == 0#3 && body.extractLsb' 5 2 == 0#2

/-- Priority 10 of R123: bits 27 to 23 are 00010, bits 21 and 20 are 0, bits 11 to 4 are 00001001. -/
def isSwap (body : BitVec 28) : Bool :=
  isMultiplySpace body && body.extractLsb' 23 2 == 2#2 && body.extractLsb' 20 2 == 0#2
    && body.extractLsb' 8 4 == 0#4 && body.extractLsb' 5 2 == 0#2

/-- Bits 27 and 26 are 00, bits 24 and 23 are 10, bit 20 is 0: a test or compare opcode with S = 0, the space of
priorities 12 to 16 of R123 outside the multiply space. -/
def isPsrSpace (body : BitVec 28) : Bool :=
  body.extractLsb' 26 2 == 0#2 && body.extractLsb' 23 2 == 2#2 && !body.getLsbD 20

/-- Priority 12 of R123: bit 25 is 0, bits 21 to 16 are 001111, bits 11 to 0 are 0. -/
def isMrs (body : BitVec 28) : Bool :=
  isPsrSpace body && !body.getLsbD 25 && body.extractLsb' 16 6 == 0xF#6 && body.extractLsb' 0 12 == 0#12

/-- Priority 13 of R123: bit 25 is 0, bits 21 to 12 are 1010011111, bits 11 to 4 are 0. -/
def isMsrRegAll (body : BitVec 28) : Bool :=
  isPsrSpace body && !body.getLsbD 25 && body.extractLsb' 12 10 == 0b1010011111#10
    && body.extractLsb' 4 8 == 0#8

/-- Priority 14 of R123: bit 25 is 0, bits 21 to 12 are 1010001111, bits 11 to 4 are 0. -/
def isMsrRegFlg (body : BitVec 28) : Bool :=
  isPsrSpace body && !body.getLsbD 25 && body.extractLsb' 12 10 == 0b1010001111#10
    && body.extractLsb' 4 8 == 0#8

/-- Priority 15 of R123: bit 25 is 1, bits 21 to 12 are 1010001111. -/
def isMsrImmFlg (body : BitVec 28) : Bool :=
  isPsrSpace body && body.getLsbD 25 && body.extractLsb' 12 10 == 0b1010001111#10

/-- Priority 11 of R123, the words of R142 (a): the multiply space without multiply and swap. -/
def isNotDefinedA (body : BitVec 28) : Bool :=
  isMultiplySpace body && !isMultiply body && !isSwap body

/-- Priority 16 of R123, the words of R142 (b): a test or compare opcode with S = 0 that is none of the four PSR
transfer patterns and not in the multiply space. -/
def isNotDefinedB (body : BitVec 28) : Bool :=
  isPsrSpace body && !isMultiplySpace body && !isMrs body && !isMsrRegAll body && !isMsrRegFlg body
    && !isMsrImmFlg body

/-! ## Decoding -/

/-- Operand 2 from bits 25 and 11 to 0 (R126, R127, R182). -/
def Operand2.ofBody (w : BitVec 28) : Operand2 :=
  if w.getLsbD 25 then .imm (w.extractLsb' 8 4) (w.extractLsb' 0 8)
  else if w.getLsbD 4 then
    .shiftReg (w.extractLsb' 0 4) (ShiftType.ofBits (w.extractLsb' 5 2)) (w.extractLsb' 8 4)
  else .shiftImm (w.extractLsb' 0 4) (ShiftType.ofBits (w.extractLsb' 5 2)) (w.extractLsb' 7 5)

/-- The offset of a single data transfer from bits 25 and 11 to 0 (R131): the I bit has the other sense here. -/
def Offset.ofBody (w : BitVec 28) : Offset :=
  if w.getLsbD 25 then .reg (w.extractLsb' 0 4) (ShiftType.ofBits (w.extractLsb' 5 2)) (w.extractLsb' 7 5)
  else .imm (w.extractLsb' 0 12)

/-- The sixteen data processing operations by bits 24 to 21 (R125, priority 17 of R123). -/
def decodeDataProcessing (c : Cond) (w : BitVec 28) : Instr :=
  let s := w.getLsbD 20
  let rn := w.extractLsb' 16 4
  let rd := w.extractLsb' 12 4
  let op2 := Operand2.ofBody w
  match w.extractLsb' 21 4 with
  | 0x0#4 => .and c s rn rd op2
  | 0x1#4 => .eor c s rn rd op2
  | 0x2#4 => .sub c s rn rd op2
  | 0x3#4 => .rsb c s rn rd op2
  | 0x4#4 => .add c s rn rd op2
  | 0x5#4 => .adc c s rn rd op2
  | 0x6#4 => .sbc c s rn rd op2
  | 0x7#4 => .rsc c s rn rd op2
  | 0x8#4 => .tst c rn rd op2
  | 0x9#4 => .teq c rn rd op2
  | 0xA#4 => .cmp c rn rd op2
  | 0xB#4 => .cmn c rn rd op2
  | 0xC#4 => .orr c s rn rd op2
  | 0xD#4 => .mov c s rn rd op2
  | 0xE#4 => .bic c s rn rd op2
  | _ => .mvn c s rn rd op2

/-- The eight single data transfers by L, B and (P, W) (R131, R260, priority 8 of R123). -/
def decodeSingleTransfer (c : Cond) (w : BitVec 28) : Instr :=
  let p := w.getLsbD 24
  let u := w.getLsbD 23
  let wb := w.getLsbD 21
  let rn := w.extractLsb' 16 4
  let rd := w.extractLsb' 12 4
  let off := Offset.ofBody w
  match w.getLsbD 20, w.getLsbD 22, !p && wb with
  | true, false, true => .ldrt c u rn rd off
  | true, true, true => .ldrbt c u rn rd off
  | false, false, true => .strt c u rn rd off
  | false, true, true => .strbt c u rn rd off
  | true, false, false => .ldr c p u wb rn rd off
  | true, true, false => .ldrb c p u wb rn rd off
  | false, false, false => .str c p u wb rn rd off
  | false, true, false => .strb c p u wb rn rd off

/-- Bits 27 to 0 decoded by the table of R123, row by row; `c` is the condition, which decoding does not look at
(R123, R160). Every word matches one row. -/
def decodeBody (c : Cond) (w : BitVec 28) : Instr :=
  -- priority 1
  if w.extractLsb' 25 3 == 0b101#3 then
    if w.getLsbD 24 then .bl c (w.extractLsb' 0 24) else .b c (w.extractLsb' 0 24)
  -- priority 2
  else if w.extractLsb' 24 4 == 0b1111#4 then .swi c (w.extractLsb' 0 24)
  -- priorities 3 and 4
  else if w.extractLsb' 24 4 == 0b1110#4 then
    if !w.getLsbD 4 then
      .cdp c (w.extractLsb' 20 4) (w.extractLsb' 16 4) (w.extractLsb' 12 4) (w.extractLsb' 8 4)
        (w.extractLsb' 5 3) (w.extractLsb' 0 4)
    else if w.getLsbD 20 then
      .mrc c (w.extractLsb' 21 3) (w.extractLsb' 16 4) (w.extractLsb' 12 4) (w.extractLsb' 8 4)
        (w.extractLsb' 5 3) (w.extractLsb' 0 4)
    else
      .mcr c (w.extractLsb' 21 3) (w.extractLsb' 16 4) (w.extractLsb' 12 4) (w.extractLsb' 8 4)
        (w.extractLsb' 5 3) (w.extractLsb' 0 4)
  -- priority 5
  else if w.extractLsb' 25 3 == 0b110#3 then
    if w.getLsbD 20 then
      .ldc c (w.getLsbD 24) (w.getLsbD 23) (w.getLsbD 22) (w.getLsbD 21) (w.extractLsb' 16 4)
        (w.extractLsb' 12 4) (w.extractLsb' 8 4) (w.extractLsb' 0 8)
    else
      .stc c (w.getLsbD 24) (w.getLsbD 23) (w.getLsbD 22) (w.getLsbD 21) (w.extractLsb' 16 4)
        (w.extractLsb' 12 4) (w.extractLsb' 8 4) (w.extractLsb' 0 8)
  -- priority 6
  else if w.extractLsb' 25 3 == 0b100#3 then
    if w.getLsbD 20 then
      .ldm c (w.getLsbD 24) (w.getLsbD 23) (w.getLsbD 22) (w.getLsbD 21) (w.extractLsb' 16 4)
        (w.extractLsb' 0 16)
    else
      .stm c (w.getLsbD 24) (w.getLsbD 23) (w.getLsbD 22) (w.getLsbD 21) (w.extractLsb' 16 4)
        (w.extractLsb' 0 16)
  -- priority 7
  else if w.extractLsb' 25 3 == 0b011#3 && w.getLsbD 4 then
    .undefined c (w.extractLsb' 5 20) (w.extractLsb' 0 4)
  -- priority 8
  else if w.extractLsb' 26 2 == 0b01#2 then decodeSingleTransfer c w
  -- priority 9
  else if isMultiply w then
    if w.getLsbD 21 then
      .mla c (w.getLsbD 20) (w.extractLsb' 16 4) (w.extractLsb' 12 4) (w.extractLsb' 8 4) (w.extractLsb' 0 4)
    else
      .mul c (w.getLsbD 20) (w.extractLsb' 16 4) (w.extractLsb' 12 4) (w.extractLsb' 8 4) (w.extractLsb' 0 4)
  -- priority 10
  else if isSwap w then
    if w.getLsbD 22 then .swpb c (w.extractLsb' 16 4) (w.extractLsb' 12 4) (w.extractLsb' 0 4)
    else .swp c (w.extractLsb' 16 4) (w.extractLsb' 12 4) (w.extractLsb' 0 4)
  -- priority 11
  else if isMultiplySpace w then .notDefinedA c w
  -- priorities 12 to 15
  else if isMrs w then .mrs c (w.getLsbD 22) (w.extractLsb' 12 4)
  else if isMsrRegAll w then .msrRegAll c (w.getLsbD 22) (w.extractLsb' 0 4)
  else if isMsrRegFlg w then .msrRegFlg c (w.getLsbD 22) (w.extractLsb' 0 4)
  else if isMsrImmFlg w then .msrImmFlg c (w.getLsbD 22) (w.extractLsb' 8 4) (w.extractLsb' 0 8)
  -- priority 16
  else if isPsrSpace w then .notDefinedB c w
  -- priority 17
  else decodeDataProcessing c w

/-- The instruction a 32-bit word stands for (R123): total, as the table is. -/
def decodeWord (w : Word) : Instr :=
  decodeBody (Cond.ofBits (w.extractLsb' 28 4)) (w.extractLsb' 0 28)

/-- Why bytes are no instruction. -/
inductive DecodeError where
  /-- Fewer than the four bytes of an instruction (R120). -/
  | tooFewBytes
deriving DecidableEq, Repr

/-- The instruction at the front of a list of bytes in memory order, with BIGEND = 0 (20_memory.md R63), and the bytes
after it. Every 32-bit word decodes (R123); the not-defined words of R142 decode to the two constructors that name
them. -/
def decode : List Byte → Except DecodeError (Instr × List Byte)
  | b0 :: b1 :: b2 :: b3 :: rest => .ok (decodeWord (b3 ++ b2 ++ b1 ++ b0), rest)
  | _ => .error .tooFewBytes

/-! ## Encoding -/

/-- Bits 11 to 0 of an operand 2 and of a register offset (R126, R127). -/
def Operand2.bits : Operand2 → BitVec 12
  | .imm rotate imm8 => rotate ++ imm8
  | .shiftImm rm ty amount => amount ++ ty.bits ++ 0#1 ++ rm
  | .shiftReg rm ty rs => rs ++ 0#1 ++ ty.bits ++ 1#1 ++ rm

/-- The I bit of a data processing instruction (R125). -/
def Operand2.immediate : Operand2 → BitVec 1
  | .imm .. => 1#1
  | .shiftImm .. | .shiftReg .. => 0#1

/-- Bits 11 to 0 of a single data transfer (R131). -/
def Offset.bits : Offset → BitVec 12
  | .imm offset => offset
  | .reg rm ty amount => amount ++ ty.bits ++ 0#1 ++ rm

/-- The I bit of a single data transfer: 1 for a register offset (R131). -/
def Offset.register : Offset → BitVec 1
  | .imm _ => 0#1
  | .reg .. => 1#1

/-- Format F-DP (R125). -/
def encodeDp (opcode : BitVec 4) (s : BitVec 1) (rn rd : RegNum) (op2 : Operand2) : BitVec 28 :=
  0b00#2 ++ op2.immediate ++ opcode ++ s ++ rn ++ rd ++ op2.bits

/-- Format F-SDT (R131). -/
def encodeSdt (p u b w l : Bool) (rn rd : RegNum) (off : Offset) : BitVec 28 :=
  0b01#2 ++ off.register ++ BitVec.ofBool p ++ BitVec.ofBool u ++ BitVec.ofBool b ++ BitVec.ofBool w
    ++ BitVec.ofBool l ++ rn ++ rd ++ off.bits

/-- Format F-CDT (49_coprocessor.md R355). -/
def encodeCdt (p u n w l : Bool) (rn : RegNum) (crd cpNum : BitVec 4) (offset : BitVec 8) : BitVec 28 :=
  0b110#3 ++ BitVec.ofBool p ++ BitVec.ofBool u ++ BitVec.ofBool n ++ BitVec.ofBool w ++ BitVec.ofBool l
    ++ rn ++ crd ++ cpNum ++ offset

/-- Format F-BDT (46_block_data_transfer.md R290). -/
def encodeBdt (p u s w l : Bool) (rn : RegNum) (list : BitVec 16) : BitVec 28 :=
  0b100#3 ++ BitVec.ofBool p ++ BitVec.ofBool u ++ BitVec.ofBool s ++ BitVec.ofBool w ++ BitVec.ofBool l
    ++ rn ++ list

/-- Format F-MUL (R129). -/
def encodeMul (a s : Bool) (rd rn rs rm : RegNum) : BitVec 28 :=
  0b000000#6 ++ BitVec.ofBool a ++ BitVec.ofBool s ++ rd ++ rn ++ rs ++ 0b1001#4 ++ rm

/-- Format F-SWP (R130). -/
def encodeSwp (b : Bool) (rn rd rm : RegNum) : BitVec 28 :=
  0b00010#5 ++ BitVec.ofBool b ++ 0b00#2 ++ rn ++ rd ++ 0b00001001#8 ++ rm

/-- Format F-CRT (49_coprocessor.md R353, R354). -/
def encodeCrt (cpOpc : BitVec 3) (l : Bool) (crn rd cpNum : BitVec 4) (cp : BitVec 3) (crm : BitVec 4) :
    BitVec 28 :=
  0b1110#4 ++ cpOpc ++ BitVec.ofBool l ++ crn ++ rd ++ cpNum ++ cp ++ 1#1 ++ crm

/-- Bits 27 to 0 of an instruction, from its format in R122. -/
def Instr.body : Instr → BitVec 28
  | .b _ offset => 0b1010#4 ++ offset
  | .bl _ offset => 0b1011#4 ++ offset
  | .swi _ comment => 0b1111#4 ++ comment
  | .cdp _ cpOpc crn crd cpNum cp crm => 0b1110#4 ++ cpOpc ++ crn ++ crd ++ cpNum ++ cp ++ 0#1 ++ crm
  | .mrc _ cpOpc crn rd cpNum cp crm => encodeCrt cpOpc true crn rd cpNum cp crm
  | .mcr _ cpOpc crn rd cpNum cp crm => encodeCrt cpOpc false crn rd cpNum cp crm
  | .ldc _ p u n w rn crd cpNum offset => encodeCdt p u n w true rn crd cpNum offset
  | .stc _ p u n w rn crd cpNum offset => encodeCdt p u n w false rn crd cpNum offset
  | .ldm _ p u s w rn list => encodeBdt p u s w true rn list
  | .stm _ p u s w rn list => encodeBdt p u s w false rn list
  | .undefined _ high low => 0b011#3 ++ high ++ 1#1 ++ low
  | .ldrt _ u rn rd off => encodeSdt false u false true true rn rd off
  | .ldrbt _ u rn rd off => encodeSdt false u true true true rn rd off
  | .strt _ u rn rd off => encodeSdt false u false true false rn rd off
  | .strbt _ u rn rd off => encodeSdt false u true true false rn rd off
  | .ldr _ p u w rn rd off => encodeSdt p u false w true rn rd off
  | .ldrb _ p u w rn rd off => encodeSdt p u true w true rn rd off
  | .str _ p u w rn rd off => encodeSdt p u false w false rn rd off
  | .strb _ p u w rn rd off => encodeSdt p u true w false rn rd off
  | .mul _ s rd rn rs rm => encodeMul false s rd rn rs rm
  | .mla _ s rd rn rs rm => encodeMul true s rd rn rs rm
  | .swp _ rn rd rm => encodeSwp false rn rd rm
  | .swpb _ rn rd rm => encodeSwp true rn rd rm
  | .notDefinedA _ body => body
  | .mrs _ ps rd => 0b00010#5 ++ BitVec.ofBool ps ++ 0b001111#6 ++ rd ++ 0#12
  | .msrRegAll _ pd rm => 0b00010#5 ++ BitVec.ofBool pd ++ 0b1010011111#10 ++ 0#8 ++ rm
  | .msrRegFlg _ pd rm => 0b00010#5 ++ BitVec.ofBool pd ++ 0b1010001111#10 ++ 0#8 ++ rm
  | .msrImmFlg _ pd rotate imm8 => 0b00110#5 ++ BitVec.ofBool pd ++ 0b1010001111#10 ++ rotate ++ imm8
  | .notDefinedB _ body => body
  | .and _ s rn rd op2 => encodeDp 0x0 (BitVec.ofBool s) rn rd op2
  | .eor _ s rn rd op2 => encodeDp 0x1 (BitVec.ofBool s) rn rd op2
  | .sub _ s rn rd op2 => encodeDp 0x2 (BitVec.ofBool s) rn rd op2
  | .rsb _ s rn rd op2 => encodeDp 0x3 (BitVec.ofBool s) rn rd op2
  | .add _ s rn rd op2 => encodeDp 0x4 (BitVec.ofBool s) rn rd op2
  | .adc _ s rn rd op2 => encodeDp 0x5 (BitVec.ofBool s) rn rd op2
  | .sbc _ s rn rd op2 => encodeDp 0x6 (BitVec.ofBool s) rn rd op2
  | .rsc _ s rn rd op2 => encodeDp 0x7 (BitVec.ofBool s) rn rd op2
  | .tst _ rn rd op2 => encodeDp 0x8 1#1 rn rd op2
  | .teq _ rn rd op2 => encodeDp 0x9 1#1 rn rd op2
  | .cmp _ rn rd op2 => encodeDp 0xA 1#1 rn rd op2
  | .cmn _ rn rd op2 => encodeDp 0xB 1#1 rn rd op2
  | .orr _ s rn rd op2 => encodeDp 0xC (BitVec.ofBool s) rn rd op2
  | .mov _ s rn rd op2 => encodeDp 0xD (BitVec.ofBool s) rn rd op2
  | .bic _ s rn rd op2 => encodeDp 0xE (BitVec.ofBool s) rn rd op2
  | .mvn _ s rn rd op2 => encodeDp 0xF (BitVec.ofBool s) rn rd op2

/-- The word of an instruction (R122, R124). -/
def encode (i : Instr) : Word := i.cond.bits ++ i.body

/-! ## The host's question -/

/-- The four bytes of a word with BIGEND = 0, the lowest address first (20_memory.md R62). -/
def wordBytes (w : Word) : List Byte :=
  [w.extractLsb' 0 8, w.extractLsb' 8 8, w.extractLsb' 16 8, w.extractLsb' 24 8]

/-- The 32-bit instruction word whose low `nbits` bits are those of `w` and whose other bits are 0. -/
def tableWord (nbits w : Nat) : Word := BitVec.ofNat 32 (w % 2 ^ nbits)

/-- The instruction this decoder reads from an instruction whose bits are `w`, numbered as the opcode table numbers
them; every instruction has 32 bits (R120), so more are none. -/
def decodeTableWord (nbits w : Nat) : Option Instr :=
  if nbits ≤ 32 then
    match decode (wordBytes (tableWord nbits w)) with
    | .ok (i, _) => some i
    | .error _ => none
  else none

end Sys2Proof
end

