-- ==== Sys2Proof/Machine/Coprocessor.lean ====
section
/-! DEFINITION. CDP, LDC, STC, MRC and MCR (49_coprocessor.md). What the coprocessor does is its own (R347): the model
holds its answers and what it is told. -/

namespace Sys2Proof.Machine

/-- CDP (R350): the coprocessor is told; nothing else changes. -/
def execCdp (c : Cond) (cpOpc crn crd cpNum : BitVec 4) (cp : BitVec 3) (crm : BitVec 4) (s : State) : Result :=
  let code := encode (.cdp c cpOpc crn crd cpNum cp crm)
  s.conditional c (s.offer cpNum code (fun t _ _ => .next ((t.cpTell cpNum [.cdp code]).advance)))

/-- MRC (R353): a word from the coprocessor to Rd, or its top four bits to the flags when Rd is R15. Its cycles are the
transfer and an internal one (21_bus_interface_and_signals.md R106). -/
def execMrc (c : Cond) (cpOpc : BitVec 3) (crn : BitVec 4) (rd : RegNum) (cpNum : BitVec 4) (cp : BitVec 3)
    (crm : BitVec 4) (s : State) : Result :=
  let code := encode (.mrc c cpOpc crn rd cpNum cp crm)
  s.conditional c (s.offer cpNum code (fun t word _ =>
    let e := ((t.cpTell cpNum [.mrc code]).cycle (s.transferCycle false word)).internal
    .next ((if rd = 15#4 then { e with cpsr := psrWithTop s.cpsr (word.extractLsb' 28 4) }
      else e.setReg rd word).advance)))

/-- MCR (R354): Rd to the coprocessor, R15 as the instruction's address plus 12. -/
def execMcr (c : Cond) (cpOpc : BitVec 3) (crn : BitVec 4) (rd : RegNum) (cpNum : BitVec 4) (cp : BitVec 3)
    (crm : BitVec 4) (s : State) : Result :=
  let code := encode (.mcr c cpOpc crn rd cpNum cp crm)
  let word := s.reg rd 12#32
  s.conditional c (s.offer cpNum code (fun t _ _ =>
    .next (((t.cpTell cpNum [.mcr code word]).cycle (s.transferCycle true word)).advance)))

/-- The base of a coprocessor data transfer written back with W = 1 (R355), aborted or not (R358). -/
def State.cpWriteBack (s : State) (w : Bool) (rn : RegNum) (v : Word) : State := if w then s.setReg rn v else s

/-- What an LDC tells its coprocessor of each cycle, from the i-th on: the word read, none for an aborted cycle (R351,
R358). -/
def loadEvents (code : Word) : Nat → List (Option Word) → List CpEvent
  | _, [] => []
  | i, v :: vs => .load code i v :: loadEvents code (i + 1) vs

/-- What an STC tells its coprocessor of each cycle, from the i-th on: whether it was aborted (R352, R358). -/
def storeEvents (code : Word) : Nat → List Bool → List CpEvent
  | _, [] => []
  | i, b :: bs => .store code i b :: storeEvents code (i + 1) bs

/-- The end of a coprocessor data transfer: the data abort after the last cycle (R358), or the next instruction. -/
def State.cpFinish (s : State) (aborted : Bool) : State := if aborted then s.dataAbort else s.advance

/-- LDC (R351): as many words as the coprocessor asks go to it, unrotated. -/
def execLdc (c : Cond) (p u n w : Bool) (rn : RegNum) (crd cpNum : BitVec 4) (offset : BitVec 8) (s : State) :
    Result :=
  let code := encode (.ldc c p u n w rn crd cpNum offset)
  s.conditional c (s.offer cpNum code (fun t _ more =>
    if rn = 15#4 ∧ w then .refused .coprocessorPcWriteBack
    else
      let run := State.readRun (s.dataAttrs false false) .n (1 + more.length) (s.cpAddress p u rn offset) t
      let e := (run.2.cpTell cpNum (loadEvents code 0 run.1)).cpWriteBack w rn (s.cpModified u rn offset)
      .next (e.cpFinish (run.1.any Option.isNone))))

/-- STC (R352): the coprocessor's words go to memory. -/
def execStc (c : Cond) (p u n w : Bool) (rn : RegNum) (crd cpNum : BitVec 4) (offset : BitVec 8) (s : State) :
    Result :=
  let code := encode (.stc c p u n w rn crd cpNum offset)
  s.conditional c (s.offer cpNum code (fun t word more =>
    if rn = 15#4 ∧ w then .refused .coprocessorPcWriteBack
    else
      let run := State.writeRun (s.dataAttrs true false) .n (s.cpAddress p u rn offset) (word :: more) t
      let e := (run.2.cpTell cpNum (storeEvents code 0 run.1)).cpWriteBack w rn (s.cpModified u rn offset)
      .next (e.cpFinish (run.1.any id))))

end Sys2Proof.Machine
end

