-- ==== Sys2Proof/Machine/DataProcessing.lean ====
section
/-! DEFINITION. The sixteen data processing instructions (42_data_processing.md): each is an operation on the old
flags, the two operands and the shifter's carry, over one template (R180). -/

namespace Sys2Proof.Machine

/-- An operation of the ALU: the old flags, operand 1, operand 2, the shifter's carry. -/
abbrev AluOp := Flags → Word → Word → Bool → AluResult

/-- operand1 AND operand2 (R200). -/
def aluAnd : AluOp := fun old a b sc => logicalResult old sc (a &&& b)

/-- operand1 EOR operand2 (R201). -/
def aluEor : AluOp := fun old a b sc => logicalResult old sc (a ^^^ b)

/-- operand1 - operand2 (R202). -/
def aluSub : AluOp := fun _ a b _ => addWithCarry a (~~~b) true

/-- operand2 - operand1 (R203). -/
def aluRsb : AluOp := fun _ a b _ => addWithCarry b (~~~a) true

/-- operand1 + operand2 (R204). -/
def aluAdd : AluOp := fun _ a b _ => addWithCarry a b false

/-- operand1 + operand2 + carry (R205). -/
def aluAdc : AluOp := fun old a b _ => addWithCarry a b old.c

/-- operand1 - operand2 + carry - 1 (R206). -/
def aluSbc : AluOp := fun old a b _ => addWithCarry a (~~~b) old.c

/-- operand2 - operand1 + carry - 1 (R207). -/
def aluRsc : AluOp := fun old a b _ => addWithCarry b (~~~a) old.c

/-- as AND (R208). -/
def aluTst : AluOp := fun old a b sc => logicalResult old sc (a &&& b)

/-- as EOR (R209). -/
def aluTeq : AluOp := fun old a b sc => logicalResult old sc (a ^^^ b)

/-- as SUB (R210). -/
def aluCmp : AluOp := fun _ a b _ => addWithCarry a (~~~b) true

/-- as ADD (R211). -/
def aluCmn : AluOp := fun _ a b _ => addWithCarry a b false

/-- operand1 OR operand2 (R212). -/
def aluOrr : AluOp := fun old a b sc => logicalResult old sc (a ||| b)

/-- operand2 (R213). -/
def aluMov : AluOp := fun old _ b sc => logicalResult old sc b

/-- operand1 AND NOT operand2 (R214). -/
def aluBic : AluOp := fun old a b sc => logicalResult old sc (a &&& ~~~b)

/-- NOT operand2 (R215). -/
def aluMvn : AluOp := fun old _ b sc => logicalResult old sc (~~~b)

/-- The result of a data processing instruction on the state before it (R180 to R182). All operands are read first. -/
def State.aluOf (s : State) (alu : AluOp) (rn : RegNum) (op2 : Operand2) : AluResult :=
  alu s.flags (s.reg rn (pcAhead op2)) (s.operand2 op2).1 (s.operand2 op2).2

/-- The internal cycle of a shift by a register (21_bus_interface_and_signals.md R106). -/
def State.shiftCycle (s : State) : Operand2 → State
  | .shiftReg .. => s.internal
  | .imm .. | .shiftImm .. => s

/-- The instructions that write a result (R180, R192 to R194). With Rd = R15 and S = 1 it is the exception return. -/
def dataProcess (alu : AluOp) (c : Cond) (sBit : Bool) (rn rd : RegNum) (op2 : Operand2) (s : State) : Result :=
  s.conditional c (
    if amountIsPc op2 then .refused .pcAsShiftAmount
    else
      let r := s.aluOf alu rn op2
      let e := s.shiftCycle op2
      if rd = 15#4 then
        if sBit then e.returnTo r.value .returnInUserMode else .next (e.branchTo r.value)
      else
        let t := e.setReg rd r.value
        .next ((if sBit then t.setFlags r.flags else t).advance))

/-- The instructions that only set flags (R198). With Rd = R15 they are the obsolete P forms (R199): the CPSR from the
SPSR in a privileged mode, nothing in User mode. -/
def dataCompare (alu : AluOp) (c : Cond) (rn rd : RegNum) (op2 : Operand2) (s : State) : Result :=
  s.conditional c (
    if amountIsPc op2 then .refused .pcAsShiftAmount
    else
      let e := s.shiftCycle op2
      if rd = 15#4 then e.restoreCpsr (.next e.advance) State.advance
      else .next ((e.setFlags (s.aluOf alu rn op2).flags).advance))

/-- AND (R200). -/
def execAnd (c : Cond) (sBit : Bool) (rn rd : RegNum) (op2 : Operand2) (s : State) : Result :=
  dataProcess aluAnd c sBit rn rd op2 s

/-- EOR (R201). -/
def execEor (c : Cond) (sBit : Bool) (rn rd : RegNum) (op2 : Operand2) (s : State) : Result :=
  dataProcess aluEor c sBit rn rd op2 s

/-- SUB (R202). -/
def execSub (c : Cond) (sBit : Bool) (rn rd : RegNum) (op2 : Operand2) (s : State) : Result :=
  dataProcess aluSub c sBit rn rd op2 s

/-- RSB (R203). -/
def execRsb (c : Cond) (sBit : Bool) (rn rd : RegNum) (op2 : Operand2) (s : State) : Result :=
  dataProcess aluRsb c sBit rn rd op2 s

/-- ADD (R204). -/
def execAdd (c : Cond) (sBit : Bool) (rn rd : RegNum) (op2 : Operand2) (s : State) : Result :=
  dataProcess aluAdd c sBit rn rd op2 s

/-- ADC (R205). -/
def execAdc (c : Cond) (sBit : Bool) (rn rd : RegNum) (op2 : Operand2) (s : State) : Result :=
  dataProcess aluAdc c sBit rn rd op2 s

/-- SBC (R206). -/
def execSbc (c : Cond) (sBit : Bool) (rn rd : RegNum) (op2 : Operand2) (s : State) : Result :=
  dataProcess aluSbc c sBit rn rd op2 s

/-- RSC (R207). -/
def execRsc (c : Cond) (sBit : Bool) (rn rd : RegNum) (op2 : Operand2) (s : State) : Result :=
  dataProcess aluRsc c sBit rn rd op2 s

/-- TST (R208). -/
def execTst (c : Cond) (rn rd : RegNum) (op2 : Operand2) (s : State) : Result :=
  dataCompare aluTst c rn rd op2 s

/-- TEQ (R209). -/
def execTeq (c : Cond) (rn rd : RegNum) (op2 : Operand2) (s : State) : Result :=
  dataCompare aluTeq c rn rd op2 s

/-- CMP (R210). -/
def execCmp (c : Cond) (rn rd : RegNum) (op2 : Operand2) (s : State) : Result :=
  dataCompare aluCmp c rn rd op2 s

/-- CMN (R211). -/
def execCmn (c : Cond) (rn rd : RegNum) (op2 : Operand2) (s : State) : Result :=
  dataCompare aluCmn c rn rd op2 s

/-- ORR (R212). -/
def execOrr (c : Cond) (sBit : Bool) (rn rd : RegNum) (op2 : Operand2) (s : State) : Result :=
  dataProcess aluOrr c sBit rn rd op2 s

/-- MOV (R213). -/
def execMov (c : Cond) (sBit : Bool) (rn rd : RegNum) (op2 : Operand2) (s : State) : Result :=
  dataProcess aluMov c sBit rn rd op2 s

/-- BIC (R214). -/
def execBic (c : Cond) (sBit : Bool) (rn rd : RegNum) (op2 : Operand2) (s : State) : Result :=
  dataProcess aluBic c sBit rn rd op2 s

/-- MVN (R215). -/
def execMvn (c : Cond) (sBit : Bool) (rn rd : RegNum) (op2 : Operand2) (s : State) : Result :=
  dataProcess aluMvn c sBit rn rd op2 s

end Sys2Proof.Machine
end

