-- ==== Sys2Proof/Machine/Multiply.lean ====
section
/-! DEFINITION. MUL and MLA (44_multiply.md). -/

namespace Sys2Proof.Machine

/-- The number of internal cycles of a multiply (R253): by the size of Rs. -/
def multiplyCycles (r : Word) : Nat := if r.toNat < 2 then 1 else min 16 ((Nat.log2 r.toNat + 3) / 2)

/-- The internal cycles of a multiply (R255, 21_bus_interface_and_signals.md R106). -/
def State.mulCycles (s : State) (rs : RegNum) : List BusCycle :=
  List.replicate (multiplyCycles (s.reg rs 8#32)) (s.internalCycle true s.ahead)

/-- Make the cycles and write the product: Rd, and with S = 1 the flags, whose C is a free value (R252;
notes/assumptions/2.md). -/
def State.multiplyResult (s : State) (sBit : Bool) (rd rs : RegNum) (v : Word) : Result :=
  let t := (s.passing (s.mulCycles rs)).setReg rd v
  .next ((if sBit then t.setFlags (multiplyFlags s.flags (Config.mulCarry s.tick) v) else t).advance)

/-- MUL (R250): the low 32 bits of Rm times Rs. Rn is ignored. R15 is refused (R254). -/
def execMul (c : Cond) (sBit : Bool) (rd _rn rs rm : RegNum) (s : State) : Result :=
  s.conditional c (
    if rd = 15#4 ∨ rs = 15#4 ∨ rm = 15#4 then .refused .pcInMultiply
    else s.multiplyResult sBit rd rs (s.reg rm 8#32 * s.reg rs 8#32))

/-- MLA (R251): the low 32 bits of Rm times Rs plus Rn. -/
def execMla (c : Cond) (sBit : Bool) (rd rn rs rm : RegNum) (s : State) : Result :=
  s.conditional c (
    if rd = 15#4 ∨ rs = 15#4 ∨ rm = 15#4 ∨ rn = 15#4 then .refused .pcInMultiply
    else s.multiplyResult sBit rd rs (s.reg rm 8#32 * s.reg rs 8#32 + s.reg rn 8#32))

end Sys2Proof.Machine
end

