-- ==== Sys2Proof/Machine/PsrTransfer.lean ====
section
/-! DEFINITION. MRS and the three MSR instructions (43_psr_transfer.md). -/

namespace Sys2Proof.Machine

/-- Write the whole CPSR (R233, R239): in User mode only the flags; in a privileged mode every defined bit, and a mode
that is none of the six is refused (U2). -/
def State.writeCpsrAll (s : State) (v : Word) : Result :=
  if s.mode = .usr then .next ({ s with cpsr := psrWithTop s.cpsr (v.extractLsb' 28 4) }.advance)
  else
    match Mode.ofBits (psrMode v) with
    | none => .refused .illegalMode
    | some _ => .next ({ s with cpsr := psrKeep v }.advance)

/-- Write the flag bits of the CPSR (R234, R235), in any mode. -/
def State.writeCpsrFlags (s : State) (v : Word) : Result :=
  .next ({ s with cpsr := psrWithTop s.cpsr (v.extractLsb' 28 4) }.advance)

/-- Write the SPSR of the current mode: `f` of its old value; User mode has none (R236). -/
def State.writeSpsr (s : State) (f : Word → Word) : Result :=
  match s.spsr? with
  | none => .refused .spsrInUserMode
  | some p => .next ({ s with spsrs := s.spsrs.set s.mode (f p) }.advance)

/-- MRS (R232): all 32 bits of the CPSR, or of the SPSR of the current mode. -/
def execMrs (c : Cond) (ps : Bool) (rd : RegNum) (s : State) : Result :=
  s.conditional c (
    if rd = 15#4 then .refused .pcInPsrTransfer
    else if ps then
      match s.spsr? with
      | none => .refused .spsrInUserMode
      | some p => .next ((s.setReg rd p).advance)
    else .next ((s.setReg rd s.cpsr).advance))

/-- MSR of a register to the whole PSR (R233). -/
def execMsrRegAll (c : Cond) (pd : Bool) (rm : RegNum) (s : State) : Result :=
  s.conditional c (
    if rm = 15#4 then .refused .pcInPsrTransfer
    else
      let v := s.reg rm 8#32
      if pd then s.writeSpsr (fun _ => psrKeep v) else s.writeCpsrAll v)

/-- MSR of a register to the flag bits (R234). -/
def execMsrRegFlg (c : Cond) (pd : Bool) (rm : RegNum) (s : State) : Result :=
  s.conditional c (
    if rm = 15#4 then .refused .pcInPsrTransfer
    else
      let v := s.reg rm 8#32
      if pd then s.writeSpsr (fun p => psrWithTop p (v.extractLsb' 28 4)) else s.writeCpsrFlags v)

/-- MSR of an immediate to the flag bits (R235). -/
def execMsrImmFlg (c : Cond) (pd : Bool) (rot : BitVec 4) (imm8 : BitVec 8) (s : State) : Result :=
  s.conditional c (
    let v := rotatedImm rot imm8
    if pd then s.writeSpsr (fun p => psrWithTop p (v.extractLsb' 28 4)) else s.writeCpsrFlags v)

end Sys2Proof.Machine
end

