-- ==== Sys2Proof/Machine/SingleTransfer.lean ====
section
/-! DEFINITION. LDR, LDRB, STR, STRB and their T forms (45_single_data_transfer.md). -/

namespace Sys2Proof.Machine

/-- What a single data transfer may not name (R272): write-back to R15, and R15 as the offset register. -/
def singleRefusal (p w : Bool) (rn : RegNum) (off : Offset) : Option Refusal :=
  if rn = 15#4 ∧ writesBack p w then some .pcWriteBack
  else if offsetUsesPc off then some .pcAsOffset
  else none

/-- The write-back of the base (R271); it happens even when the transfer is aborted (R274). -/
def State.writeBack (s : State) (p w : Bool) (rn : RegNum) (v : Word) : State :=
  if writesBack p w then s.setReg rn v else s

/-- A load (R262, R263, R266, R267). `user` makes the data cycle non-privileged (R268). Its cycles are the read and an
internal one (R276). An aborted load writes back the base, leaves Rd, and takes the data abort (R274). The loaded value
wins over the write-back (R271 (a)). -/
def loadSingle (byte user : Bool) (c : Cond) (p u w : Bool) (rn rd : RegNum) (off : Offset) (s : State) : Result :=
  s.conditional c (
    match singleRefusal p w rn off with
    | some r => .refused r
    | none =>
      let a := s.singleAddress p u rn off
      let t := s.transferAttrs user false byte
      let r := s.cycle (readCycle .n a t)
      let e := r.internal.writeBack p w rn (s.modifiedBase u rn off)
      if r.aborts a t then .next e.dataAbort else .next (e.finish rd (r.readData a t)))

/-- A store (R264, R265, R269, R270): the value of Rd before the instruction (R271 (b); notes/assumptions/12.md), R15
as the instruction's address plus 12 (R272). An aborted store writes nothing (R274). -/
def storeSingle (byte user : Bool) (c : Cond) (p u w : Bool) (rn rd : RegNum) (off : Offset) (s : State) : Result :=
  s.conditional c (
    match singleRefusal p w rn off with
    | some r => .refused r
    | none =>
      let a := s.singleAddress p u rn off
      let t := s.transferAttrs user true byte
      let e := (s.store .n a t (s.reg rd 12#32)).writeBack p w rn (s.modifiedBase u rn off)
      if e.aborts a t then .next e.dataAbort else .next e.advance)

/-- LDRT (R266). -/
def execLdrt (c : Cond) (u : Bool) (rn rd : RegNum) (off : Offset) (s : State) : Result :=
  loadSingle false true c false u true rn rd off s

/-- LDRBT (R267). -/
def execLdrbt (c : Cond) (u : Bool) (rn rd : RegNum) (off : Offset) (s : State) : Result :=
  loadSingle true true c false u true rn rd off s

/-- STRT (R269). -/
def execStrt (c : Cond) (u : Bool) (rn rd : RegNum) (off : Offset) (s : State) : Result :=
  storeSingle false true c false u true rn rd off s

/-- STRBT (R270). -/
def execStrbt (c : Cond) (u : Bool) (rn rd : RegNum) (off : Offset) (s : State) : Result :=
  storeSingle true true c false u true rn rd off s

/-- LDR (R262). -/
def execLdr (c : Cond) (p u w : Bool) (rn rd : RegNum) (off : Offset) (s : State) : Result :=
  loadSingle false false c p u w rn rd off s

/-- LDRB (R263). -/
def execLdrb (c : Cond) (p u w : Bool) (rn rd : RegNum) (off : Offset) (s : State) : Result :=
  loadSingle true false c p u w rn rd off s

/-- STR (R264). -/
def execStr (c : Cond) (p u w : Bool) (rn rd : RegNum) (off : Offset) (s : State) : Result :=
  storeSingle false false c p u w rn rd off s

/-- STRB (R265). -/
def execStrb (c : Cond) (p u w : Bool) (rn rd : RegNum) (off : Offset) (s : State) : Result :=
  storeSingle true false c p u w rn rd off s

end Sys2Proof.Machine
end

