-- ==== Sys2Proof/Machine/Swap.lean ====
section
/-! DEFINITION. SWP and SWPB (47_swap.md). -/

namespace Sys2Proof.Machine

/-- The bytes other bus masters would write before the next cycle. -/
def State.heldWrites (s : State) : List Host.Cell :=
  match s.moments with
  | [] => []
  | m :: _ => m.busWrites

/-- The state with those writes held back. -/
def State.holdWrites (s : State) : State :=
  match s.moments with
  | [] => s
  | m :: rest => { s with moments := { m with busWrites := [] } :: rest }

/-- The write cycle of a swap: LOCK is HIGH since the read, so that no other master comes between the two (R322, 20_memory.md
R72); what it would write waits until the write is done. `perform` says that the memory system makes the write. -/
def State.lockedStore (s : State) (perform : Bool) (a : Word) (t : BusAttrs) (v : Word) : State :=
  let c := s.holdWrites.cycle (writeCycle .n a t (dataOut t v))
  let w := if perform then c.busWrite a t v else c
  { w with mem := w.mem.setAll s.heldWrites }

/-- A swap (R320, R321, and the examples of R327): read, then write, then Rd. After an aborted read the hardware still drives the write cycle, but
nothing is written (R323; notes/assumptions/13.md); an aborted swap leaves Rd. R15 is refused (R324). -/
def swap (byte : Bool) (c : Cond) (rn rd rm : RegNum) (s : State) : Result :=
  s.conditional c (
    if rn = 15#4 ∨ rd = 15#4 ∨ rm = 15#4 then .refused .pcInSwap
    else
      let a := s.reg rn 8#32
      let tr := s.lockedAttrs false byte
      let tw := s.lockedAttrs true byte
      let r := s.cycle (readCycle .n a tr)
      let w := r.lockedStore (!r.aborts a tr) a tw (s.reg rm 8#32)
      let e := w.internal
      if r.aborts a tr || w.aborts a tw then .next e.dataAbort
      else .next ((e.setReg rd (r.readData a tr)).advance))

/-- SWP (R320, R327): Rd gets the word at Rn, which gets Rm. -/
def execSwp (c : Cond) (rn rd rm : RegNum) (s : State) : Result := swap false c rn rd rm s

/-- SWPB (R321, R327): Rd gets the byte at Rn, which gets bits 7 to 0 of Rm. -/
def execSwpb (c : Cond) (rn rd rm : RegNum) (s : State) : Result := swap true c rn rd rm s

end Sys2Proof.Machine
end

