-- ==== Sys2Proof/Machine/Traps.lean ====
section
/-! DEFINITION. SWI, the undefined instruction (48_swi_and_undefined.md) and the not-defined words (30_encoding.md
R142). -/

namespace Sys2Proof.Machine

/-- SWI (R330); the comment field is ignored (R331). -/
def execSwi (c : Cond) (_comment : BitVec 24) (s : State) : Result :=
  s.conditional c (.next (s.enter .swi (s.pc + 4#32)))

/-- The undefined instruction (R333): it is offered to the coprocessors and the trap is taken, for none of them accepts
it (R335; notes/assumptions/14.md). -/
def execUndefined (c : Cond) (high : BitVec 20) (low : BitVec 4) (s : State) : Result :=
  s.conditional c (.next ((s.present (encode (.undefined c high low))).enter .undefined (s.pc + 4#32)))

/-- A not-defined word of R142 (a): refused when its condition passes (U3). -/
def execNotDefinedA (c : Cond) (_body : BitVec 28) (s : State) : Result :=
  s.conditional c (.refused .notDefinedWord)

/-- A not-defined word of R142 (b): refused when its condition passes (U3). -/
def execNotDefinedB (c : Cond) (_body : BitVec 28) (s : State) : Result :=
  s.conditional c (.refused .notDefinedWord)

end Sys2Proof.Machine
end

