-- ==== Sys2Proof/Machine/Dispatch.lean ====
section
/-! DEFINITION. The meaning of each instruction, one arm for each constructor, in the opcode table's order. -/

namespace Sys2Proof.Machine

def exec (i : Instr) (s : State) : Host.Outcome State Fault Refusal :=
  match i with
  | .b c offset => Sys2Proof.Machine.execB c offset s
  | .bl c offset => Sys2Proof.Machine.execBl c offset s
  | .swi c comment => Sys2Proof.Machine.execSwi c comment s
  | .cdp c cpOpc crn crd cpNum cp crm => Sys2Proof.Machine.execCdp c cpOpc crn crd cpNum cp crm s
  | .mrc c cpOpc crn rd cpNum cp crm => Sys2Proof.Machine.execMrc c cpOpc crn rd cpNum cp crm s
  | .mcr c cpOpc crn rd cpNum cp crm => Sys2Proof.Machine.execMcr c cpOpc crn rd cpNum cp crm s
  | .ldc c p u n w rn crd cpNum offset => Sys2Proof.Machine.execLdc c p u n w rn crd cpNum offset s
  | .stc c p u n w rn crd cpNum offset => Sys2Proof.Machine.execStc c p u n w rn crd cpNum offset s
  | .ldm c p u sBit w rn list => Sys2Proof.Machine.execLdm c p u sBit w rn list s
  | .stm c p u sBit w rn list => Sys2Proof.Machine.execStm c p u sBit w rn list s
  | .undefined c high low => Sys2Proof.Machine.execUndefined c high low s
  | .ldrt c u rn rd off => Sys2Proof.Machine.execLdrt c u rn rd off s
  | .ldrbt c u rn rd off => Sys2Proof.Machine.execLdrbt c u rn rd off s
  | .strt c u rn rd off => Sys2Proof.Machine.execStrt c u rn rd off s
  | .strbt c u rn rd off => Sys2Proof.Machine.execStrbt c u rn rd off s
  | .ldr c p u w rn rd off => Sys2Proof.Machine.execLdr c p u w rn rd off s
  | .ldrb c p u w rn rd off => Sys2Proof.Machine.execLdrb c p u w rn rd off s
  | .str c p u w rn rd off => Sys2Proof.Machine.execStr c p u w rn rd off s
  | .strb c p u w rn rd off => Sys2Proof.Machine.execStrb c p u w rn rd off s
  | .mul c sBit rd rn rs rm => Sys2Proof.Machine.execMul c sBit rd rn rs rm s
  | .mla c sBit rd rn rs rm => Sys2Proof.Machine.execMla c sBit rd rn rs rm s
  | .swp c rn rd rm => Sys2Proof.Machine.execSwp c rn rd rm s
  | .swpb c rn rd rm => Sys2Proof.Machine.execSwpb c rn rd rm s
  | .notDefinedA c body => Sys2Proof.Machine.execNotDefinedA c body s
  | .mrs c ps rd => Sys2Proof.Machine.execMrs c ps rd s
  | .msrRegAll c pd rm => Sys2Proof.Machine.execMsrRegAll c pd rm s
  | .msrRegFlg c pd rm => Sys2Proof.Machine.execMsrRegFlg c pd rm s
  | .msrImmFlg c pd rotate imm8 => Sys2Proof.Machine.execMsrImmFlg c pd rotate imm8 s
  | .notDefinedB c body => Sys2Proof.Machine.execNotDefinedB c body s
  | .and c sBit rn rd op2 => Sys2Proof.Machine.execAnd c sBit rn rd op2 s
  | .eor c sBit rn rd op2 => Sys2Proof.Machine.execEor c sBit rn rd op2 s
  | .sub c sBit rn rd op2 => Sys2Proof.Machine.execSub c sBit rn rd op2 s
  | .rsb c sBit rn rd op2 => Sys2Proof.Machine.execRsb c sBit rn rd op2 s
  | .add c sBit rn rd op2 => Sys2Proof.Machine.execAdd c sBit rn rd op2 s
  | .adc c sBit rn rd op2 => Sys2Proof.Machine.execAdc c sBit rn rd op2 s
  | .sbc c sBit rn rd op2 => Sys2Proof.Machine.execSbc c sBit rn rd op2 s
  | .rsc c sBit rn rd op2 => Sys2Proof.Machine.execRsc c sBit rn rd op2 s
  | .tst c rn rd op2 => Sys2Proof.Machine.execTst c rn rd op2 s
  | .teq c rn rd op2 => Sys2Proof.Machine.execTeq c rn rd op2 s
  | .cmp c rn rd op2 => Sys2Proof.Machine.execCmp c rn rd op2 s
  | .cmn c rn rd op2 => Sys2Proof.Machine.execCmn c rn rd op2 s
  | .orr c sBit rn rd op2 => Sys2Proof.Machine.execOrr c sBit rn rd op2 s
  | .mov c sBit rn rd op2 => Sys2Proof.Machine.execMov c sBit rn rd op2 s
  | .bic c sBit rn rd op2 => Sys2Proof.Machine.execBic c sBit rn rd op2 s
  | .mvn c sBit rn rd op2 => Sys2Proof.Machine.execMvn c sBit rn rd op2 s

end Sys2Proof.Machine
end

