-- ==== Sys2Proof/Machine/Cycle.lean ====
section
/-! DEFINITION. The parts of a step around the instruction: its fetch and its abort mark, the instruction boundary with
the environment, the interrupts and reset (60_exceptions.md R385, R390 to R394, R398; 70_reset_and_hazards.md R421,
R422). -/

namespace Sys2Proof.Machine

/-! ## The instruction at the head of the pipeline -/

/-- The word at the head of the pipeline. -/
def State.head (s : State) : Slot := s.pipe.headD { word := s.mem.word s.pc, aborted := false }

/-- The instruction at the head of the pipeline. -/
def State.headInstr (s : State) : Instr := decodeWord s.head.word

/-- An instruction that is offered to the coprocessors when its condition passes (49_coprocessor.md R342,
48_swi_and_undefined.md R335). -/
def isOffered : Instr → Bool
  | .cdp .. | .mrc .. | .mcr .. | .ldc .. | .stc .. | .undefined .. => true
  | .b .. | .bl .. | .swi .. | .ldm .. | .stm .. | .ldrt .. | .ldrbt .. | .strt .. | .strbt .. | .ldr .. | .ldrb ..
  | .str .. | .strb .. | .mul .. | .mla .. | .swp .. | .swpb .. | .notDefinedA .. | .mrs .. | .msrRegAll ..
  | .msrRegFlg .. | .msrImmFlg .. | .notDefinedB .. | .and .. | .eor .. | .sub .. | .rsb .. | .add .. | .adc ..
  | .sbc .. | .rsc .. | .tst .. | .teq .. | .cmp .. | .cmn .. | .orr .. | .mov .. | .bic .. | .mvn .. => false

/-- nCPI in the first cycle of the instruction at the head (21_bus_interface_and_signals.md R106): LOW when it is
offered. -/
def State.headCPI (s : State) : Bool :=
  s.head.aborted || !(isOffered s.headInstr && condPasses s.headInstr.cond s.flags)

/-- Start an instruction: a new trace, and its first cycle, the fetch of the word 8 bytes on (10_state.md R41, R106). In
a busy-wait that word is there already. -/
def State.startCycle (s : State) : State :=
  let t := { s with bus := [] }.fillTo 2
  if t.pipe.length < 3 then t.fetchOne t.headCPI else t

/-- Run the head of the pipeline: an aborted word is the prefetch abort, whatever its bits (R385, R163;
notes/assumptions/15.md). -/
def State.runHead (s : State) : Result :=
  if s.head.aborted then .next (s.enter .prefetchAbort (s.pc + 4#32)) else exec s.headInstr s

/-! ## The boundary -/

/-- Let the environment act at a boundary (00_scope.md R18): the next event's pins, the other bus masters' writes, and
what will happen at the cycles to come. -/
def State.sample (s : State) : State :=
  match s.schedule with
  | [] => s
  | e :: rest => { s with inputs := e.inputs, mem := s.mem.setAll e.busWrites, moments := e.moments, schedule := rest }

/-- The pins as the environment sets them at the next boundary. -/
def State.nextInputs (s : State) : Inputs :=
  match s.schedule with
  | [] => s.inputs
  | e :: _ => e.inputs

/-- The 32-bit configuration (00_scope.md R11; 93_implementation_defined.md U1). -/
def Inputs.supported (i : Inputs) : Bool := i.PROG32 && i.DATA32

/-- The interrupt the check of R390 takes: FIQ before IRQ (R393), each under its disable bit (R34). -/
def State.pendingInterrupt (s : State) : Option Exc :=
  if !s.inputs.nFIQ && !psrF s.cpsr then some .fiq
  else if !s.inputs.nIRQ && !psrI s.cpsr then some .irq
  else none

/-- An interrupt that breaks off a busy-wait: nCPI goes HIGH (49_coprocessor.md R344). -/
def State.breakOff (s : State) : State := if s.busyWait then s.cpTellAll [.brokenOff] else s

/-- Take an interrupt before the instruction at the PC (R391, R394): R14 gets its address plus 4. The entry's discarded
fetch in the old mode comes first (R337, R383), and the refill after (R392). -/
def State.takeInterrupt (s : State) (e : Exc) : State :=
  ((s.breakOff.discardedFetch (s.pc + 8#32)).enter e (s.pc + 4#32)).fillTo 2

/-- The keys of the bytes a cycle stores, `s` being the state in it: those of the aligned word (20_memory.md R67), or that
of the byte in the byte order of this cycle (R68). A read stores none, and so does a write that the reference memory does not
take. -/
def State.storedKeys (s : State) (c : BusCycle) : List Nat :=
  if c.attrs.nOPC && c.attrs.nRW && c.type != .c && (s.reply c.addr c.attrs).isNone then
    if c.attrs.nBW then [wordKey c.addr, wordKey c.addr + 1, wordKey c.addr + 2, wordKey c.addr + 3]
    else [laneKey s.inputs.BIGEND c.addr]
  else []

/-- A cycle that is an aborted read of a swap, so that the write after it is not made (47_swap.md R323). -/
def State.cancelsWrite (s : State) (c : BusCycle) : Bool := c.attrs.LOCK && !c.attrs.nRW && s.aborts c.addr c.attrs

/-- The keys of the bytes that some cycles, made one after the other, store; `cancelled` says that the first is a write that
is not made. -/
def State.writtenKeys : Bool → List BusCycle → State → List Nat
  | _, [], _ => []
  | cancelled, c :: cs, s =>
    let t := s.cycle c
    (if cancelled then [] else t.storedKeys c) ++ State.writtenKeys (t.cancelsWrite c) cs t

/-- The cycles made since `start`. -/
def State.cyclesSince (s start : State) : List BusCycle := s.bus.drop start.bus.length

/-- The address the fetches have come to. -/
def State.fetchAddress (s : State) : Word := s.pc + BitVec.ofNat 32 (4 * s.pipe.length)

/-- nRESET goes LOW (R421) while the instruction that began in `start` runs: it is abandoned at a point the spec leaves
open, so that the general registers, the flags, the SPSRs and the bytes it could write have free values
(93_implementation_defined.md U23). No exception it would have taken is entered (60_exceptions.md R393), and the dummy
fetches go on from the address its fetches had come to (notes/assumptions/17.md). That the first of them is an S-cycle when
it goes on from the last cycle made (21_bus_interface_and_signals.md R105), which the spec leaves open, is the model's choice
(notes/assumptions/31.md). -/
def State.abandon (s start : State) (keys : List Nat) : State :=
  { s with
    regs := Vector.ofFn (fun i : Fin 30 => Config.abandonedReg s.tick i.val)
    pc := start.fetchAddress
    cpsr := psrWithTop start.cpsr (Config.abandonedFlags s.tick)
    spsrs :=
      { fiq := psrKeep (Config.abandonedSpsr s.tick 0)
        irq := psrKeep (Config.abandonedSpsr s.tick 1)
        svc := psrKeep (Config.abandonedSpsr s.tick 2)
        abt := psrKeep (Config.abandonedSpsr s.tick 3)
        und := psrKeep (Config.abandonedSpsr s.tick 4) }
    pipe := []
    ldmShadow := false
    busyWait := false
    seq := match s.bus.getLast? with
      | some c => c.nextSeq
      | none => start.seq
    mem := s.mem.setAll (keys.map (fun k => (k, Config.abandonedByte s.tick k))) }

/-- The interrupt check (R390): after an entry it is made again, with the environment acting in between. An entry sets
I, and FIQ sets F, so that at most two follow one another and the third check takes none. nRESET LOW comes before both
(R393) and ends it; so does PROG32 or DATA32 LOW, for which the step is refused (`State.endStep`). -/
def State.checkInterrupts : Nat → State → State
  | 0, s => s
  | k + 1, s =>
    let t := s.sample
    if !t.inputs.supported then t
    else if t.inputs.nRESET then
      match t.pendingInterrupt with
      | none => t
      | some e => State.checkInterrupts k (t.takeInterrupt e)
    else t.abandon t []

/-- The boundary after the instruction that began in `start` and left `s` (R390, R392, R393). With nRESET LOW the
instruction, and any exception it took, is abandoned; else the pipeline is refilled, and the environment and the interrupt
check follow. Last the model's counter. -/
def State.boundary (start s : State) : State :=
  let t :=
    if s.nextInputs.nRESET then State.checkInterrupts 3 (s.fillTo 2)
    else s.sample.abandon start (State.writtenKeys false (s.cyclesSince start) start)
  { t with tick := t.tick + 1 }

/-! ## Reset -/

/-- A step with nRESET LOW (R421): a dummy fetch at the next address and nothing else; when the environment takes
nRESET HIGH, the reset sequence and the refill at address 0 (R422). -/
def State.heldInReset (s : State) : State :=
  let t := { { s with bus := [] }.discardedFetch s.pc with
    pc := s.pc + 4#32, pipe := [], ldmShadow := false, busyWait := false }.sample
  let t := if t.inputs.nRESET then t.resetEntry.fillTo 2 else t
  { t with tick := t.tick + 1 }

/-! ## One step -/

/-- The end of a step: refused when its boundary has taken PROG32 or DATA32 LOW (00_scope.md R8; U1). -/
def State.endStep (s : State) : Result := if s.inputs.supported then .next s else .refused .configuration26Bit

/-- Run one instruction and its boundary. -/
def State.runStep (s : State) : Result :=
  match s.runHead with
  | .next t => (s.boundary t).endStep
  | .fault f => .fault f
  | .refused r => .refused r

/-- One step of the machine: refused outside the 32-bit configuration (U1) and in an illegal mode (U2, U35), held while
nRESET is LOW, else one instruction. -/
def State.stepOnce (s : State) : Result :=
  if !s.inputs.supported then .refused .configuration26Bit
  else
    match Mode.ofBits (psrMode s.cpsr) with
    | none => .refused .illegalMode
    | some _ => if s.inputs.nRESET then s.startCycle.runStep else s.heldInReset.endStep

/-- The state with a word in memory at the PC, the pipeline empty, and the reference memory alone behind the bus, so that
the next step fetches the word. -/
def State.placeWord (s : State) (w : Word) : State :=
  { s with
    mem := s.mem.setWord s.pc w
    pipe := []
    busyWait := false
    moments := []
    inputs := { s.inputs with memoryRules := [] } }

end Sys2Proof.Machine
end

