-- ==== Sys2Proof/Safety.lean ====
section
/-! DEFINITION. What a sound state is, and the terms the statements use: what a state keeps of another, how it goes on,
what an exception entry leaves. -/

namespace Sys2Proof.Machine

/-! ## The invariant -/

/-- A PSR holds nothing in its reserved bits (10_state.md R36). -/
def psrDefined (p : Word) : Bool := psrKeep p == p

/-- Every SPSR holds nothing in its reserved bits (R36). -/
def Spsrs.defined (r : Spsrs) : Bool :=
  psrDefined r.fiq && psrDefined r.irq && psrDefined r.svc && psrDefined r.abt && psrDefined r.und

/-- The invariant of the machine: the PC is a word address (R28), the CPSR holds one of the six modes (R23), no PSR
holds a reserved bit (R36), at most three words are in the pipeline (R41), and the memory is in canonical form. -/
def State.sound (s : State) : Bool :=
  s.pc.extractLsb' 0 2 == 0#2 && (Mode.ofBits (psrMode s.cpsr)).isSome && psrDefined s.cpsr && s.spsrs.defined
    && decide (s.pipe.length ≤ 3) && s.mem.wf

/-- The state is ready to run an instruction: the 32-bit configuration, no reset, one of the six modes. -/
def State.running (s : State) : Bool :=
  s.inputs.PROG32 && s.inputs.DATA32 && s.inputs.nRESET && (Mode.ofBits (psrMode s.cpsr)).isSome

/-- Nothing comes from outside: no event and no moment is left, and no interrupt or reset is requested. -/
def State.quiet (s : State) : Bool :=
  s.schedule.isEmpty && s.moments.isEmpty && s.inputs.nRESET && s.inputs.nFIQ && s.inputs.nIRQ

/-- No other bus master writes to memory before the next event. -/
def State.noBusWrites (s : State) : Bool := s.moments.all (fun m => m.busWrites.isEmpty)

/-- No other bus master ever writes to memory. -/
def State.soleMaster (s : State) : Bool :=
  s.noBusWrites && s.schedule.all (fun e => e.busWrites.isEmpty && e.moments.all (fun m => m.busWrites.isEmpty))

/-! ## Frames

A statement about an instruction names the bus cycles it makes (21_bus_interface_and_signals.md R106): its frame is against
`s.passing cycles`, the state in which those cycles have been made and the environment has acted in them, and which agrees
with `s` in everything else. -/

/-- Register `n` of the current mode of `s` holds `v` in `t`, and every other physical register is unchanged. For R15,
which is no physical register, all are unchanged. -/
def WritesReg (s t : State) (n : RegNum) (v : Word) : Prop :=
  ∀ q : PhysReg, t.gpr q = if phys s.mode n = some q then v else s.gpr q

/-- Every physical register is unchanged. -/
def KeepsRegs (s t : State) : Prop := ∀ q : PhysReg, t.gpr q = s.gpr q

/-- Every byte of memory reads as before. -/
def KeepsBytes (s t : State) : Prop := ∀ a : Word, t.byteAt a = s.byteAt a

/-- Every byte outside the aligned word at `a` reads as before. -/
def KeepsBytesOutsideWord (s t : State) (a : Word) : Prop :=
  ∀ b : Word, b.toNat / 4 ≠ a.toNat / 4 → t.byteAt b = s.byteAt b

/-- Every byte but the one at `a` reads as before. -/
def KeepsBytesButOne (s t : State) (a : Word) : Prop := ∀ b : Word, b ≠ a → t.byteAt b = s.byteAt b

/-- The pins, the environment and the model's own fields are unchanged, and no other bus cycle has been made. -/
def KeepsPlatform (s t : State) : Prop :=
  t.inputs = s.inputs ∧ t.moments = s.moments ∧ t.schedule = s.schedule ∧ t.tick = s.tick ∧ t.bus = s.bus

/-- The saved status registers and the platform are unchanged. -/
def KeepsOutside (s t : State) : Prop := t.spsrs = s.spsrs ∧ KeepsPlatform s t

/-- The saved status registers, the platform and the coprocessors are unchanged. -/
def KeepsSystem (s t : State) : Prop := KeepsOutside s t ∧ t.coprocs = s.coprocs

/-- The next instruction is the following one (10_state.md R31); that its address is taken modulo 2^32 is the spec's decision
D5 (notes/assumptions/23.md). -/
def GoesOn (s t : State) : Prop :=
  t.pc = s.pc + 4#32 ∧ t.pipe = s.pipe.tail ∧ t.ldmShadow = false ∧ t.busyWait = false ∧ t.seq = s.seq

/-- The next instruction is the one at `target`, with bits 1 and 0 dropped and the pipeline discarded (R30, R43). -/
def GoesTo (t : State) (target : Word) : Prop :=
  t.pc = (target >>> 2) <<< 2 ∧ t.pipe = [] ∧ t.ldmShadow = false ∧ t.busyWait = false ∧ t.seq = none

/-- The four flags of a state, and the other 28 bits of its CPSR as in another. -/
def SetsFlags (s t : State) (f : Flags) : Prop :=
  t.flags = f ∧ t.cpsr.extractLsb' 0 28 = s.cpsr.extractLsb' 0 28

/-- What an exception entry does to the registers (60_exceptions.md R380): `s` is the state before it, `m` its mode,
`fiq` that it is an FIQ. -/
def EntersMode (s t : State) (m : Mode) (vector ret : Word) (fiq : Bool) : Prop :=
  t.pc = vector ∧ psrMode t.cpsr = m.bits ∧ psrI t.cpsr = true ∧ psrF t.cpsr = (psrF s.cpsr || fiq)
    ∧ t.flags = s.flags ∧ t.cpsr &&& 0x0FFFFF20#32 = s.cpsr &&& 0x0FFFFF20#32
    ∧ t.gpr (.r14 m) = ret ∧ (∀ q, q ≠ .r14 m → t.gpr q = s.gpr q)
    ∧ t.spsrs.get? m = some s.cpsr ∧ (∀ k, k ≠ m → t.spsrs.get? k = s.spsrs.get? k)

/-- What an exception entry leaves: the registers, and every byte of memory. -/
def Enters (s t : State) (m : Mode) (vector ret : Word) (fiq : Bool) : Prop :=
  EntersMode s t m vector ret fiq ∧ KeepsBytes s t

/-- What an exception entry leaves outside the processor, when an instruction takes it. -/
def EntersAlone (s t : State) (m : Mode) (vector ret : Word) : Prop :=
  Enters s t m vector ret false ∧ t.pipe = [] ∧ t.ldmShadow = false ∧ t.busyWait = false ∧ t.seq = none
    ∧ KeepsPlatform s t

/-! ## Families, so that one statement can name several instructions -/

/-- The twelve data processing instructions that write a result, with their operations. -/
def writingOps : List ((Cond → Bool → RegNum → RegNum → Operand2 → Instr) × AluOp) :=
  [(.and, aluAnd), (.eor, aluEor), (.sub, aluSub), (.rsb, aluRsb), (.add, aluAdd), (.adc, aluAdc),
    (.sbc, aluSbc), (.rsc, aluRsc), (.orr, aluOrr), (.mov, aluMov), (.bic, aluBic), (.mvn, aluMvn)]

/-- The four that only set flags. -/
def comparingOps : List (Cond → RegNum → RegNum → Operand2 → Instr) := [.tst, .teq, .cmp, .cmn]

/-- The instructions that may write memory. -/
def storesMemory : Instr → Bool
  | .strt .. | .strbt .. | .str .. | .strb .. | .stm .. | .swp .. | .swpb .. | .stc .. => true
  | .b .. | .bl .. | .swi .. | .cdp .. | .mrc .. | .mcr .. | .ldc .. | .ldm .. | .undefined .. | .ldrt ..
  | .ldrbt .. | .ldr .. | .ldrb .. | .mul .. | .mla .. | .notDefinedA .. | .mrs .. | .msrRegAll ..
  | .msrRegFlg .. | .msrImmFlg .. | .notDefinedB .. | .and .. | .eor .. | .sub .. | .rsb .. | .add ..
  | .adc .. | .sbc .. | .rsc .. | .tst .. | .teq .. | .cmp .. | .cmn .. | .orr .. | .mov .. | .bic ..
  | .mvn .. => false

/-- A single data transfer: its constructor, whether it moves a byte, whether it is a T form, and its P and W bits
(45_single_data_transfer.md R260). -/
structure SingleForm where
  instr : Cond → Bool → RegNum → RegNum → Offset → Instr
  byte : Bool
  user : Bool
  p : Bool
  w : Bool

/-- The four loads, the plain ones with the P and W bits given. -/
def singleLoads (p w : Bool) : List SingleForm :=
  [{ instr := fun c u rn rd off => .ldr c p u w rn rd off, byte := false, user := false, p, w },
    { instr := fun c u rn rd off => .ldrb c p u w rn rd off, byte := true, user := false, p, w },
    { instr := .ldrt, byte := false, user := true, p := false, w := true },
    { instr := .ldrbt, byte := true, user := true, p := false, w := true }]

/-- The four stores, the plain ones with the P and W bits given. -/
def singleStores (p w : Bool) : List SingleForm :=
  [{ instr := fun c u rn rd off => .str c p u w rn rd off, byte := false, user := false, p, w },
    { instr := fun c u rn rd off => .strb c p u w rn rd off, byte := true, user := false, p, w },
    { instr := .strt, byte := false, user := true, p := false, w := true },
    { instr := .strbt, byte := true, user := true, p := false, w := true }]

/-- The number of registers of a list below number `n` (46_block_data_transfer.md R290). -/
def listRank (list : BitVec 16) (n : Nat) : Nat := (List.range n).countP (fun i => list.getLsbD i)

/-- The address of the transfer of register `r` (R293), from the lowest address of the block. -/
def listAddress (start : Word) (list : BitVec 16) (r : RegNum) : Word :=
  start + BitVec.ofNat 32 (4 * listRank list r.toNat)

/-- The word an STM stores for a register of its list (R297, R298, R300). -/
def State.storedWord (s : State) (u sBit w : Bool) (rn : RegNum) (list : BitVec 16) (r : RegNum) : Word :=
  if r = 15#4 then s.pc + 12#32
  else if sBit then s.regIn .usr r 0#32
  else if r = rn ∧ w = true ∧ listRank list rn.toNat ≠ 0 then s.blockBase u rn list
  else s.reg r 0#32

/-- A mode that has an SPSR, and that SPSR (10_state.md R37), with one of the six modes in it. -/
def State.canReturn (s : State) (saved : Word) : Prop :=
  s.spsr? = some saved ∧ (Mode.ofBits (psrMode saved)).isSome = true

/-! ## The bus cycles of an instruction after its first (21_bus_interface_and_signals.md R106) -/

/-- An internal cycle at the address of the next fetch. -/
def State.idle (s : State) : BusCycle := s.internalCycle true (s.pc + 12#32)

/-- The cycles of operand 2. -/
def State.shiftCycles (s : State) : Operand2 → List BusCycle
  | .shiftReg .. => [s.idle]
  | .imm .. | .shiftImm .. => []

/-- The cycles of a single load. -/
def State.loadCycles (s : State) (a : Word) (t : BusAttrs) : List BusCycle := [readCycle .n a t, s.idle]

/-- The cycle of a single store. -/
def storeCycles (a : Word) (t : BusAttrs) (v : Word) : List BusCycle := [writeCycle .n a t (dataOut t v)]

/-- The cycles of an LDM. -/
def State.ldmCycles (s : State) (a : Word) (list : BitVec 16) : List BusCycle :=
  readCycles (s.dataAttrs false false) .n (listRank list 16) a ++ [s.idle]

/-- The cycles of an STM. -/
def State.stmCycles (s : State) (u sBit w : Bool) (rn : RegNum) (a : Word) (list : BitVec 16) : List BusCycle :=
  writeCycles (s.dataAttrs true false) .n a ((listRegs list).map (s.storedWord u sBit w rn list))

/-- The cycles of a swap. -/
def State.swapCycles (s : State) (byte : Bool) (a v : Word) : List BusCycle :=
  [readCycle .n a (s.lockedAttrs false byte),
    writeCycle .n a (s.lockedAttrs true byte) (dataOut (s.lockedAttrs true byte) v), s.idle]

/-- The state after some cycles and the discarded fetch with which the entry of a data abort begins (60_exceptions.md R383,
21_bus_interface_and_signals.md R106). -/
def State.aborting (s : State) (cs : List BusCycle) : State := (s.passing cs).discardedFetch (s.pc + 8#32)

/-- The value a single load or a swap takes from its read cycle (20_memory.md R64, R66). -/
def State.loaded (s : State) (a : Word) (t : BusAttrs) : Word :=
  if t.nBW then (s.busWord a t).rotateRight (8 * (a.toNat % 4))
  else (laneByte s.inputs.BIGEND a (s.busWord a t)).zeroExtend 32

/-- What a data write leaves in memory: the aligned word or the byte stored when the reference memory serves the cycle
(R67, R68), and every other byte, as `m` has it. `s` is the state in its cycle. -/
def Stores (s : State) (m m' : Memory) (a : Word) (t : BusAttrs) (v : Word) : Prop :=
  if s.reply a t = none then
    if t.nBW then m'.word a = v ∧ ∀ k, k / 4 ≠ a.toNat / 4 → m'.get k = m.get k
    else m'.get (laneKey s.inputs.BIGEND a) = v.extractLsb' 0 8 ∧
      ∀ k, k ≠ laneKey s.inputs.BIGEND a → m'.get k = m.get k
  else ∀ k, m'.get k = m.get k

/-- The coprocessor number of the five coprocessor instructions (49_coprocessor.md R340). -/
def coprocessorOf : Instr → Option (BitVec 4)
  | .cdp _ _ _ _ num _ _ | .mrc _ _ _ _ num _ _ | .mcr _ _ _ _ num _ _ | .ldc _ _ _ _ _ _ _ num _
  | .stc _ _ _ _ _ _ _ num _ => some num
  | .b .. | .bl .. | .swi .. | .ldm .. | .stm .. | .undefined .. | .ldrt .. | .ldrbt .. | .strt .. | .strbt ..
  | .ldr .. | .ldrb .. | .str .. | .strb .. | .mul .. | .mla .. | .swp .. | .swpb .. | .notDefinedA ..
  | .mrs .. | .msrRegAll .. | .msrRegFlg .. | .msrImmFlg .. | .notDefinedB .. | .and .. | .eor .. | .sub ..
  | .rsb .. | .add .. | .adc .. | .sbc .. | .rsc .. | .tst .. | .teq .. | .cmp .. | .cmn .. | .orr ..
  | .mov .. | .bic .. | .mvn .. => none

/-! ## Coprocessors -/

/-- Every coprocessor has seen the offer of `w` (49_coprocessor.md R341, R342), and coprocessor `num` changed by `f` has
also done what `f` says. -/
def Offers (s t : State) (num : BitVec 4) (w : Word) (f : Coproc → Coproc) : Prop :=
  ∀ k, t.coprocessor? k =
    (s.coprocessor? k).map fun cp => Coproc.tell (s.offerEvents w) (if k = num then f cp else cp)

/-- Coprocessor `num` has been offered `w`, has given its next answer and has been told `events`; the others have seen the
offer (49_coprocessor.md R341, R342). -/
def Tells (s t : State) (num : BitVec 4) (w : Word) (events : List CpEvent) : Prop :=
  (∃ cp, s.coprocessor? num = some cp ∧
    t.coprocessor? num =
      some { cp with answers := cp.answers.tail, seen := cp.seen ++ s.offerEvents w ++ events }) ∧
  ∀ k, k ≠ num → t.coprocessor? k = (s.coprocessor? k).map (Coproc.tell (s.offerEvents w))

end Sys2Proof.Machine
end

