-- ==== Sys2Proof/WellFormed.lean ====
section
/-! DEFINITION. Which instructions are well formed: the words of a row that no earlier row of the decode order
(30_encoding.md R123, its tests in Sys2Proof/Decode.lean) takes. Every other field takes every value its width admits. -/

namespace Sys2Proof

/-- A plain single data transfer is not post-indexed with W = 1: that word is the T form's (R260, R268). -/
def plainIndexing (p w : Bool) : Bool := p || !w

/-- The instructions that some word stands for. -/
def Instr.wf : Instr → Bool
  | .ldr _ p _ w _ _ _ | .ldrb _ p _ w _ _ _ | .str _ p _ w _ _ _ | .strb _ p _ w _ _ _ => plainIndexing p w
  | .notDefinedA _ body => isNotDefinedA body
  | .notDefinedB _ body => isNotDefinedB body
  | .b .. | .bl .. | .swi .. | .cdp .. | .mrc .. | .mcr .. | .ldc .. | .stc .. | .ldm .. | .stm ..
  | .undefined .. | .ldrt .. | .ldrbt .. | .strt .. | .strbt .. | .mul .. | .mla .. | .swp .. | .swpb ..
  | .mrs .. | .msrRegAll .. | .msrRegFlg .. | .msrImmFlg .. | .and .. | .eor .. | .sub .. | .rsb ..
  | .add .. | .adc .. | .sbc .. | .rsc .. | .tst .. | .teq .. | .cmp .. | .cmn .. | .orr .. | .mov ..
  | .bic .. | .mvn .. => true

end Sys2Proof
end

