-- ==== Sys2Proof/Certificates/Slice0/Obligations.lean ====
section
/-! DEFINITION. The statements for the provers. Each docstring names the rules of spec/ it says. A statement about an
instruction gives its next state whole: its registers, its flags, the rest of the CPSR, every byte of memory, the program
counter, and everything outside the processor. Where it makes bus cycles after its first (21_bus_interface_and_signals.md
R106), the statement names them, and the frame is against the state in which they have been made. -/

open Sys2Proof Sys2Proof.Machine

/-! ## Encoding -/

/-- R122, R123: decoding an encoded well-formed instruction gives it back. The bit positions are the family's
(notes/assumptions/1.md). -/
def Obligations.DecodeOfEncode : Prop := ∀ i : Instr, i.wf = true → decodeWord (encode i) = i

/-- R123, R144: every word is a well-formed instruction's, and no bit of it is lost. The bit positions are the family's
(notes/assumptions/1.md). -/
def Obligations.EncodeOfDecode : Prop := ∀ w : Word, (decodeWord w).wf = true ∧ encode (decodeWord w) = w

/-- R123, R148, R364 and the vectors of spec 95 and 96: words written out decode to what they stand for. Of these
eight the source prints the first alone; the others rest on bit positions that are the family's (notes/assumptions/1.md). -/
def Obligations.DecodedWords : Prop :=
  decodeWord 0xEAFFFFFE#32 = .b .al 0xFFFFFE ∧
  decodeWord 0xE92D4003#32 = .stm .al true false false true 13 0x4003 ∧
  decodeWord 0xEEA21103#32 = .cdp .al 10 2 1 1 0 3 ∧
  decodeWord 0xE1442093#32 = .swpb .al 4 2 3 ∧
  decodeWord 0xE328F20A#32 = .msrImmFlg .al false 2 0x0A ∧
  decodeWord 0xE7921103#32 = .ldr .al true true false 2 1 (.reg 3 .lsl 2) ∧
  decodeWord 0xE00000D0#32 = .notDefinedA .al 0x00000D0 ∧
  decodeWord 0xE25EF004#32 = .sub .al true 14 15 (.imm 0 4)

/-! ## Registers -/

/-- R21, R24, R28, R181, R432: which physical register a number names in each mode, and what a read gives: the register;
R15 the instruction's address plus 8, or plus 12 when a register gives the shift amount. Only right after a User bank LDM,
and only for a number banked in the current mode, is the read left open (93 U20, notes/assumptions/3.md). -/
def Obligations.RegisterReads : Prop :=
  (∀ (m : Mode) (n : RegNum),
    (n.toNat ≤ 7 → phys m n = some (.low (Fin.ofNat 13 n.toNat))) ∧
    (8 ≤ n.toNat → n.toNat ≤ 12 →
      phys m n = some (if m = .fiq then .highFiq (Fin.ofNat 5 (n.toNat - 8)) else .low (Fin.ofNat 13 n.toNat))) ∧
    phys m 13#4 = some (.r13 m) ∧ phys m 14#4 = some (.r14 m) ∧ phys m 15#4 = none) ∧
  (∀ (s : State) (p q : PhysReg) (v : Word), (s.setGpr p v).gpr q = if p = q then v else s.gpr q) ∧
  (∀ (s : State) (bank : Mode) (n : RegNum) (q : PhysReg) (ahead : Word), phys bank n = some q →
    s.ldmShadow = false ∨ s.mode = .usr ∨ n.toNat ≤ 7 ∨ (n.toNat ≤ 12 ∧ s.mode ≠ .fiq) →
    s.regIn bank n ahead = s.gpr q) ∧
  (∀ (s : State) (n : RegNum) (ahead : Word), s.reg n ahead = s.regIn s.mode n ahead ∧
    s.reg 15#4 ahead = s.pc + ahead) ∧
  (∀ (s : State) (rot : BitVec 4) (imm8 : BitVec 8) (rm rs : RegNum) (ty : ShiftType) (amount : BitVec 5),
    pcAhead (.imm rot imm8) = 8#32 ∧ pcAhead (.shiftImm rm ty amount) = 8#32 ∧ pcAhead (.shiftReg rm ty rs) = 12#32 ∧
    s.operand2 (.shiftImm 15#4 .lsl 0#5) = (s.pc + 8#32, s.flags.c) ∧
    (rs ≠ 15#4 → (s.reg rs 0#32).extractLsb' 0 8 = 0#8 →
      s.operand2 (.shiftReg 15#4 ty rs) = (s.pc + 12#32, s.flags.c)))

/-- R23, R32, R34, R36: the places of N, Z, C, V and M[4:0] in a PSR, the six modes, and the reserved bits. That I is bit 7
and F bit 6 is the family's (notes/assumptions/1.md); that the reserved bits hold nothing is the spec's decision D6
(notes/assumptions/8.md). -/
def Obligations.PsrLayout : Prop :=
  (∀ p : Word,
    psrFlags p = { n := p.toNat.testBit 31, z := p.toNat.testBit 30, c := p.toNat.testBit 29, v := p.toNat.testBit 28 } ∧
    psrI p = p.toNat.testBit 7 ∧ psrF p = p.toNat.testBit 6 ∧ (psrMode p).toNat = p.toNat % 32 ∧
    (psrDefined p = true ↔ ∀ i, 8 ≤ i ∧ i ≤ 27 ∨ i = 5 → p.toNat.testBit i = false)) ∧
  (∀ (b : BitVec 5) (m : Mode), Mode.ofBits b = some m ↔ b = m.bits) ∧
  Mode.usr.bits = 0b10000#5 ∧ Mode.fiq.bits = 0b10001#5 ∧ Mode.irq.bits = 0b10010#5 ∧ Mode.svc.bits = 0b10011#5 ∧
  Mode.abt.bits = 0b10111#5 ∧ Mode.und.bits = 0b11011#5

/-! ## The bus -/

/-- R60, R63, R81, R104, R268, R322: the attributes of every cycle: an instruction fetch, a data cycle (nTRANS LOW in User
mode), that of a T form (nTRANS LOW in every mode), those of a swap (LOCK HIGH); nM shows the mode inverted; nMREQ and SEQ
tell the type. -/
def Obligations.CycleAttributes : Prop :=
  (∀ (s : State) (write byte : Bool),
    let privileged := decide (s.mode ≠ .usr)
    let nM := ~~~(psrMode s.cpsr)
    s.fetchAttrs = { nRW := false, nBW := true, nOPC := false, nTRANS := privileged, nM, LOCK := false } ∧
    s.dataAttrs write byte =
      { nRW := write, nBW := !byte, nOPC := true, nTRANS := privileged, nM, LOCK := false } ∧
    s.transferAttrs false write byte = s.dataAttrs write byte ∧
    s.transferAttrs true write byte =
      { nRW := write, nBW := !byte, nOPC := true, nTRANS := false, nM, LOCK := false } ∧
    s.lockedAttrs write byte =
      { nRW := write, nBW := !byte, nOPC := true, nTRANS := privileged, nM, LOCK := true }) ∧
  ([CycleType.n, .s, .i, .c].map fun t => (t.nMREQ, t.SEQ)) =
    [(false, false), (false, true), (true, false), (true, true)]

/-- R10, R18, R60, R69, R80, R82, R105: what a bus cycle does. Before it the environment may change BIGEND and the memory
system's rules, and other masters may write; then it is on the bus. Nothing else changes, and without other masters' writes no
cycle changes the memory by itself. The memory system answers it: the first rule that names a cycle decides; an aborted
write, and a write to a read-only memory or a device, leave the memory; what no rule names is the reference memory's. The
rules are the model's form of the memory manager, ROM and devices (notes/assumptions/38.md), the moments that of the
environment (notes/assumptions/29.md); that an aborted write changes nothing and that an unaligned word goes to the aligned
word are the spec's decision D8 (notes/assumptions/10.md). The next instruction fetch may be an S-cycle after a fetch, one
word on, and after an internal cycle, at its address (R105); that it is an N-cycle after a data or coprocessor cycle is read
from the cycle counts of R446 (notes/assumptions/31.md). Which cycles an S-fetch follows is read from the cycle
counts of R446 (notes/assumptions/31.md). -/
def Obligations.BusCycleEffect : Prop :=
  (∀ (s : State) (c : BusCycle),
    let next := if c.type = .i then some c.addr else if c.attrs.nOPC then none else some (c.addr + 4#32)
    (s.moments = [] → s.cycle c = { s with bus := s.bus ++ [c], seq := next }) ∧
    (∀ m rest, s.moments = m :: rest →
      s.cycle c =
        { s with
          inputs := { s.inputs with BIGEND := m.BIGEND, memoryRules := m.memoryRules }
          mem := s.mem.setAll m.busWrites
          moments := rest
          bus := s.bus ++ [c]
          seq := next }) ∧
    (∀ (m : Memory) (ws : List Host.Cell) (k : Nat), m.wf = true →
      ((∀ w ∈ ws, w.1 % 2 ^ 32 ≠ k) → (m.setAll ws).get k = m.get k) ∧
      ∀ b, k < 2 ^ 32 → (m.setAll (ws ++ [(k, b)])).get k = b) ∧
    (s.noBusWrites = true → ∀ cs, (s.passing cs).mem = s.mem)) ∧
  (∀ (r : MemoryRule) (a : Word) (t : BusAttrs), r.applies a t = true ↔
    (r.first ≤ a.toNat ∧ a.toNat ≤ r.last) ∧ (r.nRW = none ∨ r.nRW = some t.nRW) ∧ (r.nBW = none ∨ r.nBW = some t.nBW) ∧
    (r.nOPC = none ∨ r.nOPC = some t.nOPC) ∧ (r.nTRANS = none ∨ r.nTRANS = some t.nTRANS) ∧
    (r.nM = none ∨ r.nM = some t.nM) ∧ (r.LOCK = none ∨ r.LOCK = some t.LOCK)) ∧
  (∀ (s : State) (a : Word) (t : BusAttrs) (v : Word),
    ((∀ r ∈ s.inputs.memoryRules, r.applies a t = false) → s.reply a t = none) ∧
    (∀ before r after, s.inputs.memoryRules = before ++ r :: after → (∀ x ∈ before, x.applies a t = false) →
      r.applies a t = true → s.reply a t = some r.reply) ∧
    (s.aborts a t = true ↔ s.reply a t = some .abort) ∧
    (∀ word, s.reply a t = some (.device word) → s.busWord a t = word) ∧
    (s.reply a t = none ∨ s.reply a t = some .readOnly → s.busWord a t = s.mem.word a) ∧
    (∀ x, s.reply a t = some x → s.busWrite a t v = s) ∧
    (s.reply a t = none → s.mem.wf = true → Stores s s.mem (s.busWrite a t v).mem a t v))

/-- R62, R64, R66, R67, R68, R69: the bytes of a word in both byte orders, on the reference memory. A word read has the
byte of lane A[1:0] in bits 7 to 0; a written word reads back byte by byte, and four written bytes as a word; a byte
written is in all four lanes of the bus. -/
def Obligations.ByteOrder : Prop :=
  ∀ (s : State) (t : BusAttrs) (a v : Word) (b0 b1 b2 b3 : Byte), s.mem.wf = true → a.toNat % 4 = 0 →
    (t.nBW = true → ∀ k, k < 4 → ∀ i, i < 32 →
      (s.readData (a + BitVec.ofNat 32 k) t).getLsbD i =
        (s.busWord (a + BitVec.ofNat 32 k) t).getLsbD ((i + 8 * k) % 32)) ∧
    (t.nBW = false → ∀ b : Word, s.reply b t = none → s.readData b t = (s.byteAt b).zeroExtend 32) ∧
    (∀ b : Word, s.readData b t = s.loaded b t) ∧
    (∀ k, k < 4 → (s.writeData false a v).byteAt (a + BitVec.ofNat 32 k) =
      (if s.inputs.BIGEND then v.extractLsb' (24 - 8 * k) 8 else v.extractLsb' (8 * k) 8)) ∧
    ((((s.writeData true a (b0.zeroExtend 32)).writeData true (a + 1#32) (b1.zeroExtend 32)).writeData true
        (a + 2#32) (b2.zeroExtend 32)).writeData true (a + 3#32) (b3.zeroExtend 32)).mem.word a =
      (if s.inputs.BIGEND then b0 ++ b1 ++ b2 ++ b3 else b3 ++ b2 ++ b1 ++ b0) ∧
    dataOut t v = (if t.nBW then v else v.extractLsb' 0 8 ++ v.extractLsb' 0 8 ++ v.extractLsb' 0 8 ++ v.extractLsb' 0 8)

/-- R63, R81, R104, R105, R106, R337, R342, R383: the fetches. A fetch is an S-cycle when it goes on from the cycle before. An instruction starts with the fetch of the word 8 bytes on, with
nCPI LOW when it is offered to the coprocessors; a new PC fetches two words, an N- and an S-cycle; an interrupt entry, out
of a busy-wait too, is a discarded fetch in the old mode and two in the new.
That A[1:0] of a fetch is 00 is the model's choice
(U32, notes/assumptions/41.md); that an interrupt out of a busy-wait makes the discarded fetch too is deduced from Table 15
(notes/assumptions/31.md). -/
def Obligations.FetchCycles : Prop :=
  ∀ s : State,
    (∀ nCPI a, s.fetchCycle nCPI a =
      { type := if s.seq = some a then .s else .n, addr := a, attrs := s.fetchAttrs, nCPI, data := none }) ∧
    (∀ slot next, s.pipe = [slot, next] →
      s.startCycle.bus =
        [{ type := if s.seq = some (s.pc + 8#32) then .s else .n
           addr := s.pc + 8#32
           attrs := s.fetchAttrs
           nCPI := decide (slot.aborted = true ∨ isOffered (decodeWord slot.word) = false ∨
             condPasses (decodeWord slot.word).cond s.flags = false)
           data := none }]) ∧
    (s.pipe = [] → s.seq = none →
      (s.fillTo 2).bus = s.bus ++
        [{ type := .n, addr := s.pc, attrs := s.fetchAttrs, nCPI := true, data := none },
          { type := .s, addr := s.pc + 4#32, attrs := s.fetchAttrs, nCPI := true, data := none }]) ∧
    (∀ e : Exc,
      let attrs : BusAttrs :=
        { nRW := false, nBW := true, nOPC := false, nTRANS := true, nM := ~~~e.mode.bits, LOCK := false }
      (s.takeInterrupt e).bus = s.bus ++
        [{ type := if s.seq = some (s.pc + 8#32) then .s else .n, addr := s.pc + 8#32, attrs := s.fetchAttrs, nCPI := true, data := none },
          { type := .n, addr := e.vector, attrs, nCPI := true, data := none },
          { type := .s, addr := e.vector + 4#32, attrs, nCPI := true, data := none }])

/-! ## The step -/

/-- R8, R41, R385: when the word at the head of the pipeline (fetched at the PC when the pipeline is empty) is not aborted
and decodes to `i`, the step is exec of `i` and then the boundary, refused when that takes PROG32 or DATA32 LOW (93 U1). exec runs at the state in which the fetches that fill the
pipeline have been made, and which differs in nothing else. -/
def Obligations.StepRunsInstruction : Prop :=
  ∀ (s : State) (i : Instr), s.running = true →
    (match s.pipe with
      | [] =>
        let e := s.cycle (s.fetchCycle true s.pc)
        e.aborts s.pc s.fetchAttrs = false ∧ decodeWord (e.busWord s.pc s.fetchAttrs) = i
      | slot :: _ => slot.aborted = false ∧ decodeWord slot.word = i) →
    Machine.step s =
      (match Machine.exec i s.startCycle with
        | .next t =>
          let u := s.startCycle.boundary t
          if u.inputs.PROG32 ∧ u.inputs.DATA32 then .next u else .refused .configuration26Bit
        | .fault f => .fault f
        | .refused r => .refused r) ∧
    s.startCycle = { State.passing { s with bus := [] } s.startCycle.bus with pipe := s.startCycle.pipe } ∧
    s.pipe <+: s.startCycle.pipe ∧ s.startCycle.pipe.length = max 3 s.pipe.length

/-- R34, R390, R392: a boundary at which no enabled interrupt is requested: the pipeline is refilled, the environment
acts, and the registers, the PC and the status registers stay. When nothing comes from outside, memory and pins stay
too. That the I and F which count are those after the instruction just finished is the spec's decision D15
(notes/assumptions/18.md), and that an event's pins and moments replace the old ones is the model's choice
(notes/assumptions/29.md). -/
def Obligations.BoundaryWithoutInterrupt : Prop :=
  ∀ start s : State, s.nextInputs.nRESET = true → (s.nextInputs.nFIQ = true ∨ psrF s.cpsr = true) →
    (s.nextInputs.nIRQ = true ∨ psrI s.cpsr = true) →
    let t := start.boundary s
    t.regs = s.regs ∧ t.pc = s.pc ∧ t.cpsr = s.cpsr ∧ t.spsrs = s.spsrs ∧ t.ldmShadow = s.ldmShadow ∧
    t.busyWait = s.busyWait ∧ t.coprocs = s.coprocs ∧ t.tick = s.tick + 1 ∧ s.pipe <+: t.pipe ∧
    t.pipe.length = max 2 s.pipe.length ∧ t.schedule = s.schedule.tail ∧
    (∀ e rest, s.schedule = e :: rest → t.inputs = e.inputs ∧ t.moments = e.moments ∧
      (s.noBusWrites = true → t.mem = s.mem.setAll e.busWrites)) ∧
    (s.schedule = [] → s.moments = [] → t.inputs = s.inputs ∧ t.moments = [] ∧ t.mem = s.mem)

/-- R385: a word whose fetch was aborted, when it comes to execute, is the prefetch abort: R14_abt gets its address plus
4, whatever the word (its condition is not looked at: the spec's decision D13, notes/assumptions/15.md). -/
def Obligations.PrefetchAbort : Prop :=
  ∀ s : State, s.running = true → s.quiet = true →
    (match s.pipe with
      | [] => s.aborts s.pc s.fetchAttrs = true
      | slot :: _ => slot.aborted = true) →
    ∃ t, Machine.step s = .next t ∧ Enters s t .abt 0x0000000C#32 (s.pc + 4#32) false

/-- The invariant: every step keeps the PC a word address (R28), the mode one of the six (R23), the reserved bits of
every PSR 0 (R36; the spec's decision D6, notes/assumptions/8.md), the pipeline at most three words (R41) and the memory
in canonical form. -/
def Obligations.StepKeepsSound : Prop :=
  ∀ s t : State, s.sound = true → Machine.step s = .next t → t.sound = true

/-- R8, R11, 93 U1, U2 and U35: the step refuses the 26-bit configuration, and an illegal mode whatever nRESET is. A step that
answers a next state has seen PROG32 and DATA32 HIGH, at its start, at its boundary and at its end. -/
def Obligations.StepRefusals : Prop :=
  ∀ s : State,
    (s.inputs.PROG32 = false ∨ s.inputs.DATA32 = false → Machine.step s = .refused .configuration26Bit) ∧
    (s.inputs.PROG32 = true → s.inputs.DATA32 = true → Mode.ofBits (psrMode s.cpsr) = none →
      Machine.step s = .refused .illegalMode) ∧
    (∀ t, Machine.step s = .next t → ∀ i ∈ [s.inputs, s.nextInputs, t.inputs], i.PROG32 = true ∧ i.DATA32 = true)

/-! ## Reset and interrupts -/

/-- R46: PC 0, Supervisor mode, I and F set, the pipeline empty; and the invariant holds after reset. -/
def Obligations.ResetState : Prop :=
  State.reset.sound = true ∧ State.reset.pc = 0#32 ∧ psrMode State.reset.cpsr = 0b10011#5 ∧ psrI State.reset.cpsr = true ∧
    psrF State.reset.cpsr = true ∧ State.reset.pipe = []

/-- R421: while nRESET stays LOW no instruction runs, and dummy fetches go on from rising word addresses. That a step is
exactly one such fetch, at the PC, which then goes on by 4, is the model's choice (the spec's decision D22,
notes/assumptions/26.md). -/
def Obligations.HeldInReset : Prop :=
  ∀ s : State, s.inputs.PROG32 = true → s.inputs.DATA32 = true → (Mode.ofBits (psrMode s.cpsr)).isSome = true →
    s.inputs.nRESET = false → s.nextInputs.nRESET = false → s.nextInputs.supported = true →
    ∃ t, Machine.step s = .next t ∧ t.pc = s.pc + 4#32 ∧ t.pipe = [] ∧ t.bus = [s.fetchCycle true s.pc] ∧
      KeepsRegs s t ∧ t.cpsr = s.cpsr ∧ t.spsrs = s.spsrs ∧ t.coprocs = s.coprocs ∧
      (s.soleMaster = true → t.mem = s.mem)

/-- R422, R423: when nRESET goes HIGH again the machine is in Supervisor mode at address 0 with I and F set; the flags,
every register but R14_svc, every SPSR but SPSR_svc and the memory are as they were. That the sequence runs in the step
whose boundary takes nRESET HIGH, after as little as one step with nRESET LOW, is the model's choice (the spec's decision
D22, notes/assumptions/26.md). -/
def Obligations.ResetSequence : Prop :=
  ∀ s : State, s.inputs.PROG32 = true → s.inputs.DATA32 = true → (Mode.ofBits (psrMode s.cpsr)).isSome = true →
    s.inputs.nRESET = false → s.nextInputs.nRESET = true → s.nextInputs.supported = true →
    ∃ t, Machine.step s = .next t ∧ t.pc = 0#32 ∧ psrMode t.cpsr = 0b10011#5 ∧ psrI t.cpsr = true ∧
      psrF t.cpsr = true ∧ t.flags = s.flags ∧ (∀ q, q ≠ .r14 .svc → t.gpr q = s.gpr q) ∧
      (∀ m, m ≠ .svc → t.spsrs.get? m = s.spsrs.get? m) ∧ t.coprocs = s.coprocs ∧
      (s.soleMaster = true → t.mem = s.mem)

/-- R393, R421: nRESET going LOW comes before a data abort and both interrupts: no exception is entered, whatever the
instruction that began in `start` did, and the dummy fetches go on where its fetches had come to. The registers, flags,
SPSRs and the bytes the instruction stored are left open (93 U23): those of its write cycles which the reference memory
serves, in the byte order of each, but for the write of a swap whose read was aborted. The PC, the mode, I and F and every
other byte are the model's choice (notes/assumptions/17.md, 26.md), and so is the type of the first dummy fetch
(notes/assumptions/31.md). -/
def Obligations.ResetGoesLow : Prop :=
  ∀ (start s : State) (e : Event) (rest : List Event), s.schedule = e :: rest → e.inputs.nRESET = false →
    s.mem.wf = true →
    let t := start.boundary s
    let cycles := s.bus.drop start.bus.length
    let during := fun i : Nat => start.passing (cycles.take (i + 1))
    t.pc = start.pc + BitVec.ofNat 32 (4 * start.pipe.length) ∧ t.pipe = [] ∧
      t.cpsr.extractLsb' 0 28 = start.cpsr.extractLsb' 0 28 ∧ t.inputs = e.inputs ∧ t.moments = e.moments ∧
      t.schedule = rest ∧ t.coprocs = s.coprocs ∧ t.bus = s.bus ∧
      (∀ c ∈ s.bus.getLast?, t.seq =
        if c.type = .i then some c.addr else if c.attrs.nOPC then none else some (c.addr + 4#32)) ∧
      ∀ k, (∀ w ∈ e.busWrites, w.1 % 2 ^ 32 ≠ k) →
        (∀ i c, cycles[i]? = some c → c.attrs.nRW = true → c.attrs.nOPC = true → c.type ≠ .c →
          (during i).reply c.addr c.attrs = none →
          (∀ d, cycles[i - 1]? = some d → 0 < i → d.attrs.LOCK = true → d.attrs.nRW = false →
            (during (i - 1)).aborts d.addr d.attrs = false) →
          if c.attrs.nBW then k / 4 ≠ c.addr.toNat / 4 else k ≠ laneKey (during i).inputs.BIGEND c.addr) →
        t.mem.get k = s.mem.get k

/-- R391, R393: an FIQ request with F clear is taken at the boundary, before an IRQ request. It breaks off a coprocessor
busy-wait (R344). That the F which counts is the one after the instruction just finished, so that an FIQ is taken at the
boundary of the instruction that clears it, is the spec's decision D15 (R390, R239, notes/assumptions/18.md). That every coprocessor sees this is the model's form of nCPI (notes/assumptions/28.md), that the event
after the entry is read at the same boundary its form of R390 (notes/assumptions/29.md), and that the entry ends the hazard of a
User bank LDM its choice (notes/assumptions/3.md). -/
def Obligations.FiqTaken : Prop :=
  ∀ start s : State, s.nextInputs.supported = true → s.nextInputs.nRESET = true → s.nextInputs.nFIQ = false → psrF s.cpsr = false →
    (∀ e, s.schedule[1]? = some e → e.inputs.nRESET = true) →
    let t := start.boundary s
    EntersMode s t .fiq 0x0000001C#32 (s.pc + 4#32) true ∧ t.pipe.length = 2 ∧ t.ldmShadow = false ∧
      t.busyWait = false ∧
      t.coprocs = (if s.busyWait then s.coprocs.map (Coproc.tell [.brokenOff]) else s.coprocs) ∧
      (s.soleMaster = true → t.mem = s.mem)

/-- R394: an IRQ request with I clear is taken at the boundary when no FIQ is, there or right after the entry. It breaks off
a coprocessor busy-wait (R344). That the I and F which count are those after the instruction just finished, so that an IRQ is
taken at the boundary of the instruction that clears I, is the spec's decision D15 (R390, R239, notes/assumptions/18.md). That every coprocessor sees this is the model's form of nCPI (notes/assumptions/28.md), that the
event after the entry is read at the same boundary its form of R390 (notes/assumptions/29.md), and that the entry ends the hazard
of a User bank LDM its choice (notes/assumptions/3.md). -/
def Obligations.IrqTaken : Prop :=
  ∀ start s : State, s.nextInputs.supported = true → s.nextInputs.nRESET = true → (s.nextInputs.nFIQ = true ∨ psrF s.cpsr = true) →
    s.nextInputs.nIRQ = false → psrI s.cpsr = false →
    (∀ e, s.schedule[1]? = some e → e.inputs.nRESET = true ∧ (e.inputs.nFIQ = true ∨ psrF s.cpsr = true)) →
    let t := start.boundary s
    EntersMode s t .irq 0x00000018#32 (s.pc + 4#32) false ∧ t.pipe.length = 2 ∧ t.ldmShadow = false ∧
      t.busyWait = false ∧
      t.coprocs = (if s.busyWait then s.coprocs.map (Coproc.tell [.brokenOff]) else s.coprocs) ∧
      (s.soleMaster = true → t.mem = s.mem)

/-- R398: a data abort together with an enabled FIQ: the abort entry, then the FIQ entry, whose return address leads to
the abort handler and whose SPSR is the Abort-mode CPSR. That the event after the entry is read at the same boundary is the
model's form of R390 (notes/assumptions/29.md). -/
def Obligations.AbortThenFiq : Prop :=
  ∀ start s : State, s.nextInputs.supported = true → s.nextInputs.nRESET = true → s.nextInputs.nFIQ = false → psrF s.cpsr = false →
    (∀ e, s.schedule[1]? = some e → e.inputs.nRESET = true) →
    let t := start.boundary s.dataAbort
    t.pc = 0x0000001C#32 ∧ psrMode t.cpsr = 0b10001#5 ∧ psrI t.cpsr = true ∧ psrF t.cpsr = true ∧
    t.gpr (.r14 .abt) = s.pc + 8#32 ∧ t.gpr (.r14 .fiq) = 0x00000014#32 ∧
    (∀ q, q ≠ .r14 .abt → q ≠ .r14 .fiq → t.gpr q = s.gpr q) ∧
    t.spsrs.get? .abt = some s.cpsr ∧
    (∃ p, t.spsrs.get? .fiq = some p ∧ psrMode p = 0b10111#5 ∧ psrI p = true ∧ psrF p = false ∧ psrFlags p = s.flags) ∧
    (∀ m, m ≠ .abt → m ≠ .fiq → t.spsrs.get? m = s.spsrs.get? m)

/-! ## Conditional execution -/

/-- R160: an instruction whose condition fails only goes on to the next. -/
def Obligations.ConditionFails : Prop :=
  ∀ (i : Instr) (s : State), condPasses i.cond s.flags = false →
    ∃ t, Machine.exec i s = .next t ∧ GoesOn s t ∧ KeepsRegs s t ∧ t.cpsr = s.cpsr ∧ KeepsBytes s t ∧
      KeepsSystem s t

/-- R161: when each condition code passes. The codes but EQ and AL are the family's (notes/assumptions/21.md), and that NV
is never executed is the spec's decision D12 (notes/assumptions/9.md). -/
def Obligations.ConditionTable : Prop :=
  ∀ f : Flags,
    let passes := fun code : BitVec 4 => condPasses (Cond.ofBits code) f
    passes 0b0000#4 = f.z ∧ passes 0b0001#4 = !f.z ∧ passes 0b0010#4 = f.c ∧ passes 0b0011#4 = !f.c ∧
    passes 0b0100#4 = f.n ∧ passes 0b0101#4 = !f.n ∧ passes 0b0110#4 = f.v ∧ passes 0b0111#4 = !f.v ∧
    (passes 0b1000#4 = true ↔ f.c = true ∧ f.z = false) ∧
    (passes 0b1001#4 = true ↔ f.c = false ∨ f.z = true) ∧
    (passes 0b1010#4 = true ↔ f.n = f.v) ∧ (passes 0b1011#4 = true ↔ f.n ≠ f.v) ∧
    (passes 0b1100#4 = true ↔ f.z = false ∧ f.n = f.v) ∧
    (passes 0b1101#4 = true ↔ f.z = true ∨ f.n ≠ f.v) ∧
    passes 0b1110#4 = true ∧ passes 0b1111#4 = false

/-! ## Branch -/

/-- R170, R171, R172: B and BL go to their address plus 8 plus four times the signed offset; BL writes the address of the
next instruction to R14 of the current mode, and B leaves R14. That the sums are taken modulo 2^32 is the spec's decision D5
(R173, notes/assumptions/23.md). -/
def Obligations.BranchEffect : Prop :=
  ∀ (c : Cond) (offset : BitVec 24) (s : State), condPasses c s.flags = true → s.pc.toNat % 4 = 0 →
    let target := s.pc + 8#32 + 4#32 * offset.signExtend 32
    (∃ t, Machine.exec (.b c offset) s = .next t ∧ t.pc = target ∧ t.pipe = [] ∧ t.ldmShadow = false ∧
      t.busyWait = false ∧ t.seq = none ∧
      KeepsRegs s t ∧ t.cpsr = s.cpsr ∧ KeepsBytes s t ∧ KeepsSystem s t) ∧
    (∃ t, Machine.exec (.bl c offset) s = .next t ∧ t.pc = target ∧ t.pipe = [] ∧ t.ldmShadow = false ∧
      t.busyWait = false ∧ t.seq = none ∧
      WritesReg s t 14#4 (s.pc + 4#32) ∧ t.cpsr = s.cpsr ∧ KeepsBytes s t ∧ KeepsSystem s t)

/-! ## Data processing -/

/-- R196, R200, R201, R212 to R215: AND, EOR, ORR, MOV, BIC, MVN with a destination other than R15.
The pins of an internal cycle beside its type and address are the model's choice (notes/assumptions/31.md). -/
def Obligations.LogicalOperations : Prop :=
  ∀ x ∈ ([(.and, fun a b => a &&& b), (.eor, fun a b => a ^^^ b), (.orr, fun a b => a ||| b), (.mov, fun _ b => b),
      (.bic, fun a b => a &&& ~~~b), (.mvn, fun _ b => ~~~b)] :
      List ((Cond → Bool → RegNum → RegNum → Operand2 → Instr) × (Word → Word → Word))),
  ∀ (c : Cond) (sBit : Bool) (rn rd : RegNum) (op2 : Operand2) (s : State),
    condPasses c s.flags = true → amountIsPc op2 = false → rd ≠ 15#4 →
    let e := s.passing (s.shiftCycles op2)
    let v := x.2 (s.reg rn (pcAhead op2)) (s.operand2 op2).1
    ∃ t, Machine.exec (x.1 c sBit rn rd op2) s = .next t ∧ WritesReg s t rd v ∧
      (if sBit then
          SetsFlags s t { n := v.getLsbD 31, z := decide (v = 0#32), c := (s.operand2 op2).2, v := s.flags.v }
        else t.cpsr = s.cpsr) ∧
      GoesOn e t ∧ KeepsBytes e t ∧ KeepsSystem e t

/-- R197, R204, R205: ADD and ADC with a destination other than R15: C is the carry out of the unsigned sum, V says that
the signed sum does not fit.
The pins of an internal cycle beside its type and address are the model's choice (notes/assumptions/31.md). -/
def Obligations.Additions : Prop :=
  ∀ x ∈ ([(.add, fun a b _ => a + b), (.adc, fun a b carry => a + b + carry)] :
      List ((Cond → Bool → RegNum → RegNum → Operand2 → Instr) × (Int → Int → Int → Int))),
  ∀ (c : Cond) (sBit : Bool) (rn rd : RegNum) (op2 : Operand2) (s : State),
    condPasses c s.flags = true → amountIsPc op2 = false → rd ≠ 15#4 →
    let e := s.passing (s.shiftCycles op2)
    let a := s.reg rn (pcAhead op2)
    let b := (s.operand2 op2).1
    let carry : Int := if s.flags.c then 1 else 0
    let exact := x.2 a.toNat b.toNat carry
    let signed := x.2 a.toInt b.toInt carry
    let v := BitVec.ofInt 32 exact
    ∃ t, Machine.exec (x.1 c sBit rn rd op2) s = .next t ∧ WritesReg s t rd v ∧
      (if sBit then
          SetsFlags s t
            { n := v.getLsbD 31
              z := decide (v = 0#32)
              c := decide (2 ^ 32 ≤ exact)
              v := decide (signed < -2 ^ 31 ∨ 2 ^ 31 ≤ signed) }
        else t.cpsr = s.cpsr) ∧
      GoesOn e t ∧ KeepsBytes e t ∧ KeepsSystem e t

/-- R197, R202, R203, R206, R207: SUB, RSB, SBC, RSC with a destination other than R15: C says that the unsigned
difference is no borrow, V that the signed difference does not fit.
The pins of an internal cycle beside its type and address are the model's choice (notes/assumptions/31.md). -/
def Obligations.Subtractions : Prop :=
  ∀ x ∈ ([(.sub, fun a b _ => a - b), (.rsb, fun a b _ => b - a), (.sbc, fun a b carry => a - b + carry - 1),
        (.rsc, fun a b carry => b - a + carry - 1)] :
      List ((Cond → Bool → RegNum → RegNum → Operand2 → Instr) × (Int → Int → Int → Int))),
  ∀ (c : Cond) (sBit : Bool) (rn rd : RegNum) (op2 : Operand2) (s : State),
    condPasses c s.flags = true → amountIsPc op2 = false → rd ≠ 15#4 →
    let e := s.passing (s.shiftCycles op2)
    let a := s.reg rn (pcAhead op2)
    let b := (s.operand2 op2).1
    let carry : Int := if s.flags.c then 1 else 0
    let exact := x.2 a.toNat b.toNat carry
    let signed := x.2 a.toInt b.toInt carry
    let v := BitVec.ofInt 32 exact
    ∃ t, Machine.exec (x.1 c sBit rn rd op2) s = .next t ∧ WritesReg s t rd v ∧
      (if sBit then
          SetsFlags s t
            { n := v.getLsbD 31
              z := decide (v = 0#32)
              c := decide (0 ≤ exact)
              v := decide (signed < -2 ^ 31 ∨ 2 ^ 31 ≤ signed) }
        else t.cpsr = s.cpsr) ∧
      GoesOn e t ∧ KeepsBytes e t ∧ KeepsSystem e t

/-- R198, R208, R209: TST and TEQ with Rd not R15 set the flags of AND and EOR and write nothing else.
The pins of an internal cycle beside its type and address are the model's choice (notes/assumptions/31.md). -/
def Obligations.Tests : Prop :=
  ∀ x ∈ ([(.tst, fun a b => a &&& b), (.teq, fun a b => a ^^^ b)] :
      List ((Cond → RegNum → RegNum → Operand2 → Instr) × (Word → Word → Word))),
  ∀ (c : Cond) (rn rd : RegNum) (op2 : Operand2) (s : State),
    condPasses c s.flags = true → amountIsPc op2 = false → rd ≠ 15#4 →
    let e := s.passing (s.shiftCycles op2)
    let v := x.2 (s.reg rn (pcAhead op2)) (s.operand2 op2).1
    ∃ t, Machine.exec (x.1 c rn rd op2) s = .next t ∧ KeepsRegs s t ∧
      SetsFlags s t { n := v.getLsbD 31, z := decide (v = 0#32), c := (s.operand2 op2).2, v := s.flags.v } ∧
      GoesOn e t ∧ KeepsBytes e t ∧ KeepsSystem e t

/-- R198, R210, R211: CMP and CMN with Rd not R15 set the flags of SUB and ADD and write nothing else: after CMP, Z says
equal, C unsigned higher or same, and N = V signed greater or equal.
The pins of an internal cycle beside its type and address are the model's choice (notes/assumptions/31.md). -/
def Obligations.Comparisons : Prop :=
  ∀ (c : Cond) (rn rd : RegNum) (op2 : Operand2) (s : State),
    condPasses c s.flags = true → amountIsPc op2 = false → rd ≠ 15#4 →
    let e := s.passing (s.shiftCycles op2)
    let a := s.reg rn (pcAhead op2)
    let b := (s.operand2 op2).1
    (∃ t, Machine.exec (.cmp c rn rd op2) s = .next t ∧ KeepsRegs s t ∧
      SetsFlags s t
        { n := (a - b).getLsbD 31
          z := decide (a = b)
          c := decide (b.toNat ≤ a.toNat)
          v := decide ((a - b).toInt ≠ a.toInt - b.toInt) } ∧
      (t.flags.n = t.flags.v ↔ b.toInt ≤ a.toInt) ∧
      GoesOn e t ∧ KeepsBytes e t ∧ KeepsSystem e t) ∧
    (∃ t, Machine.exec (.cmn c rn rd op2) s = .next t ∧ KeepsRegs s t ∧
      SetsFlags s t
        { n := (a + b).getLsbD 31
          z := decide (a + b = 0#32)
          c := decide (2 ^ 32 ≤ a.toNat + b.toNat)
          v := decide ((a + b).toInt ≠ a.toInt + b.toInt) } ∧
      GoesOn e t ∧ KeepsBytes e t ∧ KeepsSystem e t)

/-- R194: with Rd = R15 and S = 0 the twelve writing operations branch to their result and leave the CPSR. That bits 1 and 0
of the result are dropped (R30) is the spec's decision D4 (notes/assumptions/22.md).
The pins of an internal cycle beside its type and address are the model's choice (notes/assumptions/31.md). -/
def Obligations.ResultToPc : Prop :=
  ∀ x ∈ writingOps, ∀ (c : Cond) (rn : RegNum) (op2 : Operand2) (s : State),
    condPasses c s.flags = true → amountIsPc op2 = false →
    let e := s.passing (s.shiftCycles op2)
    ∃ t, Machine.exec (x.1 c false rn 15#4 op2) s = .next t ∧
      GoesTo t (x.2 s.flags (s.reg rn (pcAhead op2)) (s.operand2 op2).1 (s.operand2 op2).2).value ∧
      KeepsRegs s t ∧ t.cpsr = s.cpsr ∧ KeepsBytes e t ∧ KeepsSystem e t

/-- R194, R395: with Rd = R15 and S = 1, in a mode that has an SPSR, the twelve writing operations return: the PC and the
CPSR change at once. In User mode they are refused (93 U5), and so is an SPSR that holds no legal mode (U2). That bits 1 and
0 of the return address are dropped is the spec's decision D4 (notes/assumptions/22.md).
The pins of an internal cycle beside its type and address are the model's choice (notes/assumptions/31.md). -/
def Obligations.ReturnByResult : Prop :=
  ∀ x ∈ writingOps, ∀ (c : Cond) (rn : RegNum) (op2 : Operand2) (s : State),
    condPasses c s.flags = true → amountIsPc op2 = false →
    let e := s.passing (s.shiftCycles op2)
    (∀ saved, s.canReturn saved → psrDefined saved = true →
      ∃ t, Machine.exec (x.1 c true rn 15#4 op2) s = .next t ∧
        GoesTo t (x.2 s.flags (s.reg rn (pcAhead op2)) (s.operand2 op2).1 (s.operand2 op2).2).value ∧
        KeepsRegs s t ∧ t.cpsr = saved ∧ KeepsBytes e t ∧ KeepsSystem e t) ∧
    (s.mode = .usr → Machine.exec (x.1 c true rn 15#4 op2) s = .refused .returnInUserMode) ∧
    (∀ saved, s.spsr? = some saved → Mode.ofBits (psrMode saved) = none →
      Machine.exec (x.1 c true rn 15#4 op2) s = .refused .illegalMode)

/-- R199: TST, TEQ, CMP and CMN with Rd = R15 copy the SPSR to the CPSR in a privileged mode and do nothing in User
mode; an SPSR that holds no legal mode is refused (93 U2). That all four opcodes have the form is the family's
(notes/assumptions/25.md).
The pins of an internal cycle beside its type and address are the model's choice (notes/assumptions/31.md). -/
def Obligations.ObsoleteForms : Prop :=
  ∀ mk ∈ comparingOps, ∀ (c : Cond) (rn : RegNum) (op2 : Operand2) (s : State),
    condPasses c s.flags = true → amountIsPc op2 = false →
    let e := s.passing (s.shiftCycles op2)
    (∀ saved, s.canReturn saved → psrDefined saved = true →
      ∃ t, Machine.exec (mk c rn 15#4 op2) s = .next t ∧ t.cpsr = saved ∧ KeepsRegs s t ∧ GoesOn e t ∧
        KeepsBytes e t ∧ KeepsSystem e t) ∧
    (s.mode = .usr →
      ∃ t, Machine.exec (mk c rn 15#4 op2) s = .next t ∧ t.cpsr = s.cpsr ∧ KeepsRegs s t ∧ GoesOn e t ∧
        KeepsBytes e t ∧ KeepsSystem e t) ∧
    (∀ saved, s.spsr? = some saved → Mode.ofBits (psrMode saved) = none →
      Machine.exec (mk c rn 15#4 op2) s = .refused .illegalMode)

/-! ## Operand 2 -/

/-- R183 to R187: a shift by the amount in the instruction, bit by bit. -/
def Obligations.ShiftsByAmount : Prop :=
  ∀ (rm : Word) (carry : Bool) (amount : BitVec 5),
    let n := amount.toNat
    (n = 0 →
      shiftByImm .lsl amount rm carry = (rm, carry) ∧
      shiftByImm .lsr amount rm carry = (0#32, rm.getLsbD 31) ∧
      shiftByImm .asr amount rm carry = ((if rm.getLsbD 31 then 0xFFFFFFFF#32 else 0#32), rm.getLsbD 31) ∧
      (∀ i, i < 31 → (shiftByImm .ror amount rm carry).1.getLsbD i = rm.getLsbD (i + 1)) ∧
      (shiftByImm .ror amount rm carry).1.getLsbD 31 = carry ∧
      (shiftByImm .ror amount rm carry).2 = rm.getLsbD 0) ∧
    (1 ≤ n → ∀ i, i < 32 →
      (shiftByImm .lsl amount rm carry).1.getLsbD i = (decide (n ≤ i) && rm.getLsbD (i - n)) ∧
      (shiftByImm .lsl amount rm carry).2 = rm.getLsbD (32 - n) ∧
      (shiftByImm .lsr amount rm carry).1.getLsbD i = (decide (i + n < 32) && rm.getLsbD (i + n)) ∧
      (shiftByImm .lsr amount rm carry).2 = rm.getLsbD (n - 1) ∧
      (shiftByImm .asr amount rm carry).1.getLsbD i = rm.getLsbD (min (i + n) 31) ∧
      (shiftByImm .asr amount rm carry).2 = rm.getLsbD (n - 1) ∧
      (shiftByImm .ror amount rm carry).1.getLsbD i = rm.getLsbD ((i + n) % 32) ∧
      (shiftByImm .ror amount rm carry).2 = rm.getLsbD (n - 1))

/-- R188, R189: a shift by the bottom byte of a register: 0 changes nothing; 1 to 31 is the shift by that amount; 32 and
more is the logical extension; ROR repeats every 32. -/
def Obligations.ShiftsByRegister : Prop :=
  ∀ (rm : Word) (carry : Bool) (amount : Byte) (ty : ShiftType),
    let n := amount.toNat
    (n = 0 → shiftByReg ty amount rm carry = (rm, carry)) ∧
    (1 ≤ n → n < 32 → shiftByReg ty amount rm carry = shiftByImm ty (BitVec.ofNat 5 n) rm carry) ∧
    (n = 32 → shiftByReg .lsl amount rm carry = (0#32, rm.getLsbD 0) ∧
      shiftByReg .lsr amount rm carry = (0#32, rm.getLsbD 31) ∧
      shiftByReg .ror amount rm carry = (rm, rm.getLsbD 31)) ∧
    (32 < n → shiftByReg .lsl amount rm carry = (0#32, false) ∧ shiftByReg .lsr amount rm carry = (0#32, false) ∧
      shiftByReg .ror amount rm carry = shiftByReg .ror (amount - 32#8) rm carry) ∧
    (32 ≤ n → shiftByReg .asr amount rm carry =
      ((if rm.getLsbD 31 then 0xFFFFFFFF#32 else 0#32), rm.getLsbD 31))

/-- R127, R191: the rotated immediate bit by bit. The carry (the model's choice, the spec's decision D14,
notes/assumptions/11.md) is kept for no rotation and is bit 31 of the value otherwise. -/
def Obligations.RotatedImmediate : Prop :=
  ∀ (rot : BitVec 4) (imm8 : BitVec 8) (s : State),
    (∀ i, i < 32 → (s.operand2 (.imm rot imm8)).1.getLsbD i = imm8.getLsbD ((i + 2 * rot.toNat) % 32)) ∧
    (rot = 0#4 → (s.operand2 (.imm rot imm8)).2 = s.flags.c) ∧
    (rot ≠ 0#4 → (s.operand2 (.imm rot imm8)).2 = (s.operand2 (.imm rot imm8)).1.getLsbD 31)

/-! ## PSR transfer -/

/-- R232: MRS reads all 32 bits of the CPSR in every mode, and of the SPSR of the current mode. -/
def Obligations.ReadPsr : Prop :=
  ∀ (c : Cond) (rd : RegNum) (s : State), condPasses c s.flags = true → rd ≠ 15#4 →
    (∃ t, Machine.exec (.mrs c false rd) s = .next t ∧ WritesReg s t rd s.cpsr ∧ t.cpsr = s.cpsr ∧ GoesOn s t ∧
      KeepsBytes s t ∧ KeepsSystem s t) ∧
    (∀ saved, s.spsr? = some saved →
      ∃ t, Machine.exec (.mrs c true rd) s = .next t ∧ WritesReg s t rd saved ∧ t.cpsr = s.cpsr ∧ GoesOn s t ∧
        KeepsBytes s t ∧ KeepsSystem s t)

/-- R233, R239: MSR to the whole CPSR writes every defined bit in a privileged mode and only the flags in User mode; a
mode that is none of the six is refused (93 U2). MSR to the whole SPSR writes every defined bit of the SPSR of the current
mode and no other SPSR. That the reserved bits are not kept is the spec's decision D6 (notes/assumptions/8.md). -/
def Obligations.WritePsr : Prop :=
  ∀ (c : Cond) (rm : RegNum) (s : State), condPasses c s.flags = true → rm ≠ 15#4 →
    let v := s.reg rm 0#32
    (s.mode = .usr →
      ∃ t, Machine.exec (.msrRegAll c false rm) s = .next t ∧ SetsFlags s t (psrFlags v) ∧ KeepsRegs s t ∧
        GoesOn s t ∧ KeepsBytes s t ∧ KeepsSystem s t) ∧
    (s.mode ≠ .usr → (Mode.ofBits (psrMode v)).isSome = true →
      ∃ t, Machine.exec (.msrRegAll c false rm) s = .next t ∧ t.cpsr = v &&& 0xF00000DF#32 ∧ KeepsRegs s t ∧
        GoesOn s t ∧ KeepsBytes s t ∧ KeepsSystem s t) ∧
    (s.mode ≠ .usr → Mode.ofBits (psrMode v) = none →
      Machine.exec (.msrRegAll c false rm) s = .refused .illegalMode) ∧
    (s.mode ≠ .usr →
      ∃ t, Machine.exec (.msrRegAll c true rm) s = .next t ∧ t.spsrs.get? s.mode = some (v &&& 0xF00000DF#32) ∧
        (∀ m, m ≠ s.mode → t.spsrs.get? m = s.spsrs.get? m) ∧ t.cpsr = s.cpsr ∧ KeepsRegs s t ∧ GoesOn s t ∧
        KeepsBytes s t ∧ KeepsPlatform s t ∧ t.coprocs = s.coprocs)

/-- R234, R235: MSR of a register or a rotated immediate to the flag bits writes the top four bits of the CPSR in every
mode, or of the SPSR of the current mode, whose other bits and the other SPSRs stay. -/
def Obligations.WritePsrFlags : Prop :=
  ∀ (c : Cond) (s : State), condPasses c s.flags = true →
    ∀ (make : Bool → Instr) (v : Word),
      (∃ rm, rm ≠ 15#4 ∧ make = (fun pd => .msrRegFlg c pd rm) ∧ v = s.reg rm 0#32) ∨
        (∃ rot imm8, make = (fun pd => .msrImmFlg c pd rot imm8) ∧ v = (s.operand2 (.imm rot imm8)).1) →
      (∃ t, Machine.exec (make false) s = .next t ∧ SetsFlags s t (psrFlags v) ∧ KeepsRegs s t ∧ GoesOn s t ∧
        KeepsBytes s t ∧ KeepsSystem s t) ∧
      (∀ old, s.spsr? = some old →
        ∃ t new, Machine.exec (make true) s = .next t ∧ t.spsrs.get? s.mode = some new ∧ psrFlags new = psrFlags v ∧
          new.extractLsb' 0 28 = old.extractLsb' 0 28 ∧ (∀ m, m ≠ s.mode → t.spsrs.get? m = s.spsrs.get? m) ∧
          t.cpsr = s.cpsr ∧ KeepsRegs s t ∧ GoesOn s t ∧ KeepsBytes s t ∧ KeepsPlatform s t ∧ t.coprocs = s.coprocs)

/-- R188, R236, R237 (93 U6, U8, U9): a shift amount in R15, the SPSR in User mode and R15 in a PSR transfer are
refused. -/
def Obligations.OperandRefusals : Prop :=
  ∀ (c : Cond) (s : State), condPasses c s.flags = true →
    (∀ (rn rd rm : RegNum) (ty : ShiftType),
      (∀ x ∈ writingOps, ∀ sBit,
        Machine.exec (x.1 c sBit rn rd (.shiftReg rm ty 15#4)) s = .refused .pcAsShiftAmount) ∧
      (∀ mk ∈ comparingOps, Machine.exec (mk c rn rd (.shiftReg rm ty 15#4)) s = .refused .pcAsShiftAmount)) ∧
    (s.mode = .usr → ∀ (r : RegNum) (rot : BitVec 4) (imm8 : BitVec 8), r ≠ 15#4 →
      Machine.exec (.mrs c true r) s = .refused .spsrInUserMode ∧
      Machine.exec (.msrRegAll c true r) s = .refused .spsrInUserMode ∧
      Machine.exec (.msrRegFlg c true r) s = .refused .spsrInUserMode ∧
      Machine.exec (.msrImmFlg c true rot imm8) s = .refused .spsrInUserMode) ∧
    (∀ p : Bool, Machine.exec (.mrs c p 15#4) s = .refused .pcInPsrTransfer ∧
      Machine.exec (.msrRegAll c p 15#4) s = .refused .pcInPsrTransfer ∧
      Machine.exec (.msrRegFlg c p 15#4) s = .refused .pcInPsrTransfer)

/-! ## Multiply -/

/-- R250 to R253: MUL and MLA give the low 32 bits; with S = 1, N and Z are those of the result, V stays and C may be
either value; after the first cycle there are m internal ones, by the size of Rs. R15 as an operand or destination is
refused (R254, 93 U12): the spec's decision D3 (notes/assumptions/39.md).
The pins of an internal cycle beside its type and address are the model's choice (notes/assumptions/31.md). -/
def Obligations.MultiplyEffect : Prop :=
  ∀ (c : Cond) (sBit : Bool) (rd rn rs rm : RegNum) (s : State), condPasses c s.flags = true →
    let m := multiplyCycles (s.reg rs 0#32)
    let e := s.passing (List.replicate m s.idle)
    let product := (s.reg rm 0#32).toNat * (s.reg rs 0#32).toNat
    (1 ≤ m ∧ m ≤ 16 ∧ (m < 16 → (s.reg rs 0#32).toNat < 2 ^ (2 * m - 1)) ∧
      (1 < m → 2 ^ (2 * m - 3) ≤ (s.reg rs 0#32).toNat)) ∧
    (rd ≠ 15#4 → rs ≠ 15#4 → rm ≠ 15#4 →
      ∃ t carry, Machine.exec (.mul c sBit rd rn rs rm) s = .next t ∧
        WritesReg s t rd (BitVec.ofNat 32 product) ∧
        (if sBit then
            SetsFlags s t
              { n := (BitVec.ofNat 32 product).getLsbD 31
                z := decide (product % 2 ^ 32 = 0)
                c := carry
                v := s.flags.v }
          else t.cpsr = s.cpsr) ∧
        GoesOn e t ∧ KeepsBytes e t ∧ KeepsSystem e t) ∧
    (rd ≠ 15#4 → rs ≠ 15#4 → rm ≠ 15#4 → rn ≠ 15#4 →
      ∃ t carry, Machine.exec (.mla c sBit rd rn rs rm) s = .next t ∧
        WritesReg s t rd (BitVec.ofNat 32 (product + (s.reg rn 0#32).toNat)) ∧
        (if sBit then
            SetsFlags s t
              { n := (BitVec.ofNat 32 (product + (s.reg rn 0#32).toNat)).getLsbD 31
                z := decide ((product + (s.reg rn 0#32).toNat) % 2 ^ 32 = 0)
                c := carry
                v := s.flags.v }
          else t.cpsr = s.cpsr) ∧
        GoesOn e t ∧ KeepsBytes e t ∧ KeepsSystem e t) ∧
    (rd = 15#4 ∨ rs = 15#4 ∨ rm = 15#4 → Machine.exec (.mul c sBit rd rn rs rm) s = .refused .pcInMultiply) ∧
    (rd = 15#4 ∨ rs = 15#4 ∨ rm = 15#4 ∨ rn = 15#4 →
      Machine.exec (.mla c sBit rd rn rs rm) s = .refused .pcInMultiply)

/-! ## Single data transfer -/

/-- R261, R271: the offset, the modified base and the transfer address. That the sum is taken modulo 2^32 is the spec's
decision D5 (20_memory.md R83, notes/assumptions/23.md). -/
def Obligations.SingleAddresses : Prop :=
  ∀ (s : State) (p u : Bool) (rn rm : RegNum) (off : Offset) (imm : BitVec 12) (ty : ShiftType) (amount : BitVec 5),
    (s.offsetValue (.imm imm)).toNat = imm.toNat ∧
    (rm ≠ 15#4 → s.offsetValue (.reg rm ty amount) = (shiftByImm ty amount (s.reg rm 0#32) s.flags.c).1) ∧
    (s.modifiedBase u rn off).toNat =
      (if u then (s.reg rn 8#32).toNat + (s.offsetValue off).toNat
        else (s.reg rn 8#32).toNat + 2 ^ 32 - (s.offsetValue off).toNat) % 2 ^ 32 ∧
    s.singleAddress p u rn off = (if p then s.modifiedBase u rn off else s.reg rn 8#32)

/-- R262, R263, R266, R267, R268, R271: LDR, LDRB, LDRT, LDRBT of a register other than R15, when the data cycle is not
aborted: the value loaded, which wins over the write-back, and the written-back base. A post-indexed transfer with Rm = Rn,
which the statement includes, runs by the rules: the model's choice (93 U15, notes/assumptions/24.md).
The pins of an internal cycle beside its type and address are the model's choice (notes/assumptions/31.md). -/
def Obligations.LoadSingle : Prop :=
  ∀ (p w : Bool), ∀ x ∈ singleLoads p w, ∀ (c : Cond) (u : Bool) (rn rd : RegNum) (off : Offset) (s : State),
    condPasses c s.flags = true → rd ≠ 15#4 → (rn = 15#4 → x.p = true ∧ x.w = false) → offsetUsesPc off = false →
    let a := s.singleAddress x.p u rn off
    let attrs := s.transferAttrs x.user false x.byte
    let r := s.passing [readCycle .n a attrs]
    let e := s.passing (s.loadCycles a attrs)
    r.aborts a attrs = false →
    ∃ t, Machine.exec (x.instr c u rn rd off) s = .next t ∧
      (∀ q, t.gpr q =
        if phys s.mode rd = some q then r.loaded a attrs
        else if (x.p = false ∨ x.w = true) ∧ phys s.mode rn = some q then s.modifiedBase u rn off
        else s.gpr q) ∧
      t.cpsr = s.cpsr ∧ GoesOn e t ∧ KeepsBytes e t ∧ KeepsSystem e t

/-- R272: a load of R15 is a branch to the value loaded; the CPSR stays. That bits 1 and 0 are dropped is the spec's
decision D4 (notes/assumptions/22.md); a post-indexed transfer with Rm = Rn, which the statement includes, runs by the
rules: the model's choice (93 U15, notes/assumptions/24.md).
The pins of an internal cycle beside its type and address are the model's choice (notes/assumptions/31.md). -/
def Obligations.LoadPc : Prop :=
  ∀ (p w : Bool), ∀ x ∈ singleLoads p w, ∀ (c : Cond) (u : Bool) (rn : RegNum) (off : Offset) (s : State),
    condPasses c s.flags = true → (rn = 15#4 → x.p = true ∧ x.w = false) → offsetUsesPc off = false →
    let a := s.singleAddress x.p u rn off
    let attrs := s.transferAttrs x.user false x.byte
    let r := s.passing [readCycle .n a attrs]
    let e := s.passing (s.loadCycles a attrs)
    r.aborts a attrs = false →
    ∃ t, Machine.exec (x.instr c u rn 15#4 off) s = .next t ∧ GoesTo t (r.loaded a attrs) ∧
      (∀ q, t.gpr q =
        if (x.p = false ∨ x.w = true) ∧ phys s.mode rn = some q then s.modifiedBase u rn off else s.gpr q) ∧
      t.cpsr = s.cpsr ∧ KeepsBytes e t ∧ KeepsSystem e t

/-- R264, R265, R269, R270, R271, R272: STR, STRB, STRT, STRBT, when the data cycle is not aborted: the aligned word or
the byte stored, R15 as the instruction's address plus 12, every other byte, and the written-back base. That Rd = Rn
stores the old value (R271 (b)) and that an unaligned word goes to the aligned word are the spec's decisions D16 and D8
(notes/assumptions/12.md, 10.md); that a post-indexed transfer with Rm = Rn runs by the rules is the model's choice (93 U15,
notes/assumptions/24.md). -/
def Obligations.StoreSingle : Prop :=
  ∀ (p w : Bool), ∀ x ∈ singleStores p w, ∀ (c : Cond) (u : Bool) (rn rd : RegNum) (off : Offset) (s : State),
    condPasses c s.flags = true → (rn = 15#4 → x.p = true ∧ x.w = false) → offsetUsesPc off = false →
    s.mem.wf = true →
    let a := s.singleAddress x.p u rn off
    let v := if rd = 15#4 then s.pc + 12#32 else s.reg rd 0#32
    let attrs := s.transferAttrs x.user true x.byte
    let e := s.passing (storeCycles a attrs v)
    e.aborts a attrs = false →
    ∃ t, Machine.exec (x.instr c u rn rd off) s = .next t ∧ Stores e e.mem t.mem a attrs v ∧
      (∀ q, t.gpr q =
        if (x.p = false ∨ x.w = true) ∧ phys s.mode rn = some q then s.modifiedBase u rn off else s.gpr q) ∧
      t.cpsr = s.cpsr ∧ GoesOn e t ∧ KeepsSystem e t

/-- R271, R274: when the data cycle is aborted the base is written back, Rd is not, and the data abort is taken with
R14_abt the instruction's address plus 8. That an aborted store changes no memory is the spec's decision D8
(notes/assumptions/10.md); that a post-indexed transfer with Rm = Rn runs by the rules is the model's choice (93 U15,
notes/assumptions/24.md).
The pins of an internal cycle beside its type and address are the model's choice (notes/assumptions/31.md).
That the discarded fetch of the data abort's entry (R106, R337) comes after the instruction's own cycles is deduced
(notes/assumptions/31.md). -/
def Obligations.SingleAbort : Prop :=
  ∀ (p w store : Bool), ∀ x ∈ (if store then singleStores p w else singleLoads p w),
  ∀ (c : Cond) (u : Bool) (rn rd : RegNum) (off : Offset) (s : State),
    condPasses c s.flags = true → (rn = 15#4 → x.p = true ∧ x.w = false) → offsetUsesPc off = false →
    let a := s.singleAddress x.p u rn off
    let v := if rd = 15#4 then s.pc + 12#32 else s.reg rd 0#32
    let attrs := s.transferAttrs x.user store x.byte
    let cycles := if store then storeCycles a attrs v else s.loadCycles a attrs
    let e := s.aborting cycles
    (s.passing (cycles.take 1)).aborts a attrs = true →
    ∃ t before, Machine.exec (x.instr c u rn rd off) s = .next t ∧
      EntersAlone before t .abt 0x00000010#32 (s.pc + 8#32) ∧
      (∀ q, before.gpr q =
        if (x.p = false ∨ x.w = true) ∧ phys s.mode rn = some q then s.modifiedBase u rn off else s.gpr q) ∧
      before.cpsr = s.cpsr ∧ KeepsBytes e before ∧ KeepsSystem e before ∧ t.coprocs = s.coprocs

/-! ## Block data transfer -/

/-- R290, R293: the number of registers, their order, the first address and the written-back base, and the cycles of a run
of words (R292, R305). That the sums are taken modulo 2^32 is the spec's decision D5 (notes/assumptions/23.md), and that the
base is the current mode's register for a User bank transfer too is its decision D17 (notes/assumptions/19.md). -/
def Obligations.BlockAddresses : Prop :=
  ∀ (s : State) (p u : Bool) (rn : RegNum) (list : BitVec 16),
    let n := listRank list 16
    let base := s.reg rn 0#32
    rn ≠ 15#4 →
    (listRegs list).length = n ∧
    (∀ r : RegNum, list.getLsbD r.toNat = true → (listRegs list)[listRank list r.toNat]? = some r) ∧
    s.blockFirst p u rn list =
      (if u then if p then base + 4#32 else base
        else if p then base - 4#32 * BitVec.ofNat 32 n else base - 4#32 * BitVec.ofNat 32 n + 4#32) ∧
    s.blockBase u rn list =
      (if u then base + 4#32 * BitVec.ofNat 32 n else base - 4#32 * BitVec.ofNat 32 n) ∧
    (∀ (t : BusAttrs) (a : Word) (k i : Nat), i < k →
      (readCycles t .n k a)[i]? = some (readCycle (if i = 0 then .n else .s) (a + BitVec.ofNat 32 (4 * i)) t)) ∧
    (∀ (t : BusAttrs) (a : Word) (vs : List Word) (i : Nat) (v : Word), vs[i]? = some v →
      (writeCycles t .n a vs)[i]? = some (writeCycle (if i = 0 then .n else .s) (a + BitVec.ofNat 32 (4 * i)) t v))

/-- R291, R297, R300: LDM without R15 in the list, when no cycle is aborted: with S = 0 it loads the current mode's
registers, with S = 1 the User bank's (privileged modes, no write-back). A loaded base is not written back. Each word is
read in its own cycle, before which another master may have written (R72).
The pins of an internal cycle beside its type and address are the model's choice (notes/assumptions/31.md). -/
def Obligations.LoadMultiple : Prop :=
  ∀ (c : Cond) (p u sBit w : Bool) (rn : RegNum) (list : BitVec 16) (s : State),
    condPasses c s.flags = true → rn ≠ 15#4 → list ≠ 0#16 → list.getLsbD 15 = false →
    (sBit = true → s.mode ≠ .usr ∧ w = false) →
    let first := s.blockFirst p u rn list
    let attrs := s.dataAttrs false false
    let address := listAddress first list
    let after := fun r : RegNum => s.passing ((s.ldmCycles first list).take (listRank list r.toNat + 1))
    let bank := if sBit then Mode.usr else s.mode
    let e := s.passing (s.ldmCycles first list)
    (∀ r : RegNum, list.getLsbD r.toNat = true → (after r).aborts (address r) attrs = false) →
    ∃ t, Machine.exec (.ldm c p u sBit w rn list) s = .next t ∧
      (∀ r q, list.getLsbD r.toNat = true → phys bank r = some q → t.gpr q = (after r).busWord (address r) attrs) ∧
      (∀ q, (∀ r : RegNum, list.getLsbD r.toNat = true → phys bank r ≠ some q) →
        t.gpr q = if w = true ∧ phys s.mode rn = some q then s.blockBase u rn list else s.gpr q) ∧
      t.cpsr = s.cpsr ∧ t.pc = s.pc + 4#32 ∧ t.pipe = s.pipe.tail ∧ t.ldmShadow = sBit ∧ t.busyWait = false ∧
      t.seq = e.seq ∧ KeepsBytes e t ∧ KeepsSystem e t

/-- R291, R296: LDM with R15 in the list, when no cycle is aborted: a branch to the last word, and with S = 1 (privileged
modes) the CPSR from the SPSR at the same time; an SPSR that holds no legal mode is refused (93 U2). That bits 1 and 0 of
the word are dropped is the spec's decision D4 (notes/assumptions/22.md).
The pins of an internal cycle beside its type and address are the model's choice (notes/assumptions/31.md). -/
def Obligations.LoadMultiplePc : Prop :=
  ∀ (c : Cond) (p u sBit w : Bool) (rn : RegNum) (list : BitVec 16) (s : State),
    condPasses c s.flags = true → rn ≠ 15#4 → list.getLsbD 15 = true →
    let first := s.blockFirst p u rn list
    let attrs := s.dataAttrs false false
    let address := listAddress first list
    let after := fun r : RegNum => s.passing ((s.ldmCycles first list).take (listRank list r.toNat + 1))
    let e := s.passing (s.ldmCycles first list)
    (∀ r : RegNum, list.getLsbD r.toNat = true → (after r).aborts (address r) attrs = false) →
    (∀ cpsr, (sBit = false ∧ cpsr = s.cpsr ∨ sBit = true ∧ s.canReturn cpsr ∧ psrDefined cpsr = true) →
      ∃ t, Machine.exec (.ldm c p u sBit w rn list) s = .next t ∧
        GoesTo t ((after 15#4).busWord (address 15#4) attrs) ∧ t.cpsr = cpsr ∧
        (∀ r q, list.getLsbD r.toNat = true → phys s.mode r = some q →
          t.gpr q = (after r).busWord (address r) attrs) ∧
        (∀ q, (∀ r : RegNum, list.getLsbD r.toNat = true → phys s.mode r ≠ some q) →
          t.gpr q = if w = true ∧ phys s.mode rn = some q then s.blockBase u rn list else s.gpr q) ∧
        KeepsBytes e t ∧ KeepsSystem e t) ∧
    (sBit = true → ∀ saved, s.spsr? = some saved → Mode.ofBits (psrMode saved) = none →
      Machine.exec (.ldm c p u sBit w rn list) s = .refused .illegalMode)

/-- R305: an LDM of which a cycle is aborted: the registers below the first aborted one are loaded, the base is restored
(written back with W = 1), no other register is changed, every cycle is made, and the data abort is taken. That the base of
a User bank LDM is the current mode's register is the spec's decision D17 (notes/assumptions/19.md).
The pins of an internal cycle beside its type and address are the model's choice (notes/assumptions/31.md).
That the discarded fetch of the data abort's entry (R106, R337) comes after the instruction's own cycles is deduced
(notes/assumptions/31.md). That an aborted User bank LDM leaves no hazard on the handler's first
instruction is the model's choice (notes/assumptions/3.md). -/
def Obligations.LoadMultipleAbort : Prop :=
  ∀ (c : Cond) (p u sBit w : Bool) (rn bad : RegNum) (list : BitVec 16) (s : State),
    condPasses c s.flags = true → rn ≠ 15#4 → (sBit = true → s.mode ≠ .usr) →
    (sBit = true → list.getLsbD 15 = false → w = false) →
    let first := s.blockFirst p u rn list
    let attrs := s.dataAttrs false false
    let address := listAddress first list
    let after := fun r : RegNum => s.passing ((s.ldmCycles first list).take (listRank list r.toNat + 1))
    let bank := if sBit = true ∧ list.getLsbD 15 = false then Mode.usr else s.mode
    let e := s.aborting (s.ldmCycles first list)
    list.getLsbD bad.toNat = true → (after bad).aborts (address bad) attrs = true →
    (∀ r : RegNum, r < bad → list.getLsbD r.toNat = true → (after r).aborts (address r) attrs = false) →
    ∃ t before, Machine.exec (.ldm c p u sBit w rn list) s = .next t ∧
      EntersAlone before t .abt 0x00000010#32 (s.pc + 8#32) ∧
      (∀ q, phys s.mode rn = some q → before.gpr q = if w then s.blockBase u rn list else s.reg rn 0#32) ∧
      (∀ r q, list.getLsbD r.toNat = true → r < bad → phys bank r = some q → phys s.mode rn ≠ some q →
        before.gpr q = (after r).busWord (address r) attrs) ∧
      (∀ q, phys s.mode rn ≠ some q → (∀ r : RegNum, list.getLsbD r.toNat = true → r < bad → phys bank r ≠ some q) →
        before.gpr q = s.gpr q) ∧
      before.cpsr = s.cpsr ∧ KeepsBytes e before ∧ KeepsSystem e before ∧ t.coprocs = s.coprocs

/-- R292, R293, R297, R298, R300: STM when no cycle is aborted: the word stored for each register of the list (the User
bank's with S = 1), R15 as the instruction's address plus 12, the base as it was when it is the lowest register or W = 0
and written back otherwise; every other byte is unchanged. The memory is stated for runs in which no other master writes
between the cycles. That an unaligned address names the aligned word is the spec's decision D8 (notes/assumptions/10.md),
that addresses wrap its decision D5 (notes/assumptions/23.md), and that the base of a User bank transfer is the current
mode's register its decision D17 (notes/assumptions/19.md). -/
def Obligations.StoreMultiple : Prop :=
  ∀ (c : Cond) (p u sBit w : Bool) (rn : RegNum) (list : BitVec 16) (s : State),
    condPasses c s.flags = true → rn ≠ 15#4 → list ≠ 0#16 → (sBit = true → s.mode ≠ .usr ∧ w = false) →
    s.mem.wf = true →
    let first := s.blockFirst p u rn list
    let attrs := s.dataAttrs true false
    let address := listAddress first list
    let cycles := s.stmCycles u sBit w rn first list
    let after := fun r : RegNum => s.passing (cycles.take (listRank list r.toNat + 1))
    let e := s.passing cycles
    (∀ r : RegNum, list.getLsbD r.toNat = true → (after r).aborts (address r) attrs = false) →
    ∃ t, Machine.exec (.stm c p u sBit w rn list) s = .next t ∧
      (s.noBusWrites = true →
        (∀ r : RegNum, list.getLsbD r.toNat = true → (after r).reply (address r) attrs = none →
          t.mem.word (address r) = s.storedWord u sBit w rn list r) ∧
        (∀ k, (∀ r : RegNum, list.getLsbD r.toNat = true → (after r).reply (address r) attrs = none →
            k / 4 ≠ (address r).toNat / 4) → t.mem.get k = s.mem.get k)) ∧
      (∀ q, t.gpr q = if w = true ∧ phys s.mode rn = some q then s.blockBase u rn list else s.gpr q) ∧
      t.cpsr = s.cpsr ∧ GoesOn e t ∧ KeepsSystem e t

/-- R292, R298, R300, R304: an STM of which a cycle is aborted: every cycle is made, and the words of those that were not
aborted are stored as they would have been, the base and R15 included; the bytes of the aborted ones and every byte outside
the block are unchanged, the base is written back with W = 1, and the data abort is taken. The memory is stated for runs in
which no other master writes between the cycles. That an aborted cycle stores nothing and that an unaligned address names the
aligned word are the spec's decision D8 (notes/assumptions/10.md), that addresses wrap its decision D5
(notes/assumptions/23.md), and that the base of a User bank transfer is the current mode's register its decision D17
(notes/assumptions/19.md).
That the discarded fetch of the data abort's entry (R106, R337) comes after the instruction's own cycles is deduced
(notes/assumptions/31.md). -/
def Obligations.StoreMultipleAbort : Prop :=
  ∀ (c : Cond) (p u sBit w : Bool) (rn bad : RegNum) (list : BitVec 16) (s : State),
    condPasses c s.flags = true → rn ≠ 15#4 → (sBit = true → s.mode ≠ .usr ∧ w = false) → s.mem.wf = true →
    let first := s.blockFirst p u rn list
    let attrs := s.dataAttrs true false
    let address := listAddress first list
    let cycles := s.stmCycles u sBit w rn first list
    let after := fun r : RegNum => s.passing (cycles.take (listRank list r.toNat + 1))
    let e := s.aborting cycles
    list.getLsbD bad.toNat = true → (after bad).aborts (address bad) attrs = true →
    ∃ t before, Machine.exec (.stm c p u sBit w rn list) s = .next t ∧
      EntersAlone before t .abt 0x00000010#32 (s.pc + 8#32) ∧
      (s.noBusWrites = true →
        (∀ r : RegNum, list.getLsbD r.toNat = true → (after r).reply (address r) attrs = none →
          t.mem.word (address r) = s.storedWord u sBit w rn list r) ∧
        (∀ k, (∀ r : RegNum, list.getLsbD r.toNat = true → (after r).reply (address r) attrs = none →
            k / 4 ≠ (address r).toNat / 4) → t.mem.get k = s.mem.get k)) ∧
      (∀ q, before.gpr q = if w = true ∧ phys s.mode rn = some q then s.blockBase u rn list else s.gpr q) ∧
      before.cpsr = s.cpsr ∧ KeepsSystem e before ∧ t.coprocs = s.coprocs

/-! ## Swap -/

/-- R320, R321, R322, R323, R325, R327: SWP and SWPB, with LOCK over both data cycles. Not aborted: Rd gets what the memory held,
and the memory what Rm held before; aborted in either cycle: nothing is written and the data abort is taken. That what
another master would write between the two cycles comes after the write is the model's choice (notes/assumptions/29.md). That the
internal cycle shows the address 12 bytes on, and that the discarded fetch of the data abort's entry (R106, R337) comes after
the instruction's own cycles, is deduced (notes/assumptions/31.md). That an aborted read makes no write is the spec's decision
D18 (notes/assumptions/13.md); that an aborted write changes nothing and that an unaligned word goes to the aligned word are
its decision D8 (notes/assumptions/10.md).
The pins of an internal cycle beside its type and address are the model's choice (notes/assumptions/31.md). -/
def Obligations.SwapEffect : Prop :=
  ∀ x ∈ ([(.swp, false), (.swpb, true)] : List ((Cond → RegNum → RegNum → RegNum → Instr) × Bool)),
  ∀ (c : Cond) (rn rd rm : RegNum) (s : State),
    condPasses c s.flags = true → rn ≠ 15#4 → rd ≠ 15#4 → rm ≠ 15#4 → s.mem.wf = true →
    let a := s.reg rn 0#32
    let cycles := s.swapCycles x.2 a (s.reg rm 0#32)
    let tr := s.lockedAttrs false x.2
    let tw := s.lockedAttrs true x.2
    let r := s.passing (cycles.take 1)
    let wr := s.passing (cycles.take 2)
    let e := s.passing cycles
    let aborted := r.aborts a tr || wr.aborts a tw
    (aborted = false →
      ∃ t, Machine.exec (x.1 c rn rd rm) s = .next t ∧ WritesReg s t rd (r.loaded a tr) ∧
        (s.noBusWrites = true → Stores wr s.mem t.mem a tw (s.reg rm 0#32)) ∧
        t.cpsr = s.cpsr ∧ GoesOn e t ∧ KeepsSystem e t) ∧
    (aborted = true →
      ∃ t before, Machine.exec (x.1 c rn rd rm) s = .next t ∧ EntersAlone before t .abt 0x00000010#32 (s.pc + 8#32) ∧
        KeepsRegs s before ∧ before.cpsr = s.cpsr ∧ (s.noBusWrites = true → t.mem = s.mem) ∧
        KeepsSystem (s.aborting cycles) before ∧ t.coprocs = s.coprocs) ∧
    (∀ m0 m1 rest, s.moments = m0 :: m1 :: rest →
      Machine.exec (x.1 c rn rd rm) s =
        Machine.exec (x.1 c rn rd rm)
          { s with moments := m0 :: { m1 with busWrites := [] } ::
              (match rest with
                | [] => [m1]
                | m2 :: rest => { m2 with busWrites := m1.busWrites ++ m2.busWrites } :: rest) })

/-! ## Traps -/

/-- R330, R331, R333, R342: SWI enters Supervisor mode at 0x08 and the undefined instruction enters Undefined mode at 0x04,
each with R14 the address of the next instruction, whatever their ignored bits. The undefined instruction is offered to
every coprocessor; that none accepts it, so that it always traps, is the spec's assumption (R335, notes/assumptions/14.md). -/
def Obligations.SwiAndUndefined : Prop :=
  ∀ (c : Cond) (comment : BitVec 24) (high : BitVec 20) (low : BitVec 4) (s : State), condPasses c s.flags = true →
    (∃ t, Machine.exec (.swi c comment) s = .next t ∧ EntersAlone s t .svc 0x00000008#32 (s.pc + 4#32) ∧
      t.coprocs = s.coprocs) ∧
    (∃ t, Machine.exec (.undefined c high low) s = .next t ∧ EntersAlone s t .und 0x00000004#32 (s.pc + 4#32) ∧
      ∀ k, t.coprocessor? k =
        (s.coprocessor? k).map (Coproc.tell (s.offerEvents (encode (.undefined c high low)))))

/-- The forms the spec forbids and gives no effect (93 U3, U13, U14, U16 to U19, U21, U22; R142, R272, R297, R301, R302,
R324, R357) are refused, each by its own name. -/
def Obligations.TransferRefusals : Prop :=
  ∀ (c : Cond) (s : State), condPasses c s.flags = true →
    (∀ body, Machine.exec (.notDefinedA c body) s = .refused .notDefinedWord ∧
      Machine.exec (.notDefinedB c body) s = .refused .notDefinedWord) ∧
    (∀ (p w u : Bool) (rn rd : RegNum) (off : Offset), ∀ x ∈ singleLoads p w ++ singleStores p w,
      (rn = 15#4 ∧ (x.p = false ∨ x.w = true) → Machine.exec (x.instr c u rn rd off) s = .refused .pcWriteBack) ∧
      (¬(rn = 15#4 ∧ (x.p = false ∨ x.w = true)) ∧ offsetUsesPc off = true →
        Machine.exec (x.instr c u rn rd off) s = .refused .pcAsOffset)) ∧
    (∀ (p u sBit w : Bool) (rn : RegNum) (list : BitVec 16),
      (rn = 15#4 → Machine.exec (.ldm c p u sBit w rn list) s = .refused .pcAsBlockBase ∧
        Machine.exec (.stm c p u sBit w rn list) s = .refused .pcAsBlockBase) ∧
      (rn ≠ 15#4 ∧ list = 0#16 → Machine.exec (.ldm c p u sBit w rn list) s = .refused .emptyRegisterList ∧
        Machine.exec (.stm c p u sBit w rn list) s = .refused .emptyRegisterList) ∧
      (rn ≠ 15#4 ∧ list ≠ 0#16 ∧ sBit = true ∧ s.mode = .usr →
        Machine.exec (.ldm c p u sBit w rn list) s = .refused .blockSInUserMode ∧
        Machine.exec (.stm c p u sBit w rn list) s = .refused .blockSInUserMode) ∧
      (rn ≠ 15#4 ∧ list ≠ 0#16 ∧ sBit = true ∧ s.mode ≠ .usr ∧ w = true →
        (list.getLsbD 15 = false → Machine.exec (.ldm c p u sBit w rn list) s = .refused .userBankWriteBack) ∧
        Machine.exec (.stm c p u sBit w rn list) s = .refused .userBankWriteBack)) ∧
    (∀ rn rd rm : RegNum, rn = 15#4 ∨ rd = 15#4 ∨ rm = 15#4 →
      Machine.exec (.swp c rn rd rm) s = .refused .pcInSwap ∧
      Machine.exec (.swpb c rn rd rm) s = .refused .pcInSwap) ∧
    (∀ (p u n : Bool) (crd num : BitVec 4) (offset : BitVec 8) (word : Word) (more : List Word),
      (s.cpAnswer num (encode (.ldc c p u n true 15#4 crd num offset)) = .accept word more →
        Machine.exec (.ldc c p u n true 15#4 crd num offset) s = .refused .coprocessorPcWriteBack) ∧
      (s.cpAnswer num (encode (.stc c p u n true 15#4 crd num offset)) = .accept word more →
        Machine.exec (.stc c p u n true 15#4 crd num offset) s = .refused .coprocessorPcWriteBack))

/-! ## Coprocessors -/

/-- R341, R342, R343, R344, R347, R348: the five coprocessor instructions when no coprocessor accepts. Every coprocessor is
given the word and the mode. Absent or declining: the undefined instruction trap, with nothing written before it. Busy: one
internal cycle with nCPI LOW, and the instruction stays where it is; for ever in the case of a coprocessor that hangs
(93 U29). The pins of an internal cycle beside its type and address are the model's choice (notes/assumptions/31.md).
That a coprocessor which declines after it has been busy makes the processor take the trap is the model's choice
(notes/assumptions/28.md). -/
def Obligations.CoprocessorAbsentOrBusy : Prop :=
  ∀ (i : Instr) (num : BitVec 4) (s : State), coprocessorOf i = some num → condPasses i.cond s.flags = true →
    let w := encode i
    let answered := fun cp : Coproc => cp.answered w s.nTRANS s.nM
    let waits := fun (t : State) (f : Coproc → Coproc) =>
      let e := s.passing [s.internalCycle false (s.pc + 8#32)]
      KeepsRegs s t ∧ t.cpsr = s.cpsr ∧ t.pc = s.pc ∧ t.pipe = s.pipe ∧ t.ldmShadow = s.ldmShadow ∧ t.busyWait = true ∧
        t.seq = e.seq ∧ KeepsBytes e t ∧ KeepsOutside e t ∧ Offers s t num w f
    ((∀ cp ∈ s.coprocs, cp.number ≠ num) → s.cpAnswer num w = .decline) ∧
    (s.offerEvents w = if s.busyWait then [] else [.offered w (decide (s.mode ≠ .usr)) (~~~(psrMode s.cpsr))]) ∧
    (s.cpAnswer num w = .decline →
      ∃ t, Machine.exec i s = .next t ∧ EntersAlone s t .und 0x00000004#32 (s.pc + 4#32) ∧
        Offers s t num w answered) ∧
    (s.cpAnswer num w = .busy → ∃ t, Machine.exec i s = .next t ∧ waits t answered) ∧
    (s.cpAnswer num w = .hang → ∃ t, Machine.exec i s = .next t ∧ waits t id)

/-- R350, R353, R354: CDP, MRC and MCR when the coprocessor accepts: CDP changes nothing in the processor, MRC writes Rd,
or the flags alone when Rd is R15, and MCR gives Rd, R15 as the instruction's address plus 12; MRC and MCR make a
coprocessor register transfer cycle. The pins of an internal cycle beside its
type and address, and the address of a C-cycle, are the model's choice (notes/assumptions/31.md). -/
def Obligations.CoprocessorRegisters : Prop :=
  ∀ (c : Cond) (opc4 crn crd num crm : BitVec 4) (opc3 cp : BitVec 3) (rd : RegNum) (s : State) (word : Word)
    (more : List Word), condPasses c s.flags = true →
    (let w := encode (.cdp c opc4 crn crd num cp crm)
     s.cpAnswer num w = .accept word more →
     ∃ t, Machine.exec (.cdp c opc4 crn crd num cp crm) s = .next t ∧ KeepsRegs s t ∧ t.cpsr = s.cpsr ∧
       Tells s t num w [.cdp w] ∧ GoesOn s t ∧ KeepsBytes s t ∧ KeepsOutside s t) ∧
    (let w := encode (.mrc c opc3 crn rd num cp crm)
     let e := s.passing [s.transferCycle false word, s.idle]
     s.cpAnswer num w = .accept word more →
     ∃ t, Machine.exec (.mrc c opc3 crn rd num cp crm) s = .next t ∧
       (if rd = 15#4 then KeepsRegs s t ∧ SetsFlags s t (psrFlags word)
         else WritesReg s t rd word ∧ t.cpsr = s.cpsr) ∧
       Tells s t num w [.mrc w] ∧ GoesOn e t ∧ KeepsBytes e t ∧ KeepsOutside e t) ∧
    (let w := encode (.mcr c opc3 crn rd num cp crm)
     let v := if rd = 15#4 then s.pc + 12#32 else s.reg rd 0#32
     let e := s.passing [s.transferCycle true v]
     s.cpAnswer num w = .accept word more →
     ∃ t, Machine.exec (.mcr c opc3 crn rd num cp crm) s = .next t ∧ KeepsRegs s t ∧ t.cpsr = s.cpsr ∧
       Tells s t num w [.mcr w v] ∧ GoesOn e t ∧ KeepsBytes e t ∧ KeepsOutside e t)

/-- R351, R355, R358: LDC when the coprocessor accepts: the words it is told, the base written back with W = 1, and the
data abort when a cycle was aborted; that every cycle is made and told after an abort is the spec's decision D19
(notes/assumptions/20.md), and that addresses wrap is its decision D5 (notes/assumptions/23.md).
That the discarded fetch of the data abort's entry (R106, R337) comes after the instruction's own cycles is deduced
(notes/assumptions/31.md). -/
def Obligations.LoadCoprocessor : Prop :=
  ∀ (c : Cond) (p u n w : Bool) (rn : RegNum) (crd num : BitVec 4) (offset : BitVec 8) (s : State) (word : Word)
    (more : List Word), condPasses c s.flags = true →
    let code := encode (.ldc c p u n w rn crd num offset)
    s.cpAnswer num code = .accept word more → (rn = 15#4 → w = false) →
    let modified :=
      if u then s.reg rn 8#32 + BitVec.ofNat 32 (4 * offset.toNat) else s.reg rn 8#32 - BitVec.ofNat 32 (4 * offset.toNat)
    let address := fun k : Nat => (if p then modified else s.reg rn 8#32) + BitVec.ofNat 32 (4 * k)
    let attrs := s.dataAttrs false false
    let cycles := readCycles attrs .n (more.length + 1) (address 0)
    let after := fun k : Nat => s.passing (cycles.take (k + 1))
    let aborted := fun k : Nat => (after k).aborts (address k) attrs
    let told := (List.range (more.length + 1)).map fun k =>
      CpEvent.load code k (if aborted k then none else some ((after k).busWord (address k) attrs))
    let kept := fun e t : State =>
      (∀ q, t.gpr q = if w = true ∧ phys s.mode rn = some q then modified else s.gpr q) ∧ t.cpsr = s.cpsr ∧
        KeepsBytes e t ∧ KeepsOutside e t ∧ Tells s t num code told
    ((∀ k, k ≤ more.length → aborted k = false) →
      ∃ t, Machine.exec (.ldc c p u n w rn crd num offset) s = .next t ∧ kept (s.passing cycles) t ∧
        GoesOn (s.passing cycles) t) ∧
    ((∃ k, k ≤ more.length ∧ aborted k = true) →
      ∃ t before, Machine.exec (.ldc c p u n w rn crd num offset) s = .next t ∧ kept (s.aborting cycles) before ∧
        EntersAlone before t .abt 0x00000010#32 (s.pc + 8#32) ∧ t.coprocs = before.coprocs)

/-- R352, R355, R358: STC when the coprocessor accepts: the words stored, every other byte unchanged, the base written back
with W = 1, the coprocessor told of each cycle whether it was aborted, and the data abort when one was. That every cycle is
made and told after an abort is the spec's decision D19 (notes/assumptions/20.md), that an aborted cycle stores nothing its
decision D8 (notes/assumptions/10.md), and that addresses wrap its decision D5 (notes/assumptions/23.md). The memory is stated
for runs in which no other master writes between the cycles.
That the discarded fetch of the data abort's entry (R106, R337) comes after the instruction's own cycles is deduced
(notes/assumptions/31.md). -/
def Obligations.StoreCoprocessor : Prop :=
  ∀ (c : Cond) (p u n w : Bool) (rn : RegNum) (crd num : BitVec 4) (offset : BitVec 8) (s : State) (word : Word)
    (more : List Word), condPasses c s.flags = true →
    let code := encode (.stc c p u n w rn crd num offset)
    s.cpAnswer num code = .accept word more → (rn = 15#4 → w = false) → s.mem.wf = true → more.length < 2 ^ 30 →
    let modified :=
      if u then s.reg rn 8#32 + BitVec.ofNat 32 (4 * offset.toNat) else s.reg rn 8#32 - BitVec.ofNat 32 (4 * offset.toNat)
    let address := fun k : Nat => (if p then modified else s.reg rn 8#32) + BitVec.ofNat 32 (4 * k)
    let attrs := s.dataAttrs true false
    let cycles := writeCycles attrs .n (address 0) (word :: more)
    let after := fun k : Nat => s.passing (cycles.take (k + 1))
    let aborted := fun k : Nat => (after k).aborts (address k) attrs
    let told := (List.range (more.length + 1)).map fun k => CpEvent.store code k (aborted k)
    let kept := fun e t : State =>
      (∀ q, t.gpr q = if w = true ∧ phys s.mode rn = some q then modified else s.gpr q) ∧ t.cpsr = s.cpsr ∧
        KeepsOutside e t ∧ Tells s t num code told ∧
        (s.noBusWrites = true →
          (∀ k v, (word :: more)[k]? = some v → (after k).reply (address k) attrs = none →
            t.mem.word (address k) = v) ∧
          (∀ b, (∀ k, k ≤ more.length → (after k).reply (address k) attrs = none → b / 4 ≠ (address k).toNat / 4) →
            t.mem.get b = s.mem.get b))
    ((∀ k, k ≤ more.length → aborted k = false) →
      ∃ t, Machine.exec (.stc c p u n w rn crd num offset) s = .next t ∧ kept (s.passing cycles) t ∧
        GoesOn (s.passing cycles) t) ∧
    ((∃ k, k ≤ more.length ∧ aborted k = true) →
      ∃ t before, Machine.exec (.stc c p u n w rn crd num offset) s = .next t ∧ kept (s.aborting cycles) before ∧
        EntersAlone before t .abt 0x00000010#32 (s.pc + 8#32) ∧ t.coprocs = before.coprocs)

/-! ## Over every instruction -/

/-- R34, R35, R37: an instruction executed in User mode either leaves every bit of the CPSR but the flags, and every
SPSR, as they were, or takes an exception, whose entry saves the CPSR and sets I. -/
def Obligations.UserModeKeepsControl : Prop :=
  ∀ (i : Instr) (s t : State), s.mode = .usr → Machine.exec i s = .next t →
    (t.cpsr.extractLsb' 0 28 = s.cpsr.extractLsb' 0 28 ∧ t.spsrs = s.spsrs) ∨
    (∃ e ∈ [Exc.undefined, .swi, .dataAbort],
      t.pc = e.vector ∧ psrMode t.cpsr = e.mode.bits ∧ psrI t.cpsr = true ∧ psrF t.cpsr = psrF s.cpsr ∧
        t.flags = s.flags ∧ t.spsrs.get? e.mode = some s.cpsr ∧
        ∀ m, m ≠ e.mode → t.spsrs.get? m = s.spsrs.get? m)

/-- R18, R71, R75: an instruction changes the pins and the environment only as its bus cycles let the environment act; only
the stores, the swaps and STC write memory beside that; only the coprocessor and the undefined instructions reach a
coprocessor; the schedule and the model's counter stay. -/
def Obligations.WhatInstructionsLeave : Prop :=
  ∀ (i : Instr) (s t : State), Machine.exec i s = .next t →
    ∃ cycles : List BusCycle,
      let e := s.passing cycles
      t.bus = s.bus ++ cycles ∧ t.inputs = e.inputs ∧ t.moments = e.moments ∧ (storesMemory i = false → t.mem = e.mem) ∧
        t.schedule = s.schedule ∧ t.tick = s.tick ∧ (isOffered i = false → t.coprocs = s.coprocs)
end

