-- ==== Sys2Proof/Laws/Encoding.lean ====
section
/-! SUPPORT. The fields of each encoding format (30_encoding.md R122): what each range of bits of an encoded body is. -/

namespace Sys2Proof

@[simp] theorem cond_ofBits_bits (c : Cond) : Cond.ofBits c.bits = c := by cases c <;> rfl

@[simp] theorem cond_bits_ofBits (b : BitVec 4) : (Cond.ofBits b).bits = b := by revert b; decide

@[simp] theorem shiftType_ofBits_bits (t : ShiftType) : ShiftType.ofBits t.bits = t := by cases t <;> rfl

@[simp] theorem shiftType_bits_ofBits (b : BitVec 2) : (ShiftType.ofBits b).bits = b := by revert b; decide

/-- The condition field of a word is the instruction's condition (R124). -/
theorem encode_cond (i : Instr) : (encode i).extractLsb' 28 4 = i.cond.bits := by
  unfold encode
  rw [extract_append_high (Nat.le_refl 28), Nat.sub_self, extract_all]

/-- The other bits of a word are the instruction's body. -/
theorem encode_body (i : Instr) : (encode i).extractLsb' 0 28 = i.body := by
  unfold encode
  rw [extract_append_low (by omega), extract_all]

/-- Decoding an encoded word decodes its body. -/
theorem decodeWord_encode (i : Instr) : decodeWord (encode i) = decodeBody i.cond i.body := by
  rw [decodeWord, encode_cond, encode_body, cond_ofBits_bits]

/-! ## encodeDp -/

@[simp] theorem encodeDp_opcode (o : BitVec 4) (s : BitVec 1) (rn rd : RegNum) (x : Operand2) :
    (encodeDp o s rn rd x).extractLsb' 21 4 = o := by
  unfold encodeDp
  simp (disch := omega) only [extract_append_low, extract_append_high, extract_all, Nat.reduceSub]
@[simp] theorem encodeDp_s (o : BitVec 4) (s : BitVec 1) (rn rd : RegNum) (x : Operand2) :
    (encodeDp o s rn rd x).extractLsb' 20 1 = s := by
  unfold encodeDp
  simp (disch := omega) only [extract_append_low, extract_append_high, extract_all, Nat.reduceSub]
@[simp] theorem encodeDp_rn (o : BitVec 4) (s : BitVec 1) (rn rd : RegNum) (x : Operand2) :
    (encodeDp o s rn rd x).extractLsb' 16 4 = rn := by
  unfold encodeDp
  simp (disch := omega) only [extract_append_low, extract_append_high, extract_all, Nat.reduceSub]
@[simp] theorem encodeDp_rd (o : BitVec 4) (s : BitVec 1) (rn rd : RegNum) (x : Operand2) :
    (encodeDp o s rn rd x).extractLsb' 12 4 = rd := by
  unfold encodeDp
  simp (disch := omega) only [extract_append_low, extract_append_high, extract_all, Nat.reduceSub]
@[simp] theorem encodeDp_op2 (o : BitVec 4) (s : BitVec 1) (rn rd : RegNum) (x : Operand2) :
    (encodeDp o s rn rd x).extractLsb' 0 12 = x.bits := by
  unfold encodeDp
  simp (disch := omega) only [extract_append_low, extract_all]

/-! ## encodeSdt -/

@[simp] theorem encodeSdt_rn (p u b w l : Bool) (rn rd : RegNum) (x : Offset) :
    (encodeSdt p u b w l rn rd x).extractLsb' 16 4 = rn := by
  unfold encodeSdt
  simp (disch := omega) only [extract_append_low, extract_append_high, extract_all, Nat.reduceSub]
@[simp] theorem encodeSdt_rd (p u b w l : Bool) (rn rd : RegNum) (x : Offset) :
    (encodeSdt p u b w l rn rd x).extractLsb' 12 4 = rd := by
  unfold encodeSdt
  simp (disch := omega) only [extract_append_low, extract_append_high, extract_all, Nat.reduceSub]
@[simp] theorem encodeSdt_offset (p u b w l : Bool) (rn rd : RegNum) (x : Offset) :
    (encodeSdt p u b w l rn rd x).extractLsb' 0 12 = x.bits := by
  unfold encodeSdt
  simp (disch := omega) only [extract_append_low, extract_all]
@[simp] theorem encodeSdt_p (p u b w l : Bool) (rn rd : RegNum) (x : Offset) : (encodeSdt p u b w l rn rd x).getLsbD 24 = p := by
  unfold encodeSdt
  simp (disch := omega) only [bit_append_low, bit_append_high, bit_ofBool, Nat.reduceSub]
@[simp] theorem encodeSdt_u (p u b w l : Bool) (rn rd : RegNum) (x : Offset) : (encodeSdt p u b w l rn rd x).getLsbD 23 = u := by
  unfold encodeSdt
  simp (disch := omega) only [bit_append_low, bit_append_high, bit_ofBool, Nat.reduceSub]
@[simp] theorem encodeSdt_b (p u b w l : Bool) (rn rd : RegNum) (x : Offset) : (encodeSdt p u b w l rn rd x).getLsbD 22 = b := by
  unfold encodeSdt
  simp (disch := omega) only [bit_append_low, bit_append_high, bit_ofBool, Nat.reduceSub]
@[simp] theorem encodeSdt_w (p u b w l : Bool) (rn rd : RegNum) (x : Offset) : (encodeSdt p u b w l rn rd x).getLsbD 21 = w := by
  unfold encodeSdt
  simp (disch := omega) only [bit_append_low, bit_append_high, bit_ofBool, Nat.reduceSub]
@[simp] theorem encodeSdt_l (p u b w l : Bool) (rn rd : RegNum) (x : Offset) : (encodeSdt p u b w l rn rd x).getLsbD 20 = l := by
  unfold encodeSdt
  simp (disch := omega) only [bit_append_low, bit_append_high, bit_ofBool, Nat.reduceSub]

/-! ## encodeCdt -/

@[simp] theorem encodeCdt_rn (p u n w l : Bool) (rn : RegNum) (crd cpNum : BitVec 4) (x : BitVec 8) :
    (encodeCdt p u n w l rn crd cpNum x).extractLsb' 16 4 = rn := by
  unfold encodeCdt
  simp (disch := omega) only [extract_append_low, extract_append_high, extract_all, Nat.reduceSub]
@[simp] theorem encodeCdt_crd (p u n w l : Bool) (rn : RegNum) (crd cpNum : BitVec 4) (x : BitVec 8) :
    (encodeCdt p u n w l rn crd cpNum x).extractLsb' 12 4 = crd := by
  unfold encodeCdt
  simp (disch := omega) only [extract_append_low, extract_append_high, extract_all, Nat.reduceSub]
@[simp] theorem encodeCdt_cpNum (p u n w l : Bool) (rn : RegNum) (crd cpNum : BitVec 4) (x : BitVec 8) :
    (encodeCdt p u n w l rn crd cpNum x).extractLsb' 8 4 = cpNum := by
  unfold encodeCdt
  simp (disch := omega) only [extract_append_low, extract_append_high, extract_all, Nat.reduceSub]
@[simp] theorem encodeCdt_offset (p u n w l : Bool) (rn : RegNum) (crd cpNum : BitVec 4) (x : BitVec 8) :
    (encodeCdt p u n w l rn crd cpNum x).extractLsb' 0 8 = x := by
  unfold encodeCdt
  simp (disch := omega) only [extract_append_low, extract_all]
@[simp] theorem encodeCdt_p (p u n w l : Bool) (rn : RegNum) (crd cpNum : BitVec 4) (x : BitVec 8) : (encodeCdt p u n w l rn crd cpNum x).getLsbD 24 = p := by
  unfold encodeCdt
  simp (disch := omega) only [bit_append_low, bit_append_high, bit_ofBool, Nat.reduceSub]
@[simp] theorem encodeCdt_u (p u n w l : Bool) (rn : RegNum) (crd cpNum : BitVec 4) (x : BitVec 8) : (encodeCdt p u n w l rn crd cpNum x).getLsbD 23 = u := by
  unfold encodeCdt
  simp (disch := omega) only [bit_append_low, bit_append_high, bit_ofBool, Nat.reduceSub]
@[simp] theorem encodeCdt_n (p u n w l : Bool) (rn : RegNum) (crd cpNum : BitVec 4) (x : BitVec 8) : (encodeCdt p u n w l rn crd cpNum x).getLsbD 22 = n := by
  unfold encodeCdt
  simp (disch := omega) only [bit_append_low, bit_append_high, bit_ofBool, Nat.reduceSub]
@[simp] theorem encodeCdt_w (p u n w l : Bool) (rn : RegNum) (crd cpNum : BitVec 4) (x : BitVec 8) : (encodeCdt p u n w l rn crd cpNum x).getLsbD 21 = w := by
  unfold encodeCdt
  simp (disch := omega) only [bit_append_low, bit_append_high, bit_ofBool, Nat.reduceSub]
@[simp] theorem encodeCdt_l (p u n w l : Bool) (rn : RegNum) (crd cpNum : BitVec 4) (x : BitVec 8) : (encodeCdt p u n w l rn crd cpNum x).getLsbD 20 = l := by
  unfold encodeCdt
  simp (disch := omega) only [bit_append_low, bit_append_high, bit_ofBool, Nat.reduceSub]

/-! ## encodeBdt -/

@[simp] theorem encodeBdt_rn (p u s w l : Bool) (rn : RegNum) (list : BitVec 16) :
    (encodeBdt p u s w l rn list).extractLsb' 16 4 = rn := by
  unfold encodeBdt
  simp (disch := omega) only [extract_append_low, extract_append_high, extract_all, Nat.reduceSub]
@[simp] theorem encodeBdt_list (p u s w l : Bool) (rn : RegNum) (list : BitVec 16) :
    (encodeBdt p u s w l rn list).extractLsb' 0 16 = list := by
  unfold encodeBdt
  simp (disch := omega) only [extract_append_low, extract_all]
@[simp] theorem encodeBdt_p (p u s w l : Bool) (rn : RegNum) (list : BitVec 16) : (encodeBdt p u s w l rn list).getLsbD 24 = p := by
  unfold encodeBdt
  simp (disch := omega) only [bit_append_low, bit_append_high, bit_ofBool, Nat.reduceSub]
@[simp] theorem encodeBdt_u (p u s w l : Bool) (rn : RegNum) (list : BitVec 16) : (encodeBdt p u s w l rn list).getLsbD 23 = u := by
  unfold encodeBdt
  simp (disch := omega) only [bit_append_low, bit_append_high, bit_ofBool, Nat.reduceSub]
@[simp] theorem encodeBdt_s (p u s w l : Bool) (rn : RegNum) (list : BitVec 16) : (encodeBdt p u s w l rn list).getLsbD 22 = s := by
  unfold encodeBdt
  simp (disch := omega) only [bit_append_low, bit_append_high, bit_ofBool, Nat.reduceSub]
@[simp] theorem encodeBdt_w (p u s w l : Bool) (rn : RegNum) (list : BitVec 16) : (encodeBdt p u s w l rn list).getLsbD 21 = w := by
  unfold encodeBdt
  simp (disch := omega) only [bit_append_low, bit_append_high, bit_ofBool, Nat.reduceSub]
@[simp] theorem encodeBdt_l (p u s w l : Bool) (rn : RegNum) (list : BitVec 16) : (encodeBdt p u s w l rn list).getLsbD 20 = l := by
  unfold encodeBdt
  simp (disch := omega) only [bit_append_low, bit_append_high, bit_ofBool, Nat.reduceSub]

/-! ## encodeMul -/

@[simp] theorem encodeMul_rd (a s : Bool) (rd rn rs rm : RegNum) :
    (encodeMul a s rd rn rs rm).extractLsb' 16 4 = rd := by
  unfold encodeMul
  simp (disch := omega) only [extract_append_low, extract_append_high, extract_all, Nat.reduceSub]
@[simp] theorem encodeMul_rn (a s : Bool) (rd rn rs rm : RegNum) :
    (encodeMul a s rd rn rs rm).extractLsb' 12 4 = rn := by
  unfold encodeMul
  simp (disch := omega) only [extract_append_low, extract_append_high, extract_all, Nat.reduceSub]
@[simp] theorem encodeMul_rs (a s : Bool) (rd rn rs rm : RegNum) :
    (encodeMul a s rd rn rs rm).extractLsb' 8 4 = rs := by
  unfold encodeMul
  simp (disch := omega) only [extract_append_low, extract_append_high, extract_all, Nat.reduceSub]
@[simp] theorem encodeMul_rm (a s : Bool) (rd rn rs rm : RegNum) :
    (encodeMul a s rd rn rs rm).extractLsb' 0 4 = rm := by
  unfold encodeMul
  simp (disch := omega) only [extract_append_low, extract_all]
@[simp] theorem encodeMul_a (a s : Bool) (rd rn rs rm : RegNum) : (encodeMul a s rd rn rs rm).getLsbD 21 = a := by
  unfold encodeMul
  simp (disch := omega) only [bit_append_low, bit_append_high, bit_ofBool, Nat.reduceSub]
@[simp] theorem encodeMul_s (a s : Bool) (rd rn rs rm : RegNum) : (encodeMul a s rd rn rs rm).getLsbD 20 = s := by
  unfold encodeMul
  simp (disch := omega) only [bit_append_low, bit_append_high, bit_ofBool, Nat.reduceSub]

/-! ## encodeSwp -/

@[simp] theorem encodeSwp_rn (b : Bool) (rn rd rm : RegNum) :
    (encodeSwp b rn rd rm).extractLsb' 16 4 = rn := by
  unfold encodeSwp
  simp (disch := omega) only [extract_append_low, extract_append_high, extract_all, Nat.reduceSub]
@[simp] theorem encodeSwp_rd (b : Bool) (rn rd rm : RegNum) :
    (encodeSwp b rn rd rm).extractLsb' 12 4 = rd := by
  unfold encodeSwp
  simp (disch := omega) only [extract_append_low, extract_append_high, extract_all, Nat.reduceSub]
@[simp] theorem encodeSwp_rm (b : Bool) (rn rd rm : RegNum) :
    (encodeSwp b rn rd rm).extractLsb' 0 4 = rm := by
  unfold encodeSwp
  simp (disch := omega) only [extract_append_low, extract_all]
@[simp] theorem encodeSwp_b (b : Bool) (rn rd rm : RegNum) : (encodeSwp b rn rd rm).getLsbD 22 = b := by
  unfold encodeSwp
  simp (disch := omega) only [bit_append_low, bit_append_high, bit_ofBool, Nat.reduceSub]

/-! ## encodeCrt -/

@[simp] theorem encodeCrt_cpOpc (cpOpc : BitVec 3) (l : Bool) (crn rd cpNum : BitVec 4) (cp : BitVec 3) (crm : BitVec 4) :
    (encodeCrt cpOpc l crn rd cpNum cp crm).extractLsb' 21 3 = cpOpc := by
  unfold encodeCrt
  simp (disch := omega) only [extract_append_low, extract_append_high, extract_all, Nat.reduceSub]
@[simp] theorem encodeCrt_crn (cpOpc : BitVec 3) (l : Bool) (crn rd cpNum : BitVec 4) (cp : BitVec 3) (crm : BitVec 4) :
    (encodeCrt cpOpc l crn rd cpNum cp crm).extractLsb' 16 4 = crn := by
  unfold encodeCrt
  simp (disch := omega) only [extract_append_low, extract_append_high, extract_all, Nat.reduceSub]
@[simp] theorem encodeCrt_rd (cpOpc : BitVec 3) (l : Bool) (crn rd cpNum : BitVec 4) (cp : BitVec 3) (crm : BitVec 4) :
    (encodeCrt cpOpc l crn rd cpNum cp crm).extractLsb' 12 4 = rd := by
  unfold encodeCrt
  simp (disch := omega) only [extract_append_low, extract_append_high, extract_all, Nat.reduceSub]
@[simp] theorem encodeCrt_cpNum (cpOpc : BitVec 3) (l : Bool) (crn rd cpNum : BitVec 4) (cp : BitVec 3) (crm : BitVec 4) :
    (encodeCrt cpOpc l crn rd cpNum cp crm).extractLsb' 8 4 = cpNum := by
  unfold encodeCrt
  simp (disch := omega) only [extract_append_low, extract_append_high, extract_all, Nat.reduceSub]
@[simp] theorem encodeCrt_cp (cpOpc : BitVec 3) (l : Bool) (crn rd cpNum : BitVec 4) (cp : BitVec 3) (crm : BitVec 4) :
    (encodeCrt cpOpc l crn rd cpNum cp crm).extractLsb' 5 3 = cp := by
  unfold encodeCrt
  simp (disch := omega) only [extract_append_low, extract_append_high, extract_all, Nat.reduceSub]
@[simp] theorem encodeCrt_crm (cpOpc : BitVec 3) (l : Bool) (crn rd cpNum : BitVec 4) (cp : BitVec 3) (crm : BitVec 4) :
    (encodeCrt cpOpc l crn rd cpNum cp crm).extractLsb' 0 4 = crm := by
  unfold encodeCrt
  simp (disch := omega) only [extract_append_low, extract_all]
@[simp] theorem encodeCrt_l (cpOpc : BitVec 3) (l : Bool) (crn rd cpNum : BitVec 4) (cp : BitVec 3) (crm : BitVec 4) : (encodeCrt cpOpc l crn rd cpNum cp crm).getLsbD 20 = l := by
  unfold encodeCrt
  simp (disch := omega) only [bit_append_low, bit_append_high, bit_ofBool, Nat.reduceSub]

end Sys2Proof
end

