-- ==== Sys2Proof/Laws/State.lean ====
section
/-! SUPPORT. What each named update does to each field of the state, one lemma for each, so that no proof unfolds a
record update. -/

namespace Sys2Proof.Machine

/-! ## Writing a physical register -/

@[simp] theorem setGpr_regs (s : State) (p : PhysReg) (v : Word) :
    (s.setGpr p v).regs = s.regs.setIfInBounds p.index v := rfl
@[simp] theorem setGpr_pc (s : State) (p : PhysReg) (v : Word) :
    (s.setGpr p v).pc = s.pc := rfl
@[simp] theorem setGpr_cpsr (s : State) (p : PhysReg) (v : Word) :
    (s.setGpr p v).cpsr = s.cpsr := rfl
@[simp] theorem setGpr_spsrs (s : State) (p : PhysReg) (v : Word) :
    (s.setGpr p v).spsrs = s.spsrs := rfl
@[simp] theorem setGpr_pipe (s : State) (p : PhysReg) (v : Word) :
    (s.setGpr p v).pipe = s.pipe := rfl
@[simp] theorem setGpr_ldmShadow (s : State) (p : PhysReg) (v : Word) :
    (s.setGpr p v).ldmShadow = s.ldmShadow := rfl
@[simp] theorem setGpr_busyWait (s : State) (p : PhysReg) (v : Word) :
    (s.setGpr p v).busyWait = s.busyWait := rfl
@[simp] theorem setGpr_seq (s : State) (p : PhysReg) (v : Word) :
    (s.setGpr p v).seq = s.seq := rfl
@[simp] theorem setGpr_mem (s : State) (p : PhysReg) (v : Word) :
    (s.setGpr p v).mem = s.mem := rfl
@[simp] theorem setGpr_inputs (s : State) (p : PhysReg) (v : Word) :
    (s.setGpr p v).inputs = s.inputs := rfl
@[simp] theorem setGpr_moments (s : State) (p : PhysReg) (v : Word) :
    (s.setGpr p v).moments = s.moments := rfl
@[simp] theorem setGpr_schedule (s : State) (p : PhysReg) (v : Word) :
    (s.setGpr p v).schedule = s.schedule := rfl
@[simp] theorem setGpr_coprocs (s : State) (p : PhysReg) (v : Word) :
    (s.setGpr p v).coprocs = s.coprocs := rfl
@[simp] theorem setGpr_tick (s : State) (p : PhysReg) (v : Word) :
    (s.setGpr p v).tick = s.tick := rfl
@[simp] theorem setGpr_bus (s : State) (p : PhysReg) (v : Word) :
    (s.setGpr p v).bus = s.bus := rfl

/-! ## Writing the flags -/

@[simp] theorem setFlags_regs (s : State) (f : Flags) :
    (s.setFlags f).regs = s.regs := rfl
@[simp] theorem setFlags_pc (s : State) (f : Flags) :
    (s.setFlags f).pc = s.pc := rfl
@[simp] theorem setFlags_cpsr (s : State) (f : Flags) :
    (s.setFlags f).cpsr = psrWithFlags s.cpsr f := rfl
@[simp] theorem setFlags_spsrs (s : State) (f : Flags) :
    (s.setFlags f).spsrs = s.spsrs := rfl
@[simp] theorem setFlags_pipe (s : State) (f : Flags) :
    (s.setFlags f).pipe = s.pipe := rfl
@[simp] theorem setFlags_ldmShadow (s : State) (f : Flags) :
    (s.setFlags f).ldmShadow = s.ldmShadow := rfl
@[simp] theorem setFlags_busyWait (s : State) (f : Flags) :
    (s.setFlags f).busyWait = s.busyWait := rfl
@[simp] theorem setFlags_seq (s : State) (f : Flags) :
    (s.setFlags f).seq = s.seq := rfl
@[simp] theorem setFlags_mem (s : State) (f : Flags) :
    (s.setFlags f).mem = s.mem := rfl
@[simp] theorem setFlags_inputs (s : State) (f : Flags) :
    (s.setFlags f).inputs = s.inputs := rfl
@[simp] theorem setFlags_moments (s : State) (f : Flags) :
    (s.setFlags f).moments = s.moments := rfl
@[simp] theorem setFlags_schedule (s : State) (f : Flags) :
    (s.setFlags f).schedule = s.schedule := rfl
@[simp] theorem setFlags_coprocs (s : State) (f : Flags) :
    (s.setFlags f).coprocs = s.coprocs := rfl
@[simp] theorem setFlags_tick (s : State) (f : Flags) :
    (s.setFlags f).tick = s.tick := rfl
@[simp] theorem setFlags_bus (s : State) (f : Flags) :
    (s.setFlags f).bus = s.bus := rfl

/-! ## Going on -/

@[simp] theorem advance_regs (s : State) :
    (s.advance).regs = s.regs := rfl
@[simp] theorem advance_pc (s : State) :
    (s.advance).pc = s.pc + 4#32 := rfl
@[simp] theorem advance_cpsr (s : State) :
    (s.advance).cpsr = s.cpsr := rfl
@[simp] theorem advance_spsrs (s : State) :
    (s.advance).spsrs = s.spsrs := rfl
@[simp] theorem advance_pipe (s : State) :
    (s.advance).pipe = s.pipe.tail := rfl
@[simp] theorem advance_ldmShadow (s : State) :
    (s.advance).ldmShadow = false := rfl
@[simp] theorem advance_busyWait (s : State) :
    (s.advance).busyWait = false := rfl
@[simp] theorem advance_seq (s : State) :
    (s.advance).seq = s.seq := rfl
@[simp] theorem advance_mem (s : State) :
    (s.advance).mem = s.mem := rfl
@[simp] theorem advance_inputs (s : State) :
    (s.advance).inputs = s.inputs := rfl
@[simp] theorem advance_moments (s : State) :
    (s.advance).moments = s.moments := rfl
@[simp] theorem advance_schedule (s : State) :
    (s.advance).schedule = s.schedule := rfl
@[simp] theorem advance_coprocs (s : State) :
    (s.advance).coprocs = s.coprocs := rfl
@[simp] theorem advance_tick (s : State) :
    (s.advance).tick = s.tick := rfl
@[simp] theorem advance_bus (s : State) :
    (s.advance).bus = s.bus := rfl

/-! ## Branching -/

@[simp] theorem branchTo_regs (s : State) (a : Word) :
    (s.branchTo a).regs = s.regs := rfl
@[simp] theorem branchTo_pc (s : State) (a : Word) :
    (s.branchTo a).pc = a &&& 0xFFFFFFFC#32 := rfl
@[simp] theorem branchTo_cpsr (s : State) (a : Word) :
    (s.branchTo a).cpsr = s.cpsr := rfl
@[simp] theorem branchTo_spsrs (s : State) (a : Word) :
    (s.branchTo a).spsrs = s.spsrs := rfl
@[simp] theorem branchTo_pipe (s : State) (a : Word) :
    (s.branchTo a).pipe = [] := rfl
@[simp] theorem branchTo_ldmShadow (s : State) (a : Word) :
    (s.branchTo a).ldmShadow = false := rfl
@[simp] theorem branchTo_busyWait (s : State) (a : Word) :
    (s.branchTo a).busyWait = false := rfl
@[simp] theorem branchTo_seq (s : State) (a : Word) :
    (s.branchTo a).seq = none := rfl
@[simp] theorem branchTo_mem (s : State) (a : Word) :
    (s.branchTo a).mem = s.mem := rfl
@[simp] theorem branchTo_inputs (s : State) (a : Word) :
    (s.branchTo a).inputs = s.inputs := rfl
@[simp] theorem branchTo_moments (s : State) (a : Word) :
    (s.branchTo a).moments = s.moments := rfl
@[simp] theorem branchTo_schedule (s : State) (a : Word) :
    (s.branchTo a).schedule = s.schedule := rfl
@[simp] theorem branchTo_coprocs (s : State) (a : Word) :
    (s.branchTo a).coprocs = s.coprocs := rfl
@[simp] theorem branchTo_tick (s : State) (a : Word) :
    (s.branchTo a).tick = s.tick := rfl
@[simp] theorem branchTo_bus (s : State) (a : Word) :
    (s.branchTo a).bus = s.bus := rfl

/-! ## Taking an exception -/

@[simp] theorem enter_regs (s : State) (e : Exc) (r : Word) :
    (s.enter e r).regs = s.regs.setIfInBounds (PhysReg.r14 e.mode).index r := rfl
@[simp] theorem enter_pc (s : State) (e : Exc) (r : Word) :
    (s.enter e r).pc = e.vector := rfl
@[simp] theorem enter_cpsr (s : State) (e : Exc) (r : Word) :
    (s.enter e r).cpsr = e.newCpsr s.cpsr := rfl
@[simp] theorem enter_spsrs (s : State) (e : Exc) (r : Word) :
    (s.enter e r).spsrs = s.spsrs.set e.mode s.cpsr := rfl
@[simp] theorem enter_pipe (s : State) (e : Exc) (r : Word) :
    (s.enter e r).pipe = [] := rfl
@[simp] theorem enter_ldmShadow (s : State) (e : Exc) (r : Word) :
    (s.enter e r).ldmShadow = false := rfl
@[simp] theorem enter_busyWait (s : State) (e : Exc) (r : Word) :
    (s.enter e r).busyWait = false := rfl
@[simp] theorem enter_seq (s : State) (e : Exc) (r : Word) :
    (s.enter e r).seq = none := rfl
@[simp] theorem enter_mem (s : State) (e : Exc) (r : Word) :
    (s.enter e r).mem = s.mem := rfl
@[simp] theorem enter_inputs (s : State) (e : Exc) (r : Word) :
    (s.enter e r).inputs = s.inputs := rfl
@[simp] theorem enter_moments (s : State) (e : Exc) (r : Word) :
    (s.enter e r).moments = s.moments := rfl
@[simp] theorem enter_schedule (s : State) (e : Exc) (r : Word) :
    (s.enter e r).schedule = s.schedule := rfl
@[simp] theorem enter_coprocs (s : State) (e : Exc) (r : Word) :
    (s.enter e r).coprocs = s.coprocs := rfl
@[simp] theorem enter_tick (s : State) (e : Exc) (r : Word) :
    (s.enter e r).tick = s.tick := rfl
@[simp] theorem enter_bus (s : State) (e : Exc) (r : Word) :
    (s.enter e r).bus = s.bus := rfl

/-! ## Reset -/

@[simp] theorem resetEntry_regs (s : State) :
    (s.resetEntry).regs = s.regs.setIfInBounds (PhysReg.r14 .svc).index (Config.resetLink s.tick) := rfl
@[simp] theorem resetEntry_pc (s : State) :
    (s.resetEntry).pc = 0#32 := rfl
@[simp] theorem resetEntry_cpsr (s : State) :
    (s.resetEntry).cpsr = psrSetF (psrSetI (psrWithMode s.cpsr .svc)) := rfl
@[simp] theorem resetEntry_spsrs (s : State) :
    (s.resetEntry).spsrs = { s.spsrs with svc := psrKeep (Config.resetSpsr s.tick) } := rfl
@[simp] theorem resetEntry_pipe (s : State) :
    (s.resetEntry).pipe = [] := rfl
@[simp] theorem resetEntry_ldmShadow (s : State) :
    (s.resetEntry).ldmShadow = false := rfl
@[simp] theorem resetEntry_busyWait (s : State) :
    (s.resetEntry).busyWait = false := rfl
@[simp] theorem resetEntry_seq (s : State) :
    (s.resetEntry).seq = none := rfl
@[simp] theorem resetEntry_mem (s : State) :
    (s.resetEntry).mem = s.mem := rfl
@[simp] theorem resetEntry_inputs (s : State) :
    (s.resetEntry).inputs = s.inputs := rfl
@[simp] theorem resetEntry_moments (s : State) :
    (s.resetEntry).moments = s.moments := rfl
@[simp] theorem resetEntry_schedule (s : State) :
    (s.resetEntry).schedule = s.schedule := rfl
@[simp] theorem resetEntry_coprocs (s : State) :
    (s.resetEntry).coprocs = s.coprocs := rfl
@[simp] theorem resetEntry_tick (s : State) :
    (s.resetEntry).tick = s.tick := rfl
@[simp] theorem resetEntry_bus (s : State) :
    (s.resetEntry).bus = s.bus := rfl

/-! ## A coprocessor answers -/

@[simp] theorem cpAnswered_regs (s : State) (n : BitVec 4) (w : Word) :
    (s.cpAnswered n w).regs = s.regs := rfl
@[simp] theorem cpAnswered_pc (s : State) (n : BitVec 4) (w : Word) :
    (s.cpAnswered n w).pc = s.pc := rfl
@[simp] theorem cpAnswered_cpsr (s : State) (n : BitVec 4) (w : Word) :
    (s.cpAnswered n w).cpsr = s.cpsr := rfl
@[simp] theorem cpAnswered_spsrs (s : State) (n : BitVec 4) (w : Word) :
    (s.cpAnswered n w).spsrs = s.spsrs := rfl
@[simp] theorem cpAnswered_pipe (s : State) (n : BitVec 4) (w : Word) :
    (s.cpAnswered n w).pipe = s.pipe := rfl
@[simp] theorem cpAnswered_ldmShadow (s : State) (n : BitVec 4) (w : Word) :
    (s.cpAnswered n w).ldmShadow = s.ldmShadow := rfl
@[simp] theorem cpAnswered_busyWait (s : State) (n : BitVec 4) (w : Word) :
    (s.cpAnswered n w).busyWait = s.busyWait := rfl
@[simp] theorem cpAnswered_seq (s : State) (n : BitVec 4) (w : Word) :
    (s.cpAnswered n w).seq = s.seq := rfl
@[simp] theorem cpAnswered_mem (s : State) (n : BitVec 4) (w : Word) :
    (s.cpAnswered n w).mem = s.mem := rfl
@[simp] theorem cpAnswered_inputs (s : State) (n : BitVec 4) (w : Word) :
    (s.cpAnswered n w).inputs = s.inputs := rfl
@[simp] theorem cpAnswered_moments (s : State) (n : BitVec 4) (w : Word) :
    (s.cpAnswered n w).moments = s.moments := rfl
@[simp] theorem cpAnswered_schedule (s : State) (n : BitVec 4) (w : Word) :
    (s.cpAnswered n w).schedule = s.schedule := rfl
@[simp] theorem cpAnswered_coprocs (s : State) (n : BitVec 4) (w : Word) :
    (s.cpAnswered n w).coprocs = cpUpdate (fun cp => cp.answered w s.nTRANS s.nM) s.coprocs n := rfl
@[simp] theorem cpAnswered_tick (s : State) (n : BitVec 4) (w : Word) :
    (s.cpAnswered n w).tick = s.tick := rfl
@[simp] theorem cpAnswered_bus (s : State) (n : BitVec 4) (w : Word) :
    (s.cpAnswered n w).bus = s.bus := rfl

/-! ## A coprocessor is told -/

@[simp] theorem cpTell_regs (s : State) (n : BitVec 4) (ev : List CpEvent) :
    (s.cpTell n ev).regs = s.regs := rfl
@[simp] theorem cpTell_pc (s : State) (n : BitVec 4) (ev : List CpEvent) :
    (s.cpTell n ev).pc = s.pc := rfl
@[simp] theorem cpTell_cpsr (s : State) (n : BitVec 4) (ev : List CpEvent) :
    (s.cpTell n ev).cpsr = s.cpsr := rfl
@[simp] theorem cpTell_spsrs (s : State) (n : BitVec 4) (ev : List CpEvent) :
    (s.cpTell n ev).spsrs = s.spsrs := rfl
@[simp] theorem cpTell_pipe (s : State) (n : BitVec 4) (ev : List CpEvent) :
    (s.cpTell n ev).pipe = s.pipe := rfl
@[simp] theorem cpTell_ldmShadow (s : State) (n : BitVec 4) (ev : List CpEvent) :
    (s.cpTell n ev).ldmShadow = s.ldmShadow := rfl
@[simp] theorem cpTell_busyWait (s : State) (n : BitVec 4) (ev : List CpEvent) :
    (s.cpTell n ev).busyWait = s.busyWait := rfl
@[simp] theorem cpTell_seq (s : State) (n : BitVec 4) (ev : List CpEvent) :
    (s.cpTell n ev).seq = s.seq := rfl
@[simp] theorem cpTell_mem (s : State) (n : BitVec 4) (ev : List CpEvent) :
    (s.cpTell n ev).mem = s.mem := rfl
@[simp] theorem cpTell_inputs (s : State) (n : BitVec 4) (ev : List CpEvent) :
    (s.cpTell n ev).inputs = s.inputs := rfl
@[simp] theorem cpTell_moments (s : State) (n : BitVec 4) (ev : List CpEvent) :
    (s.cpTell n ev).moments = s.moments := rfl
@[simp] theorem cpTell_schedule (s : State) (n : BitVec 4) (ev : List CpEvent) :
    (s.cpTell n ev).schedule = s.schedule := rfl
@[simp] theorem cpTell_coprocs (s : State) (n : BitVec 4) (ev : List CpEvent) :
    (s.cpTell n ev).coprocs = cpUpdate (Coproc.tell ev) s.coprocs n := rfl
@[simp] theorem cpTell_tick (s : State) (n : BitVec 4) (ev : List CpEvent) :
    (s.cpTell n ev).tick = s.tick := rfl
@[simp] theorem cpTell_bus (s : State) (n : BitVec 4) (ev : List CpEvent) :
    (s.cpTell n ev).bus = s.bus := rfl

/-! ## Every coprocessor is told -/

@[simp] theorem cpTellAll_regs (s : State) (ev : List CpEvent) :
    (s.cpTellAll ev).regs = s.regs := rfl
@[simp] theorem cpTellAll_pc (s : State) (ev : List CpEvent) :
    (s.cpTellAll ev).pc = s.pc := rfl
@[simp] theorem cpTellAll_cpsr (s : State) (ev : List CpEvent) :
    (s.cpTellAll ev).cpsr = s.cpsr := rfl
@[simp] theorem cpTellAll_spsrs (s : State) (ev : List CpEvent) :
    (s.cpTellAll ev).spsrs = s.spsrs := rfl
@[simp] theorem cpTellAll_pipe (s : State) (ev : List CpEvent) :
    (s.cpTellAll ev).pipe = s.pipe := rfl
@[simp] theorem cpTellAll_ldmShadow (s : State) (ev : List CpEvent) :
    (s.cpTellAll ev).ldmShadow = s.ldmShadow := rfl
@[simp] theorem cpTellAll_busyWait (s : State) (ev : List CpEvent) :
    (s.cpTellAll ev).busyWait = s.busyWait := rfl
@[simp] theorem cpTellAll_seq (s : State) (ev : List CpEvent) :
    (s.cpTellAll ev).seq = s.seq := rfl
@[simp] theorem cpTellAll_mem (s : State) (ev : List CpEvent) :
    (s.cpTellAll ev).mem = s.mem := rfl
@[simp] theorem cpTellAll_inputs (s : State) (ev : List CpEvent) :
    (s.cpTellAll ev).inputs = s.inputs := rfl
@[simp] theorem cpTellAll_moments (s : State) (ev : List CpEvent) :
    (s.cpTellAll ev).moments = s.moments := rfl
@[simp] theorem cpTellAll_schedule (s : State) (ev : List CpEvent) :
    (s.cpTellAll ev).schedule = s.schedule := rfl
@[simp] theorem cpTellAll_coprocs (s : State) (ev : List CpEvent) :
    (s.cpTellAll ev).coprocs = s.coprocs.map (Coproc.tell ev) := rfl
@[simp] theorem cpTellAll_tick (s : State) (ev : List CpEvent) :
    (s.cpTellAll ev).tick = s.tick := rfl
@[simp] theorem cpTellAll_bus (s : State) (ev : List CpEvent) :
    (s.cpTellAll ev).bus = s.bus := rfl

/-! ## A word is offered to the coprocessors -/

@[simp] theorem present_regs (s : State) (w : Word) :
    (s.present w).regs = s.regs := rfl
@[simp] theorem present_pc (s : State) (w : Word) :
    (s.present w).pc = s.pc := rfl
@[simp] theorem present_cpsr (s : State) (w : Word) :
    (s.present w).cpsr = s.cpsr := rfl
@[simp] theorem present_spsrs (s : State) (w : Word) :
    (s.present w).spsrs = s.spsrs := rfl
@[simp] theorem present_pipe (s : State) (w : Word) :
    (s.present w).pipe = s.pipe := rfl
@[simp] theorem present_ldmShadow (s : State) (w : Word) :
    (s.present w).ldmShadow = s.ldmShadow := rfl
@[simp] theorem present_busyWait (s : State) (w : Word) :
    (s.present w).busyWait = s.busyWait := rfl
@[simp] theorem present_seq (s : State) (w : Word) :
    (s.present w).seq = s.seq := rfl
@[simp] theorem present_mem (s : State) (w : Word) :
    (s.present w).mem = s.mem := rfl
@[simp] theorem present_inputs (s : State) (w : Word) :
    (s.present w).inputs = s.inputs := rfl
@[simp] theorem present_moments (s : State) (w : Word) :
    (s.present w).moments = s.moments := rfl
@[simp] theorem present_schedule (s : State) (w : Word) :
    (s.present w).schedule = s.schedule := rfl
@[simp] theorem present_coprocs (s : State) (w : Word) :
    (s.present w).coprocs = s.coprocs.map (Coproc.tell (s.offerEvents w)) := rfl
@[simp] theorem present_tick (s : State) (w : Word) :
    (s.present w).tick = s.tick := rfl
@[simp] theorem present_bus (s : State) (w : Word) :
    (s.present w).bus = s.bus := rfl

/-! ## Writing a register by number -/

@[simp] theorem setRegIn_pc (s : State) (m : Mode) (n : RegNum) (v : Word) : (s.setRegIn m n v).pc = s.pc := by
  unfold State.setRegIn; split <;> rfl
@[simp] theorem setRegIn_cpsr (s : State) (m : Mode) (n : RegNum) (v : Word) : (s.setRegIn m n v).cpsr = s.cpsr := by
  unfold State.setRegIn; split <;> rfl
@[simp] theorem setRegIn_spsrs (s : State) (m : Mode) (n : RegNum) (v : Word) : (s.setRegIn m n v).spsrs = s.spsrs := by
  unfold State.setRegIn; split <;> rfl
@[simp] theorem setRegIn_pipe (s : State) (m : Mode) (n : RegNum) (v : Word) : (s.setRegIn m n v).pipe = s.pipe := by
  unfold State.setRegIn; split <;> rfl
@[simp] theorem setRegIn_ldmShadow (s : State) (m : Mode) (n : RegNum) (v : Word) : (s.setRegIn m n v).ldmShadow = s.ldmShadow := by
  unfold State.setRegIn; split <;> rfl
@[simp] theorem setRegIn_busyWait (s : State) (m : Mode) (n : RegNum) (v : Word) : (s.setRegIn m n v).busyWait = s.busyWait := by
  unfold State.setRegIn; split <;> rfl
@[simp] theorem setRegIn_seq (s : State) (m : Mode) (n : RegNum) (v : Word) : (s.setRegIn m n v).seq = s.seq := by
  unfold State.setRegIn; split <;> rfl
@[simp] theorem setRegIn_mem (s : State) (m : Mode) (n : RegNum) (v : Word) : (s.setRegIn m n v).mem = s.mem := by
  unfold State.setRegIn; split <;> rfl
@[simp] theorem setRegIn_inputs (s : State) (m : Mode) (n : RegNum) (v : Word) : (s.setRegIn m n v).inputs = s.inputs := by
  unfold State.setRegIn; split <;> rfl
@[simp] theorem setRegIn_moments (s : State) (m : Mode) (n : RegNum) (v : Word) : (s.setRegIn m n v).moments = s.moments := by
  unfold State.setRegIn; split <;> rfl
@[simp] theorem setRegIn_schedule (s : State) (m : Mode) (n : RegNum) (v : Word) : (s.setRegIn m n v).schedule = s.schedule := by
  unfold State.setRegIn; split <;> rfl
@[simp] theorem setRegIn_coprocs (s : State) (m : Mode) (n : RegNum) (v : Word) : (s.setRegIn m n v).coprocs = s.coprocs := by
  unfold State.setRegIn; split <;> rfl
@[simp] theorem setRegIn_tick (s : State) (m : Mode) (n : RegNum) (v : Word) : (s.setRegIn m n v).tick = s.tick := by
  unfold State.setRegIn; split <;> rfl
@[simp] theorem setRegIn_bus (s : State) (m : Mode) (n : RegNum) (v : Word) : (s.setRegIn m n v).bus = s.bus := by
  unfold State.setRegIn; split <;> rfl

/-! ## Writing a register of the current mode -/

@[simp] theorem setReg_pc (s : State) (n : RegNum) (v : Word) : (s.setReg n v).pc = s.pc := by
  simp [State.setReg]
@[simp] theorem setReg_cpsr (s : State) (n : RegNum) (v : Word) : (s.setReg n v).cpsr = s.cpsr := by
  simp [State.setReg]
@[simp] theorem setReg_spsrs (s : State) (n : RegNum) (v : Word) : (s.setReg n v).spsrs = s.spsrs := by
  simp [State.setReg]
@[simp] theorem setReg_pipe (s : State) (n : RegNum) (v : Word) : (s.setReg n v).pipe = s.pipe := by
  simp [State.setReg]
@[simp] theorem setReg_ldmShadow (s : State) (n : RegNum) (v : Word) : (s.setReg n v).ldmShadow = s.ldmShadow := by
  simp [State.setReg]
@[simp] theorem setReg_busyWait (s : State) (n : RegNum) (v : Word) : (s.setReg n v).busyWait = s.busyWait := by
  simp [State.setReg]
@[simp] theorem setReg_seq (s : State) (n : RegNum) (v : Word) : (s.setReg n v).seq = s.seq := by
  simp [State.setReg]
@[simp] theorem setReg_mem (s : State) (n : RegNum) (v : Word) : (s.setReg n v).mem = s.mem := by
  simp [State.setReg]
@[simp] theorem setReg_inputs (s : State) (n : RegNum) (v : Word) : (s.setReg n v).inputs = s.inputs := by
  simp [State.setReg]
@[simp] theorem setReg_moments (s : State) (n : RegNum) (v : Word) : (s.setReg n v).moments = s.moments := by
  simp [State.setReg]
@[simp] theorem setReg_schedule (s : State) (n : RegNum) (v : Word) : (s.setReg n v).schedule = s.schedule := by
  simp [State.setReg]
@[simp] theorem setReg_coprocs (s : State) (n : RegNum) (v : Word) : (s.setReg n v).coprocs = s.coprocs := by
  simp [State.setReg]
@[simp] theorem setReg_tick (s : State) (n : RegNum) (v : Word) : (s.setReg n v).tick = s.tick := by
  simp [State.setReg]
@[simp] theorem setReg_bus (s : State) (n : RegNum) (v : Word) : (s.setReg n v).bus = s.bus := by
  simp [State.setReg]

/-! ## Writing data -/

@[simp] theorem writeData_regs (s : State) (b : Bool) (a v : Word) : (s.writeData b a v).regs = s.regs := by
  unfold State.writeData; split <;> rfl
@[simp] theorem writeData_pc (s : State) (b : Bool) (a v : Word) : (s.writeData b a v).pc = s.pc := by
  unfold State.writeData; split <;> rfl
@[simp] theorem writeData_cpsr (s : State) (b : Bool) (a v : Word) : (s.writeData b a v).cpsr = s.cpsr := by
  unfold State.writeData; split <;> rfl
@[simp] theorem writeData_spsrs (s : State) (b : Bool) (a v : Word) : (s.writeData b a v).spsrs = s.spsrs := by
  unfold State.writeData; split <;> rfl
@[simp] theorem writeData_pipe (s : State) (b : Bool) (a v : Word) : (s.writeData b a v).pipe = s.pipe := by
  unfold State.writeData; split <;> rfl
@[simp] theorem writeData_ldmShadow (s : State) (b : Bool) (a v : Word) : (s.writeData b a v).ldmShadow = s.ldmShadow := by
  unfold State.writeData; split <;> rfl
@[simp] theorem writeData_busyWait (s : State) (b : Bool) (a v : Word) : (s.writeData b a v).busyWait = s.busyWait := by
  unfold State.writeData; split <;> rfl
@[simp] theorem writeData_seq (s : State) (b : Bool) (a v : Word) : (s.writeData b a v).seq = s.seq := by
  unfold State.writeData; split <;> rfl
@[simp] theorem writeData_inputs (s : State) (b : Bool) (a v : Word) : (s.writeData b a v).inputs = s.inputs := by
  unfold State.writeData; split <;> rfl
@[simp] theorem writeData_moments (s : State) (b : Bool) (a v : Word) : (s.writeData b a v).moments = s.moments := by
  unfold State.writeData; split <;> rfl
@[simp] theorem writeData_schedule (s : State) (b : Bool) (a v : Word) : (s.writeData b a v).schedule = s.schedule := by
  unfold State.writeData; split <;> rfl
@[simp] theorem writeData_coprocs (s : State) (b : Bool) (a v : Word) : (s.writeData b a v).coprocs = s.coprocs := by
  unfold State.writeData; split <;> rfl
@[simp] theorem writeData_tick (s : State) (b : Bool) (a v : Word) : (s.writeData b a v).tick = s.tick := by
  unfold State.writeData; split <;> rfl
@[simp] theorem writeData_bus (s : State) (b : Bool) (a v : Word) : (s.writeData b a v).bus = s.bus := by
  unfold State.writeData; split <;> rfl

/-! ## A write cycle answered by the memory system -/

@[simp] theorem busWrite_regs (s : State) (a : Word) (t : BusAttrs) (v : Word) : (s.busWrite a t v).regs = s.regs := by
  unfold State.busWrite; split <;> simp
@[simp] theorem busWrite_pc (s : State) (a : Word) (t : BusAttrs) (v : Word) : (s.busWrite a t v).pc = s.pc := by
  unfold State.busWrite; split <;> simp
@[simp] theorem busWrite_cpsr (s : State) (a : Word) (t : BusAttrs) (v : Word) : (s.busWrite a t v).cpsr = s.cpsr := by
  unfold State.busWrite; split <;> simp
@[simp] theorem busWrite_spsrs (s : State) (a : Word) (t : BusAttrs) (v : Word) : (s.busWrite a t v).spsrs = s.spsrs := by
  unfold State.busWrite; split <;> simp
@[simp] theorem busWrite_pipe (s : State) (a : Word) (t : BusAttrs) (v : Word) : (s.busWrite a t v).pipe = s.pipe := by
  unfold State.busWrite; split <;> simp
@[simp] theorem busWrite_ldmShadow (s : State) (a : Word) (t : BusAttrs) (v : Word) : (s.busWrite a t v).ldmShadow = s.ldmShadow := by
  unfold State.busWrite; split <;> simp
@[simp] theorem busWrite_busyWait (s : State) (a : Word) (t : BusAttrs) (v : Word) : (s.busWrite a t v).busyWait = s.busyWait := by
  unfold State.busWrite; split <;> simp
@[simp] theorem busWrite_seq (s : State) (a : Word) (t : BusAttrs) (v : Word) : (s.busWrite a t v).seq = s.seq := by
  unfold State.busWrite; split <;> simp
@[simp] theorem busWrite_inputs (s : State) (a : Word) (t : BusAttrs) (v : Word) : (s.busWrite a t v).inputs = s.inputs := by
  unfold State.busWrite; split <;> simp
@[simp] theorem busWrite_moments (s : State) (a : Word) (t : BusAttrs) (v : Word) : (s.busWrite a t v).moments = s.moments := by
  unfold State.busWrite; split <;> simp
@[simp] theorem busWrite_schedule (s : State) (a : Word) (t : BusAttrs) (v : Word) : (s.busWrite a t v).schedule = s.schedule := by
  unfold State.busWrite; split <;> simp
@[simp] theorem busWrite_coprocs (s : State) (a : Word) (t : BusAttrs) (v : Word) : (s.busWrite a t v).coprocs = s.coprocs := by
  unfold State.busWrite; split <;> simp
@[simp] theorem busWrite_tick (s : State) (a : Word) (t : BusAttrs) (v : Word) : (s.busWrite a t v).tick = s.tick := by
  unfold State.busWrite; split <;> simp
@[simp] theorem busWrite_bus (s : State) (a : Word) (t : BusAttrs) (v : Word) : (s.busWrite a t v).bus = s.bus := by
  unfold State.busWrite; split <;> simp

/-! ## The environment before a bus cycle -/

@[simp] theorem environment_regs (s : State) : (s.environment).regs = s.regs := by
  unfold State.environment; split <;> rfl
@[simp] theorem environment_pc (s : State) : (s.environment).pc = s.pc := by
  unfold State.environment; split <;> rfl
@[simp] theorem environment_cpsr (s : State) : (s.environment).cpsr = s.cpsr := by
  unfold State.environment; split <;> rfl
@[simp] theorem environment_spsrs (s : State) : (s.environment).spsrs = s.spsrs := by
  unfold State.environment; split <;> rfl
@[simp] theorem environment_pipe (s : State) : (s.environment).pipe = s.pipe := by
  unfold State.environment; split <;> rfl
@[simp] theorem environment_ldmShadow (s : State) : (s.environment).ldmShadow = s.ldmShadow := by
  unfold State.environment; split <;> rfl
@[simp] theorem environment_busyWait (s : State) : (s.environment).busyWait = s.busyWait := by
  unfold State.environment; split <;> rfl
@[simp] theorem environment_seq (s : State) : (s.environment).seq = s.seq := by
  unfold State.environment; split <;> rfl
@[simp] theorem environment_schedule (s : State) : (s.environment).schedule = s.schedule := by
  unfold State.environment; split <;> rfl
@[simp] theorem environment_coprocs (s : State) : (s.environment).coprocs = s.coprocs := by
  unfold State.environment; split <;> rfl
@[simp] theorem environment_tick (s : State) : (s.environment).tick = s.tick := by
  unfold State.environment; split <;> rfl
@[simp] theorem environment_bus (s : State) : (s.environment).bus = s.bus := by
  unfold State.environment; split <;> rfl

/-! ## A bus cycle -/

@[simp] theorem cycle_regs (s : State) (c : BusCycle) : (s.cycle c).regs = s.regs := by
  simp [State.cycle]
@[simp] theorem cycle_pc (s : State) (c : BusCycle) : (s.cycle c).pc = s.pc := by
  simp [State.cycle]
@[simp] theorem cycle_cpsr (s : State) (c : BusCycle) : (s.cycle c).cpsr = s.cpsr := by
  simp [State.cycle]
@[simp] theorem cycle_spsrs (s : State) (c : BusCycle) : (s.cycle c).spsrs = s.spsrs := by
  simp [State.cycle]
@[simp] theorem cycle_pipe (s : State) (c : BusCycle) : (s.cycle c).pipe = s.pipe := by
  simp [State.cycle]
@[simp] theorem cycle_ldmShadow (s : State) (c : BusCycle) : (s.cycle c).ldmShadow = s.ldmShadow := by
  simp [State.cycle]
@[simp] theorem cycle_busyWait (s : State) (c : BusCycle) : (s.cycle c).busyWait = s.busyWait := by
  simp [State.cycle]
@[simp] theorem cycle_schedule (s : State) (c : BusCycle) : (s.cycle c).schedule = s.schedule := by
  simp [State.cycle]
@[simp] theorem cycle_coprocs (s : State) (c : BusCycle) : (s.cycle c).coprocs = s.coprocs := by
  simp [State.cycle]
@[simp] theorem cycle_tick (s : State) (c : BusCycle) : (s.cycle c).tick = s.tick := by
  simp [State.cycle]

@[simp] theorem cycle_mem (s : State) (c : BusCycle) : (s.cycle c).mem = s.environment.mem := rfl
@[simp] theorem cycle_inputs (s : State) (c : BusCycle) : (s.cycle c).inputs = s.environment.inputs := rfl
@[simp] theorem cycle_moments (s : State) (c : BusCycle) : (s.cycle c).moments = s.environment.moments := rfl
@[simp] theorem cycle_bus (s : State) (c : BusCycle) : (s.cycle c).bus = s.bus ++ [c] := by
  simp [State.cycle]
@[simp] theorem cycle_seq (s : State) (c : BusCycle) : (s.cycle c).seq = c.nextSeq := rfl
@[simp] theorem environment_moments (s : State) : s.environment.moments = s.moments.tail := by
  unfold State.environment; split <;> simp_all

/-! ## Some bus cycles -/

@[simp] theorem passing_regs (s : State) (cs : List BusCycle) : (s.passing cs).regs = s.regs := by
  induction cs generalizing s with
  | nil => rfl
  | cons c cs ih => simpa [State.passing] using ih (s.cycle c)
@[simp] theorem passing_pc (s : State) (cs : List BusCycle) : (s.passing cs).pc = s.pc := by
  induction cs generalizing s with
  | nil => rfl
  | cons c cs ih => simpa [State.passing] using ih (s.cycle c)
@[simp] theorem passing_cpsr (s : State) (cs : List BusCycle) : (s.passing cs).cpsr = s.cpsr := by
  induction cs generalizing s with
  | nil => rfl
  | cons c cs ih => simpa [State.passing] using ih (s.cycle c)
@[simp] theorem passing_spsrs (s : State) (cs : List BusCycle) : (s.passing cs).spsrs = s.spsrs := by
  induction cs generalizing s with
  | nil => rfl
  | cons c cs ih => simpa [State.passing] using ih (s.cycle c)
@[simp] theorem passing_pipe (s : State) (cs : List BusCycle) : (s.passing cs).pipe = s.pipe := by
  induction cs generalizing s with
  | nil => rfl
  | cons c cs ih => simpa [State.passing] using ih (s.cycle c)
@[simp] theorem passing_ldmShadow (s : State) (cs : List BusCycle) : (s.passing cs).ldmShadow = s.ldmShadow := by
  induction cs generalizing s with
  | nil => rfl
  | cons c cs ih => simpa [State.passing] using ih (s.cycle c)
@[simp] theorem passing_busyWait (s : State) (cs : List BusCycle) : (s.passing cs).busyWait = s.busyWait := by
  induction cs generalizing s with
  | nil => rfl
  | cons c cs ih => simpa [State.passing] using ih (s.cycle c)
@[simp] theorem passing_schedule (s : State) (cs : List BusCycle) : (s.passing cs).schedule = s.schedule := by
  induction cs generalizing s with
  | nil => rfl
  | cons c cs ih => simpa [State.passing] using ih (s.cycle c)
@[simp] theorem passing_coprocs (s : State) (cs : List BusCycle) : (s.passing cs).coprocs = s.coprocs := by
  induction cs generalizing s with
  | nil => rfl
  | cons c cs ih => simpa [State.passing] using ih (s.cycle c)
@[simp] theorem passing_tick (s : State) (cs : List BusCycle) : (s.passing cs).tick = s.tick := by
  induction cs generalizing s with
  | nil => rfl
  | cons c cs ih => simpa [State.passing] using ih (s.cycle c)
@[simp] theorem passing_bus (s : State) (cs : List BusCycle) : (s.passing cs).bus = s.bus ++ cs := by
  induction cs generalizing s with
  | nil => simp [State.passing]
  | cons c cs ih =>
    have := ih (s.cycle c)
    simp only [State.passing, List.foldl_cons] at this ⊢
    rw [this]; simp

/-! ## A data write cycle -/

@[simp] theorem store_regs (s : State) (ty : CycleType) (a : Word) (t : BusAttrs) (v : Word) : (s.store ty a t v).regs = s.regs := by
  simp [State.store]
@[simp] theorem store_pc (s : State) (ty : CycleType) (a : Word) (t : BusAttrs) (v : Word) : (s.store ty a t v).pc = s.pc := by
  simp [State.store]
@[simp] theorem store_cpsr (s : State) (ty : CycleType) (a : Word) (t : BusAttrs) (v : Word) : (s.store ty a t v).cpsr = s.cpsr := by
  simp [State.store]
@[simp] theorem store_spsrs (s : State) (ty : CycleType) (a : Word) (t : BusAttrs) (v : Word) : (s.store ty a t v).spsrs = s.spsrs := by
  simp [State.store]
@[simp] theorem store_pipe (s : State) (ty : CycleType) (a : Word) (t : BusAttrs) (v : Word) : (s.store ty a t v).pipe = s.pipe := by
  simp [State.store]
@[simp] theorem store_ldmShadow (s : State) (ty : CycleType) (a : Word) (t : BusAttrs) (v : Word) : (s.store ty a t v).ldmShadow = s.ldmShadow := by
  simp [State.store]
@[simp] theorem store_busyWait (s : State) (ty : CycleType) (a : Word) (t : BusAttrs) (v : Word) : (s.store ty a t v).busyWait = s.busyWait := by
  simp [State.store]
@[simp] theorem store_schedule (s : State) (ty : CycleType) (a : Word) (t : BusAttrs) (v : Word) : (s.store ty a t v).schedule = s.schedule := by
  simp [State.store]
@[simp] theorem store_coprocs (s : State) (ty : CycleType) (a : Word) (t : BusAttrs) (v : Word) : (s.store ty a t v).coprocs = s.coprocs := by
  simp [State.store]
@[simp] theorem store_tick (s : State) (ty : CycleType) (a : Word) (t : BusAttrs) (v : Word) : (s.store ty a t v).tick = s.tick := by
  simp [State.store]

@[simp] theorem store_inputs (s : State) (ty : CycleType) (a : Word) (t : BusAttrs) (v : Word) :
    (s.store ty a t v).inputs = s.environment.inputs := by
  simp [State.store]
@[simp] theorem store_bus (s : State) (ty : CycleType) (a : Word) (t : BusAttrs) (v : Word) :
    (s.store ty a t v).bus = s.bus ++ [writeCycle ty a t (dataOut t v)] := by
  simp [State.store]

/-! ## An internal cycle -/

@[simp] theorem internal_regs (s : State) : (s.internal).regs = s.regs := by
  simp [State.internal]
@[simp] theorem internal_pc (s : State) : (s.internal).pc = s.pc := by
  simp [State.internal]
@[simp] theorem internal_cpsr (s : State) : (s.internal).cpsr = s.cpsr := by
  simp [State.internal]
@[simp] theorem internal_spsrs (s : State) : (s.internal).spsrs = s.spsrs := by
  simp [State.internal]
@[simp] theorem internal_pipe (s : State) : (s.internal).pipe = s.pipe := by
  simp [State.internal]
@[simp] theorem internal_ldmShadow (s : State) : (s.internal).ldmShadow = s.ldmShadow := by
  simp [State.internal]
@[simp] theorem internal_busyWait (s : State) : (s.internal).busyWait = s.busyWait := by
  simp [State.internal]
@[simp] theorem internal_schedule (s : State) : (s.internal).schedule = s.schedule := by
  simp [State.internal]
@[simp] theorem internal_coprocs (s : State) : (s.internal).coprocs = s.coprocs := by
  simp [State.internal]
@[simp] theorem internal_tick (s : State) : (s.internal).tick = s.tick := by
  simp [State.internal]

/-! ## A discarded fetch -/

@[simp] theorem discardedFetch_regs (s : State) (a : Word) : (s.discardedFetch a).regs = s.regs := by
  simp [State.discardedFetch]
@[simp] theorem discardedFetch_pc (s : State) (a : Word) : (s.discardedFetch a).pc = s.pc := by
  simp [State.discardedFetch]
@[simp] theorem discardedFetch_cpsr (s : State) (a : Word) : (s.discardedFetch a).cpsr = s.cpsr := by
  simp [State.discardedFetch]
@[simp] theorem discardedFetch_spsrs (s : State) (a : Word) : (s.discardedFetch a).spsrs = s.spsrs := by
  simp [State.discardedFetch]
@[simp] theorem discardedFetch_pipe (s : State) (a : Word) : (s.discardedFetch a).pipe = s.pipe := by
  simp [State.discardedFetch]
@[simp] theorem discardedFetch_ldmShadow (s : State) (a : Word) : (s.discardedFetch a).ldmShadow = s.ldmShadow := by
  simp [State.discardedFetch]
@[simp] theorem discardedFetch_busyWait (s : State) (a : Word) : (s.discardedFetch a).busyWait = s.busyWait := by
  simp [State.discardedFetch]
@[simp] theorem discardedFetch_schedule (s : State) (a : Word) : (s.discardedFetch a).schedule = s.schedule := by
  simp [State.discardedFetch]
@[simp] theorem discardedFetch_coprocs (s : State) (a : Word) : (s.discardedFetch a).coprocs = s.coprocs := by
  simp [State.discardedFetch]
@[simp] theorem discardedFetch_tick (s : State) (a : Word) : (s.discardedFetch a).tick = s.tick := by
  simp [State.discardedFetch]

/-! ## Fetching a word -/

@[simp] theorem fetchOne_regs (s : State) (b : Bool) : (s.fetchOne b).regs = s.regs := by
  simp [State.fetchOne]
@[simp] theorem fetchOne_pc (s : State) (b : Bool) : (s.fetchOne b).pc = s.pc := by
  simp [State.fetchOne]
@[simp] theorem fetchOne_cpsr (s : State) (b : Bool) : (s.fetchOne b).cpsr = s.cpsr := by
  simp [State.fetchOne]
@[simp] theorem fetchOne_spsrs (s : State) (b : Bool) : (s.fetchOne b).spsrs = s.spsrs := by
  simp [State.fetchOne]
@[simp] theorem fetchOne_ldmShadow (s : State) (b : Bool) : (s.fetchOne b).ldmShadow = s.ldmShadow := by
  simp [State.fetchOne]
@[simp] theorem fetchOne_busyWait (s : State) (b : Bool) : (s.fetchOne b).busyWait = s.busyWait := by
  simp [State.fetchOne]
@[simp] theorem fetchOne_schedule (s : State) (b : Bool) : (s.fetchOne b).schedule = s.schedule := by
  simp [State.fetchOne]
@[simp] theorem fetchOne_coprocs (s : State) (b : Bool) : (s.fetchOne b).coprocs = s.coprocs := by
  simp [State.fetchOne]
@[simp] theorem fetchOne_tick (s : State) (b : Bool) : (s.fetchOne b).tick = s.tick := by
  simp [State.fetchOne]


/-! ## Filling the pipeline -/

@[simp] theorem fetchMany_regs (k : Nat) (s : State) : (State.fetchMany k s).regs = s.regs := by
  induction k generalizing s with
  | zero => rfl
  | succ k ih => simp [State.fetchMany, ih]
@[simp] theorem fillTo_regs (s : State) (n : Nat) : (s.fillTo n).regs = s.regs := by
  simp [State.fillTo]
@[simp] theorem fetchMany_pc (k : Nat) (s : State) : (State.fetchMany k s).pc = s.pc := by
  induction k generalizing s with
  | zero => rfl
  | succ k ih => simp [State.fetchMany, ih]
@[simp] theorem fillTo_pc (s : State) (n : Nat) : (s.fillTo n).pc = s.pc := by
  simp [State.fillTo]
@[simp] theorem fetchMany_cpsr (k : Nat) (s : State) : (State.fetchMany k s).cpsr = s.cpsr := by
  induction k generalizing s with
  | zero => rfl
  | succ k ih => simp [State.fetchMany, ih]
@[simp] theorem fillTo_cpsr (s : State) (n : Nat) : (s.fillTo n).cpsr = s.cpsr := by
  simp [State.fillTo]
@[simp] theorem fetchMany_spsrs (k : Nat) (s : State) : (State.fetchMany k s).spsrs = s.spsrs := by
  induction k generalizing s with
  | zero => rfl
  | succ k ih => simp [State.fetchMany, ih]
@[simp] theorem fillTo_spsrs (s : State) (n : Nat) : (s.fillTo n).spsrs = s.spsrs := by
  simp [State.fillTo]
@[simp] theorem fetchMany_ldmShadow (k : Nat) (s : State) : (State.fetchMany k s).ldmShadow = s.ldmShadow := by
  induction k generalizing s with
  | zero => rfl
  | succ k ih => simp [State.fetchMany, ih]
@[simp] theorem fillTo_ldmShadow (s : State) (n : Nat) : (s.fillTo n).ldmShadow = s.ldmShadow := by
  simp [State.fillTo]
@[simp] theorem fetchMany_busyWait (k : Nat) (s : State) : (State.fetchMany k s).busyWait = s.busyWait := by
  induction k generalizing s with
  | zero => rfl
  | succ k ih => simp [State.fetchMany, ih]
@[simp] theorem fillTo_busyWait (s : State) (n : Nat) : (s.fillTo n).busyWait = s.busyWait := by
  simp [State.fillTo]
@[simp] theorem fetchMany_schedule (k : Nat) (s : State) : (State.fetchMany k s).schedule = s.schedule := by
  induction k generalizing s with
  | zero => rfl
  | succ k ih => simp [State.fetchMany, ih]
@[simp] theorem fillTo_schedule (s : State) (n : Nat) : (s.fillTo n).schedule = s.schedule := by
  simp [State.fillTo]
@[simp] theorem fetchMany_coprocs (k : Nat) (s : State) : (State.fetchMany k s).coprocs = s.coprocs := by
  induction k generalizing s with
  | zero => rfl
  | succ k ih => simp [State.fetchMany, ih]
@[simp] theorem fillTo_coprocs (s : State) (n : Nat) : (s.fillTo n).coprocs = s.coprocs := by
  simp [State.fillTo]
@[simp] theorem fetchMany_tick (k : Nat) (s : State) : (State.fetchMany k s).tick = s.tick := by
  induction k generalizing s with
  | zero => rfl
  | succ k ih => simp [State.fetchMany, ih]
@[simp] theorem fillTo_tick (s : State) (n : Nat) : (s.fillTo n).tick = s.tick := by
  simp [State.fillTo]

/-! ## What depends on a field alone -/

@[simp] theorem setGpr_mode (s : State) (p : PhysReg) (v : Word) : (s.setGpr p v).mode = s.mode := by
  simp [State.mode]
@[simp] theorem advance_mode (s : State) : (s.advance).mode = s.mode := by
  simp [State.mode]
@[simp] theorem branchTo_mode (s : State) (a : Word) : (s.branchTo a).mode = s.mode := by
  simp [State.mode]
@[simp] theorem setRegIn_mode (s : State) (m : Mode) (n : RegNum) (v : Word) : (s.setRegIn m n v).mode = s.mode := by
  simp [State.mode]
@[simp] theorem setReg_mode (s : State) (n : RegNum) (v : Word) : (s.setReg n v).mode = s.mode := by
  simp [State.mode]
@[simp] theorem writeData_mode (s : State) (b : Bool) (a v : Word) : (s.writeData b a v).mode = s.mode := by
  simp [State.mode]
@[simp] theorem busWrite_mode (s : State) (a : Word) (t : BusAttrs) (v : Word) : (s.busWrite a t v).mode = s.mode := by
  simp [State.mode]
@[simp] theorem cycle_mode (s : State) (c : BusCycle) : (s.cycle c).mode = s.mode := by
  simp [State.mode]
@[simp] theorem passing_mode (s : State) (cs : List BusCycle) : (s.passing cs).mode = s.mode := by
  simp [State.mode]
@[simp] theorem store_mode (s : State) (ty : CycleType) (a : Word) (t : BusAttrs) (v : Word) : (s.store ty a t v).mode = s.mode := by
  simp [State.mode]
@[simp] theorem internal_mode (s : State) : (s.internal).mode = s.mode := by
  simp [State.mode]
@[simp] theorem discardedFetch_mode (s : State) (a : Word) : (s.discardedFetch a).mode = s.mode := by
  simp [State.mode]
@[simp] theorem cpAnswered_mode (s : State) (n : BitVec 4) (w : Word) : (s.cpAnswered n w).mode = s.mode := by
  simp [State.mode]
@[simp] theorem present_mode (s : State) (w : Word) : (s.present w).mode = s.mode := by
  simp [State.mode]
@[simp] theorem cpTell_mode (s : State) (n : BitVec 4) (ev : List CpEvent) : (s.cpTell n ev).mode = s.mode := by
  simp [State.mode]
@[simp] theorem fillTo_mode (s : State) (n : Nat) : (s.fillTo n).mode = s.mode := by
  simp [State.mode]
@[simp] theorem advance_gpr (s : State) (q : PhysReg) : (s.advance).gpr q = s.gpr q := by
  simp [State.gpr]
@[simp] theorem branchTo_gpr (s : State) (a : Word) (q : PhysReg) : (s.branchTo a).gpr q = s.gpr q := by
  simp [State.gpr]
@[simp] theorem writeData_gpr (s : State) (b : Bool) (a v : Word) (q : PhysReg) : (s.writeData b a v).gpr q = s.gpr q := by
  simp [State.gpr]
@[simp] theorem busWrite_gpr (s : State) (a : Word) (t : BusAttrs) (v : Word) (q : PhysReg) : (s.busWrite a t v).gpr q = s.gpr q := by
  simp [State.gpr]
@[simp] theorem cycle_gpr (s : State) (c : BusCycle) (q : PhysReg) : (s.cycle c).gpr q = s.gpr q := by
  simp [State.gpr]
@[simp] theorem passing_gpr (s : State) (cs : List BusCycle) (q : PhysReg) : (s.passing cs).gpr q = s.gpr q := by
  simp [State.gpr]
@[simp] theorem store_gpr (s : State) (ty : CycleType) (a : Word) (t : BusAttrs) (v : Word) (q : PhysReg) : (s.store ty a t v).gpr q = s.gpr q := by
  simp [State.gpr]
@[simp] theorem internal_gpr (s : State) (q : PhysReg) : (s.internal).gpr q = s.gpr q := by
  simp [State.gpr]
@[simp] theorem discardedFetch_gpr (s : State) (a : Word) (q : PhysReg) : (s.discardedFetch a).gpr q = s.gpr q := by
  simp [State.gpr]
@[simp] theorem cpAnswered_gpr (s : State) (n : BitVec 4) (w : Word) (q : PhysReg) : (s.cpAnswered n w).gpr q = s.gpr q := by
  simp [State.gpr]
@[simp] theorem present_gpr (s : State) (w : Word) (q : PhysReg) : (s.present w).gpr q = s.gpr q := by
  simp [State.gpr]
@[simp] theorem cpTell_gpr (s : State) (n : BitVec 4) (ev : List CpEvent) (q : PhysReg) : (s.cpTell n ev).gpr q = s.gpr q := by
  simp [State.gpr]
@[simp] theorem fillTo_gpr (s : State) (n : Nat) (q : PhysReg) : (s.fillTo n).gpr q = s.gpr q := by
  simp [State.gpr]
@[simp] theorem setGpr_byteAt (s : State) (p : PhysReg) (v : Word) (b : Word) : (s.setGpr p v).byteAt b = s.byteAt b := by
  simp [State.byteAt]
@[simp] theorem advance_byteAt (s : State) (b : Word) : (s.advance).byteAt b = s.byteAt b := by
  simp [State.byteAt]
@[simp] theorem branchTo_byteAt (s : State) (a : Word) (b : Word) : (s.branchTo a).byteAt b = s.byteAt b := by
  simp [State.byteAt]
@[simp] theorem setRegIn_byteAt (s : State) (m : Mode) (n : RegNum) (v : Word) (b : Word) : (s.setRegIn m n v).byteAt b = s.byteAt b := by
  simp [State.byteAt]
@[simp] theorem setReg_byteAt (s : State) (n : RegNum) (v : Word) (b : Word) : (s.setReg n v).byteAt b = s.byteAt b := by
  simp [State.byteAt]
@[simp] theorem cpAnswered_byteAt (s : State) (n : BitVec 4) (w : Word) (b : Word) : (s.cpAnswered n w).byteAt b = s.byteAt b := by
  simp [State.byteAt]
@[simp] theorem present_byteAt (s : State) (w : Word) (b : Word) : (s.present w).byteAt b = s.byteAt b := by
  simp [State.byteAt]
@[simp] theorem cpTell_byteAt (s : State) (n : BitVec 4) (ev : List CpEvent) (b : Word) : (s.cpTell n ev).byteAt b = s.byteAt b := by
  simp [State.byteAt]
@[simp] theorem setFlags_mode (s : State) (f : Flags) : (s.setFlags f).mode = s.mode := by
  simp only [State.mode, setFlags_cpsr, psrMode, psrWithFlags, psrWithTop]
  congr 2
  apply BitVec.eq_of_getLsbD_eq
  intro i hi
  simp only [BitVec.getLsbD_extractLsb', BitVec.getLsbD_append]
  simp [show i < 28 by omega, hi]
@[simp] theorem setFlags_gpr (s : State) (f : Flags) (q : PhysReg) : (s.setFlags f).gpr q = s.gpr q := rfl
@[simp] theorem setFlags_byteAt (s : State) (f : Flags) (b : Word) : (s.setFlags f).byteAt b = s.byteAt b := rfl
@[simp] theorem enter_byteAt (s : State) (e : Exc) (r b : Word) : (s.enter e r).byteAt b = s.byteAt b := rfl

end Sys2Proof.Machine
end

