-- ==== Sys2Proof/Laws/Memory.lean ====
section
/-! SUPPORT. Memory: a read after a write, and the canonical form, which every operation keeps. -/

namespace Sys2Proof.Machine

theorem wfFrom_cons {low k : Nat} {b : Byte} {rest : Memory} :
    Memory.wfFrom low ((k, b) :: rest) = true ↔
      low ≤ k ∧ k < 2 ^ 32 ∧ b ≠ 0#8 ∧ Memory.wfFrom (k + 1) rest = true := by
  simp [Memory.wfFrom, and_assoc]

theorem wfFrom_mono {low low' : Nat} {m : Memory} (h : Memory.wfFrom low m = true) (hl : low' ≤ low) :
    Memory.wfFrom low' m = true := by
  cases m with
  | nil => rfl
  | cons x rest =>
    obtain ⟨k, b⟩ := x
    obtain ⟨h1, h2⟩ := wfFrom_cons.mp h
    exact wfFrom_cons.mpr ⟨Nat.le_trans hl h1, h2⟩

/-- A key below every listed one reads as 0. -/
theorem get_below {low : Nat} {m : Memory} (h : Memory.wfFrom low m = true) {a : Nat} (ha : a < low) :
    m.get a = 0#8 := by
  induction m generalizing low with
  | nil => rfl
  | cons x rest ih =>
    obtain ⟨k, b⟩ := x
    obtain ⟨h1, -, -, h4⟩ := wfFrom_cons.mp h
    rw [Memory.get, if_neg (by omega)]
    exact ih h4 (by omega)

/-- A write keeps the canonical form. -/
theorem set_wfFrom {low : Nat} {m : Memory} (h : Memory.wfFrom low m = true) {a : Nat} (hl : low ≤ a)
    (ha : a < 2 ^ 32) (v : Byte) : Memory.wfFrom low (m.set a v) = true := by
  induction m generalizing low with
  | nil =>
    unfold Memory.set
    split
    · rfl
    · next hv => exact wfFrom_cons.mpr ⟨hl, ha, hv, rfl⟩
  | cons x rest ih =>
    obtain ⟨k, b⟩ := x
    obtain ⟨h1, h2, h3, h4⟩ := wfFrom_cons.mp h
    unfold Memory.set
    split
    · split
      · exact h
      · next hv => exact wfFrom_cons.mpr ⟨hl, ha, hv, wfFrom_cons.mpr ⟨by omega, h2, h3, h4⟩⟩
    · split
      · split
        · exact wfFrom_mono h4 (by omega)
        · next hv => exact wfFrom_cons.mpr ⟨hl, ha, hv, wfFrom_mono h4 (by omega)⟩
      · exact wfFrom_cons.mpr ⟨h1, h2, h3, ih h4 (by omega)⟩

theorem set_wf {m : Memory} (h : m.wf = true) {a : Nat} (ha : a < 2 ^ 32) (v : Byte) : (m.set a v).wf = true :=
  set_wfFrom h (Nat.zero_le a) ha v

/-- A read after a write, in canonical form. -/
theorem get_set_from {low : Nat} {m : Memory} (h : Memory.wfFrom low m = true) (a b : Nat) (v : Byte) :
    (m.set a v).get b = if a = b then v else m.get b := by
  induction m generalizing low with
  | nil =>
    unfold Memory.set
    split
    · next hv => simp [Memory.get, hv]
    · simp [Memory.get]
  | cons x rest ih =>
    obtain ⟨k, c⟩ := x
    obtain ⟨h1, h2, h3, h4⟩ := wfFrom_cons.mp h
    unfold Memory.set
    split
    · next hak =>
      split
      · next hv =>
        by_cases hab : a = b
        · subst hab
          rw [if_pos rfl, hv, Memory.get, if_neg (by omega)]
          exact get_below h4 (by omega)
        · rw [if_neg hab]
      · simp [Memory.get]
    · split
      · next hak =>
        subst hak
        split
        · next hv =>
          by_cases hab : a = b
          · subst hab
            rw [if_pos rfl, hv]
            exact get_below h4 (by omega)
          · rw [if_neg hab, Memory.get, if_neg hab]
        · by_cases hab : a = b
          · simp [Memory.get, hab]
          · simp [Memory.get, hab]
      · next hak1 hak2 =>
        rw [Memory.get, Memory.get, ih h4]
        by_cases hkb : k = b
        · subst hkb; simp [hak2]
        · simp [hkb]

theorem get_set {m : Memory} (h : m.wf = true) (a b : Nat) (v : Byte) :
    (m.set a v).get b = if a = b then v else m.get b := get_set_from h a b v

/-- Equal reads are equal memories: the form is canonical. -/
theorem wf_ext {low : Nat} {m m' : Memory} (h : Memory.wfFrom low m = true) (h' : Memory.wfFrom low m' = true)
    (e : ∀ a, m.get a = m'.get a) : m = m' := by
  induction m generalizing low m' with
  | nil =>
    cases m' with
    | nil => rfl
    | cons y rest' =>
      obtain ⟨k, b⟩ := y
      obtain ⟨-, -, hb, -⟩ := wfFrom_cons.mp h'
      have := e k
      simp [Memory.get] at this
      exact absurd this.symm hb
  | cons x rest ih =>
    obtain ⟨k, b⟩ := x
    obtain ⟨h1, -, hb, h4⟩ := wfFrom_cons.mp h
    cases m' with
    | nil =>
      have := e k
      simp [Memory.get] at this
      exact absurd this hb
    | cons y rest' =>
      obtain ⟨k', b'⟩ := y
      obtain ⟨h1', -, hb', h4'⟩ := wfFrom_cons.mp h'
      have hk : k = k' := by
        rcases Nat.lt_trichotomy k k' with hlt | heq | hgt
        · have := e k
          rw [Memory.get, if_pos rfl, Memory.get, if_neg (by omega), get_below h4' (by omega)] at this
          exact absurd this hb
        · exact heq
        · have := e k'
          rw [Memory.get, if_neg (by omega), get_below h4 (by omega), Memory.get, if_pos rfl] at this
          exact absurd this.symm hb'
      subst hk
      have hbb : b = b' := by
        have := e k
        simpa [Memory.get] using this
      subst hbb
      congr 1
      apply ih h4 h4'
      intro a
      by_cases hak : k = a
      · subst hak
        rw [get_below h4 (by omega), get_below h4' (by omega)]
      · have := e a
        rwa [Memory.get, if_neg hak, Memory.get, if_neg hak] at this

/-! ## Words and lanes -/

theorem laneKey_lt (b : Bool) (a : Word) : laneKey b a < 2 ^ 32 := by
  unfold laneKey; exact BitVec.isLt _

/-- A word's number times 4 is the address without its lowest two bits. -/
theorem wordKey_eq (a : Word) : wordKey a = a.toNat / 4 * 4 := by
  have h : a &&& 0xFFFFFFFC#32 = (a >>> 2) <<< 2 := by
    apply BitVec.eq_of_getLsbD_eq
    intro i hi
    have hmask : (0xFFFFFFFC#32).getLsbD i = decide (2 ≤ i) := by
      have : ∀ i : Fin 32, (0xFFFFFFFC#32).getLsbD i.val = decide (2 ≤ i.val) := by decide
      exact this ⟨i, hi⟩
    rw [BitVec.getLsbD_and, hmask, BitVec.getLsbD_shiftLeft, BitVec.getLsbD_ushiftRight]
    by_cases h2 : 2 ≤ i
    · simp [h2, hi, show ¬ i < 2 by omega, show 2 + (i - 2) = i by omega]
    · simp [h2, show i < 2 by omega]
  have hlt := a.isLt
  rw [wordKey, h, BitVec.toNat_shiftLeft, BitVec.toNat_ushiftRight, Nat.shiftRight_eq_div_pow, Nat.shiftLeft_eq]
  omega

theorem wordKey_lt (a : Word) : wordKey a + 3 < 2 ^ 32 := by
  have := a.isLt
  rw [wordKey_eq]; omega

theorem setWord_wf {m : Memory} (h : m.wf = true) (a v : Word) : (m.setWord a v).wf = true := by
  have := wordKey_lt a
  exact set_wf (set_wf (set_wf (set_wf h (by omega) _) (by omega) _) (by omega) _) (by omega) _

/-- What each key reads after a word write. -/
theorem get_setWord {m : Memory} (h : m.wf = true) (a v : Word) (b : Nat) :
    (m.setWord a v).get b =
      if wordKey a + 3 = b then v.extractLsb' 24 8
      else if wordKey a + 2 = b then v.extractLsb' 16 8
      else if wordKey a + 1 = b then v.extractLsb' 8 8
      else if wordKey a = b then v.extractLsb' 0 8
      else m.get b := by
  have := wordKey_lt a
  have h0 := set_wf h (a := wordKey a) (by omega) (v.extractLsb' 0 8)
  have h1 := set_wf h0 (a := wordKey a + 1) (by omega) (v.extractLsb' 8 8)
  have h2 := set_wf h1 (a := wordKey a + 2) (by omega) (v.extractLsb' 16 8)
  rw [Memory.setWord, get_set h2, get_set h1, get_set h0, get_set h]

/-- A word write leaves the bytes of the other words. -/
theorem get_setWord_other {m : Memory} (h : m.wf = true) (a v : Word) {b : Nat} (hb : b / 4 ≠ a.toNat / 4) :
    (m.setWord a v).get b = m.get b := by
  have := wordKey_eq a
  rw [get_setWord h, if_neg (by omega), if_neg (by omega), if_neg (by omega), if_neg (by omega)]

theorem word_split (v : Word) :
    v.extractLsb' 24 8 ++ v.extractLsb' 16 8 ++ v.extractLsb' 8 8 ++ v.extractLsb' 0 8 = v := by
  apply BitVec.eq_of_getLsbD_eq
  intro i hi
  simp only [BitVec.getLsbD_append, BitVec.getLsbD_extractLsb']
  by_cases h1 : i < 8
  · simp [h1]
  · by_cases h2 : i - 8 < 8
    · simp [h1, h2, show 8 + (i - 8) = i by omega]
    · by_cases h3 : i - 8 - 8 < 8
      · simp [h1, h2, h3, show 16 + (i - 8 - 8) = i by omega]
      · simp [h1, h2, h3, show i - 8 - 8 - 8 < 8 by omega, show 24 + (i - 8 - 8 - 8) = i by omega]

/-- A word read after a word write to the same word. -/
theorem word_setWord {m : Memory} (h : m.wf = true) (a v : Word) {b : Word} (hb : b.toNat / 4 = a.toNat / 4) :
    (m.setWord a v).word b = v := by
  have ha := wordKey_eq a
  have hb' := wordKey_eq b
  have e : wordKey b = wordKey a := by omega
  have h3 : (m.setWord a v).get (wordKey a + 3) = v.extractLsb' 24 8 := by rw [get_setWord h, if_pos rfl]
  have h2 : (m.setWord a v).get (wordKey a + 2) = v.extractLsb' 16 8 := by
    rw [get_setWord h, if_neg (by omega), if_pos rfl]
  have h1 : (m.setWord a v).get (wordKey a + 1) = v.extractLsb' 8 8 := by
    rw [get_setWord h, if_neg (by omega), if_neg (by omega), if_pos rfl]
  have h0 : (m.setWord a v).get (wordKey a) = v.extractLsb' 0 8 := by
    rw [get_setWord h, if_neg (by omega), if_neg (by omega), if_neg (by omega), if_pos rfl]
  rw [Memory.word, e, h3, h2, h1, h0]
  exact word_split v

/-- A word read after a word write to another word. -/
theorem word_setWord_other {m : Memory} (h : m.wf = true) (a v : Word) {b : Word}
    (hb : b.toNat / 4 ≠ a.toNat / 4) : (m.setWord a v).word b = m.word b := by
  have hb' := wordKey_eq b
  unfold Memory.word
  rw [get_setWord_other h, get_setWord_other h, get_setWord_other h, get_setWord_other h] <;> omega

/-- The lane of a byte lies in its word, in both byte orders (20_memory.md R62). -/
theorem laneKey_div (b : Bool) (a : Word) : laneKey b a / 4 = a.toNat / 4 := by
  have key : ∀ x : Word, (x.toNat / 4) = (x >>> 2).toNat := by
    intro x; rw [BitVec.toNat_ushiftRight, Nat.shiftRight_eq_div_pow]
  unfold laneKey
  rw [key, key]
  congr 1
  cases b
  · rfl
  · apply BitVec.eq_of_getLsbD_eq
    intro i hi
    have h3 : (3#32).getLsbD (2 + i) = false := by
      have : ∀ i : Fin 32, (3#32).getLsbD (2 + i.val) = false := by decide
      exact this ⟨i, hi⟩
    simp only [if_true, BitVec.getLsbD_ushiftRight, BitVec.getLsbD_xor, h3, Bool.xor_false]

theorem setAll_wf {m : Memory} (h : m.wf = true) (l : List Host.Cell) : (m.setAll l).wf = true := by
  induction l generalizing m with
  | nil => exact h
  | cons x rest ih => exact ih (set_wf h (Nat.mod_lt _ (by decide)) _)

theorem writeData_wf {s : State} (h : s.mem.wf = true) (b : Bool) (a v : Word) : (s.writeData b a v).mem.wf = true := by
  unfold State.writeData
  split
  · exact set_wf h (laneKey_lt _ _) _
  · exact setWord_wf h a v

theorem busWrite_wf {s : State} (h : s.mem.wf = true) (a : Word) (t : BusAttrs) (v : Word) :
    (s.busWrite a t v).mem.wf = true := by
  unfold State.busWrite
  split
  · exact writeData_wf h _ a v
  · exact h

theorem environment_wf {s : State} (h : s.mem.wf = true) : s.environment.mem.wf = true := by
  unfold State.environment
  split
  · exact h
  · exact setAll_wf h _

theorem cycle_wf {s : State} (h : s.mem.wf = true) (c : BusCycle) : (s.cycle c).mem.wf = true := environment_wf h

theorem passing_wf {s : State} (h : s.mem.wf = true) (cs : List BusCycle) : (s.passing cs).mem.wf = true := by
  induction cs generalizing s with
  | nil => exact h
  | cons c cs ih => exact ih (cycle_wf h c)

theorem store_wf {s : State} (h : s.mem.wf = true) (ty : CycleType) (a : Word) (t : BusAttrs) (v : Word) :
    (s.store ty a t v).mem.wf = true := busWrite_wf (cycle_wf h _) a t v

theorem writeRun_wf {s : State} (h : s.mem.wf = true) (t : BusAttrs) (ty : CycleType) (a : Word) (vs : List Word) :
    (State.writeRun t ty a vs s).2.mem.wf = true := by
  induction vs generalizing s ty a with
  | nil => exact h
  | cons v vs ih => exact ih (store_wf h ty a t v) .s (a + 4#32)

/-- Writing cells leaves the bytes of other keys alone. -/
theorem get_setAll_other {m : Memory} (h : m.wf = true) (l : List Host.Cell) {k : Nat}
    (hk : ∀ x ∈ l, x.1 % 2 ^ 32 ≠ k) : (m.setAll l).get k = m.get k := by
  induction l generalizing m with
  | nil => rfl
  | cons x rest ih =>
    obtain ⟨a, b⟩ := x
    change (Memory.setAll (m.set (a % 2 ^ 32) b) rest).get k = _
    rw [ih (set_wf h (Nat.mod_lt _ (by decide)) _) (fun y hy => hk y (List.mem_cons_of_mem _ hy)), get_set h,
      if_neg]
    exact hk (a, b) List.mem_cons_self

/-! ## The environment in some cycles -/

/-- With no moment left the environment does nothing. -/
theorem environment_nil {s : State} (h : s.moments = []) : s.environment = s := by simp [State.environment, h]

theorem passing_nil_mem {s : State} (h : s.moments = []) (cs : List BusCycle) :
    (s.passing cs).mem = s.mem ∧ (s.passing cs).inputs = s.inputs ∧ (s.passing cs).moments = [] := by
  induction cs generalizing s with
  | nil => exact ⟨rfl, rfl, h⟩
  | cons c cs ih =>
    obtain ⟨h1, h2, h3⟩ := ih (s := s.cycle c) (by simp [h])
    exact ⟨h1.trans (by rw [cycle_mem, environment_nil h]), h2.trans (by rw [cycle_inputs, environment_nil h]), h3⟩

theorem passing_moments (s : State) (cs : List BusCycle) : (s.passing cs).moments = s.moments.drop cs.length := by
  induction cs generalizing s with
  | nil => rfl
  | cons c cs ih =>
    have := ih (s.cycle c)
    simp only [State.passing, List.foldl_cons, List.length_cons] at this ⊢
    rw [this]
    cases h : s.moments <;> simp [h]

theorem passing_append (s : State) (xs ys : List BusCycle) : s.passing (xs ++ ys) = (s.passing xs).passing ys := by
  simp [State.passing]

/-- Without other masters' writes the environment leaves the memory. -/
theorem environment_mem {s : State} (h : s.noBusWrites = true) :
    s.environment.mem = s.mem ∧ s.environment.noBusWrites = true := by
  unfold State.environment
  unfold State.noBusWrites at h ⊢
  split
  · next hm => exact ⟨rfl, by simpa using h⟩
  · next m rest hm =>
    rw [hm, List.all_cons, Bool.and_eq_true] at h
    refine ⟨?_, h.2⟩
    simp [List.isEmpty_iff.mp h.1, Memory.setAll]

theorem passing_mem {s : State} (h : s.noBusWrites = true) (cs : List BusCycle) : (s.passing cs).mem = s.mem := by
  induction cs generalizing s with
  | nil => rfl
  | cons c cs ih =>
    obtain ⟨h1, h2⟩ := environment_mem h
    exact (ih (s := s.cycle c) h2).trans h1

/-! ## Bytes after a data write -/

/-- A byte write changes the byte at its address (20_memory.md R68). -/
theorem byteAt_writeByte {s : State} (h : s.mem.wf = true) (a v b : Word) :
    (s.writeData true a v).byteAt b = if a = b then v.extractLsb' 0 8 else s.byteAt b := by
  have inj : ∀ x y : Word, laneKey s.inputs.BIGEND x = laneKey s.inputs.BIGEND y → x = y := by
    intro x y e
    unfold laneKey at e
    have e' := BitVec.eq_of_toNat_eq e
    split at e'
    · have := congrArg (· ^^^ 3#32) e'
      simpa [BitVec.xor_assoc] using this
    · exact e'
  simp only [State.byteAt, State.writeData, if_true]
  rw [get_set h]
  by_cases hab : a = b
  · simp [hab]
  · rw [if_neg hab, if_neg (fun e => hab (inj _ _ e))]

/-- A word write leaves the bytes outside its word (20_memory.md R67). -/
theorem byteAt_writeWord_other {s : State} (h : s.mem.wf = true) (a v : Word) {b : Word}
    (hb : b.toNat / 4 ≠ a.toNat / 4) : (s.writeData false a v).byteAt b = s.byteAt b := by
  simp only [State.byteAt, State.writeData, Bool.false_eq_true, if_false]
  exact get_setWord_other h a v (by rw [laneKey_div]; exact hb)

/-! ## The lanes of a bus word -/

/-- The byte of a word of memory at a byte address is the byte there (20_memory.md R62, R66). -/
theorem laneByte_word (b : Bool) (m : Memory) (a : Word) : laneByte b a (m.word a) = m.get (laneKey b a) := by
  have hw := wordKey_eq a
  have hlo : (a.extractLsb' 0 2).toNat = a.toNat % 4 := by
    simp [BitVec.extractLsb'_toNat]
  have key : ∀ n, n < 4 → (m.word a).extractLsb' (8 * n) 8 = m.get (wordKey a + n) := by
    intro n hn
    have : n = 0 ∨ n = 1 ∨ n = 2 ∨ n = 3 := by omega
    have bits : ∀ k : Nat, k ≤ 3 → ∀ x3 x2 x1 x0 : Byte, (x3 ++ x2 ++ x1 ++ x0 : Word).extractLsb' (8 * k) 8 =
        if k = 0 then x0 else if k = 1 then x1 else if k = 2 then x2 else x3 := by
      intro k hk x3 x2 x1 x0
      apply BitVec.eq_of_getLsbD_eq
      intro i hi
      have : k = 0 ∨ k = 1 ∨ k = 2 ∨ k = 3 := by omega
      rcases this with rfl | rfl | rfl | rfl <;>
        simp only [BitVec.getLsbD_extractLsb', BitVec.getLsbD_append, hi, decide_true, Bool.true_and] <;>
        simp [hi, show ¬ 8 + i < 8 by omega, show ¬ 16 + i < 8 by omega, show ¬ 24 + i < 8 by omega,
          show 16 + i - 8 = 8 + i by omega, show 24 + i - 8 = 16 + i by omega, show 8 + i - 8 = i by omega,
          show 16 + i - 8 - 8 = i by omega, show 24 + i - 8 - 8 = 8 + i by omega]
    rw [Memory.word, bits n (by omega)]
    rcases this with rfl | rfl | rfl | rfl <;> simp
  have hlane : laneKey b a = wordKey a + (if b then 3 - a.toNat % 4 else a.toNat % 4) := by
    have hd := laneKey_div b a
    have hm : laneKey b a % 4 = if b then 3 - a.toNat % 4 else a.toNat % 4 := by
      unfold laneKey
      cases b
      · simp
      · have h2 : ∀ x : Word, x.toNat % 4 = (x.extractLsb' 0 2).toNat := by
          intro x; simp [BitVec.extractLsb'_toNat]
        simp only [if_true]
        rw [h2, h2]
        have hx : (a ^^^ 3#32).extractLsb' 0 2 = a.extractLsb' 0 2 ^^^ 3#2 := by
          apply BitVec.eq_of_getLsbD_eq
          intro i hi
          have : ∀ i : Fin 2, (3#32).getLsbD i.val = (3#2).getLsbD i.val := by decide
          simp [BitVec.getLsbD_extractLsb', hi, this ⟨i, hi⟩]
        rw [hx]
        generalize a.extractLsb' 0 2 = y
        revert y; decide
    omega
  unfold laneByte
  rw [hlo, key _ (by split <;> omega), hlane]

/-- What a byte read of the reference memory gives (R66). -/
theorem readData_byte {s : State} {a : Word} {t : BusAttrs} (hr : s.reply a t = none) (hb : t.nBW = false) :
    s.readData a t = (s.byteAt a).zeroExtend 32 := by
  unfold State.readData State.busWord
  rw [hr, hb]
  simp only [Bool.false_eq_true, if_false, State.byteAt, laneByte_word]

/-- What a word read of the reference memory gives (R64). -/
theorem readData_word {s : State} {a : Word} {t : BusAttrs} (hr : s.reply a t = none) (hb : t.nBW = true) :
    s.readData a t = (s.mem.word a).rotateRight (8 * (a.toNat % 4)) := by
  unfold State.readData State.busWord
  rw [hr, hb]
  simp [BitVec.extractLsb'_toNat]

end Sys2Proof.Machine
end

