-- ==== Sys2Proof/Laws/Psr.lean ====
section
/-! SUPPORT. The program status registers: what each change of a PSR does to each of its fields (10_state.md R32 to R38,
60_exceptions.md R380). -/

namespace Sys2Proof.Machine

/-! ## Modes -/

@[simp] theorem mode_ofBits_bits (m : Mode) : Mode.ofBits m.bits = some m := by cases m <;> rfl

theorem mode_bits_of_ofBits {b : BitVec 5} {m : Mode} (h : Mode.ofBits b = some m) : m.bits = b := by
  have : ∀ b : BitVec 5, ∀ m, Mode.ofBits b = some m → m.bits = b := by
    intro b m; revert b; cases m <;> decide
  exact this b m h

/-! ## A PSR bit by bit -/

theorem psrKeep_bit (p : Word) (i : Nat) : (psrKeep p).getLsbD i = (p.getLsbD i && (0xF00000DF#32).getLsbD i) := by
  rw [psrKeep, BitVec.getLsbD_and]

theorem psrWithTop_bit (p : Word) (t : BitVec 4) (i : Nat) :
    (psrWithTop p t).getLsbD i = if i < 28 then p.getLsbD i else t.getLsbD (i - 28) := by
  simp only [psrWithTop, BitVec.getLsbD_append, BitVec.getLsbD_extractLsb']
  split
  · next h => simp [h]
  · rfl

theorem psrWithMode_bit (p : Word) (m : Mode) (i : Nat) :
    (psrWithMode p m).getLsbD i = if i < 5 then m.bits.getLsbD i else p.getLsbD i := by
  simp only [psrWithMode, BitVec.getLsbD_append, BitVec.getLsbD_extractLsb']
  split
  · rfl
  · next h =>
    by_cases hi : i < 32
    · simp [show i - 5 < 27 by omega, show 5 + (i - 5) = i by omega]
    · simp [show ¬ i - 5 < 27 by omega, BitVec.getLsbD_of_ge p i (by omega)]

theorem psrSetI_bit (p : Word) (i : Nat) : (psrSetI p).getLsbD i = (p.getLsbD i || (0x80#32).getLsbD i) := by
  rw [psrSetI, BitVec.getLsbD_or]

theorem psrSetF_bit (p : Word) (i : Nat) : (psrSetF p).getLsbD i = (p.getLsbD i || (0x40#32).getLsbD i) := by
  rw [psrSetF, BitVec.getLsbD_or]

theorem psrMode_bit (p : Word) (i : Nat) : (psrMode p).getLsbD i = (decide (i < 5) && p.getLsbD i) := by
  simp [psrMode, BitVec.getLsbD_extractLsb']

/-! ## The reserved bits -/

theorem psrDefined_iff (p : Word) :
    psrDefined p = true ↔ ∀ i, i < 32 → (0xF00000DF#32).getLsbD i = false → p.getLsbD i = false := by
  simp only [psrDefined, beq_iff_eq]
  constructor
  · intro h i _ hm
    rw [← h, psrKeep_bit, hm, Bool.and_false]
  · intro h
    apply BitVec.eq_of_getLsbD_eq
    intro i hi
    rw [psrKeep_bit]
    cases hm : (0xF00000DF#32).getLsbD i
    · rw [h i hi hm]; rfl
    · rw [Bool.and_true]

@[simp] theorem psrDefined_keep (p : Word) : psrDefined (psrKeep p) = true := by
  rw [psrDefined_iff]
  intro i _ hm
  rw [psrKeep_bit, hm, Bool.and_false]

theorem psrDefined_setI {p : Word} (h : psrDefined p = true) : psrDefined (psrSetI p) = true := by
  rw [psrDefined_iff] at h ⊢
  intro i hi hm
  have : ∀ i : Fin 32, (0xF00000DF#32).getLsbD i.val = false → (0x80#32).getLsbD i.val = false := by decide
  rw [psrSetI_bit, h i hi hm, this ⟨i, hi⟩ hm]; rfl

theorem psrDefined_setF {p : Word} (h : psrDefined p = true) : psrDefined (psrSetF p) = true := by
  rw [psrDefined_iff] at h ⊢
  intro i hi hm
  have : ∀ i : Fin 32, (0xF00000DF#32).getLsbD i.val = false → (0x40#32).getLsbD i.val = false := by decide
  rw [psrSetF_bit, h i hi hm, this ⟨i, hi⟩ hm]; rfl

theorem psrDefined_withMode {p : Word} (h : psrDefined p = true) (m : Mode) :
    psrDefined (psrWithMode p m) = true := by
  rw [psrDefined_iff] at h ⊢
  intro i hi hm
  have : ∀ i : Fin 32, (0xF00000DF#32).getLsbD i.val = false → ¬ i.val < 5 := by decide
  rw [psrWithMode_bit, if_neg (this ⟨i, hi⟩ hm), h i hi hm]

theorem psrDefined_withTop {p : Word} (h : psrDefined p = true) (t : BitVec 4) :
    psrDefined (psrWithTop p t) = true := by
  rw [psrDefined_iff] at h ⊢
  intro i hi hm
  have : ∀ i : Fin 32, (0xF00000DF#32).getLsbD i.val = false → i.val < 28 := by decide
  rw [psrWithTop_bit, if_pos (this ⟨i, hi⟩ hm), h i hi hm]

theorem psrDefined_newCpsr {p : Word} (h : psrDefined p = true) (e : Exc) : psrDefined (e.newCpsr p) = true := by
  unfold Exc.newCpsr
  have := psrDefined_setI (psrDefined_withMode h e.mode)
  dsimp only
  split
  · exact psrDefined_setF this
  · exact this

/-! ## The mode -/

theorem psrMode_withMode (p : Word) (m : Mode) : psrMode (psrWithMode p m) = m.bits := by
  apply BitVec.eq_of_getLsbD_eq
  intro i hi
  rw [psrMode_bit, psrWithMode_bit, if_pos hi]
  simp [hi]

theorem psrMode_withTop (p : Word) (t : BitVec 4) : psrMode (psrWithTop p t) = psrMode p := by
  apply BitVec.eq_of_getLsbD_eq
  intro i hi
  rw [psrMode_bit, psrMode_bit, psrWithTop_bit, if_pos (by omega)]

theorem psrMode_setI (p : Word) : psrMode (psrSetI p) = psrMode p := by
  apply BitVec.eq_of_getLsbD_eq
  intro i hi
  have : ∀ i : Fin 5, (0x80#32).getLsbD i.val = false := by decide
  rw [psrMode_bit, psrMode_bit, psrSetI_bit, this ⟨i, hi⟩, Bool.or_false]

theorem psrMode_setF (p : Word) : psrMode (psrSetF p) = psrMode p := by
  apply BitVec.eq_of_getLsbD_eq
  intro i hi
  have : ∀ i : Fin 5, (0x40#32).getLsbD i.val = false := by decide
  rw [psrMode_bit, psrMode_bit, psrSetF_bit, this ⟨i, hi⟩, Bool.or_false]

theorem psrMode_keep (p : Word) : psrMode (psrKeep p) = psrMode p := by
  apply BitVec.eq_of_getLsbD_eq
  intro i hi
  have : ∀ i : Fin 5, (0xF00000DF#32).getLsbD i.val = true := by decide
  rw [psrMode_bit, psrMode_bit, psrKeep_bit, this ⟨i, hi⟩, Bool.and_true]

/-- The mode after an exception entry (60_exceptions.md R372). -/
theorem psrMode_newCpsr (e : Exc) (p : Word) : psrMode (e.newCpsr p) = e.mode.bits := by
  unfold Exc.newCpsr
  dsimp only
  split
  · rw [psrMode_setF, psrMode_setI, psrMode_withMode]
  · rw [psrMode_setI, psrMode_withMode]

@[simp] theorem enter_mode (s : State) (e : Exc) (r : Word) : (s.enter e r).mode = e.mode := by
  simp [State.mode, psrMode_newCpsr]

@[simp] theorem resetEntry_mode (s : State) : s.resetEntry.mode = .svc := by
  simp [State.mode, psrMode_setF, psrMode_setI, psrMode_withMode]

/-! ## The flags and the interrupt disable bits after an exception entry -/

/-- The flags stay (R380). -/
theorem psrFlags_newCpsr (e : Exc) (p : Word) : psrFlags (e.newCpsr p) = psrFlags p := by
  have key : ∀ i, 28 ≤ i → i < 32 → (e.newCpsr p).getLsbD i = p.getLsbD i := by
    intro i h1 h2
    have h80 : (0x80#32).getLsbD i = false := by
      have : ∀ i : Fin 32, 28 ≤ i.val → (0x80#32).getLsbD i.val = false := by decide
      exact this ⟨i, h2⟩ h1
    have h40 : (0x40#32).getLsbD i = false := by
      have : ∀ i : Fin 32, 28 ≤ i.val → (0x40#32).getLsbD i.val = false := by decide
      exact this ⟨i, h2⟩ h1
    unfold Exc.newCpsr
    dsimp only
    split
    · rw [psrSetF_bit, psrSetI_bit, psrWithMode_bit, if_neg (by omega), h80, h40, Bool.or_false, Bool.or_false]
    · rw [psrSetI_bit, psrWithMode_bit, if_neg (by omega), h80, Bool.or_false]
  simp only [psrFlags]
  rw [key 31, key 30, key 29, key 28] <;> omega

/-- I is set (R381). -/
theorem psrI_newCpsr (e : Exc) (p : Word) : psrI (e.newCpsr p) = true := by
  unfold Exc.newCpsr psrI
  dsimp only
  split
  · rw [psrSetF_bit, psrSetI_bit]; simp
  · rw [psrSetI_bit]; simp

/-- F is set by FIQ only (R381). -/
theorem psrF_newCpsr (e : Exc) (p : Word) : psrF (e.newCpsr p) = (psrF p || decide (e = .fiq)) := by
  unfold Exc.newCpsr psrF
  dsimp only
  by_cases h : e = .fiq
  · rw [if_pos h, psrSetF_bit]; simp [h]
  · rw [if_neg h, psrSetI_bit, psrWithMode_bit]; simp [h]

/-! ## The flags -/

/-- Writing the flags writes the four bits. -/
@[simp] theorem psrFlags_withFlags (p : Word) (f : Flags) : psrFlags (psrWithFlags p f) = f := by
  obtain ⟨n, z, c, v⟩ := f
  simp only [psrFlags, psrWithFlags, psrWithTop_bit]
  cases n <;> cases z <;> cases c <;> cases v <;> rfl

/-! ## The SPSRs -/

theorem spsrs_defined_iff (r : Spsrs) :
    r.defined = true ↔ psrDefined r.fiq = true ∧ psrDefined r.irq = true ∧ psrDefined r.svc = true ∧
      psrDefined r.abt = true ∧ psrDefined r.und = true := by
  simp [Spsrs.defined, and_assoc]

theorem spsrs_set_defined {r : Spsrs} (h : r.defined = true) (m : Mode) {v : Word} (hv : psrDefined v = true) :
    (r.set m v).defined = true := by
  rw [spsrs_defined_iff] at h ⊢
  obtain ⟨h1, h2, h3, h4, h5⟩ := h
  cases m <;> simp [Spsrs.set, h1, h2, h3, h4, h5, hv]

theorem spsrs_get_defined {r : Spsrs} (h : r.defined = true) {m : Mode} {v : Word} (hv : r.get? m = some v) :
    psrDefined v = true := by
  rw [spsrs_defined_iff] at h
  obtain ⟨h1, h2, h3, h4, h5⟩ := h
  cases m <;> simp [Spsrs.get?] at hv <;> subst hv <;> assumption

/-- Reading an SPSR after writing one. -/
theorem spsrs_get_set (r : Spsrs) (m k : Mode) (v : Word) :
    (r.set m v).get? k = if m = k ∧ m ≠ .usr then some v else r.get? k := by
  cases m <;> cases k <;> rfl

end Sys2Proof.Machine
end

