-- ==== Sys2Proof/Laws/Registers.lean ====
section
/-! SUPPORT. Reading and writing registers: the register file as a map from physical registers, and the selection
function (10_state.md R21, R24). -/

namespace Sys2Proof.Machine

theorem PhysReg.index_lt (p : PhysReg) : p.index < 30 := by
  rcases p with n | n | m | m
  · simp only [PhysReg.index]; omega
  · simp only [PhysReg.index]; omega
  · cases m <;> decide
  · cases m <;> decide

theorem PhysReg.index_inj {p q : PhysReg} (h : p.index = q.index) : p = q := by
  have hm : ∀ m : Mode, m.index < 6 := by intro m; cases m <;> decide
  have hi : ∀ m k : Mode, m.index = k.index → m = k := by intro m k; cases m <;> cases k <;> decide
  rcases p with n | n | m | m <;> rcases q with n' | n' | m' | m' <;> simp only [PhysReg.index] at h
  · exact congrArg PhysReg.low (Fin.ext h)
  · omega
  · omega
  · omega
  · omega
  · exact congrArg PhysReg.highFiq (Fin.ext (by omega))
  · omega
  · omega
  · omega
  · omega
  · exact congrArg PhysReg.r13 (hi _ _ (by omega))
  · have := hm m; omega
  · omega
  · omega
  · have := hm m'; omega
  · exact congrArg PhysReg.r14 (hi _ _ (by omega))

/-- Reading a physical register after writing one. -/
theorem gpr_setGpr (s : State) (p q : PhysReg) (v : Word) :
    (s.setGpr p v).gpr q = if p = q then v else s.gpr q := by
  have hp := p.index_lt
  have hq := q.index_lt
  have gd : ∀ (r : Vector Word 30) (i : Nat) (h : i < 30), r.getD i 0 = r[i] := by
    intro r i h; simp [Vector.getD, h, Array.getD, Vector.getElem_toArray]
  simp only [State.gpr, setGpr_regs]
  rw [gd _ _ hq, gd _ _ hq, Vector.getElem_setIfInBounds]
  by_cases h : p = q
  · subst h; simp
  · have : p.index ≠ q.index := fun e => h (PhysReg.index_inj e)
    simp [h, this]

@[simp] theorem gpr_setGpr_same (s : State) (p : PhysReg) (v : Word) : (s.setGpr p v).gpr p = v := by
  simp [gpr_setGpr]

/-- An exception entry writes one register: R14 of its mode (60_exceptions.md R380). -/
theorem gpr_enter (s : State) (e : Exc) (r : Word) (q : PhysReg) :
    (s.enter e r).gpr q = if PhysReg.r14 e.mode = q then r else s.gpr q := by
  have := gpr_setGpr s (.r14 e.mode) q r
  simpa [State.gpr] using this

/-- The reset sequence writes one register: R14_svc (70_reset_and_hazards.md R422). -/
theorem gpr_resetEntry (s : State) (q : PhysReg) :
    s.resetEntry.gpr q = if PhysReg.r14 .svc = q then Config.resetLink s.tick else s.gpr q := by
  have := gpr_setGpr s (.r14 .svc) q (Config.resetLink s.tick)
  simpa [State.gpr] using this

/-- Every number but 15 names a physical register. -/
theorem phys_eq_none (m : Mode) (n : RegNum) : phys m n = none ↔ n = 15#4 := by
  revert n; cases m <;> decide

/-- Two numbers name two registers of one bank. -/
theorem phys_inj {m : Mode} {a b : RegNum} {p : PhysReg} (ha : phys m a = some p) (hb : phys m b = some p) :
    a = b := by
  have h : ∀ a b : RegNum, phys m a = phys m b → a = b := by cases m <;> decide
  exact h a b (ha.trans hb.symm)

/-- Writing register `n` of a bank writes the physical register it names, and none for R15. -/
theorem gpr_setRegIn (s : State) (m : Mode) (n : RegNum) (v : Word) (q : PhysReg) :
    (s.setRegIn m n v).gpr q = if phys m n = some q then v else s.gpr q := by
  unfold State.setRegIn
  split
  · next h => simp [h]
  · next p h => simp [h, gpr_setGpr]

theorem gpr_setReg (s : State) (n : RegNum) (v : Word) (q : PhysReg) :
    (s.setReg n v).gpr q = if phys s.mode n = some q then v else s.gpr q := gpr_setRegIn s s.mode n v q

/-- Without the hazard of R432 a register reads as what it holds. -/
theorem regIn_phys {s : State} {m : Mode} {n : RegNum} {p : PhysReg} (h : phys m n = some p)
    (hs : s.ldmShadow = false) (ahead : Word) : s.regIn m n ahead = s.gpr p := by
  simp [State.regIn, h, hs]

/-- R15 reads ahead of the instruction (10_state.md R28). -/
@[simp] theorem regIn_pc (s : State) (m : Mode) (ahead : Word) : s.regIn m 15#4 ahead = s.pc + ahead := by
  cases m <;> rfl

@[simp] theorem reg_pc (s : State) (ahead : Word) : s.reg 15#4 ahead = s.pc + ahead := regIn_pc s s.mode ahead

end Sys2Proof.Machine
end

