-- ==== Sys2Proof/Laws/Ops.lean ====
section
/-! SUPPORT. What each shared operation can do, said once: if it answers a next state, then which. -/

namespace Sys2Proof.Machine

/-! ## The condition -/

theorem conditional_passes {s : State} {c : Cond} (h : condPasses c s.flags = true) (r : Result) :
    s.conditional c r = r := if_pos h

theorem conditional_fails {s : State} {c : Cond} (h : condPasses c s.flags = false) (r : Result) :
    s.conditional c r = .next s.advance := by
  simp [State.conditional, h]

/-- A conditional instruction runs, or only the PC advances (40_conditional_execution.md R160). -/
theorem conditional_next {s t : State} {c : Cond} {r : Result} (h : s.conditional c r = .next t) :
    (condPasses c s.flags = true ∧ r = .next t) ∨ (condPasses c s.flags = false ∧ t = s.advance) := by
  unfold State.conditional at h
  split at h
  · next hc => exact .inl ⟨hc, h⟩
  · next hc => exact .inr ⟨by simpa using hc, by cases h; rfl⟩

/-! ## Returning from an exception -/

/-- The CPSR copied from the SPSR (10_state.md R38). -/
theorem restoreCpsr_next {s t : State} {inUser : Result} {after : State → State}
    (h : s.restoreCpsr inUser after = .next t) :
    (s.spsr? = none ∧ inUser = .next t) ∨
      ∃ p m, s.spsr? = some p ∧ Mode.ofBits (psrMode p) = some m ∧ t = after { s with cpsr := psrKeep p } := by
  unfold State.restoreCpsr at h
  split at h
  · next hp => exact .inl ⟨hp, h⟩
  · next p hp =>
    split at h
    · cases h
    · next m hm => exact .inr ⟨p, m, hp, hm, by cases h; rfl⟩

/-- The return of R395. -/
theorem returnTo_next {s t : State} {a : Word} {r : Refusal} (h : s.returnTo a r = .next t) :
    ∃ p m, s.spsr? = some p ∧ Mode.ofBits (psrMode p) = some m ∧
      t = State.branchTo { s with cpsr := psrKeep p } a := by
  rcases restoreCpsr_next h with ⟨-, h'⟩ | h'
  · cases h'
  · exact h'

theorem returnTo_eq {s : State} {p : Word} {m : Mode} (hp : s.spsr? = some p)
    (hm : Mode.ofBits (psrMode p) = some m) (a : Word) (r : Refusal) :
    s.returnTo a r = .next (State.branchTo { s with cpsr := psrKeep p } a) := by
  simp [State.returnTo, State.restoreCpsr, hp, hm]

/-- User mode has no SPSR (10_state.md R22). -/
theorem spsr?_none {s : State} : s.spsr? = none ↔ s.mode = .usr := by
  unfold State.spsr?
  cases s.mode <;> simp [Spsrs.get?]

/-! ## Coprocessors -/

/-- What an offer ends in (49_coprocessor.md R343 to R345). -/
theorem offer_next {s t : State} {num : BitVec 4} {code : Word} {f : State → Word → List Word → Result}
    (h : s.offer num code f = .next t) :
    (s.cpAnswer num code = .decline ∧
        t = ((s.present code).cpAnswered num code).enter .undefined (s.pc + 4#32)) ∨
      (s.cpAnswer num code = .busy ∧ t = ((s.present code).cpAnswered num code).waitCycle) ∨
      (s.cpAnswer num code = .hang ∧ t = (s.present code).waitCycle) ∨
      ∃ w ws, s.cpAnswer num code = .accept w ws ∧ f ((s.present code).cpAnswered num code) w ws = .next t := by
  unfold State.offer at h
  dsimp only at h
  split at h
  · next ha => exact .inl ⟨ha, by cases h; rfl⟩
  · next ha => exact .inr (.inl ⟨ha, by cases h; rfl⟩)
  · next ha => exact .inr (.inr (.inl ⟨ha, by cases h; rfl⟩))
  · next w ws ha => exact .inr (.inr (.inr ⟨w, ws, ha, h⟩))

theorem offer_accept {s : State} {num : BitVec 4} {code w : Word} {ws : List Word}
    (h : s.cpAnswer num code = .accept w ws) (f : State → Word → List Word → Result) :
    s.offer num code f = f ((s.present code).cpAnswered num code) w ws := by
  simp [State.offer, h]

/-- The coprocessor of a number after the one of a number was changed. -/
theorem find_cpUpdate (f : Coproc → Coproc) (hf : ∀ cp, (f cp).number = cp.number) (l : List Coproc) (num k : BitVec 4) :
    (cpUpdate f l num).find? (fun cp => cp.number == k) =
      if k = num then (l.find? (fun cp => cp.number == k)).map f else l.find? (fun cp => cp.number == k) := by
  induction l with
  | nil => simp [cpUpdate]
  | cons cp rest ih =>
    unfold cpUpdate
    by_cases hn : cp.number = num
    · rw [if_pos hn, List.find?_cons, List.find?_cons, hf]
      by_cases hk : cp.number = k
      · simp [hk, ← hn]
      · have : ¬ k = num := fun e => hk (hn.trans e.symm)
        have hb : (cp.number == k) = false := by simpa using hk
        rw [hb, if_neg this]
    · rw [if_neg hn, List.find?_cons, List.find?_cons, ih]
      by_cases hk : cp.number = k
      · have : ¬ k = num := fun e => hn (hk.trans e)
        rw [if_neg this, if_neg this, show (cp.number == k) = true by simpa using hk]
      · have hb : (cp.number == k) = false := by simpa using hk
        rw [hb]

theorem find_map (f : Coproc → Coproc) (hf : ∀ cp, (f cp).number = cp.number) (l : List Coproc) (k : BitVec 4) :
    (l.map f).find? (fun cp => cp.number == k) = (l.find? (fun cp => cp.number == k)).map f := by
  induction l with
  | nil => rfl
  | cons cp rest ih =>
    rw [List.map_cons, List.find?_cons, List.find?_cons, hf, ih]
    cases cp.number == k <;> rfl

/-! ## Runs of words -/

/-- The cycles of a run of reads, and what it reads (20_memory.md R65): the i-th word in the state after i + 1 cycles. -/
theorem readRun_state (t : BusAttrs) (ty : CycleType) (k : Nat) (a : Word) (s : State) :
    (State.readRun t ty k a s).2 = s.passing (readCycles t ty k a) := by
  induction k generalizing ty a s with
  | zero => rfl
  | succ k ih => exact ih .s (a + 4#32) (s.cycle (readCycle ty a t))

theorem readRun_length (t : BusAttrs) (ty : CycleType) (k : Nat) (a : Word) (s : State) :
    (State.readRun t ty k a s).1.length = k := by
  induction k generalizing ty a s with
  | zero => rfl
  | succ k ih => simpa [State.readRun] using ih .s (a + 4#32) (s.cycle (readCycle ty a t))

theorem readRun_get (t : BusAttrs) (ty : CycleType) (k i : Nat) (a : Word) (s : State) (hi : i < k) :
    (State.readRun t ty k a s).1[i]? =
      let u := s.passing (readCycles t ty (i + 1) a)
      some (if u.aborts (a + BitVec.ofNat 32 (4 * i)) t then none else some (u.busWord (a + BitVec.ofNat 32 (4 * i)) t)) := by
  induction i generalizing ty k a s with
  | zero =>
    cases k with
    | zero => omega
    | succ k => simp [State.readRun, readCycles, State.passing]
  | succ i ih =>
    cases k with
    | zero => omega
    | succ k =>
      have h := ih .s k (a + 4#32) (s.cycle (readCycle ty a t)) (by omega)
      have e : a + 4#32 + BitVec.ofNat 32 (4 * i) = a + BitVec.ofNat 32 (4 * (i + 1)) := by
        rw [BitVec.add_assoc]
        congr 1
        apply BitVec.eq_of_toNat_eq
        simp [BitVec.toNat_add, BitVec.toNat_ofNat]
        omega
      rw [e] at h
      exact h

/-- A run of writes changes the memory and what the cycles change. -/
theorem writeRun_frame (t : BusAttrs) (ty : CycleType) (vs : List Word) (a : Word) (s : State) :
    let u := (State.writeRun t ty a vs s).2
    u.regs = s.regs ∧ u.pc = s.pc ∧ u.cpsr = s.cpsr ∧ u.spsrs = s.spsrs ∧ u.pipe = s.pipe ∧ u.ldmShadow = s.ldmShadow ∧
      u.busyWait = s.busyWait ∧ u.schedule = s.schedule ∧ u.coprocs = s.coprocs ∧ u.tick = s.tick ∧
      (State.writeRun t ty a vs s).1.length = vs.length := by
  induction vs generalizing ty a s with
  | nil => exact ⟨rfl, rfl, rfl, rfl, rfl, rfl, rfl, rfl, rfl, rfl, rfl⟩
  | cons v vs ih =>
    obtain ⟨h1, h2, h3, h4, h5, h6, h7, h8, h9, h10, h11⟩ := ih .s (a + 4#32) (s.store ty a t v)
    refine ⟨h1.trans ?_, h2.trans ?_, h3.trans ?_, h4.trans ?_, h5.trans ?_, h6.trans ?_, h7.trans ?_, h8.trans ?_,
      h9.trans ?_, h10.trans ?_, ?_⟩
    iterate 10 simp
    exact congrArg (· + 1) h11

/-- Loading registers changes registers only. -/
theorem loadRegs_frame (bank : Mode) (l : List RegNum) (vs : List (Option Word)) (s : State) :
    ∃ r, State.loadRegs bank l vs s = { s with regs := r } := by
  induction l generalizing vs s with
  | nil => exact ⟨s.regs, by simp [State.loadRegs]⟩
  | cons x rest ih =>
    match vs with
    | [] => exact ⟨s.regs, by simp [State.loadRegs]⟩
    | none :: _ => exact ⟨s.regs, by simp [State.loadRegs]⟩
    | some v :: vs =>
      obtain ⟨r, hr⟩ := ih vs (s.setRegIn bank x v)
      refine ⟨r, ?_⟩
      rw [State.loadRegs, hr]
      unfold State.setRegIn
      split <;> rfl

/-- Replies depend on the rules of the cycle alone (20_memory.md R60). -/
theorem reply_congr {s t : State} (h : t.inputs = s.inputs) (a : Word) (x : BusAttrs) : t.reply a x = s.reply a x := by
  simp [State.reply, h]

theorem aborts_congr {s t : State} (h : t.inputs = s.inputs) (a : Word) (x : BusAttrs) : t.aborts a x = s.aborts a x := by
  simp [State.aborts, reply_congr h]

theorem busWord_congr {s t : State} (h : t.inputs = s.inputs) (hm : t.mem = s.mem) (a : Word) (x : BusAttrs) :
    t.busWord a x = s.busWord a x := by
  simp [State.busWord, reply_congr h, hm]

theorem dataAttrs_congr {s t : State} (h : t.cpsr = s.cpsr) (w b : Bool) : t.dataAttrs w b = s.dataAttrs w b := by
  simp [State.dataAttrs, State.nTRANS, State.nM, State.mode, h]

/-! ## The data abort -/

/-- What a data abort leaves (60_exceptions.md R386): the entry after one discarded fetch. -/
theorem dataAbort_eq (s : State) :
    s.dataAbort = (s.passing [s.fetchCycle true (s.pc + 8#32)]).enter .dataAbort (s.pc + 8#32) := rfl

/-! ## Data processing -/

/-- The cycles of operand 2 (21_bus_interface_and_signals.md R106). -/
theorem shiftCycle_eq (s : State) (op2 : Operand2) :
    s.shiftCycle op2 = s.passing (match op2 with
      | .shiftReg .. => [s.internalCycle true (s.pc + 12#32)]
      | .imm .. | .shiftImm .. => []) := by
  cases op2 <;> rfl

/-- What an instruction that writes a result does (42_data_processing.md R180, R194). -/
theorem dataProcess_next {alu : AluOp} {c : Cond} {sBit : Bool} {rn rd : RegNum} {op2 : Operand2} {s t : State}
    (h : dataProcess alu c sBit rn rd op2 s = .next t) :
    (condPasses c s.flags = false ∧ t = s.advance) ∨
      (rd = 15#4 ∧ sBit = false ∧ t = (s.shiftCycle op2).branchTo (s.aluOf alu rn op2).value) ∨
      (rd = 15#4 ∧ sBit = true ∧ ∃ p m, (s.shiftCycle op2).spsr? = some p ∧ Mode.ofBits (psrMode p) = some m ∧
        t = State.branchTo { s.shiftCycle op2 with cpsr := psrKeep p } (s.aluOf alu rn op2).value) ∨
      (rd ≠ 15#4 ∧ sBit = false ∧ t = ((s.shiftCycle op2).setReg rd (s.aluOf alu rn op2).value).advance) ∨
      (rd ≠ 15#4 ∧ sBit = true ∧
        t = (((s.shiftCycle op2).setReg rd (s.aluOf alu rn op2).value).setFlags
          (s.aluOf alu rn op2).flags).advance) := by
  rcases conditional_next h with ⟨-, h⟩ | h
  · split at h
    · cases h
    · dsimp only at h
      split at h
      · next hrd =>
        split at h
        · next hs => exact .inr (.inr (.inl ⟨hrd, hs, returnTo_next h⟩))
        · next hs => exact .inr (.inl ⟨hrd, by simpa using hs, by cases h; rfl⟩)
      · next hrd =>
        cases h
        cases sBit
        · exact .inr (.inr (.inr (.inl ⟨hrd, rfl, rfl⟩)))
        · exact .inr (.inr (.inr (.inr ⟨hrd, rfl, rfl⟩)))
  · exact .inl h

/-- What an instruction that only sets flags does (R198, R199). -/
theorem dataCompare_next {alu : AluOp} {c : Cond} {rn rd : RegNum} {op2 : Operand2} {s t : State}
    (h : dataCompare alu c rn rd op2 s = .next t) :
    t = s.advance ∨ t = (s.shiftCycle op2).advance ∨
      (rd = 15#4 ∧ ∃ p m, (s.shiftCycle op2).spsr? = some p ∧ Mode.ofBits (psrMode p) = some m ∧
        t = State.advance { s.shiftCycle op2 with cpsr := psrKeep p }) ∨
      (rd ≠ 15#4 ∧ t = ((s.shiftCycle op2).setFlags (s.aluOf alu rn op2).flags).advance) := by
  rcases conditional_next h with ⟨-, h⟩ | h
  · split at h
    · cases h
    · dsimp only at h
      split at h
      · next hrd =>
        rcases restoreCpsr_next h with ⟨-, h⟩ | h
        · exact .inr (.inl (by cases h; rfl))
        · exact .inr (.inr (.inl ⟨hrd, h⟩))
      · next hrd => exact .inr (.inr (.inr ⟨hrd, by cases h; rfl⟩))
  · exact .inl h.2

/-! ## PSR transfer -/

/-- A write of the SPSR (43_psr_transfer.md R233 to R236). -/
theorem writeSpsr_next {s t : State} {f : Word → Word} (h : s.writeSpsr f = .next t) :
    ∃ p, s.spsr? = some p ∧ t = State.advance { s with spsrs := s.spsrs.set s.mode (f p) } := by
  unfold State.writeSpsr at h
  split at h
  · cases h
  · next p hp => exact ⟨p, hp, by cases h; rfl⟩

/-- A write of the whole CPSR (R233, R239). -/
theorem writeCpsrAll_next {s t : State} {v : Word} (h : s.writeCpsrAll v = .next t) :
    (s.mode = .usr ∧ t = State.advance { s with cpsr := psrWithTop s.cpsr (v.extractLsb' 28 4) }) ∨
      (s.mode ≠ .usr ∧ ∃ m, Mode.ofBits (psrMode v) = some m ∧ t = State.advance { s with cpsr := psrKeep v }) := by
  unfold State.writeCpsrAll at h
  split at h
  · next hm => exact .inl ⟨hm, by cases h; rfl⟩
  · next hm =>
    split at h
    · cases h
    · next m hp => exact .inr ⟨hm, m, hp, by cases h; rfl⟩

/-! ## Single data transfer -/

/-- What a load does (45_single_data_transfer.md R262, R274). -/
theorem loadSingle_next {byte user p u w : Bool} {c : Cond} {rn rd : RegNum} {off : Offset} {s t : State}
    (h : loadSingle byte user c p u w rn rd off s = .next t) :
    (condPasses c s.flags = false ∧ t = s.advance) ∨
      (singleRefusal p w rn off = none ∧
        let r := s.cycle (readCycle .n (s.singleAddress p u rn off) (s.transferAttrs user false byte))
        let e := r.internal.writeBack p w rn (s.modifiedBase u rn off)
        (t = e.dataAbort ∨ t = e.finish rd (r.readData (s.singleAddress p u rn off) (s.transferAttrs user false byte)))) := by
  rcases conditional_next h with ⟨-, h⟩ | h
  · split at h
    · cases h
    · next hr =>
      dsimp only at h
      split at h
      · exact .inr ⟨hr, .inl (by cases h; rfl)⟩
      · exact .inr ⟨hr, .inr (by cases h; rfl)⟩
  · exact .inl h

/-- What a store does (R264, R274). -/
theorem storeSingle_next {byte user p u w : Bool} {c : Cond} {rn rd : RegNum} {off : Offset} {s t : State}
    (h : storeSingle byte user c p u w rn rd off s = .next t) :
    (condPasses c s.flags = false ∧ t = s.advance) ∨
      (singleRefusal p w rn off = none ∧
        let e := (s.store .n (s.singleAddress p u rn off) (s.transferAttrs user true byte) (s.reg rd 12#32)).writeBack p w
          rn (s.modifiedBase u rn off)
        (t = e.dataAbort ∨ t = e.advance)) := by
  rcases conditional_next h with ⟨-, h⟩ | h
  · split at h
    · cases h
    · next hr =>
      dsimp only at h
      split at h
      · exact .inr ⟨hr, .inl (by cases h; rfl)⟩
      · exact .inr ⟨hr, .inr (by cases h; rfl)⟩
  · exact .inl h

/-! ## Swap -/

/-- What a swap does (47_swap.md R320, R323). -/
theorem swap_next {byte : Bool} {c : Cond} {rn rd rm : RegNum} {s t : State} (h : swap byte c rn rd rm s = .next t) :
    (condPasses c s.flags = false ∧ t = s.advance) ∨
      (let r := s.cycle (readCycle .n (s.reg rn 8#32) (s.lockedAttrs false byte))
       let e := (r.lockedStore (!r.aborts (s.reg rn 8#32) (s.lockedAttrs false byte)) (s.reg rn 8#32)
        (s.lockedAttrs true byte) (s.reg rm 8#32)).internal
       t = e.dataAbort ∨ t = (e.setReg rd (r.readData (s.reg rn 8#32) (s.lockedAttrs false byte))).advance) := by
  rcases conditional_next h with ⟨-, h⟩ | h
  · split at h
    · cases h
    · dsimp only at h
      split at h
      · exact .inr (.inl (by cases h; rfl))
      · exact .inr (.inr (by cases h; rfl))
  · exact .inl h

end Sys2Proof.Machine
end

