-- ==== Sys2Proof/Laws/PerInstr.lean ====
section
/-! SUPPORT. Statements about every instruction, one lemma for each constructor. -/

namespace Sys2Proof.Laws

/-- The top four bits of an instruction's word are its condition field (30_encoding.md R122, R124). -/
def CondField.Statement (i : Instr) : Prop := (encode i).extractLsb' 28 4 = i.cond.bits

theorem CondField.b (c : Cond) (offset : BitVec 24) : CondField.Statement (.b c offset) :=
  encode_cond _

theorem CondField.bl (c : Cond) (offset : BitVec 24) : CondField.Statement (.bl c offset) :=
  encode_cond _

theorem CondField.swi (c : Cond) (comment : BitVec 24) : CondField.Statement (.swi c comment) :=
  encode_cond _

theorem CondField.cdp (c : Cond) (cpOpc : BitVec 4) (crn crd cpNum : BitVec 4) (cp : BitVec 3) (crm : BitVec 4) :
    CondField.Statement (.cdp c cpOpc crn crd cpNum cp crm) :=
  encode_cond _

theorem CondField.mrc (c : Cond) (cpOpc : BitVec 3) (crn : BitVec 4) (rd : RegNum) (cpNum : BitVec 4) (cp : BitVec 3) (crm : BitVec 4) :
    CondField.Statement (.mrc c cpOpc crn rd cpNum cp crm) :=
  encode_cond _

theorem CondField.mcr (c : Cond) (cpOpc : BitVec 3) (crn : BitVec 4) (rd : RegNum) (cpNum : BitVec 4) (cp : BitVec 3) (crm : BitVec 4) :
    CondField.Statement (.mcr c cpOpc crn rd cpNum cp crm) :=
  encode_cond _

theorem CondField.ldc (c : Cond) (p u n w : Bool) (rn : RegNum) (crd cpNum : BitVec 4) (offset : BitVec 8) :
    CondField.Statement (.ldc c p u n w rn crd cpNum offset) :=
  encode_cond _

theorem CondField.stc (c : Cond) (p u n w : Bool) (rn : RegNum) (crd cpNum : BitVec 4) (offset : BitVec 8) :
    CondField.Statement (.stc c p u n w rn crd cpNum offset) :=
  encode_cond _

theorem CondField.ldm (c : Cond) (p u s w : Bool) (rn : RegNum) (list : BitVec 16) :
    CondField.Statement (.ldm c p u s w rn list) :=
  encode_cond _

theorem CondField.stm (c : Cond) (p u s w : Bool) (rn : RegNum) (list : BitVec 16) :
    CondField.Statement (.stm c p u s w rn list) :=
  encode_cond _

theorem CondField.undefined (c : Cond) (high : BitVec 20) (low : BitVec 4) :
    CondField.Statement (.undefined c high low) :=
  encode_cond _

theorem CondField.ldrt (c : Cond) (u : Bool) (rn rd : RegNum) (off : Offset) :
    CondField.Statement (.ldrt c u rn rd off) :=
  encode_cond _

theorem CondField.ldrbt (c : Cond) (u : Bool) (rn rd : RegNum) (off : Offset) :
    CondField.Statement (.ldrbt c u rn rd off) :=
  encode_cond _

theorem CondField.strt (c : Cond) (u : Bool) (rn rd : RegNum) (off : Offset) :
    CondField.Statement (.strt c u rn rd off) :=
  encode_cond _

theorem CondField.strbt (c : Cond) (u : Bool) (rn rd : RegNum) (off : Offset) :
    CondField.Statement (.strbt c u rn rd off) :=
  encode_cond _

theorem CondField.ldr (c : Cond) (p u w : Bool) (rn rd : RegNum) (off : Offset) :
    CondField.Statement (.ldr c p u w rn rd off) :=
  encode_cond _

theorem CondField.ldrb (c : Cond) (p u w : Bool) (rn rd : RegNum) (off : Offset) :
    CondField.Statement (.ldrb c p u w rn rd off) :=
  encode_cond _

theorem CondField.str (c : Cond) (p u w : Bool) (rn rd : RegNum) (off : Offset) :
    CondField.Statement (.str c p u w rn rd off) :=
  encode_cond _

theorem CondField.strb (c : Cond) (p u w : Bool) (rn rd : RegNum) (off : Offset) :
    CondField.Statement (.strb c p u w rn rd off) :=
  encode_cond _

theorem CondField.mul (c : Cond) (s : Bool) (rd rn rs rm : RegNum) : CondField.Statement (.mul c s rd rn rs rm) :=
  encode_cond _

theorem CondField.mla (c : Cond) (s : Bool) (rd rn rs rm : RegNum) : CondField.Statement (.mla c s rd rn rs rm) :=
  encode_cond _

theorem CondField.swp (c : Cond) (rn rd rm : RegNum) : CondField.Statement (.swp c rn rd rm) :=
  encode_cond _

theorem CondField.swpb (c : Cond) (rn rd rm : RegNum) : CondField.Statement (.swpb c rn rd rm) :=
  encode_cond _

theorem CondField.notDefinedA (c : Cond) (body : BitVec 28) : CondField.Statement (.notDefinedA c body) :=
  encode_cond _

theorem CondField.mrs (c : Cond) (ps : Bool) (rd : RegNum) : CondField.Statement (.mrs c ps rd) :=
  encode_cond _

theorem CondField.msrRegAll (c : Cond) (pd : Bool) (rm : RegNum) : CondField.Statement (.msrRegAll c pd rm) :=
  encode_cond _

theorem CondField.msrRegFlg (c : Cond) (pd : Bool) (rm : RegNum) : CondField.Statement (.msrRegFlg c pd rm) :=
  encode_cond _

theorem CondField.msrImmFlg (c : Cond) (pd : Bool) (rotate : BitVec 4) (imm8 : BitVec 8) :
    CondField.Statement (.msrImmFlg c pd rotate imm8) :=
  encode_cond _

theorem CondField.notDefinedB (c : Cond) (body : BitVec 28) : CondField.Statement (.notDefinedB c body) :=
  encode_cond _

theorem CondField.and (c : Cond) (s : Bool) (rn rd : RegNum) (op2 : Operand2) :
    CondField.Statement (.and c s rn rd op2) :=
  encode_cond _

theorem CondField.eor (c : Cond) (s : Bool) (rn rd : RegNum) (op2 : Operand2) :
    CondField.Statement (.eor c s rn rd op2) :=
  encode_cond _

theorem CondField.sub (c : Cond) (s : Bool) (rn rd : RegNum) (op2 : Operand2) :
    CondField.Statement (.sub c s rn rd op2) :=
  encode_cond _

theorem CondField.rsb (c : Cond) (s : Bool) (rn rd : RegNum) (op2 : Operand2) :
    CondField.Statement (.rsb c s rn rd op2) :=
  encode_cond _

theorem CondField.add (c : Cond) (s : Bool) (rn rd : RegNum) (op2 : Operand2) :
    CondField.Statement (.add c s rn rd op2) :=
  encode_cond _

theorem CondField.adc (c : Cond) (s : Bool) (rn rd : RegNum) (op2 : Operand2) :
    CondField.Statement (.adc c s rn rd op2) :=
  encode_cond _

theorem CondField.sbc (c : Cond) (s : Bool) (rn rd : RegNum) (op2 : Operand2) :
    CondField.Statement (.sbc c s rn rd op2) :=
  encode_cond _

theorem CondField.rsc (c : Cond) (s : Bool) (rn rd : RegNum) (op2 : Operand2) :
    CondField.Statement (.rsc c s rn rd op2) :=
  encode_cond _

theorem CondField.tst (c : Cond) (rn rd : RegNum) (op2 : Operand2) : CondField.Statement (.tst c rn rd op2) :=
  encode_cond _

theorem CondField.teq (c : Cond) (rn rd : RegNum) (op2 : Operand2) : CondField.Statement (.teq c rn rd op2) :=
  encode_cond _

theorem CondField.cmp (c : Cond) (rn rd : RegNum) (op2 : Operand2) : CondField.Statement (.cmp c rn rd op2) :=
  encode_cond _

theorem CondField.cmn (c : Cond) (rn rd : RegNum) (op2 : Operand2) : CondField.Statement (.cmn c rn rd op2) :=
  encode_cond _

theorem CondField.orr (c : Cond) (s : Bool) (rn rd : RegNum) (op2 : Operand2) :
    CondField.Statement (.orr c s rn rd op2) :=
  encode_cond _

theorem CondField.mov (c : Cond) (s : Bool) (rn rd : RegNum) (op2 : Operand2) :
    CondField.Statement (.mov c s rn rd op2) :=
  encode_cond _

theorem CondField.bic (c : Cond) (s : Bool) (rn rd : RegNum) (op2 : Operand2) :
    CondField.Statement (.bic c s rn rd op2) :=
  encode_cond _

theorem CondField.mvn (c : Cond) (s : Bool) (rn rd : RegNum) (op2 : Operand2) :
    CondField.Statement (.mvn c s rn rd op2) :=
  encode_cond _

end Sys2Proof.Laws
end

