-- ==== Sys2Proof/Laws/Step.lean ====
section
/-! SUPPORT. What the parts of a step can do: the fetch, the boundary, the interrupt check, reset, and the step itself. -/

namespace Sys2Proof.Machine

/-! ## The fetch -/

/-- Two states agree but for the pipeline, the environment and the bus. -/
structure SameButBus (s t : State) : Prop where
  regs : t.regs = s.regs
  pc : t.pc = s.pc
  cpsr : t.cpsr = s.cpsr
  spsrs : t.spsrs = s.spsrs
  ldmShadow : t.ldmShadow = s.ldmShadow
  busyWait : t.busyWait = s.busyWait
  schedule : t.schedule = s.schedule
  coprocs : t.coprocs = s.coprocs
  tick : t.tick = s.tick

theorem SameButBus.refl (s : State) : SameButBus s s := ⟨rfl, rfl, rfl, rfl, rfl, rfl, rfl, rfl, rfl⟩

theorem SameButBus.trans {s t u : State} (h : SameButBus s t) (g : SameButBus t u) : SameButBus s u :=
  ⟨g.regs.trans h.regs, g.pc.trans h.pc, g.cpsr.trans h.cpsr, g.spsrs.trans h.spsrs, g.ldmShadow.trans h.ldmShadow,
    g.busyWait.trans h.busyWait, g.schedule.trans h.schedule, g.coprocs.trans h.coprocs, g.tick.trans h.tick⟩

/-- A bus cycle changes what the environment changes, and the trace. -/
theorem cycle_same (s : State) (c : BusCycle) : SameButBus s (s.cycle c) := by constructor <;> simp

theorem passing_same (s : State) (cs : List BusCycle) : SameButBus s (s.passing cs) := by constructor <;> simp

theorem fetchOne_same (s : State) (n : Bool) : SameButBus s (s.fetchOne n) := by constructor <;> simp

/-- A fetch adds one word at the end of the pipeline (10_state.md R41). -/
theorem fetchOne_pipe (s : State) (n : Bool) : ∃ slot, (s.fetchOne n).pipe = s.pipe ++ [slot] := ⟨_, rfl⟩

/-- A fetch changes memory and pins as one bus cycle does. -/
theorem fetchOne_mem (s : State) (n : Bool) :
    (s.fetchOne n).mem = s.environment.mem ∧ (s.fetchOne n).inputs = s.environment.inputs ∧
      (s.fetchOne n).moments = s.moments.tail := by
  refine ⟨rfl, rfl, ?_⟩
  simp [State.fetchOne]

/-- Fetching adds `k` words at the end of the pipeline. -/
theorem fetchMany_same (k : Nat) (s : State) :
    SameButBus s (State.fetchMany k s) ∧ s.pipe <+: (State.fetchMany k s).pipe ∧
      (State.fetchMany k s).pipe.length = s.pipe.length + k := by
  induction k generalizing s with
  | zero => exact ⟨.refl s, List.prefix_rfl, rfl⟩
  | succ k ih =>
    obtain ⟨slot, hs⟩ := fetchOne_pipe s true
    obtain ⟨h1, h2, h3⟩ := ih (s.fetchOne true)
    refine ⟨(fetchOne_same s true).trans h1, (List.IsPrefix.trans ⟨[slot], hs.symm⟩ h2), ?_⟩
    change (State.fetchMany k (s.fetchOne true)).pipe.length = _
    rw [h3, hs, List.length_append]
    simp only [List.length_cons, List.length_nil]
    omega

/-- What filling the pipeline can do (10_state.md R41). -/
theorem fillTo_same (s : State) (want : Nat) :
    SameButBus s (s.fillTo want) ∧ s.pipe <+: (s.fillTo want).pipe ∧
      (s.fillTo want).pipe.length = max want s.pipe.length := by
  obtain ⟨h1, h2, h3⟩ := fetchMany_same (want - s.pipe.length) s
  refine ⟨h1, h2, ?_⟩
  change (State.fetchMany _ s).pipe.length = _
  rw [h3]
  omega

theorem fetchMany_wf {s : State} (h : s.mem.wf = true) (k : Nat) : (State.fetchMany k s).mem.wf = true := by
  induction k generalizing s with
  | zero => exact h
  | succ k ih => exact ih (s := s.fetchOne true) (environment_wf h)

theorem fillTo_wf {s : State} (h : s.mem.wf = true) (n : Nat) : (s.fillTo n).mem.wf = true := fetchMany_wf h _

/-- With no moment left, filling the pipeline leaves memory and pins. -/
theorem fetchMany_quiet {s : State} (h : s.moments = []) (k : Nat) :
    (State.fetchMany k s).mem = s.mem ∧ (State.fetchMany k s).inputs = s.inputs ∧ (State.fetchMany k s).moments = [] := by
  induction k generalizing s with
  | zero => exact ⟨rfl, rfl, h⟩
  | succ k ih =>
    obtain ⟨h1, h2, h3⟩ := fetchOne_mem s true
    rw [environment_nil h] at h1 h2
    obtain ⟨g1, g2, g3⟩ := ih (s := s.fetchOne true) (by rw [h3, h]; rfl)
    exact ⟨g1.trans h1, g2.trans h2, g3⟩

theorem fillTo_quiet {s : State} (h : s.moments = []) (n : Nat) :
    (s.fillTo n).mem = s.mem ∧ (s.fillTo n).inputs = s.inputs ∧ (s.fillTo n).moments = [] := fetchMany_quiet h _

/-- Without other masters' writes, filling the pipeline leaves the memory. -/
theorem fetchMany_mem {s : State} (h : s.noBusWrites = true) (k : Nat) :
    (State.fetchMany k s).mem = s.mem ∧ (State.fetchMany k s).noBusWrites = true := by
  induction k generalizing s with
  | zero => exact ⟨rfl, h⟩
  | succ k ih =>
    obtain ⟨h1, h2⟩ := environment_mem h
    obtain ⟨g1, g2⟩ := ih (s := s.fetchOne true) h2
    exact ⟨g1.trans h1, g2⟩

/-- Starting an instruction: the pipeline has its three words, and only what bus cycles change has changed. -/
theorem startCycle_same (s : State) :
    SameButBus s s.startCycle ∧ s.pipe <+: s.startCycle.pipe ∧ s.startCycle.pipe.length = max 3 s.pipe.length := by
  obtain ⟨h, h2, h3⟩ := fillTo_same { s with bus := [] } 2
  have e : SameButBus s { s with bus := [] } := ⟨rfl, rfl, rfl, rfl, rfl, rfl, rfl, rfl, rfl⟩
  unfold State.startCycle
  dsimp only
  change _ = max 2 s.pipe.length at h3
  split
  · obtain ⟨slot, hs⟩ := fetchOne_pipe (State.fillTo { s with bus := [] } 2) (State.fillTo { s with bus := [] } 2).headCPI
    refine ⟨(e.trans h).trans (fetchOne_same _ _), h2.trans ⟨[slot], hs.symm⟩, ?_⟩
    rw [hs, List.length_append, h3, List.length_singleton]
    omega
  · exact ⟨e.trans h, h2, by omega⟩

theorem startCycle_wf {s : State} (h : s.mem.wf = true) : s.startCycle.mem.wf = true := by
  have := fillTo_wf (s := { s with bus := [] }) h 2
  unfold State.startCycle
  dsimp only
  split
  · exact environment_wf this
  · exact this

/-- The slot an instruction runs from: the one at the head of the pipeline, or the word fetched at the PC. -/
theorem startCycle_head (s : State) :
    s.startCycle.head = match s.pipe with
      | slot :: _ => slot
      | [] =>
        let e := s.cycle (s.fetchCycle true s.pc)
        { word := e.busWord s.pc s.fetchAttrs, aborted := e.aborts s.pc s.fetchAttrs } := by
  obtain ⟨-, ⟨r, hr⟩, -⟩ := startCycle_same s
  cases hp : s.pipe with
  | cons slot rest =>
    unfold State.head
    rw [← hr, hp]; rfl
  | nil =>
    have e : State.fillTo { s with bus := [] } 2 = (State.fetchOne { s with bus := [] } true).fetchOne true := by
      unfold State.fillTo
      change State.fetchMany (2 - s.pipe.length) _ = _
      rw [hp]; rfl
    have hs : s.startCycle.pipe.head? = ((State.fetchOne { s with bus := [] } true).pipe).head? := by
      obtain ⟨a, ha⟩ := fetchOne_pipe (State.fetchOne { s with bus := [] } true) true
      obtain ⟨b, hb⟩ := fetchOne_pipe { s with bus := [] } true
      unfold State.startCycle
      dsimp only
      rw [e]
      split
      · obtain ⟨c, hc⟩ := fetchOne_pipe ((State.fetchOne { s with bus := [] } true).fetchOne true)
          ((State.fetchOne { s with bus := [] } true).fetchOne true).headCPI
        rw [hc, ha, hb, List.head?_append, List.head?_append]
        simp
      · rw [ha, hb, List.head?_append]; simp
    have hf : ((State.fetchOne { s with bus := [] } true).pipe).head? = some
        { word := (s.cycle (s.fetchCycle true s.pc)).busWord s.pc s.fetchAttrs,
          aborted := (s.cycle (s.fetchCycle true s.pc)).aborts s.pc s.fetchAttrs } := by
      unfold State.fetchOne
      change (s.pipe ++ [_]).head? = _
      rw [hp]
      have he : (State.environment { s with pipe := [], bus := [] }).mem = s.environment.mem ∧
          (State.environment { s with pipe := [], bus := [] }).inputs = s.environment.inputs := by
        cases hm : s.moments <;> simp [State.environment, hm]
      have ha : s.pc + BitVec.ofNat 32 (4 * ([] : List Slot).length) = s.pc := by simp
      simp only [List.nil_append, List.head?_cons, Option.some.injEq, Slot.mk.injEq]
      rw [ha]
      exact ⟨busWord_congr he.2 he.1 _ _, aborts_congr he.2 _ _⟩
    cases hq : s.startCycle.pipe with
    | nil => rw [hq, hf] at hs; simp at hs
    | cons a l =>
      rw [hq, hf] at hs
      simp only [List.head?_cons, Option.some.injEq] at hs
      unfold State.head
      rw [hq, List.headD_cons, hs]

/-! ## The step -/

/-- A step ends in the 32-bit configuration (00_scope.md R8). -/
theorem endStep_next {s t : State} (h : s.endStep = .next t) : t = s ∧ s.inputs.supported = true := by
  unfold State.endStep at h
  split at h
  · next hs => exact ⟨by cases h; rfl, hs⟩
  · cases h

/-- What a step can do: held in reset, or one instruction and its boundary. -/
theorem step_next {s t : State} (h : step s = .next t) :
    s.inputs.supported = true ∧ t.inputs.supported = true ∧ (∃ m, Mode.ofBits (psrMode s.cpsr) = some m) ∧
      ((s.inputs.nRESET = false ∧ t = s.heldInReset) ∨
        (s.inputs.nRESET = true ∧ ∃ u, s.startCycle.runHead = .next u ∧ t = s.startCycle.boundary u)) := by
  unfold step State.stepOnce at h
  split at h
  · cases h
  · next hc =>
    simp only [Bool.not_eq_true', Bool.not_eq_false] at hc
    split at h
    · cases h
    · next m hm =>
      split at h
      · next hr =>
        unfold State.runStep at h
        split at h
        · next u hu =>
          obtain ⟨rfl, ht⟩ := endStep_next h
          exact ⟨hc, ht, ⟨m, hm⟩, .inr ⟨hr, u, hu, rfl⟩⟩
        · cases h
        · cases h
      · next hr =>
        obtain ⟨rfl, ht⟩ := endStep_next h
        exact ⟨hc, ht, ⟨m, hm⟩, .inl ⟨by simpa using hr, rfl⟩⟩

/-- A running state's step is the head of the pipeline and the boundary. -/
theorem step_running {s : State} (h : s.running = true) : step s = s.startCycle.runStep := by
  simp only [State.running, Bool.and_eq_true] at h
  obtain ⟨⟨⟨h1, h2⟩, h3⟩, h4⟩ := h
  obtain ⟨m, hm⟩ := Option.isSome_iff_exists.mp h4
  simp [step, State.stepOnce, Inputs.supported, h1, h2, h3, hm]

/-- The head of the pipeline: the prefetch abort (60_exceptions.md R385) or exec of the decoded instruction. -/
theorem runHead_next {s t : State} (h : s.runHead = .next t) :
    (s.head.aborted = true ∧ t = s.enter .prefetchAbort (s.pc + 4#32)) ∨
      (s.head.aborted = false ∧ exec s.headInstr s = .next t) := by
  unfold State.runHead at h
  split at h
  · next ha => exact .inl ⟨ha, by cases h; rfl⟩
  · next ha => exact .inr ⟨by simpa using ha, h⟩

/-! ## The environment and the interrupts -/

/-- With no event left the environment does nothing. -/
theorem sample_nil {s : State} (h : s.schedule = []) : s.sample = s := by simp [State.sample, h]

theorem sample_cons {s : State} {e : Event} {rest : List Event} (h : s.schedule = e :: rest) :
    s.sample = { s with inputs := e.inputs, mem := s.mem.setAll e.busWrites, moments := e.moments, schedule := rest } := by
  simp [State.sample, h]

theorem sample_inputs (s : State) : s.sample.inputs = s.nextInputs := by
  unfold State.sample State.nextInputs
  split <;> rfl

/-- At a boundary the environment reaches the pins, the memory and its own fields only. -/
theorem sample_frame (s : State) :
    s.sample.regs = s.regs ∧ s.sample.pc = s.pc ∧ s.sample.cpsr = s.cpsr ∧ s.sample.spsrs = s.spsrs ∧
      s.sample.pipe = s.pipe ∧ s.sample.ldmShadow = s.ldmShadow ∧ s.sample.busyWait = s.busyWait ∧
      s.sample.seq = s.seq ∧ s.sample.coprocs = s.coprocs ∧ s.sample.tick = s.tick ∧ s.sample.bus = s.bus := by
  unfold State.sample
  split <;> exact ⟨rfl, rfl, rfl, rfl, rfl, rfl, rfl, rfl, rfl, rfl, rfl⟩

theorem sample_wf {s : State} (h : s.mem.wf = true) : s.sample.mem.wf = true := by
  unfold State.sample
  split
  · exact h
  · exact setAll_wf h _

/-- The interrupt that is taken is an enabled request (60_exceptions.md R390, R393). -/
theorem pendingInterrupt_cases (s : State) :
    (s.pendingInterrupt = some .fiq ∧ s.inputs.nFIQ = false ∧ psrF s.cpsr = false) ∨
      (s.pendingInterrupt = some .irq ∧ (s.inputs.nFIQ = true ∨ psrF s.cpsr = true) ∧ s.inputs.nIRQ = false ∧
        psrI s.cpsr = false) ∨
      (s.pendingInterrupt = none ∧ (s.inputs.nFIQ = true ∨ psrF s.cpsr = true) ∧
        (s.inputs.nIRQ = true ∨ psrI s.cpsr = true)) := by
  unfold State.pendingInterrupt
  cases s.inputs.nFIQ <;> cases s.inputs.nIRQ <;> cases psrF s.cpsr <;> cases psrI s.cpsr <;> simp

/-- Taking an interrupt: what the entry leaves, but for the environment and the bus (R391, R394). -/
theorem takeInterrupt_same (s : State) (e : Exc) :
    (s.takeInterrupt e).regs = (s.enter e (s.pc + 4#32)).regs ∧ (s.takeInterrupt e).pc = e.vector ∧
      (s.takeInterrupt e).cpsr = e.newCpsr s.cpsr ∧ (s.takeInterrupt e).spsrs = s.spsrs.set e.mode s.cpsr ∧
      (s.takeInterrupt e).ldmShadow = false ∧ (s.takeInterrupt e).busyWait = false ∧
      (s.takeInterrupt e).schedule = s.schedule ∧ (s.takeInterrupt e).tick = s.tick ∧
      (s.takeInterrupt e).pipe.length = 2 := by
  have hb : SameButBus { s with coprocs := s.breakOff.coprocs } s.breakOff := by
    unfold State.breakOff; split <;> constructor <;> rfl
  unfold State.takeInterrupt
  have h := (cycle_same s.breakOff (s.breakOff.fetchCycle true (s.pc + 8#32)))
  change SameButBus s.breakOff (s.breakOff.discardedFetch (s.pc + 8#32)) at h
  have g0 := hb.trans h
  generalize s.breakOff.discardedFetch (s.pc + 8#32) = u at g0 ⊢
  obtain ⟨g, -, gl⟩ := fillTo_same (u.enter e (s.pc + 4#32)) 2
  generalize (u.enter e (s.pc + 4#32)).fillTo 2 = v at g gl ⊢
  rw [g.regs, g.pc, g.cpsr, g.spsrs, g.ldmShadow, g.busyWait, g.schedule, g.tick, gl]
  simp only [enter_regs, enter_pc, enter_cpsr, enter_spsrs, enter_ldmShadow, enter_busyWait, enter_schedule,
    enter_tick, enter_pipe, g0.regs, g0.cpsr, g0.spsrs, g0.schedule, g0.tick, List.length_nil, Nat.max_zero, and_self]

theorem takeInterrupt_wf {s : State} (h : s.mem.wf = true) (e : Exc) : (s.takeInterrupt e).mem.wf = true := by
  have hb : s.breakOff.mem.wf = true := by unfold State.breakOff; split <;> exact h
  exact fillTo_wf (s := (s.breakOff.discardedFetch (s.pc + 8#32)).enter e (s.pc + 4#32)) (cycle_wf hb (s.breakOff.fetchCycle true (s.pc + 8#32))) 2

/-! nRESET LOW (notes/assumptions/17.md). -/

@[simp] theorem abandon_pc (s b : State) (keys : List Nat) : (s.abandon b keys).pc = b.fetchAddress := by
  unfold State.abandon; rfl
@[simp] theorem abandon_pipe (s b : State) (keys : List Nat) : (s.abandon b keys).pipe = [] := by
  unfold State.abandon; rfl
@[simp] theorem abandon_inputs (s b : State) (keys : List Nat) : (s.abandon b keys).inputs = s.inputs := by
  unfold State.abandon; rfl
@[simp] theorem abandon_moments (s b : State) (keys : List Nat) : (s.abandon b keys).moments = s.moments := by
  unfold State.abandon; rfl
@[simp] theorem abandon_schedule (s b : State) (keys : List Nat) : (s.abandon b keys).schedule = s.schedule := by
  unfold State.abandon; rfl
@[simp] theorem abandon_coprocs (s b : State) (keys : List Nat) : (s.abandon b keys).coprocs = s.coprocs := by
  unfold State.abandon; rfl
@[simp] theorem abandon_tick (s b : State) (keys : List Nat) : (s.abandon b keys).tick = s.tick := by
  unfold State.abandon; rfl
@[simp] theorem abandon_bus (s b : State) (keys : List Nat) : (s.abandon b keys).bus = s.bus := by
  unfold State.abandon; rfl
@[simp] theorem abandon_cpsr (s b : State) (keys : List Nat) :
    (s.abandon b keys).cpsr = psrWithTop b.cpsr (Config.abandonedFlags s.tick) := by
  unfold State.abandon; rfl
@[simp] theorem abandon_mem (s b : State) (keys : List Nat) :
    (s.abandon b keys).mem = s.mem.setAll (keys.map (fun k => (k, Config.abandonedByte s.tick k))) := by
  unfold State.abandon; rfl

@[simp] theorem abandon_seq (s b : State) (keys : List Nat) :
    (s.abandon b keys).seq = match s.bus.getLast? with
      | some c => c.nextSeq
      | none => b.seq := by
  unfold State.abandon; rfl

theorem abandon_mode (s b : State) (keys : List Nat) : psrMode (s.abandon b keys).cpsr = psrMode b.cpsr := by
  rw [abandon_cpsr, psrMode_withTop]

theorem abandon_spsrs_defined (s b : State) (keys : List Nat) : (s.abandon b keys).spsrs.defined = true := by
  simp [State.abandon, Spsrs.defined]

theorem abandon_wf {s : State} (h : s.mem.wf = true) (b : State) (keys : List Nat) :
    (s.abandon b keys).mem.wf = true := by
  rw [abandon_mem]; exact setAll_wf h _

/-- The interrupt check, one case for each thing that can happen at it. -/
theorem checkInterrupts_cases (k : Nat) (s : State) :
    ((s.sample.inputs.supported = false ∨ s.sample.inputs.nRESET = true ∧ s.sample.pendingInterrupt = none) ∧
        State.checkInterrupts (k + 1) s = s.sample) ∨
      (∃ e, s.sample.inputs.supported = true ∧ s.sample.inputs.nRESET = true ∧ s.sample.pendingInterrupt = some e ∧
        State.checkInterrupts (k + 1) s = State.checkInterrupts k (s.sample.takeInterrupt e)) ∨
      (s.sample.inputs.supported = true ∧ s.sample.inputs.nRESET = false ∧
        State.checkInterrupts (k + 1) s = s.sample.abandon s.sample []) := by
  cases hs : s.sample.inputs.supported with
  | false => exact .inl ⟨.inl rfl, by simp [State.checkInterrupts, hs]⟩
  | true =>
    cases hr : s.sample.inputs.nRESET with
    | false => exact .inr (.inr ⟨rfl, rfl, by simp [State.checkInterrupts, hs, hr]⟩)
    | true =>
      cases hp : s.sample.pendingInterrupt with
      | none => exact .inl ⟨.inr ⟨rfl, rfl⟩, by simp [State.checkInterrupts, hs, hr, hp]⟩
      | some e => exact .inr (.inl ⟨e, rfl, rfl, rfl, by simp [State.checkInterrupts, hs, hr, hp]⟩)

/-- A predicate that the environment, an interrupt and nRESET LOW keep holds after the interrupt check. -/
theorem checkInterrupts_keeps {P : State → Prop} (hs : ∀ s, P s → P s.sample)
    (ht : ∀ s e, P s → s.pendingInterrupt = some e → P (s.takeInterrupt e)) (ha : ∀ s, P s → P (s.abandon s []))
    (k : Nat) (s : State) (h : P s) : P (State.checkInterrupts k s) := by
  induction k generalizing s with
  | zero => exact h
  | succ k ih =>
    rcases checkInterrupts_cases k s with ⟨-, e⟩ | ⟨x, -, -, hx, e⟩ | ⟨-, -, e⟩
    · rw [e]; exact hs s h
    · rw [e]; exact ih _ (ht _ x (hs s h) hx)
    · rw [e]; exact ha _ (hs s h)

/-- The boundary without and with nRESET LOW (60_exceptions.md R393). -/
theorem boundary_eq (b s : State) :
    (s.nextInputs.nRESET = true ∧ b.boundary s =
        { State.checkInterrupts 3 (s.fillTo 2) with tick := (State.checkInterrupts 3 (s.fillTo 2)).tick + 1 }) ∨
      (s.nextInputs.nRESET = false ∧ b.boundary s =
        { s.sample.abandon b (State.writtenKeys false (s.cyclesSince b) b) with tick := s.sample.tick + 1 }) := by
  unfold State.boundary
  cases h : s.nextInputs.nRESET with
  | true => exact .inl ⟨rfl, rfl⟩
  | false =>
    refine .inr ⟨rfl, ?_⟩
    simp only [Bool.false_eq_true, if_false, abandon_tick]

/-- A byte that some cycles store is stored by one of their writes, which is not cancelled by an aborted read before it
(93_implementation_defined.md U23). -/
theorem mem_writtenKeys {k : Nat} {b : Bool} {cs : List BusCycle} {s : State} (h : k ∈ State.writtenKeys b cs s) :
    ∃ i c, cs[i]? = some c ∧ (i = 0 → b = false) ∧
      (∀ d, cs[i - 1]? = some d → 0 < i → (s.passing (cs.take i)).cancelsWrite d = false) ∧
      k ∈ (s.passing (cs.take (i + 1))).storedKeys c := by
  induction cs generalizing b s with
  | nil => simp [State.writtenKeys] at h
  | cons c cs ih =>
    simp only [State.writtenKeys, List.mem_append] at h
    rcases h with h | h
    · cases b with
      | true => simp at h
      | false => exact ⟨0, c, rfl, fun _ => rfl, fun d _ h0 => absurd h0 (Nat.lt_irrefl 0), h⟩
    · obtain ⟨i, d, hd, h0, hp, hk⟩ := ih h
      refine ⟨i + 1, d, hd, fun h1 => by omega, fun x hx _ => ?_, hk⟩
      cases i with
      | zero =>
        obtain rfl : c = x := by simpa using hx
        exact h0 rfl
      | succ i => exact hp x hx (Nat.succ_pos i)

end Sys2Proof.Machine
end

