-- ==== Sys2Proof/Tests/Slice0.lean ====
section
/-! SUPPORT. The model's own tests, each expected result taken from the spec: the decoding of words written out from the
encodings (30_encoding.md R122 to R138, 96_test_vectors_derived.md B1), single steps from the vectors of
96_test_vectors_derived.md (T and X numbers), the well-formedness checks, and for each statement that has hypotheses a state
and operands that meet them. -/

namespace Sys2Proof.Tests

open Sys2Proof Sys2Proof.Machine

/-! ## Helpers -/

/-- A state at 0x8000 with a CPSR, some registers and some words of memory. -/
def start (cpsr : Word) (regs : List (PhysReg × Word)) (words : List (Word × Word)) : State :=
  { regs.foldl (fun s p => s.setGpr p.1 p.2) State.reset with
    pc := 0x8000, cpsr, mem := words.foldl (fun m p => m.setWord p.1 p.2) [] }

/-- The state after a step; the same state when the step does not go on. -/
def next (s : State) : State :=
  match step s with
  | .next t => t
  | .fault _ | .refused _ => s

/-- The state after one step on a word placed at the PC. -/
def stepWord (w : Word) (s : State) : State := next (s.withFetchWord 32 w.toNat)

/-- The state after one step on a word in the pipeline at the PC, with the environment as it is. -/
def runWord (w : Word) (s : State) : State := next { s with pipe := [⟨w, false⟩, ⟨0, false⟩] }

/-- Some registers, the CPSR and the PC. -/
def view (t : State) (regs : List PhysReg) : List Word × Word × Word := (regs.map t.gpr, t.cpsr, t.pc)

/-- The refusal a step on a word ends in. -/
def refusalOf (w : Word) (s : State) : Option Refusal :=
  match step (s.withFetchWord 32 w.toNat) with
  | .refused r => some r
  | .next _ | .fault _ => none

/-- A result that goes on. -/
def goesOn : Result → Bool
  | .next _ => true
  | .fault _ | .refused _ => false

/-- A rule for every data cycle in a range of addresses. -/
def dataRule (first last : Nat) (reply : Reply) : MemoryRule :=
  { first, last, nRW := none, nBW := none, nOPC := some true, nTRANS := none, nM := none, LOCK := none, reply }

/-- The state with data cycles in a range aborted. -/
def aborting (s : State) (first last : Nat) : State :=
  { s with inputs := { s.inputs with memoryRules := [dataRule first last .abort] } }

/-- What the environment does at a cycle: a level of BIGEND and a byte another master has written. -/
def moment (bigEnd : Bool) (busWrites : List Host.Cell) : Moment :=
  { BIGEND := bigEnd, memoryRules := [], busWrites }

/-- An event that sets the pins, and nothing else. -/
def pins (inputs : Inputs) : Event := { inputs, busWrites := [], moments := [] }

/-- A result's view. -/
def viewOf (r : Result) (regs : List PhysReg) (a : Word) : List Word × Word × Word :=
  match r with
  | .next t => (regs.map t.gpr, t.pc, t.mem.word a)
  | .fault _ | .refused _ => ([], 0, 0)

/-- The types and addresses of the bus cycles of a state. -/
def trace (s : State) : List (CycleType × Word) := s.bus.map fun c => (c.type, c.addr)

/-- The words of the spec's memory M0. -/
def m0 : List (Word × Word) := [(0x1000, 0x44332211), (0x1004, 0x88776655)]

/-! ## Well-formedness: a term that each check refuses -/

theorem test_wf_refuses_ldr_post_w : Instr.wf (.ldr .al false true true 1 2 (.imm 4)) = false := by decide
theorem test_wf_refuses_ldrb_post_w : Instr.wf (.ldrb .al false true true 1 2 (.imm 4)) = false := by decide
theorem test_wf_refuses_str_post_w : Instr.wf (.str .al false true true 1 2 (.imm 4)) = false := by decide
theorem test_wf_refuses_strb_post_w : Instr.wf (.strb .al false true true 1 2 (.imm 4)) = false := by decide
theorem test_wf_refuses_not_defined_a_is_multiply : Instr.wf (.notDefinedA .al 0x0000090) = false := by decide
theorem test_wf_refuses_not_defined_a_is_swap : Instr.wf (.notDefinedA .al 0x1000090) = false := by decide
theorem test_wf_refuses_not_defined_a_outside : Instr.wf (.notDefinedA .al 0x0000010) = false := by decide
theorem test_wf_refuses_not_defined_b_is_mrs : Instr.wf (.notDefinedB .al 0x10F0000) = false := by decide
theorem test_wf_refuses_not_defined_b_is_msr : Instr.wf (.notDefinedB .al 0x129F000) = false := by decide
theorem test_wf_refuses_not_defined_b_is_cmp : Instr.wf (.notDefinedB .al 0x1500000) = false := by decide

/-! ## Decoding: words written out from the encodings -/

theorem test_decode_b : decodeWord 0xEA000002 = .b .al 2 := by decide
theorem test_decode_bl : decodeWord 0xEB000002 = .bl .al 2 := by decide
theorem test_decode_swi : decodeWord 0xEF123456 = .swi .al 0x123456 := by decide
theorem test_decode_cdp : decodeWord 0x0E521243 = .cdp .eq 5 2 1 2 2 3 := by decide
theorem test_decode_mrc : decodeWord 0xEEB53216 = .mrc .al 5 5 3 2 0 6 := by decide
theorem test_decode_mcr : decodeWord 0xEE064610 = .mcr .al 0 6 4 6 0 0 := by decide
theorem test_decode_ldc : decodeWord 0xED9F2102 = .ldc .al true true false false 15 2 1 2 := by decide
theorem test_decode_stc : decodeWord 0x0DE53206 = .stc .eq true true true true 5 3 2 6 := by decide
theorem test_decode_ldm : decodeWord 0xE8BD0007 = .ldm .al false true false true 13 7 := by decide
theorem test_decode_stm : decodeWord 0xE94D6000 = .stm .al true false true false 13 0x6000 := by decide
theorem test_decode_undefined : decodeWord 0xE6000010 = .undefined .al 0x00000 0 := by decide
theorem test_decode_ldrt : decodeWord 0xE4B21004 = .ldrt .al true 2 1 (.imm 4) := by decide
theorem test_decode_ldrbt : decodeWord 0xE4F21004 = .ldrbt .al true 2 1 (.imm 4) := by decide
theorem test_decode_strt : decodeWord 0xE4A21004 = .strt .al true 2 1 (.imm 4) := by decide
theorem test_decode_strbt : decodeWord 0xE4E21004 = .strbt .al true 2 1 (.imm 4) := by decide
theorem test_decode_ldr : decodeWord 0xE61210A3 = .ldr .al false false false 2 1 (.reg 3 .lsr 1) := by decide
theorem test_decode_ldrb : decodeWord 0xE5D21003 = .ldrb .al true true false 2 1 (.imm 3) := by decide
theorem test_decode_str : decodeWord 0xE7A21004 = .str .al true true true 2 1 (.reg 4 .lsl 0) := by decide
theorem test_decode_strb : decodeWord 0xE5C21001 = .strb .al true true false 2 1 (.imm 1) := by decide
theorem test_decode_mul : decodeWord 0xE0110392 = .mul .al true 1 0 3 2 := by decide
theorem test_decode_mla : decodeWord 0x00314392 = .mla .eq true 1 4 3 2 := by decide
theorem test_decode_swp : decodeWord 0xE1020091 = .swp .al 2 0 1 := by decide
theorem test_decode_swpb : decodeWord 0xE1442093 = .swpb .al 4 2 3 := by decide
theorem test_decode_notdefineda : decodeWord 0xE1000190 = .notDefinedA .al 0x1000190 := by decide
theorem test_decode_mrs : decodeWord 0xE14F0000 = .mrs .al true 0 := by decide
theorem test_decode_msrregall : decodeWord 0xE129F000 = .msrRegAll .al false 0 := by decide
theorem test_decode_msrregflg : decodeWord 0xE168F000 = .msrRegFlg .al true 0 := by decide
theorem test_decode_msrimmflg : decodeWord 0xE328F20A = .msrImmFlg .al false 2 0x0A := by decide
theorem test_decode_notdefinedb : decodeWord 0xE329F20A = .notDefinedB .al 0x329F20A := by decide
theorem test_decode_and : decodeWord 0xE21104FF = .and .al true 1 0 (.imm 4 0xFF) := by decide
theorem test_decode_eor : decodeWord 0xE0310001 = .eor .al true 1 0 (.shiftImm 1 .lsl 0) := by decide
theorem test_decode_sub : decodeWord 0xE0454237 = .sub .al false 5 4 (.shiftReg 7 .lsr 2) := by decide
theorem test_decode_rsb : decodeWord 0xE2710000 = .rsb .al true 1 0 (.imm 0 0) := by decide
theorem test_decode_add : decodeWord 0xE08FF100 = .add .al false 15 15 (.shiftImm 0 .lsl 2) := by decide
theorem test_decode_adc : decodeWord 0xE2B10000 = .adc .al true 1 0 (.imm 0 0) := by decide
theorem test_decode_sbc : decodeWord 0xE0D10002 = .sbc .al true 1 0 (.shiftImm 2 .lsl 0) := by decide
theorem test_decode_rsc : decodeWord 0xE2E10005 = .rsc .al false 1 0 (.imm 0 5) := by decide
theorem test_decode_tst : decodeWord 0xE11100A2 = .tst .al 1 0 (.shiftImm 2 .lsr 1) := by decide
theorem test_decode_teq : decodeWord 0xE33FF000 = .teq .al 15 15 (.imm 0 0) := by decide
theorem test_decode_cmp : decodeWord 0xE1510002 = .cmp .al 1 0 (.shiftImm 2 .lsl 0) := by decide
theorem test_decode_cmn : decodeWord 0xE3710001 = .cmn .al 1 0 (.imm 0 1) := by decide
theorem test_decode_orr : decodeWord 0xE1910002 = .orr .al true 1 0 (.shiftImm 2 .lsl 0) := by decide
theorem test_decode_mov : decodeWord 0xE1B00271 = .mov .al true 0 0 (.shiftReg 1 .ror 2) := by decide
theorem test_decode_bic : decodeWord 0xE3C100FF = .bic .al false 1 0 (.imm 0 0xFF) := by decide
theorem test_decode_mvn : decodeWord 0xE1F00061 = .mvn .al true 0 0 (.shiftImm 1 .ror 0) := by decide

theorem test_decode_bytes : decode [0xFE, 0xFF, 0xFF, 0xEA, 0x01] = .ok (.b .al 0xFFFFFE, [0x01]) := by rfl
theorem test_decode_too_few : decode [0xFE, 0xFF, 0xFF] = .error .tooFewBytes := by rfl
theorem test_decode_table_word : decodeTableWord 32 0xE0000090 = some (.mul .al false 0 0 0 0) := by decide

/-! ## Single steps -/

/-- T10. -/
theorem test_mov_nv :
    view (stepWord 0xF3A00001 (start 0xF0000010 [] [])) [.low 0] = ([0], 0xF0000010, 0x8004) := by decide
/-- T20. -/
theorem test_b_forward :
    view (stepWord 0xEA000002 (start 0xD3 [(.r14 .svc, 0x1234)] [])) [.r14 .svc] = ([0x1234], 0xD3, 0x8010) := by decide
/-- T25. -/
theorem test_b_backward :
    view (stepWord 0xEA800000 (start 0xD3 [] [])) [] = ([], 0xD3, 0xFE008008) := by decide
/-- T28. -/
theorem test_bl_user :
    view (stepWord 0xEB000002 (start 0x10 [] [])) [.r14 .usr] = ([0x8004], 0x10, 0x8010) := by decide
/-- T40. -/
theorem test_and :
    view (stepWord 0xE0010002 (start 0xD3 [(.low 1, 0xFF00FF00), (.low 2, 0x0FF00FF0)] [])) [.low 0] = ([0x0F000F00], 0xD3, 0x8004) := by decide
/-- T41. -/
theorem test_eors :
    view (stepWord 0xE0310001 (start 0x200000D3 [(.low 0, 7), (.low 1, 0x1234)] [])) [.low 0] = ([0], 0x600000D3, 0x8004) := by decide
/-- T44. -/
theorem test_subs :
    view (stepWord 0xE2510001 (start 0xD3 [(.low 1, 0x80000000)] [])) [.low 0] = ([0x7FFFFFFF], 0x300000D3, 0x8004) := by decide
/-- T47. -/
theorem test_rsbs :
    view (stepWord 0xE2710000 (start 0xD3 [(.low 1, 0x80000000)] [])) [.low 0] = ([0x80000000], 0x900000D3, 0x8004) := by decide
/-- T50. -/
theorem test_adds :
    view (stepWord 0xE0910002 (start 0xD3 [(.low 1, 0x80000000), (.low 2, 0x80000000)] [])) [.low 0] = ([0], 0x700000D3, 0x8004) := by decide
/-- T53. -/
theorem test_adcs :
    view (stepWord 0xE0B10002 (start 0x200000D3 [(.low 1, 0x7FFFFFFF)] [])) [.low 0] = ([0x80000000], 0x900000D3, 0x8004) := by decide
/-- T57. -/
theorem test_sbcs :
    view (stepWord 0xE0D10002 (start 0xD3 [(.low 2, 0xFFFFFFFF)] [])) [.low 0] = ([0], 0x400000D3, 0x8004) := by decide
/-- T59. -/
theorem test_rscs :
    view (stepWord 0xE2F10005 (start 0xD3 [(.low 1, 3)] [])) [.low 0] = ([1], 0x200000D3, 0x8004) := by decide
/-- T61. -/
theorem test_tst :
    view (stepWord 0xE11100A2 (start 0xD3 [(.low 1, 0xFFFFFFFF), (.low 2, 0x80000001)] [])) [.low 0] = ([0], 0x200000D3, 0x8004) := by decide
/-- T62. -/
theorem test_teq :
    view (stepWord 0xE1310002 (start 0x300000D3 [(.low 1, 0x1234), (.low 2, 0x1234)] [])) [.low 0] = ([0], 0x700000D3, 0x8004) := by decide
/-- T66. -/
theorem test_cmp :
    view (stepWord 0xE1510002 (start 0xD3 [(.low 1, 0x7FFFFFFF), (.low 2, 0xFFFFFFFF)] [])) [.low 0] = ([0], 0x900000D3, 0x8004) := by decide
/-- T67. -/
theorem test_cmn :
    view (stepWord 0xE3710001 (start 0xD3 [(.low 1, 0xFFFFFFFF)] [])) [.low 0] = ([0], 0x600000D3, 0x8004) := by decide
/-- T68. -/
theorem test_orrs :
    view (stepWord 0xE1910002 (start 0x100000D3 [(.low 1, 0x80000000), (.low 2, 1)] [])) [.low 0] = ([0x80000001], 0x900000D3, 0x8004) := by decide
/-- T89. -/
theorem test_movs_rrx :
    view (stepWord 0xE1B00061 (start 0x200000D3 [(.low 1, 2)] [])) [.low 0] = ([0x80000001], 0x800000D3, 0x8004) := by decide
/-- T117. -/
theorem test_movs_return :
    view (stepWord 0xE1B0F00E ({ (start 0xD3 [(.r14 .svc, 0x9000), (.r13 .usr, 0x222)] []) with spsrs := { State.reset.spsrs with svc := 0x60000010 } })) [.r13 .usr] = ([0x222], 0x60000010, 0x9000) := by decide
/-- T72. -/
theorem test_bics :
    view (stepWord 0xE1D10002 (start 0x200000D3 [(.low 1, 0xFF), (.low 2, 0xFF)] [])) [.low 0] = ([0], 0x600000D3, 0x8004) := by decide
/-- T74. -/
theorem test_mvns :
    view (stepWord 0xE1F00001 (start 0xD3 [(.low 0, 9), (.low 1, 0xFFFFFFFF)] [])) [.low 0] = ([0], 0x400000D3, 0x8004) := by decide
/-- T130. -/
theorem test_mrs_cpsr :
    view (stepWord 0xE10F0000 (start 0x60000010 [] [])) [.low 0] = ([0x60000010], 0x60000010, 0x8004) := by decide
/-- T133. -/
theorem test_msr_cpsr_user :
    view (stepWord 0xE129F000 (start 0x10 [(.low 0, 0xF00000D3)] [])) [] = ([], 0xF0000010, 0x8004) := by decide
/-- T135. -/
theorem test_msr_cpsr_reserved :
    view (stepWord 0xE129F000 (start 0xD3 [(.low 0, 0x0FFFFF33)] [])) [] = ([], 0x13, 0x8004) := by decide
/-- T136. -/
theorem test_msr_cpsr_flg :
    view (stepWord 0xE128F000 (start 0xD3 [(.low 0, 0x5FFFFF1F)] [])) [] = ([], 0x500000D3, 0x8004) := by decide
/-- T137. -/
theorem test_msr_imm_flg :
    view (stepWord 0xE328F20A (start 0x50000010 [] [])) [] = ([], 0xA0000010, 0x8004) := by decide
/-- T150. -/
theorem test_mul :
    view (stepWord 0xE0010392 (start 0xD3 [(.low 2, 0xFFFFFFF6), (.low 3, 0x14)] [])) [.low 1] = ([0xFFFFFF38], 0xD3, 0x8004) := by decide
/-- T157. -/
theorem test_mul_rd_is_rm :
    view (stepWord 0xE0010291 (start 0xD3 [(.low 1, 6), (.low 2, 7)] [])) [.low 1] = ([0x2A], 0xD3, 0x8004) := by decide
/-- T154. -/
theorem test_mla :
    view (stepWord 0xE0214392 (start 0xD3 [(.low 2, 0xFFFFFFFF), (.low 3, 0xFFFFFFFF), (.low 4, 2)] [])) [.low 1] = ([3], 0xD3, 0x8004) := by decide
/-- T176. -/
theorem test_ldr_unaligned :
    view (stepWord 0xE5921000 (start 0xD3 [(.low 2, 0x1001)] m0)) [.low 1, .low 2] = ([0x11443322, 0x1001], 0xD3, 0x8004) := by decide
/-- T200. -/
theorem test_ldr_aborted :
    view (runWord 0xE5B21004 (aborting (start 0x60000010 [(.low 1, 0x77), (.low 2, 0x1000)] m0) 0x1004 0x1007)) [.low 1, .low 2, .r14 .abt] = ([0x77, 0x1004, 0x8008], 0x60000097, 0x10) := by decide
/-- T184. -/
theorem test_ldrb_big_endian :
    view (stepWord 0xE5D21003 ({ (start 0xD3 [(.low 2, 0x1000)] m0) with inputs := { Inputs.idle with BIGEND := true } })) [.low 1] = ([0x11], 0xD3, 0x8004) := by decide
/-- T195. -/
theorem test_str_write_back :
    (fun t => (view t [.low 2], t.mem.word 0x1004)) (stepWord 0xE5A22004 (start 0xD3 [(.low 2, 0x1000)] m0)) =
      (([0x1004], 0xD3, 0x8004), 0x1000) := by decide
/-- T189. -/
theorem test_strb :
    (fun t => (view t [.low 2], t.mem.word 0x1000)) (stepWord 0xE5C21001 (start 0xD3 [(.low 1, 0xAABBCCDD), (.low 2, 0x1000)] m0)) =
      (([0x1000], 0xD3, 0x8004), 0x4433DD11) := by decide
/-- T199. -/
theorem test_ldrt :
    view (stepWord 0xE4B21004 (start 0xD3 [(.low 2, 0x1000)] m0)) [.low 1, .low 2] = ([0x44332211, 0x1004], 0xD3, 0x8004) := by decide
/-- R267 and R271 (a) on memory M0, Rd = Rn. -/
theorem test_ldrbt :
    view (stepWord 0xE4F22001 (start 0xD3 [(.low 2, 0x1007)] m0)) [.low 2] = ([0x88], 0xD3, 0x8004) := by decide
/-- R269 on memory M0. -/
theorem test_strt :
    (fun t => (view t [.low 2], t.mem.word 0x1000)) (stepWord 0xE4A21004 (start 0xD3 [(.low 1, 0xAABBCCDD), (.low 2, 0x1000)] m0)) =
      (([0x1004], 0xD3, 0x8004), 0xAABBCCDD) := by decide
/-- R270 on memory M0. -/
theorem test_strbt :
    (fun t => (view t [.low 2], t.mem.word 0x1000)) (stepWord 0xE4E21004 (start 0xD3 [(.low 1, 0xAABBCCDD), (.low 2, 0x1003)] m0)) =
      (([0x1007], 0xD3, 0x8004), 0xDD332211) := by decide
/-- T225. -/
theorem test_ldm_base_in_list :
    view (stepWord 0xE8B10006 (start 0xD3 [(.low 1, 0x1000)] [(0x1000, 0x100), (0x1004, 0x104)])) [.low 1, .low 2] = ([0x100, 0x104], 0xD3, 0x8004) := by decide
/-- T238. -/
theorem test_ldm_aborted :
    view (runWord 0xE8910006 (aborting (start 0x10 [(.low 1, 0x1000), (.low 2, 0x22)] [(0x1000, 0x100), (0x1004, 0x104)]) 0x1004 0x1007)) [.low 1, .low 2, .r14 .abt] = ([0x1000, 0x22, 0x8008], 0x97, 0x10) := by decide
/-- T224. -/
theorem test_stm_base_second :
    (fun t => (view t [.low 2], t.mem.word 0xFFC)) (stepWord 0xE9220006 (start 0xD3 [(.low 1, 0x11), (.low 2, 0x1000)] [])) =
      (([0xFF8], 0xD3, 0x8004), 0xFF8) := by decide
/-- T230. -/
theorem test_stm_user_bank :
    (fun t => (view t [.r13 .svc], t.mem.word 0x1FF8)) (stepWord 0xE94D6000 (start 0xD3 [(.r13 .svc, 0x2000), (.r13 .usr, 0x7000), (.r14 .usr, 0x7004)] [])) =
      (([0x2000], 0xD3, 0x8004), 0x7000) := by decide
/-- T255, and the first example of R327, SWP R0,R1,[R2], at an unaligned address. -/
theorem test_swp_unaligned :
    (fun t => (view t [.low 0], t.mem.word 0x1000)) (stepWord 0xE1020091 (start 0xD3 [(.low 1, 0xAABBCCDD), (.low 2, 0x1001)] m0)) =
      (([0x11443322], 0xD3, 0x8004), 0xAABBCCDD) := by decide
/-- T251, and the second example of R327, SWPB R2,R3,[R4]. -/
theorem test_swpb :
    (fun t => (view t [.low 2], t.mem.word 0x1000)) (stepWord 0xE1442093 (start 0xD3 [(.low 3, 0xAABBCCDD), (.low 4, 0x1001)] m0)) =
      (([0x22], 0xD3, 0x8004), 0x4433DD11) := by decide
/-- T260. -/
theorem test_swi :
    view (stepWord 0xEF123456 (start 0x20000010 [] [])) [.r14 .svc] = ([0x8004], 0x20000093, 8) := by decide
/-- T265. -/
theorem test_undefined :
    view (stepWord 0xE7FFFFFF (start 0x50 [] [])) [.r14 .und] = ([0x8004], 0xDB, 4) := by decide
/-- T270. -/
theorem test_cdp_absent :
    view (stepWord 0xEEA21103 (start 0x10 [] [])) [.r14 .und] = ([0x8004], 0x9B, 4) := by decide
/-- T275. -/
theorem test_mrc :
    view (stepWord 0xEEB53216 ({ (start 0x10 [] []) with coprocs := [{ number := 2, declines := [], answers := [.accept 0xCAFE0001 []], seen := [] }] })) [.low 3] = ([0xCAFE0001], 0x10, 0x8004) := by decide
/-- T276. -/
theorem test_mrc_flags :
    view (stepWord 0xEE15F210 ({ (start 0x60000010 [] []) with coprocs := [{ number := 2, declines := [], answers := [.accept 0x9FFFFFFF []], seen := [] }] })) [] = ([], 0x90000010, 0x8004) := by decide
/-- T279. -/
theorem test_stc :
    (fun t => (view t [.low 5], t.mem.word 0x101C)) (stepWord 0x0DE53206 ({ (start 0x40000010 [(.low 5, 0x1000)] []) with coprocs := [{ number := 2, declines := [], answers := [.accept 0x33 [0x44]], seen := [] }] })) =
      (([0x1018], 0x40000010, 0x8004), 0x44) := by decide

/-- T274: the coprocessor is given the word and the mode, and is told of the CDP. -/
theorem test_cdp : (stepWord 0xEEA21103 { start 0x10 [] [] with
    coprocs := [{ number := 1, declines := [], answers := [.accept 0 []], seen := [] }] }).coprocs =
    [{ number := 1, declines := [], answers := [], seen := [.offered 0xEEA21103 false 0b01111, .cdp 0xEEA21103] }] := by
  decide

/-- R348: a coprocessor that declines the word in User mode. -/
theorem test_cdp_privileged :
    let rule : CpRule := { mask := 0, value := 0, nTRANS := some false, nM := none }
    (fun t => (t.pc, t.coprocs)) (stepWord 0xEEA21103 { start 0x10 [] [] with
      coprocs := [{ number := 1, declines := [rule], answers := [.accept 0 []], seen := [] }] }) =
    (0x4, [{ number := 1, declines := [rule], answers := [.accept 0 []],
             seen := [.offered 0xEEA21103 false 0b01111] }]) := by decide

/-- R344 and R106: a busy-wait broken off by an IRQ: the wait at the address plus 8, the entry's own fetch there, and the
two fetches at the vector. -/
theorem test_busy_wait : (fun t => (trace t, t.gpr (.r14 .irq), t.coprocs.map Coproc.seen)) (stepWord 0xEEA21103
      { start 0x10 [] [] with
        inputs := { Inputs.idle with nIRQ := false }
        coprocs := [{ number := 1, declines := [], answers := [.busy], seen := [] }] }) =
    ([(.n, 0x8000), (.s, 0x8004), (.s, 0x8008), (.i, 0x8008), (.s, 0x8008), (.n, 0x18), (.s, 0x1C)], 0x8004,
      [[.offered 0xEEA21103 false 0b01111, .brokenOff]]) := by decide

/-- T278: MCR of R15 gives the address plus 12. -/
theorem test_mcr_pc : (stepWord 0xEE06F610 { start 0x10 [] [] with
    coprocs := [{ number := 6, declines := [], answers := [.accept 0 []], seen := [] }] }).coprocs =
    [{ number := 6, declines := [], answers := [],
       seen := [.offered 0xEE06F610 false 0b01111, .mcr 0xEE06F610 0x800C] }] := by decide

/-- T283: LDC of two words, the second aborted, with write-back. -/
theorem test_ldc_aborted : (fun t => (view t [.low 5, .r14 .abt], t.coprocs.map Coproc.seen)) (runWord 0xEDF52101
      (aborting { start 0x10 [(.low 5, 0xFFC)] m0 with
        coprocs := [{ number := 1, declines := [], answers := [.accept 0 [0]], seen := [] }] } 0x1004 0x1007)) =
    (([0x1000, 0x8008], 0x97, 0x10),
      [[.offered 0xEDF52101 false 0b01111, .load 0xEDF52101 0 (some 0x44332211), .load 0xEDF52101 1 none]]) := by
  decide

/-- T139: MSR to the whole SPSR. -/
theorem test_msr_spsr : (stepWord 0xE169F000 (start 0xD3 [(.low 0, 0x60000010)] [])).spsrs.svc = 0x60000010 := by decide

/-- T120, T124, T132, T142, T159, T197, T198, T233 to T236, T257 and B1: the refusals. -/
theorem test_refusals :
    refusalOf 0xE090F001 (start 0x10 [] []) = some .returnInUserMode ∧
    refusalOf 0xE1A00F11 (start 0xD3 [] []) = some .pcAsShiftAmount ∧
    refusalOf 0xE14F0000 (start 0x10 [] []) = some .spsrInUserMode ∧
    refusalOf 0xE129F000 (start 0xD3 [] []) = some .illegalMode ∧
    refusalOf 0xE00F0392 (start 0xD3 [] []) = some .pcInMultiply ∧
    refusalOf 0xE5BF1004 (start 0xD3 [] []) = some .pcWriteBack ∧
    refusalOf 0xE792100F (start 0xD3 [] []) = some .pcAsOffset ∧
    refusalOf 0xE8E00006 (start 0xD3 [] []) = some .userBankWriteBack ∧
    refusalOf 0xE8D00002 (start 0x10 [] []) = some .blockSInUserMode ∧
    refusalOf 0xE89F0001 (start 0xD3 [] []) = some .pcAsBlockBase ∧
    refusalOf 0xE8900000 (start 0xD3 [] []) = some .emptyRegisterList ∧
    refusalOf 0xE10F0091 (start 0xD3 [] []) = some .pcInSwap ∧
    refusalOf 0xE00000D0 (start 0xD3 [] []) = some .notDefinedWord ∧
    refusalOf 0xE329F20A (start 0xD3 [] []) = some .notDefinedWord := by decide

/-- X1: an IRQ at the boundary after MOV R0,#1 in User mode. -/
theorem test_irq : (fun t => (view t [.low 0, .r14 .irq], t.spsrs.irq)) (stepWord 0xE3A00001
      { start 0x60000010 [] [] with inputs := { Inputs.idle with nIRQ := false } }) =
    (([1, 0x8008], 0x60000092, 0x18), 0x60000010) := by decide

/-- X8: a data abort and an FIQ at once. -/
theorem test_abort_and_fiq : (fun t => (view t [.r14 .abt, .r14 .fiq], t.spsrs.abt, t.spsrs.fiq)) (runWord 0xE5921000
      { start 0x10 [(.low 2, 0x1000)] [] with
        inputs := { Inputs.idle with nFIQ := false, memoryRules := [dataRule 0x1000 0x1003 .abort] } }) =
    (([0x8008, 0x14], 0xD1, 0x1C), 0x10, 0x97) := by decide

/-- R393: nRESET comes before the data abort: the vector is not entered, and the fetches go on. -/
theorem test_reset_before_abort : (runWord 0xE5921000
      { start 0x10 [(.low 2, 0x1000)] [] with
        inputs := { Inputs.idle with memoryRules := [dataRule 0x1000 0x1003 .abort] }
        schedule := [pins { Inputs.idle with nRESET := false }] }).pc = 0x800C := by decide

/-- The third example of R327: SWPEQ R0,R0,[R1] exchanges R0 and the word at R1 when Z is set, and only goes on else. -/
theorem test_swap_exchanges : [0x400000D3, 0xD3].map (fun cpsr => (fun t => (view t [.low 0], t.mem.word 0x1000))
      (stepWord 0x01010090 (start cpsr [(.low 0, 0xAABBCCDD), (.low 1, 0x1000)] m0))) =
    [(([0x44332211], 0x400000D3, 0x8004), 0xAABBCCDD), (([0xAABBCCDD], 0xD3, 0x8004), 0x44332211)] := by decide

/-- R106, R337: the cycles of an aborted LDR and of the data abort's entry. -/
theorem test_abort_cycles : trace (runWord 0xE5921000
      (aborting (start 0x10 [(.low 2, 0x1000)] m0) 0x1000 0x1003)) =
    [(.n, 0x8008), (.n, 0x1000), (.i, 0x800C), (.n, 0x8008), (.n, 0x10), (.s, 0x14)] := by decide

/-- U23: the bytes an instruction stores: the byte of a byte write in its byte order, nothing of an aborted write, and
nothing of a swap whose read was aborted. -/
theorem test_written_keys :
    let s := start 0xD3 [] []
    let aborting := { s with inputs := { Inputs.idle with memoryRules := [dataRule 0x1000 0x1003 .abort] } }
    let swapping := fun u : State => [readCycle .n 0x1000 (u.lockedAttrs false true),
      writeCycle .n 0x1000 (u.lockedAttrs true true) 0]
    State.writtenKeys false [writeCycle .n 0x1001 (s.dataAttrs true true) 0] s = [0x1001] ∧
    State.writtenKeys false [writeCycle .n 0x1001 (s.dataAttrs true true) 0] aborting = [] ∧
    State.writtenKeys false (swapping s) s = [0x1000] ∧
    State.writtenKeys false (swapping s)
      { aborting with moments := [⟨true, aborting.inputs.memoryRules, []⟩, ⟨true, [], []⟩] } = [] := by decide

/-- U1: PROG32 LOW at a boundary, though the event after the interrupt would take it HIGH again. -/
theorem test_configuration_at_boundary : (match step { start 0x10 [] [(0x8000, 0xE1A00000)] with
      schedule := [pins { Inputs.idle with nIRQ := false, PROG32 := false }, pins Inputs.idle] } with
    | .refused r => some r
    | .next _ | .fault _ => none) = some .configuration26Bit := by decide

/-- U35: an illegal mode is refused with nRESET LOW too. -/
theorem test_illegal_mode_in_reset : (match step { start 0x1F [] [] with inputs := { Inputs.idle with nRESET := false } } with
    | .refused r => some r
    | .next _ | .fault _ => none) = some .illegalMode := by decide

/-- R10, R69: BIGEND changes between the two cycles of SWPB R2,R3,[R4] on memory M0. -/
theorem test_swpb_byte_order : viewOf (Machine.exec (.swpb .al 4 2 3)
      { start 0xD3 [(.low 3, 0xAABBCCDD), (.low 4, 0x1001)] m0 with moments := [moment false [], moment true []] })
      [.low 2] 0x1000 = ([0x22], 0x8004, 0x44DD2211) := by decide

/-- R72, R322: another master's write before the write cycle of SWP R2,R3,[R4] waits until LOCK goes LOW. -/
theorem test_swp_locked : viewOf (Machine.exec (.swp .al 4 2 3)
      { start 0xD3 [(.low 3, 0xAABBCCDD), (.low 4, 0x1000)] m0 with
        moments := [moment false [], moment false [(0x1000, 0x99)]] }) [.low 2] 0x1000 =
    ([0x44332211], 0x8004, 0xAABBCC99) := by decide

/-- R72: another master's write between the two cycles of LDM R1,{R2,R3} is read. -/
theorem test_ldm_other_master : viewOf (Machine.exec (.ldm .al false true false false 1 0x000C)
      { start 0xD3 [(.low 1, 0x1000)] m0 with moments := [moment false [], moment false [(0x1004, 0x99)]] })
      [.low 2, .low 3] 0x1004 = ([0x44332211, 0x88776699], 0x8004, 0x88776699) := by decide

/-- R13, R60: a device's word, and a read-only memory. -/
theorem test_device : (fun t => view t [.low 1]) (runWord 0xE5921000 { start 0xD3 [(.low 2, 0x1001)] m0 with
      inputs := { Inputs.idle with memoryRules := [dataRule 0x1000 0x1003 (.device 0x12345678)] } }) =
    ([0x78123456], 0xD3, 0x8004) := by decide

theorem test_read_only : (runWord 0xE5821000 { start 0xD3 [(.low 1, 0x55), (.low 2, 0x1000)] m0 with
      inputs := { Inputs.idle with memoryRules := [dataRule 0x1000 0x1003 .readOnly] } }).mem.word 0x1000 =
    0x44332211 := by decide

/-- X6: an aborted prefetch, when it comes to execute. -/
theorem test_prefetch_abort : (match step { start 0x10 [] [] with pipe := [{ word := 0xE3A00001, aborted := true }] } with
    | .next t => view t [.r14 .abt]
    | .fault _ | .refused _ => ([], 0, 0)) = ([0x8004], 0x97, 0x0C) := by decide

/-- R106 and R446: the cycles of a taken branch (2S + 1N), of LDR (1S + 1N + 1I) and of SWP (1S + 2N + 1I). -/
theorem test_branch_cycles : trace (runWord 0xEA000002 { start 0xD3 [] [] with seq := some 0x8008 }) =
    [(.s, 0x8008), (.n, 0x8010), (.s, 0x8014)] := by decide
theorem test_ldr_cycles : trace (runWord 0xE5921000 { start 0xD3 [(.low 2, 0x1000)] m0 with seq := some 0x8008 }) =
    [(.s, 0x8008), (.n, 0x1000), (.i, 0x800C)] := by decide
theorem test_swp_cycles : (fun t => (trace t, t.bus.map fun c => c.attrs.LOCK)) (runWord 0xE1020091
      { start 0xD3 [(.low 2, 0x1000)] m0 with seq := some 0x8008 }) =
    ([(.s, 0x8008), (.n, 0x1000), (.n, 0x1000), (.i, 0x800C)], [false, true, true, false]) := by decide

/-- R105: the fetch after a busy-wait, at another address than its internal cycle, is an N-cycle. -/
theorem test_fetch_after_wait : (fun t => (t.bus.map fun c => c.type, t.seq)) (next { start 0xD3 [] [] with
      pipe := [⟨0xEEA21103, false⟩, ⟨0, false⟩, ⟨0, false⟩], busyWait := true, seq := some 0x8008,
      coprocs := [{ number := 1, declines := [], answers := [.accept 0 []], seen := [] }] }) = ([], some 0x8008) ∧
    ({ start 0xD3 [] [] with pc := 0x8004, seq := some 0x8008 }.fetchCycle true 0x800C).type = .n := by decide

/-- R106, R335: nCPI is LOW in the first cycle of the undefined instruction, and HIGH in its entry. -/
theorem test_undefined_nCPI : (runWord 0xE7FFFFFF (start 0x50 [] [])).bus.map BusCycle.nCPI = [false, true, true] := by
  decide

/-- R253: the size of the multiplier against the cycles of a multiply. -/
theorem test_multiply_cycles : [0, 1, 2, 7, 8, 31, 32, 0x1FFFFFFF, 0x20000000, 0xFFFFFFFF].map multiplyCycles =
    [1, 1, 2, 2, 3, 3, 4, 15, 16, 16] := by decide

/-! ## Witnesses: states and operands that meet the hypotheses of the statements -/

/-- Supervisor mode right after reset, and User mode with the same registers. -/
def supervisor : State := State.reset
def user : State := { State.reset with cpsr := 0x10 }

/-- Supervisor mode with a legal SPSR. -/
def returning : State := { State.reset with spsrs := { State.reset.spsrs with svc := 0x10 } }

/-- A register file with a base in R1 and R14, and memory M0. -/
def based : State := start 0xD3 [(.low 1, 0x1000), (.r14 .svc, 0x1000)] m0

/-- Every data cycle aborts. -/
def failing : State := aborting based 0 0xFFFFFFFF

/-- Coprocessor 3 with one answer. -/
def answering (a : CpAnswer) : State :=
  { based with coprocs := [{ number := 3, declines := [], answers := [a], seen := [] }] }

theorem witness_DecodeOfEncode :
    Instr.wf (.ldr .al true true true 15 15 (.imm 0xFFF)) = true ∧ Instr.wf (.ldr .al false true false 0 0 (.imm 0)) = true ∧
    Instr.wf (.notDefinedA .nv 0x00000D0) = true ∧ Instr.wf (.notDefinedB .eq 0x1000000) = true := by decide

/-- Each way a read gives the register: no shadow, User mode, a low number, and a number up to 12 outside FIQ mode. -/
theorem witness_RegisterReads :
    supervisor.ldmShadow = false ∧ phys .svc 14#4 = some (.r14 .svc) ∧ user.mode = .usr ∧
    (7#4 : RegNum).toNat ≤ 7 ∧ ((12#4 : RegNum).toNat ≤ 12 ∧ supervisor.mode ≠ .fiq) ∧ phys .svc 12#4 = some (.low 12) ∧
    (8 ≤ (8#4 : RegNum).toNat ∧ (8#4 : RegNum).toNat ≤ 12) ∧
    (14#4 : RegNum) ≠ 15#4 ∧ (supervisor.reg 14 0#32).extractLsb' 0 8 = 0#8 := by decide

/-- Rules for a device, a read-only memory and an abort, each named by its own address. -/
def mapped : State :=
  { based with inputs := { Inputs.idle with memoryRules :=
      [dataRule 0 3 (.device 5), dataRule 4 7 .readOnly, dataRule 8 0xFFFFFFFF .abort] } }

theorem witness_BusCycleEffect :
    based.moments = [] ∧ ({ based with moments := [moment true [(1, 2)]] } : State).moments = moment true [(1, 2)] :: [] ∧
    based.mem.wf = true ∧ (∀ w ∈ [((1, 2) : Host.Cell)], w.1 % 2 ^ 32 ≠ 0) ∧ based.noBusWrites = true ∧
    (∀ r ∈ based.inputs.memoryRules, r.applies 0 (based.dataAttrs false false) = false) ∧
    (∀ x ∈ [dataRule 0 3 (.device 5), dataRule 4 7 .readOnly], x.applies 8 (mapped.dataAttrs false false) = false) ∧
    (dataRule 8 0xFFFFFFFF .abort).applies 8 (mapped.dataAttrs false false) = true ∧
    mapped.reply 3 (mapped.dataAttrs false false) = some (.device 5) ∧
    mapped.reply 4 (mapped.dataAttrs true false) = some .readOnly ∧
    based.reply 0 (based.dataAttrs true false) = none := by decide

theorem witness_ByteOrder :
    based.mem.wf = true ∧ (0x1000#32).toNat % 4 = 0 ∧ (0#32).toNat % 4 = 0 ∧ (0xFFFFFFFC#32).toNat % 4 = 0 ∧
    (based.dataAttrs false false).nBW = true ∧ (based.dataAttrs false true).nBW = false ∧
    based.reply 0x1003 (based.dataAttrs false true) = none := by decide

theorem witness_FetchCycles :
    (let s : State := { user with pipe := [⟨0xEAFFFFFE, false⟩, ⟨0, true⟩] }
     s.pipe = [⟨0xEAFFFFFE, false⟩, ⟨0, true⟩]) ∧ supervisor.pipe = [] ∧ supervisor.seq = none := by decide

theorem witness_StepRunsInstruction :
    supervisor.running = true ∧ supervisor.pipe = [] ∧
    (let e := supervisor.cycle (supervisor.fetchCycle true supervisor.pc)
     e.aborts supervisor.pc supervisor.fetchAttrs = false ∧
     decodeWord (e.busWord supervisor.pc supervisor.fetchAttrs) = .and .eq false 0 0 (.shiftImm 0 .lsl 0)) ∧
    (let s : State := { user with pipe := [⟨0xEAFFFFFE, false⟩] }
     s.running = true ∧ (s.pipe.map fun slot => (slot.aborted, decodeWord slot.word)) = [(false, .b .al 0xFFFFFE)]) := by
  decide

/-- No request; both requests with I and F set; and an event that makes them. -/
theorem witness_BoundaryWithoutInterrupt :
    (supervisor.nextInputs.nRESET = true ∧ supervisor.nextInputs.nFIQ = true ∧ supervisor.nextInputs.nIRQ = true ∧
      supervisor.schedule = [] ∧ supervisor.moments = []) ∧
    (let s : State := { supervisor with schedule := [pins { Inputs.idle with nFIQ := false, nIRQ := false }] }
     s.nextInputs.nRESET = true ∧ psrF s.cpsr = true ∧ psrI s.cpsr = true ∧ s.noBusWrites = true ∧
     s.schedule = pins { Inputs.idle with nFIQ := false, nIRQ := false } :: []) := by decide

theorem witness_PrefetchAbort :
    (let s : State := { user with pipe := [⟨0xFFFFFFFF, true⟩] }
     s.running = true ∧ s.quiet = true ∧ s.pipe = [⟨0xFFFFFFFF, true⟩]) ∧
    (let s : State := { user with inputs := { Inputs.idle with
        memoryRules := [{ dataRule 0 3 .abort with nOPC := some false }] } }
     s.running = true ∧ s.quiet = true ∧ s.pipe = [] ∧ s.aborts s.pc s.fetchAttrs = true) := by decide

theorem witness_StepKeepsSound : supervisor.sound = true ∧ goesOn (Machine.step supervisor) = true := by decide

theorem witness_StepRefusals :
    ({ Inputs.idle with PROG32 := false } : Inputs).PROG32 = false ∧
    ({ Inputs.idle with DATA32 := false } : Inputs).DATA32 = false ∧
    (let s : State := { State.reset with cpsr := 0x1F }
     s.inputs.PROG32 = true ∧ s.inputs.DATA32 = true ∧ Mode.ofBits (psrMode s.cpsr) = none) ∧
    goesOn (Machine.step supervisor) = true := by decide

/-- A state held in reset. -/
def held : State := { user with inputs := { Inputs.idle with nRESET := false } }

theorem witness_HeldInReset :
    held.inputs.PROG32 = true ∧ held.inputs.DATA32 = true ∧ (Mode.ofBits (psrMode held.cpsr)).isSome = true ∧
    held.inputs.nRESET = false ∧ held.nextInputs.nRESET = false ∧ held.nextInputs.supported = true ∧
    held.soleMaster = true := by decide

theorem witness_ResetSequence :
    (let s : State := { held with schedule := [pins Inputs.idle] }
     s.inputs.PROG32 = true ∧ s.inputs.DATA32 = true ∧ (Mode.ofBits (psrMode s.cpsr)).isSome = true ∧
     s.inputs.nRESET = false ∧ s.nextInputs.nRESET = true ∧ s.nextInputs.supported = true ∧ s.soleMaster = true) := by decide

theorem witness_ResetGoesLow :
    (let s : State := { based with schedule := [pins held.inputs] }
     s.schedule = pins held.inputs :: [] ∧ (pins held.inputs).inputs.nRESET = false ∧ s.mem.wf = true) ∧
    (let c := writeCycle .n 0x1001 (based.dataAttrs true true) 0
     let s : State := { based with bus := [c], schedule := [pins held.inputs] }
     s.bus.drop based.bus.length = [c] ∧ c.attrs.nRW = true ∧ c.attrs.nOPC = true ∧ c.type ≠ .c ∧ c.attrs.nBW = false ∧
     (based.passing [c]).reply c.addr c.attrs = none ∧ 0x1000 ≠ laneKey (based.passing [c]).inputs.BIGEND c.addr ∧
     0x1001 = laneKey (based.passing [c]).inputs.BIGEND c.addr ∧ s.bus.getLast? = some c) := by decide

/-- Both requests, at pins that stand and at an event; the later event leaves nRESET HIGH. -/
theorem witness_FiqTaken :
    (let s : State := { user with inputs := { Inputs.idle with nFIQ := false, nIRQ := false } }
     s.nextInputs.supported = true ∧ s.nextInputs.nRESET = true ∧
     s.nextInputs.nFIQ = false ∧ psrF s.cpsr = false ∧ s.schedule[1]? = none) ∧
    (let s : State :=
      { user with schedule := [pins { Inputs.idle with nFIQ := false, nIRQ := false }, pins Inputs.idle] }
     s.nextInputs.supported = true ∧ s.nextInputs.nRESET = true ∧
     s.nextInputs.nFIQ = false ∧ psrF s.cpsr = false ∧
     s.schedule[1]? = some (pins Inputs.idle) ∧ (pins Inputs.idle).inputs.nRESET = true ∧ s.soleMaster = true) := by decide

theorem witness_IrqTaken :
    (let s : State := { user with schedule := [pins { Inputs.idle with nIRQ := false }, pins Inputs.idle] }
     s.nextInputs.supported = true ∧ s.nextInputs.nRESET = true ∧
     s.nextInputs.nFIQ = true ∧ s.nextInputs.nIRQ = false ∧ psrI s.cpsr = false ∧
     s.schedule[1]? = some (pins Inputs.idle) ∧ (pins Inputs.idle).inputs.nRESET = true ∧
     (pins Inputs.idle).inputs.nFIQ = true ∧ s.soleMaster = true) ∧
    (let s : State := { State.reset with cpsr := 0x50, inputs := { Inputs.idle with nFIQ := false, nIRQ := false } }
     s.nextInputs.supported = true ∧ s.nextInputs.nRESET = true ∧
     psrF s.cpsr = true ∧ s.nextInputs.nIRQ = false ∧ psrI s.cpsr = false ∧
     s.schedule[1]? = none) := by decide

theorem witness_AbortThenFiq :
    (let s : State := { user with schedule := [pins { Inputs.idle with nFIQ := false }] }
     s.nextInputs.supported = true ∧ s.nextInputs.nRESET = true ∧
     s.nextInputs.nFIQ = false ∧ psrF s.cpsr = false ∧ s.schedule[1]? = none) := by decide

theorem witness_ConditionFails :
    condPasses (Instr.cond (.swi .nv 0)) supervisor.flags = false ∧
    condPasses (Instr.cond (.notDefinedA .eq 0x00000D0)) supervisor.flags = false := by decide

theorem witness_BranchEffect :
    condPasses .al supervisor.flags = true ∧ supervisor.pc.toNat % 4 = 0 ∧
    (let s : State := { user with pc := 0xFFFFFFFC }
     condPasses .ne s.flags = true ∧ s.pc.toNat % 4 = 0) := by decide

/-- The three operand forms with the registers next to R15: LogicalOperations, Additions, Subtractions, Tests,
Comparisons and, without the destination, ResultToPc, ReturnByResult, ObsoleteForms. -/
theorem witness_data_processing :
    condPasses .al user.flags = true ∧ amountIsPc (.imm 15 0xFF) = false ∧ amountIsPc (.shiftImm 15 .ror 0) = false ∧
    amountIsPc (.shiftReg 15 .asr 14) = false ∧ (14#4 : RegNum) ≠ 15#4 ∧ (0#4 : RegNum) ≠ 15#4 := by decide

theorem witness_ReturnByResult :
    condPasses .al returning.flags = true ∧
    (returning.spsr? = some 0x10 ∧ (Mode.ofBits (psrMode 0x10#32)).isSome = true ∧ psrDefined 0x10#32 = true) ∧
    user.mode = .usr ∧
    (supervisor.spsr? = some 0 ∧ Mode.ofBits (psrMode 0#32) = none) := by decide

theorem witness_ObsoleteForms : condPasses .al returning.flags = true ∧ returning.spsr? = some 0x10 ∧
    (Mode.ofBits (psrMode 0x10#32)).isSome = true ∧ psrDefined 0x10#32 = true ∧ user.mode = .usr ∧
    supervisor.spsr? = some 0 := by decide

theorem witness_ShiftsByAmount :
    (0#5).toNat = 0 ∧ 1 ≤ (1#5).toNat ∧ 1 ≤ (31#5).toNat ∧ (31#5).toNat < 32 := by decide

theorem witness_ShiftsByRegister :
    (0#8).toNat = 0 ∧ (1 ≤ (1#8).toNat ∧ (1#8).toNat < 32) ∧ (1 ≤ (31#8).toNat ∧ (31#8).toNat < 32) ∧ (32#8).toNat = 32 ∧
    32 < (33#8).toNat ∧ 32 < (255#8).toNat := by decide

theorem witness_RotatedImmediate : (0#4 : BitVec 4) = 0#4 ∧ (1#4 : BitVec 4) ≠ 0#4 ∧ (15#4 : BitVec 4) ≠ 0#4 := by decide

theorem witness_ReadPsr : condPasses .al supervisor.flags = true ∧ (14#4 : RegNum) ≠ 15#4 ∧
    supervisor.spsr? = some 0 := by decide

theorem witness_WritePsr :
    condPasses .al user.flags = true ∧ (14#4 : RegNum) ≠ 15#4 ∧ user.mode = .usr ∧
    (let s := start 0xD3 [(.low 0, 0xF000001B)] []
     s.mode ≠ .usr ∧ (Mode.ofBits (psrMode (s.reg 0 0#32))).isSome = true) ∧
    (let s := start 0xD3 [(.low 0, 0x1F)] []
     s.mode ≠ .usr ∧ Mode.ofBits (psrMode (s.reg 0 0#32)) = none) := by decide

theorem witness_WritePsrFlags :
    condPasses .al supervisor.flags = true ∧ supervisor.spsr? = some 0 ∧
    (∃ rm, rm ≠ 15#4 ∧ (fun pd => Instr.msrRegFlg .al pd 14) = (fun pd => .msrRegFlg .al pd rm) ∧
      supervisor.reg 14 0#32 = supervisor.reg rm 0#32) ∧
    (∃ rot imm8, (fun pd => Instr.msrImmFlg .al pd 2 0x0A) = (fun pd => .msrImmFlg .al pd rot imm8) ∧
      (supervisor.operand2 (.imm 2 0x0A)).1 = (supervisor.operand2 (.imm rot imm8)).1) :=
  ⟨by decide, by decide, ⟨14, by decide, rfl, rfl⟩, ⟨2, 0x0A, rfl, rfl⟩⟩

theorem witness_OperandRefusals : condPasses .al user.flags = true ∧ user.mode = .usr ∧ (14#4 : RegNum) ≠ 15#4 := by
  decide

theorem witness_MultiplyEffect : condPasses .al user.flags = true ∧ (14#4 : RegNum) ≠ 15#4 ∧ (0#4 : RegNum) ≠ 15#4 := by
  decide

theorem witness_SingleAddresses : (14#4 : RegNum) ≠ 15#4 := by decide

/-- Pre-indexed without write-back from R15, and post-indexed from R14 to R14: LoadSingle, LoadPc. -/
theorem witness_LoadSingle :
    condPasses .al based.flags = true ∧ (14#4 : RegNum) ≠ 15#4 ∧ offsetUsesPc (.imm 0xFFF) = false ∧
    offsetUsesPc (.reg 14 .ror 0) = false ∧
    ((15#4 : RegNum) = 15#4 → (true : Bool) = true ∧ (false : Bool) = false) ∧
    (let a := based.singleAddress true true 15 (.imm 0xFFF)
     let attrs := based.transferAttrs false false false
     (based.passing [readCycle .n a attrs]).aborts a attrs = false) ∧
    (let a := based.singleAddress false false 14 (.reg 14 .ror 0)
     let attrs := based.transferAttrs true false true
     (based.passing [readCycle .n a attrs]).aborts a attrs = false) := by decide

theorem witness_StoreSingle :
    condPasses .al based.flags = true ∧ offsetUsesPc (.imm 0) = false ∧ based.mem.wf = true ∧
    (let a := based.singleAddress true true 15 (.imm 0)
     let attrs := based.transferAttrs false true false
     (based.passing (storeCycles a attrs (based.reg 1 0#32))).aborts a attrs = false) ∧
    (let a := based.singleAddress false true 14 (.imm 4)
     let attrs := based.transferAttrs true true true
     (based.passing (storeCycles a attrs (based.pc + 12#32))).aborts a attrs = false) := by decide

theorem witness_SingleAbort :
    condPasses .al failing.flags = true ∧ offsetUsesPc (.imm 0xFFF) = false ∧
    (let a := failing.singleAddress true true 15 (.imm 0xFFF)
     let attrs := failing.transferAttrs false false false
     (failing.passing ((failing.loadCycles a attrs).take 1)).aborts a attrs = true) ∧
    (let a := failing.singleAddress false true 14 (.imm 4)
     let attrs := failing.transferAttrs true true true
     (failing.passing ((storeCycles a attrs (failing.reg 1 0#32)).take 1)).aborts a attrs = true) := by decide

theorem witness_BlockAddresses : (14#4 : RegNum) ≠ 15#4 ∧ (0xFFFF#16).getLsbD (15#4).toNat = true ∧ 0 < 1 ∧ 15 < 16 ∧
    ([7#32] : List Word)[0]? = some 7#32 := by decide

theorem witness_LoadMultiple :
    condPasses .al based.flags = true ∧ (14#4 : RegNum) ≠ 15#4 ∧ (0x7FFF#16) ≠ 0#16 ∧ (0x7FFF#16).getLsbD 15 = false ∧
    (0x0001#16) ≠ 0#16 ∧ (0x0001#16).getLsbD 15 = false ∧ based.mode ≠ .usr ∧
    (let first := based.blockFirst true false 14 0x7FFF
     ∀ r : RegNum, (0x7FFF#16).getLsbD r.toNat = true →
      (based.passing ((based.ldmCycles first 0x7FFF).take (listRank 0x7FFF r.toNat + 1))).aborts
        (listAddress first 0x7FFF r) (based.dataAttrs false false) = false) := by decide

theorem witness_LoadMultiplePc :
    condPasses .al returning.flags = true ∧ (14#4 : RegNum) ≠ 15#4 ∧ (0x8000#16).getLsbD 15 = true ∧
    (0xFFFF#16).getLsbD 15 = true ∧
    (let first := returning.blockFirst false true 14 0xFFFF
     ∀ r : RegNum, (0xFFFF#16).getLsbD r.toNat = true →
      (returning.passing ((returning.ldmCycles first 0xFFFF).take (listRank 0xFFFF r.toNat + 1))).aborts
        (listAddress first 0xFFFF r) (returning.dataAttrs false false) = false) ∧
    returning.spsr? = some 0x10 ∧ (Mode.ofBits (psrMode 0x10#32)).isSome = true ∧ psrDefined 0x10#32 = true ∧
    supervisor.spsr? = some 0 ∧ Mode.ofBits (psrMode 0#32) = none := by decide

/-- An LDM whose third cycle, that of R15, is the first aborted one, and one whose first is. -/
theorem witness_LoadMultipleAbort :
    (let s := aborting based 0x1008 0x100B
     let first := s.blockFirst false true 14 0x8003
     let aborts := fun r : RegNum => (s.passing ((s.ldmCycles first 0x8003).take (listRank 0x8003 r.toNat + 1))).aborts
       (listAddress first 0x8003 r) (s.dataAttrs false false)
     condPasses .al s.flags = true ∧ (14#4 : RegNum) ≠ 15#4 ∧ s.mode ≠ .usr ∧
     (0x8003#16).getLsbD (15#4).toNat = true ∧ aborts 15 = true ∧
     (∀ r : RegNum, r < 15#4 → (0x8003#16).getLsbD r.toNat = true → aborts r = false)) ∧
    (let first := failing.blockFirst false true 14 0x0003
     failing.mode ≠ .usr ∧ (0x0003#16).getLsbD (0#4).toNat = true ∧
     (failing.passing ((failing.ldmCycles first 0x0003).take (listRank 0x0003 0 + 1))).aborts
       (listAddress first 0x0003 0) (failing.dataAttrs false false) = true ∧
     (∀ r : RegNum, r < 0#4 → (0x0003#16).getLsbD r.toNat = true → False)) := by decide

theorem witness_StoreMultiple :
    condPasses .al based.flags = true ∧ (14#4 : RegNum) ≠ 15#4 ∧ (0xFFFF#16) ≠ 0#16 ∧ based.mode ≠ .usr ∧
    based.mem.wf = true ∧ based.noBusWrites = true ∧
    (let first := based.blockFirst true false 14 0xFFFF
     ∀ r : RegNum, (0xFFFF#16).getLsbD r.toNat = true →
      (based.passing ((based.stmCycles false false true 14 first 0xFFFF).take (listRank 0xFFFF r.toNat + 1))).aborts
        (listAddress first 0xFFFF r) (based.dataAttrs true false) = false) := by decide

theorem witness_StoreMultipleAbort :
    (let s := aborting based 0x1008 0x100B
     let first := s.blockFirst false true 14 0x8003
     condPasses .al s.flags = true ∧ (14#4 : RegNum) ≠ 15#4 ∧ s.mode ≠ .usr ∧ s.mem.wf = true ∧ s.noBusWrites = true ∧
     (0x8003#16).getLsbD (15#4).toNat = true ∧
     (s.passing ((s.stmCycles true false true 14 first 0x8003).take (listRank 0x8003 15 + 1))).aborts
       (listAddress first 0x8003 15) (s.dataAttrs true false) = true) := by decide

theorem witness_SwapEffect :
    condPasses .al based.flags = true ∧ (14#4 : RegNum) ≠ 15#4 ∧ (0#4 : RegNum) ≠ 15#4 ∧ based.mem.wf = true ∧
    based.noBusWrites = true ∧
    (let a := based.reg 14 0#32
     let cycles := based.swapCycles true a (based.reg 1 0#32)
     (based.passing (cycles.take 1)).aborts a (based.lockedAttrs false true) = false ∧
     (based.passing (cycles.take 2)).aborts a (based.lockedAttrs true true) = false) ∧
    failing.mem.wf = true ∧
    (let a := failing.reg 14 0#32
     (failing.passing ((failing.swapCycles true a (failing.reg 1 0#32)).take 1)).aborts a
       (failing.lockedAttrs false true) = true) ∧
    ({ based with moments := [moment false [], moment true [(0, 1)]] } : State).moments =
      moment false [] :: moment true [(0, 1)] :: [] := by decide

theorem witness_SwiAndUndefined : condPasses .al user.flags = true := by decide

theorem witness_TransferRefusals :
    condPasses .al user.flags = true ∧ (14#4 : RegNum) ≠ 15#4 ∧ offsetUsesPc (.reg 15 .lsl 0) = true ∧
    ¬((15#4 : RegNum) = 15#4 ∧ (false = true ∨ false = true)) ∧ user.mode = .usr ∧ supervisor.mode ≠ .usr ∧
    (0x7FFF#16).getLsbD 15 = false ∧ (0x7FFF#16) ≠ 0#16 ∧
    (answering (.accept 0 [])).cpAnswer 3 (encode (.ldc .al true true true true 15 0 3 0)) = .accept 0 [] ∧
    (answering (.accept 0 [])).cpAnswer 3 (encode (.stc .al true true true true 15 0 3 0)) = .accept 0 [] := by decide

theorem witness_CoprocessorAbsentOrBusy :
    coprocessorOf (.cdp .al 0 0 0 3 0 0) = some 3 ∧ coprocessorOf (.ldc .al true true true true 15 0 3 0) = some 3 ∧
    condPasses .al based.flags = true ∧ (∀ cp ∈ based.coprocs, cp.number ≠ 3#4) ∧
    (let w := encode (.cdp .al 0 0 0 3 0 0)
     (answering .decline).cpAnswer 3 w = .decline ∧ (answering .busy).cpAnswer 3 w = .busy ∧
     (answering .hang).cpAnswer 3 w = .hang) := by decide

theorem witness_CoprocessorRegisters :
    condPasses .al based.flags = true ∧
    (answering (.accept 5 [])).cpAnswer 3 (encode (.cdp .al 0 0 0 3 0 0)) = .accept 5 [] ∧
    (answering (.accept 5 [])).cpAnswer 3 (encode (.mrc .al 0 0 15 3 0 0)) = .accept 5 [] ∧
    (answering (.accept 5 [])).cpAnswer 3 (encode (.mcr .al 0 0 15 3 0 0)) = .accept 5 [] := by decide

theorem witness_LoadCoprocessor :
    (let s := answering (.accept 5 [6])
     condPasses .al s.flags = true ∧
     s.cpAnswer 3 (encode (.ldc .al false true false true 14 0 3 2)) = .accept 5 [6] ∧ s.mem.wf = true ∧
     s.noBusWrites = true ∧ [6#32].length < 2 ^ 30 ∧
     (∀ k, k ≤ 1 → (s.passing ((readCycles (s.dataAttrs false false) .n 2 (s.reg 14 8#32)).take (k + 1))).aborts
       (s.reg 14 8#32 + BitVec.ofNat 32 (4 * k)) (s.dataAttrs false false) = false)) ∧
    (let s := aborting (answering (.accept 5 [6])) 0 0xFFFFFFFF
     s.cpAnswer 3 (encode (.ldc .al false true false true 14 0 3 2)) = .accept 5 [6] ∧
     (s.passing ((readCycles (s.dataAttrs false false) .n 2 (s.reg 14 8#32)).take 2)).aborts
       (s.reg 14 8#32 + BitVec.ofNat 32 (4 * 1)) (s.dataAttrs false false) = true) := by decide

theorem witness_StoreCoprocessor :
    (let s := answering (.accept 5 [6])
     condPasses .al s.flags = true ∧
     s.cpAnswer 3 (encode (.stc .al false true false true 14 0 3 2)) = .accept 5 [6] ∧ s.mem.wf = true ∧
     s.noBusWrites = true ∧ [6#32].length < 2 ^ 30 ∧
     (∀ k, k ≤ 1 → (s.passing ((writeCycles (s.dataAttrs true false) .n (s.reg 14 8#32) [5, 6]).take (k + 1))).aborts
       (s.reg 14 8#32 + BitVec.ofNat 32 (4 * k)) (s.dataAttrs true false) = false)) ∧
    (let s := aborting (answering (.accept 5 [6])) 0 0xFFFFFFFF
     s.cpAnswer 3 (encode (.stc .al false true false true 14 0 3 2)) = .accept 5 [6] ∧
     (s.passing ((writeCycles (s.dataAttrs true false) .n (s.reg 14 8#32) [5, 6]).take 2)).aborts
       (s.reg 14 8#32 + BitVec.ofNat 32 (4 * 1)) (s.dataAttrs true false) = true) := by decide

theorem witness_UserModeKeepsControl :
    user.mode = .usr ∧ goesOn (Machine.exec (.msrRegAll .al false 0) user) = true ∧
    goesOn (Machine.exec (.swi .al 0) user) = true := by decide

theorem witness_WhatInstructionsLeave :
    goesOn (Machine.exec (.b .al 0) user) = true ∧ storesMemory (.b .al 0) = false ∧ isOffered (.b .al 0) = false := by
  decide

end Sys2Proof.Tests
end

/-! # The bus cycle and the answer of the memory system -/

namespace Sys2Proof.Machine

/-! ## One bus cycle -/

/-- With a moment left, the environment does in the cycle what that moment says (00_scope.md R10, R18). -/
theorem environment_cons {s : State} {m : Moment} {rest : List Moment} (h : s.moments = m :: rest) :
    s.environment =
      { s with
        inputs := { s.inputs with BIGEND := m.BIGEND, memoryRules := m.memoryRules }
        mem := s.mem.setAll m.busWrites
        moments := rest } := by
  simp [State.environment, h]

/-- A cycle in which the environment does nothing shows on the bus only. -/
theorem cycle_nil {s : State} (h : s.moments = []) (c : BusCycle) :
    s.cycle c = { s with bus := s.bus ++ [c], seq := c.nextSeq } := by
  simp [State.cycle, environment_nil h]

/-- A cycle in which the environment acts shows on the bus, and changes only what the moment names. -/
theorem cycle_cons {s : State} {m : Moment} {rest : List Moment} (h : s.moments = m :: rest) (c : BusCycle) :
    s.cycle c =
      { s with
        inputs := { s.inputs with BIGEND := m.BIGEND, memoryRules := m.memoryRules }
        mem := s.mem.setAll m.busWrites
        moments := rest
        bus := s.bus ++ [c]
        seq := c.nextSeq } := by
  simp [State.cycle, environment_cons h]

theorem setAll_append (m : Memory) (xs ys : List Host.Cell) : m.setAll (xs ++ ys) = (m.setAll xs).setAll ys := by
  induction xs generalizing m with
  | nil => rfl
  | cons x xs ih => exact ih _

/-- Of several writes to one byte the last counts. -/
theorem get_setAll_last {m : Memory} (h : m.wf = true) (ws : List Host.Cell) {k : Nat} (hk : k < 2 ^ 32) (b : Byte) :
    (m.setAll (ws ++ [(k, b)])).get k = b := by
  have hset : m.setAll (ws ++ [(k, b)]) = (m.setAll ws).set k b := by
    rw [setAll_append, Memory.setAll, Memory.setAll, Nat.mod_eq_of_lt hk]
  rw [hset, get_set (setAll_wf h ws), if_pos rfl]

/-! ## The rule that answers a cycle -/

theorem levelMatches_iff (want : Option Bool) (level : Bool) :
    levelMatches want level = true ↔ want = none ∨ want = some level := by
  cases want <;> simp [levelMatches]

theorem modeMatches_iff (want : Option (BitVec 5)) (nM : BitVec 5) :
    modeMatches want nM = true ↔ want = none ∨ want = some nM := by
  cases want <;> simp [modeMatches]

/-- A rule names a cycle when the address is in its range and every level it asks for is the one of the cycle
(20_memory.md R60, R80). -/
theorem applies_iff (r : MemoryRule) (a : Word) (t : BusAttrs) :
    r.applies a t = true ↔
      (r.first ≤ a.toNat ∧ a.toNat ≤ r.last) ∧ (r.nRW = none ∨ r.nRW = some t.nRW) ∧
        (r.nBW = none ∨ r.nBW = some t.nBW) ∧ (r.nOPC = none ∨ r.nOPC = some t.nOPC) ∧
        (r.nTRANS = none ∨ r.nTRANS = some t.nTRANS) ∧ (r.nM = none ∨ r.nM = some t.nM) ∧
        (r.LOCK = none ∨ r.LOCK = some t.LOCK) := by
  simp only [MemoryRule.applies, Bool.and_eq_true, decide_eq_true_eq, levelMatches_iff, modeMatches_iff]
  constructor
  · rintro ⟨⟨⟨⟨⟨⟨hrange, hRW⟩, hBW⟩, hOPC⟩, hTRANS⟩, hLOCK⟩, hM⟩
    exact ⟨hrange, hRW, hBW, hOPC, hTRANS, hM, hLOCK⟩
  · rintro ⟨hrange, hRW, hBW, hOPC, hTRANS, hM, hLOCK⟩
    exact ⟨⟨⟨⟨⟨⟨hrange, hRW⟩, hBW⟩, hOPC⟩, hTRANS⟩, hLOCK⟩, hM⟩

theorem reply_none_of_no_rule {s : State} {a : Word} {t : BusAttrs}
    (h : ∀ r ∈ s.inputs.memoryRules, r.applies a t = false) : s.reply a t = none := by
  have hfind : s.inputs.memoryRules.find? (fun r => r.applies a t) = none :=
    List.find?_eq_none.mpr fun r hr => by simp [h r hr]
  rw [State.reply, hfind, Option.map_none]

/-- The first rule that names a cycle decides the reply. -/
theorem reply_of_first_rule {s : State} {a : Word} {t : BusAttrs} {before after : List MemoryRule} {r : MemoryRule}
    (hs : s.inputs.memoryRules = before ++ r :: after) (hb : ∀ x ∈ before, x.applies a t = false)
    (hr : r.applies a t = true) : s.reply a t = some r.reply := by
  have hfind : s.inputs.memoryRules.find? (fun x => x.applies a t) = some r :=
    List.find?_eq_some_iff_append.mpr ⟨hr, before, after, hs, fun x hx => by simp [hb x hx]⟩
  rw [State.reply, hfind, Option.map_some]

/-! ## What the answer does to a cycle -/

theorem aborts_iff (s : State) (a : Word) (t : BusAttrs) : s.aborts a t = true ↔ s.reply a t = some .abort := by
  simp [State.aborts]

theorem busWord_device {s : State} {a : Word} {t : BusAttrs} {word : Word}
    (h : s.reply a t = some (.device word)) : s.busWord a t = word := by
  simp [State.busWord, h]

/-- A read that no rule names, and one of a read-only memory, gets the word in memory. -/
theorem busWord_memory {s : State} {a : Word} {t : BusAttrs}
    (h : s.reply a t = none ∨ s.reply a t = some .readOnly) : s.busWord a t = s.mem.word a := by
  rcases h with h | h <;> simp [State.busWord, h]

/-- A write that a rule answers leaves the memory: an abort, a read-only memory, a device. -/
theorem busWrite_of_reply {s : State} {a : Word} {t : BusAttrs} {x : Reply} (h : s.reply a t = some x) (v : Word) :
    s.busWrite a t v = s := by
  simp [State.busWrite, h]

theorem busWrite_of_no_reply {s : State} {a : Word} {t : BusAttrs} (h : s.reply a t = none) (v : Word) :
    s.busWrite a t v = s.writeData (!t.nBW) a v := by
  simp [State.busWrite, h]

/-- A write that the reference memory serves stores its word or its byte, and nothing else (R67, R68). -/
theorem busWrite_stores {s : State} {a : Word} {t : BusAttrs} (h : s.reply a t = none) (hm : s.mem.wf = true)
    (v : Word) : Stores s s.mem (s.busWrite a t v).mem a t v := by
  rw [Stores, if_pos h, busWrite_of_no_reply h]
  cases hb : t.nBW with
  | true => exact ⟨word_setWord hm a v rfl, fun k hk => get_setWord_other hm a v hk⟩
  | false => exact ⟨(get_set hm _ _ _).trans (if_pos rfl), fun k hk => (get_set hm _ _ _).trans (if_neg hk.symm)⟩

/-- Settles O7: the effect of one cycle, the rules, and the answer, each by its own lemma above. -/
theorem busCycleEffect : Obligations.BusCycleEffect :=
  ⟨fun _ c =>
      ⟨fun h => cycle_nil h c, fun _ _ h => cycle_cons h c,
        fun _ ws _ hm => ⟨get_setAll_other hm ws, fun b hk => get_setAll_last hm ws hk b⟩, passing_mem⟩,
    applies_iff,
    fun s a t v =>
      ⟨reply_none_of_no_rule, fun _ _ _ => reply_of_first_rule, aborts_iff s a t, fun _ => busWord_device,
        busWord_memory, fun _ h => busWrite_of_reply h v, fun h hm => busWrite_stores h hm v⟩⟩

end Sys2Proof.Machine

/-! # The pins a step has seen -/

namespace Sys2Proof.Machine

/-! ## What only a boundary changes

The bus cycles of an instruction let the environment act on BIGEND and the memory rules, but the events to come and the
step counter wait for the boundary (00_scope.md R18). -/

/-- The events to come and the model's counter of steps are unchanged. -/
@[simp] def KeepsSchedule (s t : State) : Prop := t.schedule = s.schedule ∧ t.tick = s.tick

/-! The shared parts of the instructions. -/

@[simp] theorem finish_schedule_tick (s : State) (rd : RegNum) (v : Word) :
    (s.finish rd v).schedule = s.schedule ∧ (s.finish rd v).tick = s.tick := by
  unfold State.finish
  split <;> simp

@[simp] theorem dataAbort_schedule_tick (s : State) :
    s.dataAbort.schedule = s.schedule ∧ s.dataAbort.tick = s.tick := by
  simp [State.dataAbort]

@[simp] theorem waitCycle_schedule_tick (s : State) :
    s.waitCycle.schedule = s.schedule ∧ s.waitCycle.tick = s.tick := by
  simp [State.waitCycle]

@[simp] theorem shiftCycle_schedule_tick (s : State) (op2 : Operand2) :
    (s.shiftCycle op2).schedule = s.schedule ∧ (s.shiftCycle op2).tick = s.tick := by
  simp [shiftCycle_eq]

@[simp] theorem writeBack_schedule_tick (s : State) (p w : Bool) (rn : RegNum) (v : Word) :
    (s.writeBack p w rn v).schedule = s.schedule ∧ (s.writeBack p w rn v).tick = s.tick := by
  unfold State.writeBack
  split <;> simp

@[simp] theorem cpWriteBack_schedule_tick (s : State) (w : Bool) (rn : RegNum) (v : Word) :
    (s.cpWriteBack w rn v).schedule = s.schedule ∧ (s.cpWriteBack w rn v).tick = s.tick := by
  unfold State.cpWriteBack
  split <;> simp

@[simp] theorem cpFinish_schedule_tick (s : State) (aborted : Bool) :
    (s.cpFinish aborted).schedule = s.schedule ∧ (s.cpFinish aborted).tick = s.tick := by
  unfold State.cpFinish
  split <;> simp

@[simp] theorem holdWrites_schedule_tick (s : State) :
    s.holdWrites.schedule = s.schedule ∧ s.holdWrites.tick = s.tick := by
  unfold State.holdWrites
  split <;> simp

@[simp] theorem lockedStore_schedule_tick (s : State) (perform : Bool) (a : Word) (t : BusAttrs) (v : Word) :
    (s.lockedStore perform a t v).schedule = s.schedule ∧ (s.lockedStore perform a t v).tick = s.tick := by
  unfold State.lockedStore
  cases perform <;> simp

@[simp] theorem readRun_schedule_tick (t : BusAttrs) (ty : CycleType) (k : Nat) (a : Word) (s : State) :
    (State.readRun t ty k a s).2.schedule = s.schedule ∧ (State.readRun t ty k a s).2.tick = s.tick := by
  simp [readRun_state]

@[simp] theorem writeRun_schedule_tick (t : BusAttrs) (ty : CycleType) (vs : List Word) (a : Word) (s : State) :
    (State.writeRun t ty a vs s).2.schedule = s.schedule ∧ (State.writeRun t ty a vs s).2.tick = s.tick := by
  obtain ⟨-, -, -, -, -, -, -, hschedule, -, htick, -⟩ := writeRun_frame t ty vs a s
  exact ⟨hschedule, htick⟩

@[simp] theorem loadRegs_schedule_tick (bank : Mode) (l : List RegNum) (vs : List (Option Word)) (s : State) :
    (State.loadRegs bank l vs s).schedule = s.schedule ∧ (State.loadRegs bank l vs s).tick = s.tick := by
  obtain ⟨r, hr⟩ := loadRegs_frame bank l vs s
  simp [hr]

/-! The templates of the instructions. -/

theorem conditional_keepsSchedule {s t : State} {c : Cond} {r : Result} (h : s.conditional c r = .next t)
    (hr : r = .next t → KeepsSchedule s t) : KeepsSchedule s t := by
  rcases conditional_next h with ⟨-, h⟩ | ⟨-, rfl⟩
  · exact hr h
  · simp

/-- An offer keeps the schedule when what an accepted one goes on with does. -/
theorem offer_keepsSchedule {s t : State} {num : BitVec 4} {code : Word} {f : State → Word → List Word → Result}
    (h : s.offer num code f = .next t)
    (hf : ∀ u w ws, f u w ws = .next t → KeepsSchedule u t) : KeepsSchedule s t := by
  rcases offer_next h with ⟨-, rfl⟩ | ⟨-, rfl⟩ | ⟨-, rfl⟩ | ⟨w, ws, -, h⟩
  · simp
  · simp
  · simp
  · simpa using hf _ w ws h

theorem dataProcess_keepsSchedule {alu : AluOp} {c : Cond} {sBit : Bool} {rn rd : RegNum} {op2 : Operand2}
    {s t : State} (h : dataProcess alu c sBit rn rd op2 s = .next t) : KeepsSchedule s t := by
  rcases dataProcess_next h with
    ⟨-, rfl⟩ | ⟨-, -, rfl⟩ | ⟨-, -, p, m, -, -, rfl⟩ | ⟨-, -, rfl⟩ | ⟨-, -, rfl⟩ <;> simp

theorem dataCompare_keepsSchedule {alu : AluOp} {c : Cond} {rn rd : RegNum} {op2 : Operand2} {s t : State}
    (h : dataCompare alu c rn rd op2 s = .next t) : KeepsSchedule s t := by
  rcases dataCompare_next h with rfl | rfl | ⟨-, p, m, -, -, rfl⟩ | ⟨-, rfl⟩ <;> simp

theorem multiplyResult_keepsSchedule {s t : State} {sBit : Bool} {rd rs : RegNum} {v : Word}
    (h : s.multiplyResult sBit rd rs v = .next t) : KeepsSchedule s t := by
  cases h
  cases sBit <;> simp

theorem loadSingle_keepsSchedule {byte user p u w : Bool} {c : Cond} {rn rd : RegNum} {off : Offset} {s t : State}
    (h : loadSingle byte user c p u w rn rd off s = .next t) : KeepsSchedule s t := by
  rcases loadSingle_next h with ⟨-, rfl⟩ | ⟨-, rfl | rfl⟩ <;> simp

theorem storeSingle_keepsSchedule {byte user p u w : Bool} {c : Cond} {rn rd : RegNum} {off : Offset} {s t : State}
    (h : storeSingle byte user c p u w rn rd off s = .next t) : KeepsSchedule s t := by
  rcases storeSingle_next h with ⟨-, rfl⟩ | ⟨-, rfl | rfl⟩ <;> simp

theorem swap_keepsSchedule {byte : Bool} {c : Cond} {rn rd rm : RegNum} {s t : State}
    (h : swap byte c rn rd rm s = .next t) : KeepsSchedule s t := by
  rcases swap_next h with ⟨-, rfl⟩ | rfl | rfl <;> simp

theorem writeSpsr_keepsSchedule {s t : State} {f : Word → Word} (h : s.writeSpsr f = .next t) :
    KeepsSchedule s t := by
  obtain ⟨p, -, rfl⟩ := writeSpsr_next h
  simp

theorem writeCpsrAll_keepsSchedule {s t : State} {v : Word} (h : s.writeCpsrAll v = .next t) :
    KeepsSchedule s t := by
  rcases writeCpsrAll_next h with ⟨-, rfl⟩ | ⟨-, m, -, rfl⟩ <;> simp

theorem writeCpsrFlags_keepsSchedule {s t : State} {v : Word} (h : s.writeCpsrFlags v = .next t) :
    KeepsSchedule s t := by
  cases h
  simp

/-! The instructions whose definition is no template. -/

theorem execMrs_keepsSchedule {c : Cond} {ps : Bool} {rd : RegNum} {s t : State}
    (h : execMrs c ps rd s = .next t) : KeepsSchedule s t := by
  refine conditional_keepsSchedule h fun h => ?_
  split at h
  · cases h
  · split at h
    · split at h
      · cases h
      · cases h; simp
    · cases h; simp

theorem execMsrRegAll_keepsSchedule {c : Cond} {pd : Bool} {rm : RegNum} {s t : State}
    (h : execMsrRegAll c pd rm s = .next t) : KeepsSchedule s t := by
  refine conditional_keepsSchedule h fun h => ?_
  split at h
  · cases h
  · cases pd with
    | true => exact writeSpsr_keepsSchedule h
    | false => exact writeCpsrAll_keepsSchedule h

theorem execMsrRegFlg_keepsSchedule {c : Cond} {pd : Bool} {rm : RegNum} {s t : State}
    (h : execMsrRegFlg c pd rm s = .next t) : KeepsSchedule s t := by
  refine conditional_keepsSchedule h fun h => ?_
  split at h
  · cases h
  · cases pd with
    | true => exact writeSpsr_keepsSchedule h
    | false => exact writeCpsrFlags_keepsSchedule h

theorem execMsrImmFlg_keepsSchedule {c : Cond} {pd : Bool} {rot : BitVec 4} {imm8 : BitVec 8} {s t : State}
    (h : execMsrImmFlg c pd rot imm8 s = .next t) : KeepsSchedule s t := by
  refine conditional_keepsSchedule h fun h => ?_
  cases pd with
  | true => exact writeSpsr_keepsSchedule h
  | false => exact writeCpsrFlags_keepsSchedule h

theorem execMul_keepsSchedule {c : Cond} {sBit : Bool} {rd rn rs rm : RegNum} {s t : State}
    (h : execMul c sBit rd rn rs rm s = .next t) : KeepsSchedule s t := by
  refine conditional_keepsSchedule h fun h => ?_
  split at h
  · cases h
  · exact multiplyResult_keepsSchedule h

theorem execMla_keepsSchedule {c : Cond} {sBit : Bool} {rd rn rs rm : RegNum} {s t : State}
    (h : execMla c sBit rd rn rs rm s = .next t) : KeepsSchedule s t := by
  refine conditional_keepsSchedule h fun h => ?_
  split at h
  · cases h
  · exact multiplyResult_keepsSchedule h

theorem execLdm_keepsSchedule {c : Cond} {p u sBit w : Bool} {rn : RegNum} {list : BitVec 16} {s t : State}
    (h : execLdm c p u sBit w rn list s = .next t) : KeepsSchedule s t := by
  refine conditional_keepsSchedule h fun h => ?_
  split at h
  · cases h
  · dsimp only at h
    split at h
    · cases h; simp
    · generalize he : (if (w && !inList list rn) = true then State.setReg _ rn _ else _) = e at h
      have hloaded : KeepsSchedule s e := by
        rw [← he]
        split <;> simp
      split at h
      · split at h
        · obtain ⟨q, m, -, -, rfl⟩ := returnTo_next h
          simpa using hloaded
        · cases h; simpa using hloaded
      · split at h
        · cases h; simpa using hloaded
        · cases h; simpa using hloaded

theorem execStm_keepsSchedule {c : Cond} {p u sBit w : Bool} {rn : RegNum} {list : BitVec 16} {s t : State}
    (h : execStm c p u sBit w rn list s = .next t) : KeepsSchedule s t := by
  refine conditional_keepsSchedule h fun h => ?_
  split at h
  · cases h
  · dsimp only at h
    split at h
    · cases h; cases w <;> simp
    · cases h; cases w <;> simp

theorem execCdp_keepsSchedule {c : Cond} {cpOpc crn crd cpNum : BitVec 4} {cp : BitVec 3} {crm : BitVec 4}
    {s t : State} (h : execCdp c cpOpc crn crd cpNum cp crm s = .next t) : KeepsSchedule s t := by
  refine conditional_keepsSchedule h fun h => offer_keepsSchedule h fun u w ws h => ?_
  cases h
  simp

theorem execMrc_keepsSchedule {c : Cond} {cpOpc : BitVec 3} {crn : BitVec 4} {rd : RegNum} {cpNum : BitVec 4}
    {cp : BitVec 3} {crm : BitVec 4} {s t : State} (h : execMrc c cpOpc crn rd cpNum cp crm s = .next t) :
    KeepsSchedule s t := by
  refine conditional_keepsSchedule h fun h => offer_keepsSchedule h fun u w ws h => ?_
  cases h
  split <;> simp

theorem execMcr_keepsSchedule {c : Cond} {cpOpc : BitVec 3} {crn : BitVec 4} {rd : RegNum} {cpNum : BitVec 4}
    {cp : BitVec 3} {crm : BitVec 4} {s t : State} (h : execMcr c cpOpc crn rd cpNum cp crm s = .next t) :
    KeepsSchedule s t := by
  refine conditional_keepsSchedule h fun h => offer_keepsSchedule h fun u w ws h => ?_
  cases h
  simp

theorem execLdc_keepsSchedule {c : Cond} {p u n w : Bool} {rn : RegNum} {crd cpNum : BitVec 4} {offset : BitVec 8}
    {s t : State} (h : execLdc c p u n w rn crd cpNum offset s = .next t) : KeepsSchedule s t := by
  refine conditional_keepsSchedule h fun h => offer_keepsSchedule h fun v word more h => ?_
  split at h
  · cases h
  · cases h; simp

theorem execStc_keepsSchedule {c : Cond} {p u n w : Bool} {rn : RegNum} {crd cpNum : BitVec 4} {offset : BitVec 8}
    {s t : State} (h : execStc c p u n w rn crd cpNum offset s = .next t) : KeepsSchedule s t := by
  refine conditional_keepsSchedule h fun h => offer_keepsSchedule h fun v word more h => ?_
  split at h
  · cases h
  · cases h; simp

/-- No instruction reaches the events to come or the counter. -/
theorem exec_keepsSchedule {i : Instr} {s t : State} (h : exec i s = .next t) : KeepsSchedule s t := by
  cases i with
  | b | bl | swi | undefined => exact conditional_keepsSchedule h (by rintro ⟨⟩; simp)
  | notDefinedA | notDefinedB => exact conditional_keepsSchedule h nofun
  | and | eor | sub | rsb | add | adc | sbc | rsc | orr | mov | bic | mvn => exact dataProcess_keepsSchedule h
  | tst | teq | cmp | cmn => exact dataCompare_keepsSchedule h
  | mul _ _ _ rn => exact execMul_keepsSchedule (rn := rn) h
  | mla => exact execMla_keepsSchedule h
  | mrs => exact execMrs_keepsSchedule h
  | msrRegAll => exact execMsrRegAll_keepsSchedule h
  | msrRegFlg => exact execMsrRegFlg_keepsSchedule h
  | msrImmFlg => exact execMsrImmFlg_keepsSchedule h
  | ldr | ldrb | ldrt | ldrbt => exact loadSingle_keepsSchedule h
  | str | strb | strt | strbt => exact storeSingle_keepsSchedule h
  | ldm => exact execLdm_keepsSchedule h
  | stm => exact execStm_keepsSchedule h
  | swp | swpb => exact swap_keepsSchedule h
  | cdp => exact execCdp_keepsSchedule h
  | mrc => exact execMrc_keepsSchedule h
  | mcr => exact execMcr_keepsSchedule h
  | ldc => exact execLdc_keepsSchedule h
  | stc => exact execStc_keepsSchedule h

theorem runHead_keepsSchedule {s t : State} (h : s.runHead = .next t) : KeepsSchedule s t := by
  rcases runHead_next h with ⟨-, rfl⟩ | ⟨-, h⟩
  · simp
  · exact exec_keepsSchedule h

/-! ## The 32-bit configuration along a step -/

theorem supported_iff (i : Inputs) : i.supported = true ↔ i.PROG32 = true ∧ i.DATA32 = true := by
  simp [Inputs.supported]

/-- At a bus cycle the environment leaves PROG32 and DATA32. -/
@[simp] theorem environment_supported (s : State) : s.environment.inputs.supported = s.inputs.supported := by
  unfold State.environment
  split <;> rfl

@[simp] theorem fetchMany_supported (k : Nat) (s : State) :
    (State.fetchMany k s).inputs.supported = s.inputs.supported := by
  induction k generalizing s with
  | zero => rfl
  | succ k ih => exact (ih (s.fetchOne true)).trans (environment_supported s)

@[simp] theorem fillTo_supported (s : State) (n : Nat) : (s.fillTo n).inputs.supported = s.inputs.supported :=
  fetchMany_supported _ s

/-- A state with the same events to come as a supported one meets the same pins at its boundary, or, with no event
left, the supported pins of now. -/
theorem nextInputs_supported {s u : State} (hs : s.inputs.supported = true) (hsched : u.schedule = s.schedule)
    (hu : u.sample.inputs.supported = true) : s.nextInputs.supported = true := by
  rw [sample_inputs] at hu
  unfold State.nextInputs at hu ⊢
  rw [hsched] at hu
  cases hl : s.schedule with
  | nil => exact hs
  | cons e rest => simpa [hl] using hu

/-- An interrupt check that ends in the 32-bit configuration has read it at its first sample. -/
theorem sample_supported_of_checkInterrupts {k : Nat} {s : State}
    (h : (State.checkInterrupts (k + 1) s).inputs.supported = true) : s.sample.inputs.supported = true := by
  rcases checkInterrupts_cases k s with ⟨-, e⟩ | ⟨_, hs, -⟩ | ⟨hs, -⟩
  · rwa [e] at h
  · exact hs
  · exact hs

/-- A boundary that ends in the 32-bit configuration has read it from the environment. -/
theorem nextInputs_supported_of_boundary {start s u : State} (hs : s.inputs.supported = true)
    (hsched : u.schedule = s.schedule) (h : (start.boundary u).inputs.supported = true) :
    s.nextInputs.supported = true := by
  rcases boundary_eq start u with ⟨-, e⟩ | ⟨-, e⟩
  · rw [e] at h
    exact nextInputs_supported hs ((fillTo_schedule u 2).trans hsched) (sample_supported_of_checkInterrupts h)
  · rw [e] at h
    exact nextInputs_supported hs hsched (by simpa using h)

/-- The step with nRESET LOW reads the pins of its boundary after its one dummy fetch. -/
theorem nextInputs_supported_of_heldInReset {s : State} (hs : s.inputs.supported = true)
    (h : s.heldInReset.inputs.supported = true) : s.nextInputs.supported = true := by
  have hread : ∀ v : State, (if v.inputs.nRESET then v.resetEntry.fillTo 2 else v).inputs.supported = true →
      v.inputs.supported = true := by
    intro v hv
    split at hv
    · simpa using hv
    · exact hv
  exact nextInputs_supported hs (by simp) (hread _ h)

theorem step_unsupported {s : State} (h : s.inputs.supported = false) : step s = .refused .configuration26Bit := by
  simp [step, State.stepOnce, h]

theorem step_illegalMode {s : State} (h : s.inputs.supported = true) (hm : Mode.ofBits (psrMode s.cpsr) = none) :
    step s = .refused .illegalMode := by
  simp [step, State.stepOnce, h, hm]

/-- A step that is not refused has seen the 32-bit configuration at its start, its boundary and its end (U1). -/
theorem step_supported {s t : State} (h : step s = .next t) :
    s.inputs.supported = true ∧ s.nextInputs.supported = true ∧ t.inputs.supported = true := by
  obtain ⟨hs, ht, -, ⟨-, rfl⟩ | ⟨-, u, hu, rfl⟩⟩ := step_next h
  · exact ⟨hs, nextInputs_supported_of_heldInReset hs ht, ht⟩
  · obtain ⟨hstart, -, -⟩ := startCycle_same s
    obtain ⟨hsched, -⟩ := runHead_keepsSchedule hu
    exact ⟨hs, nextInputs_supported_of_boundary hs (hsched.trans hstart.schedule) ht, ht⟩

/-- Settles O14: the two refusals at the start of a step, and the pins that a step with a next state has seen. -/
theorem stepRefusals : Obligations.StepRefusals := by
  intro s
  refine ⟨fun h => step_unsupported ?_, fun hp hd hm => step_illegalMode ((supported_iff _).mpr ⟨hp, hd⟩) hm, ?_⟩
  · rcases h with h | h <;> simp [Inputs.supported, h]
  · intro t h i hi
    obtain ⟨hs, hnext, ht⟩ := step_supported h
    simp only [List.mem_cons, List.not_mem_nil, or_false] at hi
    rcases hi with rfl | rfl | rfl
    · exact (supported_iff _).mp hs
    · exact (supported_iff _).mp hnext
    · exact (supported_iff _).mp ht

end Sys2Proof.Machine

/-! # How an instruction ends -/

namespace Sys2Proof.Machine

/-! ## Before the end

Until its end an instruction makes bus cycles, writes general registers and tells coprocessors; the PC, the pipeline and the
status registers wait for the end (10_state.md R31, R41). -/

/-- The PC, the pipeline and the status registers are unchanged, and the canonical form of the memory is kept. -/
structure KeepsControl (s u : State) : Prop where
  pc : u.pc = s.pc
  pipe : u.pipe = s.pipe
  cpsr : u.cpsr = s.cpsr
  spsrs : u.spsrs = s.spsrs
  wf : s.mem.wf = true → u.mem.wf = true

namespace KeepsControl

variable {s u : State}

theorem refl (s : State) : KeepsControl s s := ⟨rfl, rfl, rfl, rfl, id⟩

theorem trans {t : State} (h : KeepsControl s u) (g : KeepsControl u t) : KeepsControl s t :=
  ⟨g.pc.trans h.pc, g.pipe.trans h.pipe, g.cpsr.trans h.cpsr, g.spsrs.trans h.spsrs, g.wf ∘ h.wf⟩

theorem mode (h : KeepsControl s u) : u.mode = s.mode := by simp [State.mode, h.cpsr]

theorem cycle (h : KeepsControl s u) (c : BusCycle) : KeepsControl s (u.cycle c) :=
  h.trans ⟨by simp, by simp, by simp, by simp, fun hm => cycle_wf hm c⟩

theorem passing (h : KeepsControl s u) (cs : List BusCycle) : KeepsControl s (u.passing cs) :=
  h.trans ⟨by simp, by simp, by simp, by simp, fun hm => passing_wf hm cs⟩

theorem setReg (h : KeepsControl s u) (n : RegNum) (v : Word) : KeepsControl s (u.setReg n v) :=
  h.trans ⟨by simp, by simp, by simp, by simp, by simp⟩

theorem busWrite (h : KeepsControl s u) (a : Word) (t : BusAttrs) (v : Word) : KeepsControl s (u.busWrite a t v) :=
  h.trans ⟨by simp, by simp, by simp, by simp, fun hm => busWrite_wf hm a t v⟩

theorem store (h : KeepsControl s u) (ty : CycleType) (a : Word) (t : BusAttrs) (v : Word) :
    KeepsControl s (u.store ty a t v) := (h.cycle _).busWrite a t v

theorem internal (h : KeepsControl s u) : KeepsControl s u.internal := h.cycle _

theorem shiftCycle (h : KeepsControl s u) (op2 : Operand2) : KeepsControl s (u.shiftCycle op2) := by
  rw [shiftCycle_eq]
  exact h.passing _

theorem readRun (h : KeepsControl s u) (t : BusAttrs) (ty : CycleType) (k : Nat) (a : Word) :
    KeepsControl s (State.readRun t ty k a u).2 := by
  rw [readRun_state]
  exact h.passing _

theorem writeRun (h : KeepsControl s u) (t : BusAttrs) (ty : CycleType) (a : Word) (vs : List Word) :
    KeepsControl s (State.writeRun t ty a vs u).2 := by
  obtain ⟨-, hpc, hcpsr, hspsrs, hpipe, -⟩ := writeRun_frame t ty vs a u
  exact h.trans ⟨hpc, hpipe, hcpsr, hspsrs, fun hm => writeRun_wf hm t ty a vs⟩

theorem loadRegs (h : KeepsControl s u) (bank : Mode) (l : List RegNum) (vs : List (Option Word)) :
    KeepsControl s (State.loadRegs bank l vs u) := by
  obtain ⟨r, hr⟩ := loadRegs_frame bank l vs u
  rw [hr]
  exact h.trans ⟨rfl, rfl, rfl, rfl, id⟩

theorem cpWriteBack (h : KeepsControl s u) (w : Bool) (rn : RegNum) (v : Word) :
    KeepsControl s (u.cpWriteBack w rn v) := by
  unfold State.cpWriteBack
  split
  · exact h.setReg rn v
  · exact h

theorem writeBack (h : KeepsControl s u) (p w : Bool) (rn : RegNum) (v : Word) :
    KeepsControl s (u.writeBack p w rn v) := h.cpWriteBack (writesBack p w) rn v

theorem cpTell (h : KeepsControl s u) (num : BitVec 4) (events : List CpEvent) : KeepsControl s (u.cpTell num events) :=
  h.trans ⟨rfl, rfl, rfl, rfl, id⟩

theorem cpAnswered (h : KeepsControl s u) (num : BitVec 4) (w : Word) : KeepsControl s (u.cpAnswered num w) :=
  h.trans ⟨rfl, rfl, rfl, rfl, id⟩

theorem present (h : KeepsControl s u) (w : Word) : KeepsControl s (u.present w) := h.trans ⟨rfl, rfl, rfl, rfl, id⟩

theorem waitCycle (h : KeepsControl s u) : KeepsControl s u.waitCycle := by
  obtain ⟨hpc, hpipe, hcpsr, hspsrs, hwf⟩ := h.cycle (u.internalCycle false (u.pc + 8#32))
  exact ⟨hpc, hpipe, hcpsr, hspsrs, hwf⟩

theorem holdWrites (h : KeepsControl s u) : KeepsControl s u.holdWrites := by
  unfold State.holdWrites
  split
  · exact h
  · exact h.trans ⟨rfl, rfl, rfl, rfl, id⟩

theorem otherWrites (h : KeepsControl s u) (ws : List Host.Cell) : KeepsControl s { u with mem := u.mem.setAll ws } :=
  h.trans ⟨rfl, rfl, rfl, rfl, fun hm => setAll_wf hm ws⟩

theorem lockedStore (h : KeepsControl s u) (perform : Bool) (a : Word) (t : BusAttrs) (v : Word) :
    KeepsControl s (u.lockedStore perform a t v) := by
  have hc := h.holdWrites.cycle (writeCycle .n a t (dataOut t v))
  unfold State.lockedStore
  cases perform with
  | true => exact (hc.busWrite a t v).otherWrites _
  | false => exact hc.otherWrites _

end KeepsControl

/-! ## The status registers -/

/-- What an instruction that takes no exception can make of the CPSR and the SPSRs: nothing, other flags, and in a privileged
mode a CPSR with one of the six modes or another SPSR of that mode (10_state.md R34 to R38). -/
inductive StatusChange (s : State) : Word → Spsrs → Prop
  | none : StatusChange s s.cpsr s.spsrs
  | flags (top : BitVec 4) : StatusChange s (psrWithTop s.cpsr top) s.spsrs
  | cpsr {v : Word} {m : Mode} (hpriv : s.mode ≠ .usr) (hm : Mode.ofBits (psrMode v) = some m) :
      StatusChange s (psrKeep v) s.spsrs
  | spsr {v : Word} (hpriv : s.mode ≠ .usr) (hv : s.spsrs.defined = true → psrDefined v = true) :
      StatusChange s s.cpsr (s.spsrs.set s.mode v)

/-- An instruction that takes no exception, before the PC moves: the status registers may have changed. -/
structure Executed (s u : State) : Prop where
  pc : u.pc = s.pc
  pipe : u.pipe = s.pipe
  status : StatusChange s u.cpsr u.spsrs
  wf : s.mem.wf = true → u.mem.wf = true

theorem spsr?_privileged {s : State} {p : Word} (h : s.spsr? = some p) : s.mode ≠ .usr := by
  intro hm
  rw [spsr?_none.mpr hm] at h
  cases h

namespace KeepsControl

variable {s u : State}

theorem executed (h : KeepsControl s u) : Executed s u :=
  ⟨h.pc, h.pipe, by rw [h.cpsr, h.spsrs]; exact .none, h.wf⟩

theorem withTop (h : KeepsControl s u) (top : BitVec 4) :
    Executed s { u with cpsr := psrWithTop s.cpsr top } :=
  ⟨h.pc, h.pipe, h.spsrs ▸ .flags top, h.wf⟩

theorem setFlags (h : KeepsControl s u) (f : Flags) : Executed s (u.setFlags f) := by
  rw [State.setFlags, psrWithFlags, h.cpsr]
  exact h.withTop f.bits

theorem withCpsr (h : KeepsControl s u) {v : Word} {m : Mode} (hpriv : s.mode ≠ .usr)
    (hm : Mode.ofBits (psrMode v) = some m) : Executed s { u with cpsr := psrKeep v } :=
  ⟨h.pc, h.pipe, h.spsrs ▸ .cpsr hpriv hm, h.wf⟩

/-- The CPSR copied from the SPSR (10_state.md R38). -/
theorem restored (h : KeepsControl s u) {p : Word} {m : Mode} (hp : u.spsr? = some p)
    (hm : Mode.ofBits (psrMode p) = some m) : Executed s { u with cpsr := psrKeep p } :=
  h.withCpsr (h.mode ▸ spsr?_privileged hp) hm

end KeepsControl

/-! ## The end -/

/-- The exceptions that an instruction takes itself (60_exceptions.md R372). -/
def ownExceptions : List Exc := [.undefined, .swi, .dataAbort]

/-- How an instruction that began in `s` ends: it waits for a coprocessor, goes on, leaves the hazard of a User bank LDM
(70_reset_and_hazards.md R432), branches, or takes an exception, whose entry sees the status registers as they were. -/
inductive Ends (s : State) : State → Prop
  | waits {u : State} (h : KeepsControl s u) : Ends s u
  | goesOn {u : State} (h : Executed s u) : Ends s u.advance
  | shadows {u : State} (h : Executed s u) : Ends s { u.advance with ldmShadow := true }
  | branches {u : State} (h : Executed s u) (target : Word) : Ends s (u.branchTo target)
  | enters {u : State} (h : KeepsControl s u) {e : Exc} (he : e ∈ ownExceptions) (ret : Word) : Ends s (u.enter e ret)

theorem KeepsControl.dataAbort {s u : State} (h : KeepsControl s u) : Ends s u.dataAbort :=
  .enters (h.cycle _) (by simp [ownExceptions]) _

theorem KeepsControl.finish {s u : State} (h : KeepsControl s u) (rd : RegNum) (v : Word) : Ends s (u.finish rd v) := by
  unfold State.finish
  split
  · exact .branches h.executed v
  · exact .goesOn (h.setReg rd v).executed

theorem KeepsControl.cpFinish {s u : State} (h : KeepsControl s u) (aborted : Bool) : Ends s (u.cpFinish aborted) := by
  unfold State.cpFinish
  split
  · exact h.dataAbort
  · exact .goesOn h.executed

/-! ## How each template ends -/

theorem conditional_ends {s t : State} {c : Cond} {r : Result} (h : s.conditional c r = .next t)
    (hr : r = .next t → Ends s t) : Ends s t := by
  rcases conditional_next h with ⟨-, h⟩ | ⟨-, rfl⟩
  · exact hr h
  · exact .goesOn (KeepsControl.refl s).executed

/-- An offered instruction ends in the trap, in the busy-wait, or as it ends when accepted (49_coprocessor.md R343 to
R345). -/
theorem offer_ends {s t : State} {num : BitVec 4} {code : Word} {f : State → Word → List Word → Result}
    (h : s.offer num code f = .next t)
    (hf : ∀ u w ws, KeepsControl s u → f u w ws = .next t → Ends s t) : Ends s t := by
  have hoffered := (KeepsControl.refl s).present code
  rcases offer_next h with ⟨-, rfl⟩ | ⟨-, rfl⟩ | ⟨-, rfl⟩ | ⟨w, ws, -, h⟩
  · exact .enters (hoffered.cpAnswered num code) (by simp [ownExceptions]) _
  · exact .waits (hoffered.cpAnswered num code).waitCycle
  · exact .waits hoffered.waitCycle
  · exact hf _ w ws (hoffered.cpAnswered num code) h

theorem dataProcess_ends {alu : AluOp} {c : Cond} {sBit : Bool} {rn rd : RegNum} {op2 : Operand2} {s t : State}
    (h : dataProcess alu c sBit rn rd op2 s = .next t) : Ends s t := by
  have hread := (KeepsControl.refl s).shiftCycle op2
  rcases dataProcess_next h with
    ⟨-, rfl⟩ | ⟨-, -, rfl⟩ | ⟨-, -, p, m, hp, hm, rfl⟩ | ⟨-, -, rfl⟩ | ⟨-, -, rfl⟩
  · exact .goesOn (KeepsControl.refl s).executed
  · exact .branches hread.executed _
  · exact .branches (hread.restored hp hm) _
  · exact .goesOn (hread.setReg rd _).executed
  · exact .goesOn ((hread.setReg rd _).setFlags _)

theorem dataCompare_ends {alu : AluOp} {c : Cond} {rn rd : RegNum} {op2 : Operand2} {s t : State}
    (h : dataCompare alu c rn rd op2 s = .next t) : Ends s t := by
  have hread := (KeepsControl.refl s).shiftCycle op2
  rcases dataCompare_next h with rfl | rfl | ⟨-, p, m, hp, hm, rfl⟩ | ⟨-, rfl⟩
  · exact .goesOn (KeepsControl.refl s).executed
  · exact .goesOn hread.executed
  · exact .goesOn (hread.restored hp hm)
  · exact .goesOn (hread.setFlags _)

theorem multiplyResult_ends {s t : State} {sBit : Bool} {rd rs : RegNum} {v : Word}
    (h : s.multiplyResult sBit rd rs v = .next t) : Ends s t := by
  have hwritten := ((KeepsControl.refl s).passing (s.mulCycles rs)).setReg rd v
  cases h
  cases sBit with
  | true => exact .goesOn (hwritten.setFlags _)
  | false => exact .goesOn hwritten.executed

theorem loadSingle_ends {byte user p u w : Bool} {c : Cond} {rn rd : RegNum} {off : Offset} {s t : State}
    (h : loadSingle byte user c p u w rn rd off s = .next t) : Ends s t := by
  have hread := ((KeepsControl.refl s).cycle
    (readCycle .n (s.singleAddress p u rn off) (s.transferAttrs user false byte))).internal.writeBack p w rn
      (s.modifiedBase u rn off)
  rcases loadSingle_next h with ⟨-, rfl⟩ | ⟨-, rfl | rfl⟩
  · exact .goesOn (KeepsControl.refl s).executed
  · exact hread.dataAbort
  · exact hread.finish rd _

theorem storeSingle_ends {byte user p u w : Bool} {c : Cond} {rn rd : RegNum} {off : Offset} {s t : State}
    (h : storeSingle byte user c p u w rn rd off s = .next t) : Ends s t := by
  have hstored := ((KeepsControl.refl s).store .n (s.singleAddress p u rn off) (s.transferAttrs user true byte)
    (s.reg rd 12#32)).writeBack p w rn (s.modifiedBase u rn off)
  rcases storeSingle_next h with ⟨-, rfl⟩ | ⟨-, rfl | rfl⟩
  · exact .goesOn (KeepsControl.refl s).executed
  · exact hstored.dataAbort
  · exact .goesOn hstored.executed

theorem swap_ends {byte : Bool} {c : Cond} {rn rd rm : RegNum} {s t : State}
    (h : swap byte c rn rd rm s = .next t) : Ends s t := by
  have hread := (KeepsControl.refl s).cycle (readCycle .n (s.reg rn 8#32) (s.lockedAttrs false byte))
  rcases swap_next h with ⟨-, rfl⟩ | rfl | rfl
  · exact .goesOn (KeepsControl.refl s).executed
  · exact (hread.lockedStore _ _ _ _).internal.dataAbort
  · exact .goesOn ((hread.lockedStore _ _ _ _).internal.setReg rd _).executed

/-! ## How the PSR transfers end -/

theorem writeSpsr_ends {s t : State} {f : Word → Word} (hf : ∀ p, psrDefined p = true → psrDefined (f p) = true)
    (h : s.writeSpsr f = .next t) : Ends s t := by
  obtain ⟨p, hp, rfl⟩ := writeSpsr_next h
  exact .goesOn ⟨rfl, rfl, .spsr (spsr?_privileged hp) fun hs => hf p (spsrs_get_defined hs hp), id⟩

theorem writeCpsrAll_ends {s t : State} {v : Word} (h : s.writeCpsrAll v = .next t) : Ends s t := by
  rcases writeCpsrAll_next h with ⟨-, rfl⟩ | ⟨hpriv, m, hm, rfl⟩
  · exact .goesOn ((KeepsControl.refl s).withTop _)
  · exact .goesOn ((KeepsControl.refl s).withCpsr hpriv hm)

theorem writeCpsrFlags_ends {s t : State} {v : Word} (h : s.writeCpsrFlags v = .next t) : Ends s t := by
  cases h
  exact .goesOn ((KeepsControl.refl s).withTop _)

/-- The two MSR forms of the flag bits, of a register and of an immediate (43_psr_transfer.md R234, R235). -/
theorem writeFlagBits_ends {s t : State} {pd : Bool} {v : Word}
    (h : (if pd then s.writeSpsr (fun p => psrWithTop p (v.extractLsb' 28 4)) else s.writeCpsrFlags v) = .next t) :
    Ends s t := by
  split at h
  · exact writeSpsr_ends (fun p hp => psrDefined_withTop hp _) h
  · exact writeCpsrFlags_ends h

theorem execMrs_ends {c : Cond} {ps : Bool} {rd : RegNum} {s t : State} (h : execMrs c ps rd s = .next t) :
    Ends s t := by
  have hread : ∀ v, Ends s (s.setReg rd v).advance := fun v => .goesOn ((KeepsControl.refl s).setReg rd v).executed
  refine conditional_ends h fun h => ?_
  split at h
  · cases h
  · split at h
    · split at h
      · cases h
      · cases h; exact hread _
    · cases h; exact hread _

theorem execMsrRegAll_ends {c : Cond} {pd : Bool} {rm : RegNum} {s t : State}
    (h : execMsrRegAll c pd rm s = .next t) : Ends s t := by
  refine conditional_ends h fun h => ?_
  split at h
  · cases h
  · cases pd with
    | true => exact writeSpsr_ends (fun _ _ => psrDefined_keep _) h
    | false => exact writeCpsrAll_ends h

theorem execMsrRegFlg_ends {c : Cond} {pd : Bool} {rm : RegNum} {s t : State}
    (h : execMsrRegFlg c pd rm s = .next t) : Ends s t := by
  refine conditional_ends h fun h => ?_
  split at h
  · cases h
  · exact writeFlagBits_ends h

theorem execMsrImmFlg_ends {c : Cond} {pd : Bool} {rot : BitVec 4} {imm8 : BitVec 8} {s t : State}
    (h : execMsrImmFlg c pd rot imm8 s = .next t) : Ends s t := conditional_ends h writeFlagBits_ends

/-! ## How the other instructions end -/

theorem execMul_ends {c : Cond} {sBit : Bool} {rd rn rs rm : RegNum} {s t : State}
    (h : execMul c sBit rd rn rs rm s = .next t) : Ends s t := by
  refine conditional_ends h fun h => ?_
  split at h
  · cases h
  · exact multiplyResult_ends h

theorem execMla_ends {c : Cond} {sBit : Bool} {rd rn rs rm : RegNum} {s t : State}
    (h : execMla c sBit rd rn rs rm s = .next t) : Ends s t := by
  refine conditional_ends h fun h => ?_
  split at h
  · cases h
  · exact multiplyResult_ends h

theorem execLdm_ends {c : Cond} {p u sBit w : Bool} {rn : RegNum} {list : BitVec 16} {s t : State}
    (h : execLdm c p u sBit w rn list s = .next t) : Ends s t := by
  refine conditional_ends h fun h => ?_
  split at h
  · cases h
  · dsimp only at h
    have hread := (((KeepsControl.refl s).readRun (s.dataAttrs false false) .n (listRegs list).length
      (s.blockFirst p u rn list)).internal).loadRegs (s.blockBank (sBit && !inList list 15#4)) (listRegs list)
        (State.readRun (s.dataAttrs false false) .n (listRegs list).length (s.blockFirst p u rn list) s).1
    split at h
    · cases h; exact (hread.setReg rn _).dataAbort
    · generalize he : (if (w && !inList list rn) = true then State.setReg _ rn _ else _) = e at h
      have hloaded : KeepsControl s e := by
        rw [← he]
        split
        · exact hread.setReg rn _
        · exact hread
      split at h
      · split at h
        · obtain ⟨q, m, hq, hm, rfl⟩ := returnTo_next h
          exact .branches (hloaded.restored hq hm) _
        · cases h; exact .branches hloaded.executed _
      · split at h
        · cases h; exact .shadows hloaded.executed
        · cases h; exact .goesOn hloaded.executed

theorem execStm_ends {c : Cond} {p u sBit w : Bool} {rn : RegNum} {list : BitVec 16} {s t : State}
    (h : execStm c p u sBit w rn list s = .next t) : Ends s t := by
  refine conditional_ends h fun h => ?_
  split at h
  · cases h
  · dsimp only at h
    have hstored := (KeepsControl.refl s).writeRun (s.dataAttrs true false) .n (s.blockFirst p u rn list)
      (s.blockValues sBit w rn (s.baseOf rn) (s.blockBase u rn list) true (listRegs list))
    have hbase := hstored.cpWriteBack w rn (s.blockBase u rn list)
    split at h
    · cases h; exact hbase.dataAbort
    · cases h; exact .goesOn hbase.executed

theorem execCdp_ends {c : Cond} {cpOpc crn crd cpNum : BitVec 4} {cp : BitVec 3} {crm : BitVec 4} {s t : State}
    (h : execCdp c cpOpc crn crd cpNum cp crm s = .next t) : Ends s t := by
  refine conditional_ends h fun h => offer_ends h fun u w ws hu h => ?_
  cases h
  exact .goesOn (hu.cpTell cpNum _).executed

theorem execMrc_ends {c : Cond} {cpOpc : BitVec 3} {crn : BitVec 4} {rd : RegNum} {cpNum : BitVec 4}
    {cp : BitVec 3} {crm : BitVec 4} {s t : State} (h : execMrc c cpOpc crn rd cpNum cp crm s = .next t) :
    Ends s t := by
  refine conditional_ends h fun h => offer_ends h fun u w ws hu h => ?_
  have hmoved := ((hu.cpTell cpNum [.mrc (encode (.mrc c cpOpc crn rd cpNum cp crm))]).cycle
    (s.transferCycle false w)).internal
  cases h
  split
  · exact .goesOn (hmoved.withTop _)
  · exact .goesOn (hmoved.setReg rd w).executed

theorem execMcr_ends {c : Cond} {cpOpc : BitVec 3} {crn : BitVec 4} {rd : RegNum} {cpNum : BitVec 4}
    {cp : BitVec 3} {crm : BitVec 4} {s t : State} (h : execMcr c cpOpc crn rd cpNum cp crm s = .next t) :
    Ends s t := by
  refine conditional_ends h fun h => offer_ends h fun u w ws hu h => ?_
  cases h
  exact .goesOn ((hu.cpTell cpNum _).cycle _).executed

theorem execLdc_ends {c : Cond} {p u n w : Bool} {rn : RegNum} {crd cpNum : BitVec 4} {offset : BitVec 8}
    {s t : State} (h : execLdc c p u n w rn crd cpNum offset s = .next t) : Ends s t := by
  refine conditional_ends h fun h => offer_ends h fun v word more hv h => ?_
  split at h
  · cases h
  · cases h
    exact (((hv.readRun _ _ _ _).cpTell cpNum _).cpWriteBack w rn _).cpFinish _

theorem execStc_ends {c : Cond} {p u n w : Bool} {rn : RegNum} {crd cpNum : BitVec 4} {offset : BitVec 8}
    {s t : State} (h : execStc c p u n w rn crd cpNum offset s = .next t) : Ends s t := by
  refine conditional_ends h fun h => offer_ends h fun v word more hv h => ?_
  split at h
  · cases h
  · cases h
    exact (((hv.writeRun _ _ _ _).cpTell cpNum _).cpWriteBack w rn _).cpFinish _

/-- Every instruction that answers a next state ends in one of the five ways. -/
theorem exec_ends {i : Instr} {s t : State} (h : exec i s = .next t) : Ends s t := by
  have hs := KeepsControl.refl s
  cases i with
  | b => exact conditional_ends h (by rintro ⟨⟩; exact .branches hs.executed _)
  | bl => exact conditional_ends h (by rintro ⟨⟩; exact .branches (hs.setReg _ _).executed _)
  | swi => exact conditional_ends h (by rintro ⟨⟩; exact .enters hs (by simp [ownExceptions]) _)
  | undefined => exact conditional_ends h (by rintro ⟨⟩; exact .enters (hs.present _) (by simp [ownExceptions]) _)
  | notDefinedA | notDefinedB => exact conditional_ends h nofun
  | and | eor | sub | rsb | add | adc | sbc | rsc | orr | mov | bic | mvn => exact dataProcess_ends h
  | tst | teq | cmp | cmn => exact dataCompare_ends h
  | mul _ _ _ rn => exact execMul_ends (rn := rn) h
  | mla => exact execMla_ends h
  | mrs => exact execMrs_ends h
  | msrRegAll => exact execMsrRegAll_ends h
  | msrRegFlg => exact execMsrRegFlg_ends h
  | msrImmFlg => exact execMsrImmFlg_ends h
  | ldr | ldrb | ldrt | ldrbt => exact loadSingle_ends h
  | str | strb | strt | strbt => exact storeSingle_ends h
  | ldm => exact execLdm_ends h
  | stm => exact execStm_ends h
  | swp | swpb => exact swap_ends h
  | cdp => exact execCdp_ends h
  | mrc => exact execMrc_ends h
  | mcr => exact execMcr_ends h
  | ldc => exact execLdc_ends h
  | stc => exact execStc_ends h

end Sys2Proof.Machine

/-! # The invariant of the machine -/

namespace Sys2Proof.Machine

/-! ## Word addresses -/

theorem wordAddress_iff (a : Word) : a.extractLsb' 0 2 = 0#2 ↔ a.toNat % 4 = 0 := by
  rw [← BitVec.toNat_inj, BitVec.extractLsb'_toNat]
  simp

/-- A word address stays one when a number of words is added, modulo 2^32 (20_memory.md R83). -/
theorem wordAddress_add {a : Word} (h : a.toNat % 4 = 0) (k : Nat) : (a + BitVec.ofNat 32 (4 * k)).toNat % 4 = 0 := by
  rw [BitVec.toNat_add, BitVec.toNat_ofNat]
  omega

/-- The target of a branch loses its bits 1 and 0 (10_state.md R43). -/
theorem wordAddress_target (a : Word) : (a &&& 0xFFFFFFFC#32).toNat % 4 = 0 := by
  change wordKey a % 4 = 0
  rw [wordKey_eq]
  exact Nat.mul_mod_left _ 4

theorem wordAddress_vector (e : Exc) : e.vector.toNat % 4 = 0 := by cases e <;> rfl

/-! ## The invariant by its parts -/

/-- The invariant `State.sound`, one field for each of its parts. -/
structure Sound (s : State) : Prop where
  pc : s.pc.toNat % 4 = 0
  mode : ∃ m, Mode.ofBits (psrMode s.cpsr) = some m
  cpsr : psrDefined s.cpsr = true
  spsrs : s.spsrs.defined = true
  pipe : s.pipe.length ≤ 3
  mem : s.mem.wf = true

theorem sound_iff (s : State) : s.sound = true ↔ Sound s := by
  simp only [State.sound, Bool.and_eq_true, beq_iff_eq, wordAddress_iff, Option.isSome_iff_exists, decide_eq_true_eq]
  constructor
  · rintro ⟨⟨⟨⟨⟨hpc, hmode⟩, hcpsr⟩, hspsrs⟩, hpipe⟩, hmem⟩
    exact ⟨hpc, hmode, hcpsr, hspsrs, hpipe, hmem⟩
  · rintro ⟨hpc, hmode, hcpsr, hspsrs, hpipe, hmem⟩
    exact ⟨⟨⟨⟨⟨hpc, hmode⟩, hcpsr⟩, hspsrs⟩, hpipe⟩, hmem⟩

/-! ## An instruction keeps it -/

/-- The status registers after a change that an instruction can make are those of a sound state (10_state.md R23, R36). -/
theorem StatusChange.sound {s : State} {p : Word} {r : Spsrs} (h : StatusChange s p r) (hs : Sound s) :
    (∃ m, Mode.ofBits (psrMode p) = some m) ∧ psrDefined p = true ∧ r.defined = true := by
  cases h with
  | none => exact ⟨hs.mode, hs.cpsr, hs.spsrs⟩
  | flags top => exact ⟨by rw [psrMode_withTop]; exact hs.mode, psrDefined_withTop hs.cpsr top, hs.spsrs⟩
  | cpsr _ hm => exact ⟨⟨_, by rw [psrMode_keep]; exact hm⟩, psrDefined_keep _, hs.spsrs⟩
  | spsr _ hv => exact ⟨hs.mode, hs.cpsr, spsrs_set_defined hs.spsrs _ (hv hs.spsrs)⟩

namespace Sound

variable {s u : State}

theorem executed (hs : Sound s) (h : Executed s u) : Sound u := by
  obtain ⟨hmode, hcpsr, hspsrs⟩ := h.status.sound hs
  exact ⟨h.pc ▸ hs.pc, hmode, hcpsr, hspsrs, h.pipe ▸ hs.pipe, h.wf hs.mem⟩

theorem keepsControl (hs : Sound s) (h : KeepsControl s u) : Sound u := hs.executed h.executed

theorem advance (hs : Sound s) : Sound s.advance :=
  { hs with
    pc := wordAddress_add hs.pc 1
    pipe := by
      have := hs.pipe
      simp only [advance_pipe, List.length_tail]
      omega }

theorem branchTo (hs : Sound s) (target : Word) : Sound (s.branchTo target) :=
  { hs with pc := wordAddress_target target, pipe := Nat.zero_le 3 }

/-- An exception entry reaches a sound state (60_exceptions.md R371, R380). -/
theorem enter (hs : Sound s) (e : Exc) (ret : Word) : Sound (s.enter e ret) :=
  { pc := wordAddress_vector e
    mode := ⟨e.mode, by simp [psrMode_newCpsr]⟩
    cpsr := psrDefined_newCpsr hs.cpsr e
    spsrs := spsrs_set_defined hs.spsrs e.mode hs.cpsr
    pipe := Nat.zero_le 3
    mem := hs.mem }

theorem ends (hs : Sound s) (h : Ends s u) : Sound u := by
  cases h with
  | waits h => exact hs.keepsControl h
  | goesOn h => exact (hs.executed h).advance
  | shadows h => exact { (hs.executed h).advance with }
  | branches h target => exact (hs.executed h).branchTo target
  | enters h _ ret => exact (hs.keepsControl h).enter _ ret

theorem runHead (hs : Sound s) (h : s.runHead = .next u) : Sound u := by
  rcases runHead_next h with ⟨-, rfl⟩ | ⟨-, h⟩
  · exact hs.enter .prefetchAbort _
  · exact hs.ends (exec_ends h)

/-! ## The fetches and the boundary keep it -/

/-- A state that differs in what fetches change: the pipeline, up to three words, and the memory. -/
theorem sameButBus (hs : Sound s) (h : SameButBus s u) (hpipe : u.pipe.length ≤ 3) (hmem : u.mem.wf = true) : Sound u :=
  ⟨h.pc ▸ hs.pc, h.cpsr ▸ hs.mode, h.cpsr ▸ hs.cpsr, h.spsrs ▸ hs.spsrs, hpipe, hmem⟩

theorem fillTo (hs : Sound s) : Sound (s.fillTo 2) := by
  obtain ⟨hsame, -, hlength⟩ := fillTo_same s 2
  have := hs.pipe
  exact hs.sameButBus hsame (by omega) (fillTo_wf hs.mem 2)

theorem startCycle (hs : Sound s) : Sound s.startCycle := by
  obtain ⟨hsame, -, hlength⟩ := startCycle_same s
  have := hs.pipe
  exact hs.sameButBus hsame (by omega) (startCycle_wf hs.mem)

theorem sample (hs : Sound s) : Sound s.sample := by
  obtain ⟨-, hpc, hcpsr, hspsrs, hpipe, -⟩ := sample_frame s
  exact ⟨hpc ▸ hs.pc, hcpsr ▸ hs.mode, hcpsr ▸ hs.cpsr, hspsrs ▸ hs.spsrs, hpipe ▸ hs.pipe, sample_wf hs.mem⟩

theorem takeInterrupt (hs : Sound s) (e : Exc) : Sound (s.takeInterrupt e) := by
  obtain ⟨-, hpc, hcpsr, hspsrs, -, -, -, -, hlength⟩ := takeInterrupt_same s e
  have hentered := hs.enter e (s.pc + 4#32)
  exact ⟨hpc ▸ hentered.pc, hcpsr ▸ hentered.mode, hcpsr ▸ hentered.cpsr, hspsrs ▸ hentered.spsrs, by omega,
    takeInterrupt_wf hs.mem e⟩

/-- An instruction that began in a sound state is abandoned in one (70_reset_and_hazards.md R421). -/
theorem abandon (hstart : Sound s) (hmem : u.mem.wf = true) (keys : List Nat) : Sound (u.abandon s keys) :=
  { pc := wordAddress_add hstart.pc _
    mode := by rw [abandon_mode]; exact hstart.mode
    cpsr := psrDefined_withTop hstart.cpsr _
    spsrs := abandon_spsrs_defined u s keys
    pipe := Nat.zero_le 3
    mem := abandon_wf hmem s keys }

theorem tick (hs : Sound s) (n : Nat) : Sound { s with tick := n } := { hs with }

theorem boundary (hs : Sound s) (hu : Sound u) : Sound (s.boundary u) := by
  rcases boundary_eq s u with ⟨-, e⟩ | ⟨-, e⟩
  · rw [e]
    refine tick (checkInterrupts_keeps (P := Sound) ?_ ?_ ?_ 3 _ hu.fillTo) _
    · exact fun _ h => h.sample
    · exact fun _ e h _ => h.takeInterrupt e
    · exact fun _ h => h.abandon h.mem []
  · rw [e]
    exact (hs.abandon hu.sample.mem _).tick _

/-! ## Reset keeps it -/

/-- The reset sequence reaches a sound state (R422). -/
theorem resetEntry (hs : Sound s) : Sound s.resetEntry where
  pc := rfl
  mode := ⟨.svc, by simp [psrMode_setF, psrMode_setI, psrMode_withMode]⟩
  cpsr := psrDefined_setF (psrDefined_setI (psrDefined_withMode hs.cpsr .svc))
  spsrs := spsrs_set_defined hs.spsrs .svc (psrDefined_keep _)
  pipe := Nat.zero_le 3
  mem := hs.mem

/-- The dummy fetch of a step with nRESET LOW (R421). -/
theorem dummyFetch (hs : Sound s) : Sound { { s with bus := [] }.discardedFetch s.pc with
    pc := s.pc + 4#32, pipe := [], ldmShadow := false, busyWait := false } := by
  have hfetched : KeepsControl { s with bus := [] } (State.discardedFetch { s with bus := [] } s.pc) :=
    (KeepsControl.refl _).cycle _
  have hsound : Sound { s with bus := [] } := { hs with }
  exact { hsound.keepsControl hfetched with pc := wordAddress_add hs.pc 1, pipe := Nat.zero_le 3 }

theorem heldInReset (hs : Sound s) : Sound s.heldInReset := by
  unfold State.heldInReset
  refine tick ?_ _
  split
  · exact hs.dummyFetch.sample.resetEntry.fillTo
  · exact hs.dummyFetch.sample

theorem step (hs : Sound s) (h : step s = .next u) : Sound u := by
  obtain ⟨-, -, -, ⟨-, rfl⟩ | ⟨-, v, hv, rfl⟩⟩ := step_next h
  · exact hs.heldInReset
  · exact hs.startCycle.boundary (hs.startCycle.runHead hv)

end Sound

/-- Settles O13: a step is a dummy fetch in reset, or the fetches, an instruction and a boundary, and each keeps every part of
the invariant. -/
theorem stepKeepsSound : Obligations.StepKeepsSound := fun s t hs h =>
  (sound_iff t).mpr (((sound_iff s).mp hs).step h)

/-- Settles O15: the state after reset is a literal. -/
theorem resetState : Obligations.ResetState := by
  unfold Obligations.ResetState
  decide

end Sys2Proof.Machine

/-! # User mode -/

namespace Sys2Proof.Machine

/-- The bits below the flags stay when the flags are written. -/
theorem extract_psrWithTop (p : Word) (top : BitVec 4) : (psrWithTop p top).extractLsb' 0 28 = p.extractLsb' 0 28 := by
  rw [psrWithTop, extract_append_low (by decide)]
  simp

/-- In User mode only the flags can change, unless by an exception (10_state.md R34, R35, R37). -/
theorem StatusChange.user {s : State} {p : Word} {r : Spsrs} (h : StatusChange s p r) (hs : s.mode = .usr) :
    p.extractLsb' 0 28 = s.cpsr.extractLsb' 0 28 ∧ r = s.spsrs := by
  cases h with
  | none => exact ⟨rfl, rfl⟩
  | flags top => exact ⟨extract_psrWithTop _ top, rfl⟩
  | cpsr hpriv | spsr hpriv => exact absurd hs hpriv

/-- The exceptions an instruction takes leave F, and enter a privileged mode (60_exceptions.md R372, R381). -/
theorem ownExceptions_mode {e : Exc} (he : e ∈ ownExceptions) : e ≠ .fiq ∧ e.mode ≠ .usr := by
  cases e <;> simp_all [ownExceptions, Exc.mode]

/-- Settles O59: of the ways an instruction can end, only an exception entry changes a control bit or an SPSR in User mode,
and it saves the CPSR. -/
theorem userModeKeepsControl : Obligations.UserModeKeepsControl := by
  intro i s t hs hexec
  cases exec_ends hexec with
  | waits h => exact .inl ⟨by rw [h.cpsr], h.spsrs⟩
  | goesOn h | shadows h | branches h => exact .inl (h.status.user hs)
  | @enters u hu e he ret =>
    obtain ⟨hfiq, hmode⟩ := ownExceptions_mode he
    refine .inr ⟨e, he, rfl, ?_, ?_, ?_, ?_, ?_, fun m hm => ?_⟩
    · rw [enter_cpsr, psrMode_newCpsr]
    · rw [enter_cpsr, psrI_newCpsr]
    · simp [psrF_newCpsr, hu.cpsr, hfiq]
    · simp [State.flags, psrFlags_newCpsr, hu.cpsr]
    · simp [spsrs_get_set, hu.cpsr, hmode]
    · simp [spsrs_get_set, hu.spsrs, hm.symm]

end Sys2Proof.Machine

/-! # Reading the registers -/

namespace Sys2Proof.Machine

/-! ## The register a number names -/

theorem phys_shared (m : Mode) (n : RegNum) (h : n.toNat ≤ 7) : phys m n = some (.low (Fin.ofNat 13 n.toNat)) := by
  revert n
  cases m <;> decide

theorem phys_high (m : Mode) (n : RegNum) (h8 : 8 ≤ n.toNat) (h12 : n.toNat ≤ 12) :
    phys m n = some (if m = .fiq then .highFiq (Fin.ofNat 5 (n.toNat - 8)) else .low (Fin.ofNat 13 n.toNat)) := by
  revert n
  cases m <;> decide

/-- R8 to R12 are banked for FIQ only, R0 to R7 for no mode (10_state.md R24). -/
theorem isBanked_false {m : Mode} {n : RegNum} (h : m = .usr ∨ n.toNat ≤ 7 ∨ (n.toNat ≤ 12 ∧ m ≠ .fiq)) :
    isBanked m n = false := by
  have hsame : phys m n = phys .usr n := by
    rcases h with rfl | h7 | ⟨h12, hm⟩
    · rfl
    · rw [phys_shared m n h7, phys_shared .usr n h7]
    · by_cases h7 : n.toNat ≤ 7
      · rw [phys_shared m n h7, phys_shared .usr n h7]
      · rw [phys_high m n (by omega) h12, phys_high .usr n (by omega) h12, if_neg hm, if_neg (by decide)]
  simp [isBanked, hsame]

/-! ## What a read gives -/

/-- A read gives the register, unless the hazard of a User bank LDM reaches it (70_reset_and_hazards.md R432). -/
theorem regIn_gpr {s : State} {bank : Mode} {n : RegNum} {q : PhysReg} (hq : phys bank n = some q)
    (h : s.ldmShadow = false ∨ isBanked s.mode n = false) (ahead : Word) : s.regIn bank n ahead = s.gpr q := by
  rcases h with h | h <;> simp [State.regIn, hq, h]

/-- Only R15 reads by how far the PC runs ahead (10_state.md R28). -/
theorem reg_ahead (s : State) {n : RegNum} (h : n ≠ 15#4) (a b : Word) : s.reg n a = s.reg n b := by
  cases hq : phys s.mode n with
  | none => exact absurd ((phys_eq_none s.mode n).mp hq) h
  | some q => simp [State.reg, State.regIn, hq]

/-- A shift by a register whose bottom byte is 0 leaves the operand and the carry (42_data_processing.md R188). -/
theorem shiftByReg_zero (ty : ShiftType) (rm : Word) (carry : Bool) : shiftByReg ty 0#8 rm carry = (rm, carry) := rfl

/-- R15 as the shifted register reads as the instruction's address plus 12 when a register gives the amount (R181). -/
theorem operand2_shiftReg_pc {s : State} {rs : RegNum} (hrs : rs ≠ 15#4)
    (h : (s.reg rs 0#32).extractLsb' 0 8 = 0#8) (ty : ShiftType) :
    s.operand2 (.shiftReg 15#4 ty rs) = (s.pc + 12#32, s.flags.c) := by
  rw [State.operand2, reg_ahead s hrs 12#32 0#32, h, shiftByReg_zero, reg_pc]

theorem operand2_shiftImm_pc (s : State) : s.operand2 (.shiftImm 15#4 .lsl 0#5) = (s.pc + 8#32, s.flags.c) := by
  rw [State.operand2, reg_pc]
  rfl

/-- Settles O4: the table of `phys`, the register file as a map, and the reads, each by its own lemma. -/
theorem registerReads : Obligations.RegisterReads := by
  refine ⟨fun m n => ⟨phys_shared m n, phys_high m n, rfl, rfl, rfl⟩, gpr_setGpr, ?_, fun s n ahead => ⟨rfl, reg_pc s ahead⟩,
    fun s rot imm8 rm rs ty amount => ⟨rfl, rfl, rfl, operand2_shiftImm_pc s, fun hrs h => operand2_shiftReg_pc hrs h ty⟩⟩
  intro s bank n q ahead hq h
  exact regIn_gpr hq (h.imp_right isBanked_false) ahead

end Sys2Proof.Machine

/-! # The layout of a PSR -/

namespace Sys2Proof.Machine

/-- The mask of the defined bits leaves out bits 27 to 8 and 5 (10_state.md R36). -/
theorem reserved_bit (i : Nat) (h : i < 32) : (0xF00000DF#32).getLsbD i = false ↔ 8 ≤ i ∧ i ≤ 27 ∨ i = 5 := by
  have hbits : ∀ i : Fin 32, (0xF00000DF#32).getLsbD i.val = false ↔ 8 ≤ i.val ∧ i.val ≤ 27 ∨ i.val = 5 := by decide
  exact hbits ⟨i, h⟩

theorem psrDefined_iff_reserved (p : Word) :
    psrDefined p = true ↔ ∀ i, 8 ≤ i ∧ i ≤ 27 ∨ i = 5 → p.getLsbD i = false := by
  rw [psrDefined_iff]
  constructor
  · intro h i hi
    have hlt : i < 32 := by omega
    exact h i hlt ((reserved_bit i hlt).mpr hi)
  · intro h i hlt hi
    exact h i ((reserved_bit i hlt).mp hi)

theorem psrMode_toNat (p : Word) : (psrMode p).toNat = p.toNat % 32 := by
  simp [psrMode, BitVec.extractLsb'_toNat]

/-- The six codes of the modes, and no other, name a mode (R23, R35). -/
theorem mode_ofBits_iff (b : BitVec 5) (m : Mode) : Mode.ofBits b = some m ↔ b = m.bits :=
  ⟨fun h => (mode_bits_of_ofBits h).symm, fun h => by rw [h, mode_ofBits_bits]⟩

/-- Settles O5: the fields are read bit by bit, and the reserved bits are those the mask leaves out. -/
theorem psrLayout : Obligations.PsrLayout :=
  ⟨fun p => ⟨rfl, rfl, rfl, psrMode_toNat p, psrDefined_iff_reserved p⟩, mode_ofBits_iff, rfl, rfl, rfl, rfl, rfl, rfl⟩

end Sys2Proof.Machine

/-! # A step runs the instruction at the head of the pipeline -/

namespace Sys2Proof.Machine

/-! ## The fetches of a step -/

/-- Bus cycles do not look at the pipeline. -/
theorem cycle_withPipe (s : State) (pipe : List Slot) (c : BusCycle) :
    State.cycle { s with pipe } c = { s.cycle c with pipe } := by
  cases h : s.moments <;> simp [State.cycle, State.environment, h]

theorem passing_withPipe (s : State) (pipe : List Slot) (cs : List BusCycle) :
    State.passing { s with pipe } cs = { s.passing cs with pipe } := by
  induction cs generalizing s with
  | nil => rfl
  | cons c cs ih =>
    change State.passing (State.cycle { s with pipe } c) cs = _
    rw [cycle_withPipe]
    exact ih (s.cycle c)

/-- From `s` to `t` some bus cycles have been made, which brought new words into the pipeline; nothing else has changed. -/
def Fetches (s t : State) : Prop := ∃ cs, t = { s.passing cs with pipe := t.pipe }

theorem Fetches.refl (s : State) : Fetches s s := ⟨[], rfl⟩

theorem Fetches.trans {s t u : State} (h : Fetches s t) (g : Fetches t u) : Fetches s u := by
  obtain ⟨cs, hcs⟩ := h
  obtain ⟨ds, hds⟩ := g
  refine ⟨cs ++ ds, hds.trans ?_⟩
  rw [hcs, passing_withPipe, passing_append]

theorem fetchOne_fetches (s : State) (nCPI : Bool) : Fetches s (s.fetchOne nCPI) := ⟨[_], rfl⟩

theorem fetchMany_fetches (k : Nat) (s : State) : Fetches s (State.fetchMany k s) := by
  induction k generalizing s with
  | zero => exact .refl s
  | succ k ih => exact (fetchOne_fetches s true).trans (ih (s.fetchOne true))

theorem startCycle_fetches (s : State) : Fetches { s with bus := [] } s.startCycle := by
  have hfilled : Fetches { s with bus := [] } (State.fillTo { s with bus := [] } 2) := fetchMany_fetches _ _
  unfold State.startCycle
  dsimp only
  split
  · exact hfilled.trans (fetchOne_fetches _ _)
  · exact hfilled

/-- The cycles of the fetches are those on the bus. -/
theorem Fetches.eq_passing {s t : State} (h : Fetches s t) (hbus : s.bus = []) :
    t = { s.passing t.bus with pipe := t.pipe } := by
  obtain ⟨cs, hcs⟩ := h
  have htrace : t.bus = cs := by
    rw [hcs]
    change (s.passing cs).bus = cs
    rw [passing_bus, hbus, List.nil_append]
  rw [htrace]
  exact hcs

/-! ## The instruction and its boundary -/

theorem endStep_eq (s : State) :
    s.endStep = if s.inputs.PROG32 ∧ s.inputs.DATA32 then .next s else .refused .configuration26Bit :=
  ite_congr (propext (supported_iff s.inputs)) (fun _ => rfl) (fun _ => rfl)

theorem runHead_decoded {s : State} {i : Instr} (ha : s.head.aborted = false) (hi : decodeWord s.head.word = i) :
    s.runHead = exec i s := by
  simp [State.runHead, ha, State.headInstr, hi]

/-- Settles O10: the head of the pipeline is known after the fetches, and the step is its instruction and the boundary. -/
theorem stepRunsInstruction : Obligations.StepRunsInstruction := by
  intro s i hrun hhead
  obtain ⟨-, hwords, hlength⟩ := startCycle_same s
  obtain ⟨ha, hi⟩ : s.startCycle.head.aborted = false ∧ decodeWord s.startCycle.head.word = i := by
    rw [startCycle_head]
    cases hp : s.pipe <;> rwa [hp] at hhead
  refine ⟨?_, (startCycle_fetches s).eq_passing rfl, hwords, hlength⟩
  rw [step_running hrun, State.runStep, runHead_decoded ha hi]
  cases exec i s.startCycle with
  | next t => exact endStep_eq _
  | fault f => rfl
  | refused r => rfl

end Sys2Proof.Machine

/-! # The attributes of a bus cycle -/

namespace Sys2Proof.Machine

/-- nTRANS is HIGH in the privileged modes (20_memory.md R81). -/
theorem nTRANS_eq (s : State) : s.nTRANS = decide (s.mode ≠ .usr) := by
  rw [State.nTRANS]
  cases s.mode <;> rfl

/-- Settles O6: the attributes are those of their definitions, nTRANS being HIGH outside User mode. -/
theorem cycleAttributes : Obligations.CycleAttributes := by
  refine ⟨fun s write byte => ?_, rfl⟩
  dsimp only
  rw [← nTRANS_eq]
  exact ⟨rfl, rfl, rfl, rfl, rfl⟩

end Sys2Proof.Machine

/-! # Words and bytes in both byte orders -/

namespace Sys2Proof.Machine

/-! ## The four byte addresses of a word -/

theorem toNat_word_add {a : Word} (ha : a.toNat % 4 = 0) {k : Nat} (hk : k < 4) :
    (a + BitVec.ofNat 32 k).toNat = a.toNat + k := by
  have := a.isLt
  rw [BitVec.toNat_add, BitVec.toNat_ofNat]
  omega

/-- Bits 1 and 0 of an address. -/
theorem extract_low_toNat (a : Word) : (a.extractLsb' 0 2).toNat = a.toNat % 4 := by simp [BitVec.extractLsb'_toNat]

/-- Addresses of one word read the same bus word (20_memory.md R65). -/
theorem word_congr (m : Memory) {a b : Word} (h : b.toNat / 4 = a.toNat / 4) : m.word b = m.word a := by
  rw [Memory.word, Memory.word, wordKey_eq, wordKey_eq, h]

/-- The bytes of a word are its lanes, counted from the other end in big-endian (R62). -/
theorem byteAt_word (s : State) {a : Word} (ha : a.toNat % 4 = 0) {k : Nat} (hk : k < 4) :
    s.byteAt (a + BitVec.ofNat 32 k) =
      if s.inputs.BIGEND then (s.mem.word a).extractLsb' (24 - 8 * k) 8 else (s.mem.word a).extractLsb' (8 * k) 8 := by
  have haddr := toNat_word_add ha hk
  have hlane : (a + BitVec.ofNat 32 k).toNat % 4 = k := by omega
  rw [State.byteAt, ← laneByte_word, word_congr s.mem (a := a) (by omega), laneByte, extract_low_toNat, hlane,
    apply_ite (8 * ·), Nat.mul_sub]
  split <;> rfl

/-- A word is its four bytes (R62). -/
theorem word_eq_bytes (s : State) {a : Word} (ha : a.toNat % 4 = 0) :
    s.mem.word a =
      if s.inputs.BIGEND then s.byteAt a ++ s.byteAt (a + 1#32) ++ s.byteAt (a + 2#32) ++ s.byteAt (a + 3#32)
      else s.byteAt (a + 3#32) ++ s.byteAt (a + 2#32) ++ s.byteAt (a + 1#32) ++ s.byteAt a := by
  have h0 := byteAt_word s ha (k := 0) (by omega)
  have h1 := byteAt_word s ha (k := 1) (by omega)
  have h2 := byteAt_word s ha (k := 2) (by omega)
  have h3 := byteAt_word s ha (k := 3) (by omega)
  rw [BitVec.add_zero] at h0
  rw [h0, h1, h2, h3]
  cases s.inputs.BIGEND <;> exact (word_split _).symm

/-! ## What a read gives and a write leaves -/

/-- A word read has the byte of lane A[1:0] in bits 7 to 0 (R64). -/
theorem readData_word_bit (s : State) {t : BusAttrs} (ht : t.nBW = true) {a : Word} (ha : a.toNat % 4 = 0) {k : Nat}
    (hk : k < 4) {i : Nat} (hi : i < 32) :
    (s.readData (a + BitVec.ofNat 32 k) t).getLsbD i =
      (s.busWord (a + BitVec.ofNat 32 k) t).getLsbD ((i + 8 * k) % 32) := by
  have haddr := toNat_word_add ha hk
  have hlane : (a + BitVec.ofNat 32 k).toNat % 4 = k := by omega
  rw [State.readData, if_pos ht, extract_low_toNat, hlane, BitVec.getLsbD_rotateRight, Nat.mod_eq_of_lt (by omega),
    Bool.cond_decide]
  split
  · congr 1
    omega
  · rw [decide_eq_true hi, Bool.true_and]
    congr 1
    omega

theorem readData_eq_loaded (s : State) (a : Word) (t : BusAttrs) : s.readData a t = s.loaded a t := by
  rw [State.readData, State.loaded, extract_low_toNat]

/-- A written word reads back byte by byte (R67, R69). -/
theorem byteAt_writeWord {s : State} (h : s.mem.wf = true) {a : Word} (ha : a.toNat % 4 = 0) (v : Word) {k : Nat}
    (hk : k < 4) :
    (s.writeData false a v).byteAt (a + BitVec.ofNat 32 k) =
      if s.inputs.BIGEND then v.extractLsb' (24 - 8 * k) 8 else v.extractLsb' (8 * k) 8 := by
  have hword : (s.writeData false a v).mem.word a = v := word_setWord h a v rfl
  rw [byteAt_word _ ha hk, hword, writeData_inputs]

/-- Four bytes stored one after the other, the first at `a` (R68). -/
def State.writeBytes (s : State) (a : Word) (b0 b1 b2 b3 : Byte) : State :=
  (((s.writeData true a (b0.zeroExtend 32)).writeData true (a + 1#32) (b1.zeroExtend 32)).writeData true
    (a + 2#32) (b2.zeroExtend 32)).writeData true (a + 3#32) (b3.zeroExtend 32)

/-- A byte read after the four stores gives the last one to its address. -/
theorem byteAt_writeBytes {s : State} (h : s.mem.wf = true) (a b : Word) (b0 b1 b2 b3 : Byte) :
    (s.writeBytes a b0 b1 b2 b3).byteAt b =
      if a + 3#32 = b then b3 else if a + 2#32 = b then b2 else if a + 1#32 = b then b1 else if a = b then b0
      else s.byteAt b := by
  have hbyte : ∀ x : Byte, (x.zeroExtend 32).extractLsb' 0 8 = x := by
    intro x
    rw [← BitVec.setWidth_eq_extractLsb' (by decide), BitVec.zeroExtend, BitVec.setWidth_setWidth_of_le _ (by decide),
      BitVec.setWidth_eq]
  have h0 := writeData_wf h true a (b0.zeroExtend 32)
  have h1 := writeData_wf h0 true (a + 1#32) (b1.zeroExtend 32)
  have h2 := writeData_wf h1 true (a + 2#32) (b2.zeroExtend 32)
  rw [State.writeBytes, byteAt_writeByte h2, byteAt_writeByte h1, byteAt_writeByte h0, byteAt_writeByte h]
  simp only [hbyte]

/-- Four written bytes read back as a word, the first in its top lane in big-endian (R62, R69). -/
theorem word_writeBytes {s : State} (h : s.mem.wf = true) {a : Word} (ha : a.toNat % 4 = 0) (b0 b1 b2 b3 : Byte) :
    (s.writeBytes a b0 b1 b2 b3).mem.word a =
      if s.inputs.BIGEND then b0 ++ b1 ++ b2 ++ b3 else b3 ++ b2 ++ b1 ++ b0 := by
  have hinputs : (s.writeBytes a b0 b1 b2 b3).inputs = s.inputs := by simp [State.writeBytes]
  rw [word_eq_bytes _ ha, hinputs]
  simp [byteAt_writeBytes h]

/-- Settles O8: reads and writes of a word and of its four bytes, each by its own lemma. -/
theorem byteOrder : Obligations.ByteOrder := fun s t _ v b0 b1 b2 b3 hm ha =>
  ⟨fun ht _ hk _ hi => readData_word_bit s ht ha hk hi, fun ht _ hr => readData_byte hr ht,
    fun b => readData_eq_loaded s b t, fun _ hk => byteAt_writeWord hm ha v hk, word_writeBytes hm ha b0 b1 b2 b3, rfl⟩

end Sys2Proof.Machine

/-! # What an instruction leaves outside the processor -/

namespace Sys2Proof.Machine

/-! ## What the environment depends on

What the environment does in a cycle depends on the pins, the moments to come and the memory (00_scope.md R10, R18). -/

theorem environment_inputs_congr {s t : State} (hi : t.inputs = s.inputs) (hm : t.moments = s.moments) :
    t.environment.inputs = s.environment.inputs := by
  unfold State.environment
  rw [hm]
  split <;> simp [hi]

theorem environment_mem_congr {s t : State} (hm : t.moments = s.moments) (hmem : t.mem = s.mem) :
    t.environment.mem = s.environment.mem := by
  unfold State.environment
  rw [hm]
  split <;> simp [hmem]

/-- Holding back the other masters' writes of a cycle changes nothing else that the environment does in it. -/
theorem holdWrites_environment (s : State) :
    s.holdWrites.environment.inputs = s.environment.inputs ∧
      s.holdWrites.environment.moments = s.environment.moments := by
  cases h : s.moments <;> simp [State.holdWrites, State.environment, h]

theorem passing_concat (s : State) (cs : List BusCycle) (c : BusCycle) :
    s.passing (cs ++ [c]) = (s.passing cs).cycle c := passing_append s cs [c]

/-! ## The outside while an instruction runs -/

/-- What an instruction that began in `s` has done outside the processor when it is in `t`: it has made some bus cycles, in
which the environment acted on the pins; beside that the memory changes only if it `stores`, and the coprocessors only if
it is `offered` to them (20_memory.md R71, R75). -/
def Leaves (stores offered : Bool) (s t : State) : Prop :=
  ∃ cycles : List BusCycle, t.bus = s.bus ++ cycles ∧ t.inputs = (s.passing cycles).inputs ∧
    t.moments = (s.passing cycles).moments ∧ (stores = false → t.mem = (s.passing cycles).mem) ∧
    (offered = false → t.coprocs = s.coprocs)

namespace Leaves

variable {stores offered : Bool} {s u v : State}

theorem refl (s : State) : Leaves stores offered s s :=
  ⟨[], (List.append_nil _).symm, rfl, rfl, fun _ => rfl, fun _ => rfl⟩

/-- An update that makes no cycle, and touches the memory or the coprocessors only where the instruction may. -/
theorem update (h : Leaves stores offered s u) (hbus : v.bus = u.bus := by simp)
    (hinputs : v.inputs = u.inputs := by simp) (hmoments : v.moments = u.moments := by simp)
    (hmem : stores = false → v.mem = u.mem := by simp)
    (hcoprocs : offered = false → v.coprocs = u.coprocs := by simp) : Leaves stores offered s v := by
  obtain ⟨cs, hb, hi, hm, hmemory, hc⟩ := h
  exact ⟨cs, hbus.trans hb, hinputs.trans hi, hmoments.trans hm, fun e => (hmem e).trans (hmemory e),
    fun e => (hcoprocs e).trans (hc e)⟩

theorem cycle (h : Leaves stores offered s u) (c : BusCycle) : Leaves stores offered s (u.cycle c) := by
  obtain ⟨cs, hb, hi, hm, hmem, hc⟩ := h
  refine ⟨cs ++ [c], ?_⟩
  rw [passing_concat]
  refine ⟨by rw [cycle_bus, hb, List.append_assoc], environment_inputs_congr hi hm, ?_,
    fun e => environment_mem_congr hm (hmem e), fun e => (cycle_coprocs u c).trans (hc e)⟩
  rw [cycle_moments, cycle_moments, environment_moments, environment_moments, hm]

theorem passing (h : Leaves stores offered s u) (cs : List BusCycle) : Leaves stores offered s (u.passing cs) := by
  induction cs generalizing u with
  | nil => exact h
  | cons c cs ih => exact ih (h.cycle c)

/-! The operations that make cycles. -/

theorem internal (h : Leaves stores offered s u) : Leaves stores offered s u.internal := h.cycle _

theorem shiftCycle (h : Leaves stores offered s u) (op2 : Operand2) : Leaves stores offered s (u.shiftCycle op2) := by
  rw [shiftCycle_eq]
  exact h.passing _

theorem waitCycle (h : Leaves stores offered s u) : Leaves stores offered s u.waitCycle := by
  unfold State.waitCycle
  exact (h.cycle (u.internalCycle false (u.pc + 8#32))).update

theorem readRun (h : Leaves stores offered s u) (t : BusAttrs) (ty : CycleType) (k : Nat) (a : Word) :
    Leaves stores offered s (State.readRun t ty k a u).2 := by
  rw [readRun_state]
  exact h.passing _

/-! The operations of the instructions that store. -/

theorem busWrite (h : Leaves true offered s u) (a : Word) (t : BusAttrs) (v : Word) :
    Leaves true offered s (u.busWrite a t v) := h.update

theorem store (h : Leaves true offered s u) (ty : CycleType) (a : Word) (t : BusAttrs) (v : Word) :
    Leaves true offered s (u.store ty a t v) := (h.cycle _).busWrite a t v

theorem writeRun (h : Leaves true offered s u) (t : BusAttrs) (ty : CycleType) (a : Word) (vs : List Word) :
    Leaves true offered s (State.writeRun t ty a vs u).2 := by
  induction vs generalizing u ty a with
  | nil => exact h
  | cons v vs ih => exact ih (h.store ty a t v) .s (a + 4#32)

/-- The locked write of a swap is a cycle as any other, but for when the other masters' writes are made (R72). -/
theorem lockedStore (h : Leaves true offered s u) (perform : Bool) (a : Word) (t : BusAttrs) (v : Word) :
    Leaves true offered s (u.lockedStore perform a t v) := by
  obtain ⟨hinputs, hmoments⟩ := holdWrites_environment u
  have hheld : u.holdWrites.bus = u.bus ∧ u.holdWrites.coprocs = u.coprocs := by
    unfold State.holdWrites
    split <;> simp
  have hcycle : Leaves true offered s (u.holdWrites.cycle (writeCycle .n a t (dataOut t v))) :=
    (h.cycle (writeCycle .n a t (dataOut t v))).update (by simp [hheld]) hinputs hmoments nofun (by simp [hheld])
  unfold State.lockedStore
  cases perform with
  | true => exact (hcycle.busWrite a t v).update
  | false => exact hcycle.update

/-! The operations of the instructions that are offered to a coprocessor. -/

theorem present (h : Leaves stores true s u) (w : Word) : Leaves stores true s (u.present w) := h.update

theorem cpAnswered (h : Leaves stores true s u) (num : BitVec 4) (w : Word) :
    Leaves stores true s (u.cpAnswered num w) := h.update

theorem cpTell (h : Leaves stores true s u) (num : BitVec 4) (events : List CpEvent) :
    Leaves stores true s (u.cpTell num events) := h.update

/-! The registers and the end of an instruction are inside the processor. -/

theorem setReg (h : Leaves stores offered s u) (n : RegNum) (v : Word) : Leaves stores offered s (u.setReg n v) :=
  h.update

theorem loadRegs (h : Leaves stores offered s u) (bank : Mode) (l : List RegNum) (vs : List (Option Word)) :
    Leaves stores offered s (State.loadRegs bank l vs u) := by
  obtain ⟨r, hr⟩ := loadRegs_frame bank l vs u
  rw [hr]
  exact h.update

theorem cpWriteBack (h : Leaves stores offered s u) (w : Bool) (rn : RegNum) (v : Word) :
    Leaves stores offered s (u.cpWriteBack w rn v) := by
  unfold State.cpWriteBack
  split
  · exact h.setReg rn v
  · exact h

theorem writeBack (h : Leaves stores offered s u) (p w : Bool) (rn : RegNum) (v : Word) :
    Leaves stores offered s (u.writeBack p w rn v) := h.cpWriteBack (writesBack p w) rn v

/-- The CPSR and the SPSRs written. -/
theorem status (h : Leaves stores offered s u) (cpsr : Word) (spsrs : Spsrs) :
    Leaves stores offered s { u with cpsr, spsrs } := h.update

theorem setFlags (h : Leaves stores offered s u) (f : Flags) : Leaves stores offered s (u.setFlags f) := h.update

theorem advance (h : Leaves stores offered s u) : Leaves stores offered s u.advance := h.update

theorem branchTo (h : Leaves stores offered s u) (a : Word) : Leaves stores offered s (u.branchTo a) := h.update

theorem enter (h : Leaves stores offered s u) (e : Exc) (ret : Word) : Leaves stores offered s (u.enter e ret) :=
  h.update

theorem dataAbort (h : Leaves stores offered s u) : Leaves stores offered s u.dataAbort := (h.cycle _).enter _ _

theorem finish (h : Leaves stores offered s u) (rd : RegNum) (v : Word) : Leaves stores offered s (u.finish rd v) := by
  unfold State.finish
  split
  · exact h.branchTo v
  · exact (h.setReg rd v).advance

theorem cpFinish (h : Leaves stores offered s u) (aborted : Bool) : Leaves stores offered s (u.cpFinish aborted) := by
  unfold State.cpFinish
  split
  · exact h.dataAbort
  · exact h.advance

end Leaves

/-! ## What each template leaves -/

section

variable {stores offered : Bool} {c : Cond} {s t : State}

theorem conditional_leaves {r : Result} (h : s.conditional c r = .next t)
    (hr : r = .next t → Leaves stores offered s t) : Leaves stores offered s t := by
  rcases conditional_next h with ⟨-, h⟩ | ⟨-, rfl⟩
  · exact hr h
  · exact (Leaves.refl s).advance

/-- The trap and the busy-wait store nothing, so that an offer leaves what its acceptance leaves (49_coprocessor.md R343 to
R345). -/
theorem offer_leaves {num : BitVec 4} {code : Word} {f : State → Word → List Word → Result}
    (h : s.offer num code f = .next t)
    (hf : ∀ u w ws, Leaves stores true s u → f u w ws = .next t → Leaves stores true s t) : Leaves stores true s t := by
  have hoffered : Leaves stores true s (s.present code) := (Leaves.refl s).present code
  rcases offer_next h with ⟨-, rfl⟩ | ⟨-, rfl⟩ | ⟨-, rfl⟩ | ⟨w, ws, -, h⟩
  · exact (hoffered.cpAnswered num code).enter _ _
  · exact (hoffered.cpAnswered num code).waitCycle
  · exact hoffered.waitCycle
  · exact hf _ w ws (hoffered.cpAnswered num code) h

theorem dataProcess_leaves {alu : AluOp} {sBit : Bool} {rn rd : RegNum} {op2 : Operand2}
    (h : dataProcess alu c sBit rn rd op2 s = .next t) : Leaves stores offered s t := by
  have hread : Leaves stores offered s (s.shiftCycle op2) := (Leaves.refl s).shiftCycle op2
  rcases dataProcess_next h with
    ⟨-, rfl⟩ | ⟨-, -, rfl⟩ | ⟨-, -, p, m, -, -, rfl⟩ | ⟨-, -, rfl⟩ | ⟨-, -, rfl⟩
  · exact (Leaves.refl s).advance
  · exact hread.branchTo _
  · exact (hread.status _ _).branchTo _
  · exact (hread.setReg rd _).advance
  · exact ((hread.setReg rd _).setFlags _).advance

theorem dataCompare_leaves {alu : AluOp} {rn rd : RegNum} {op2 : Operand2}
    (h : dataCompare alu c rn rd op2 s = .next t) : Leaves stores offered s t := by
  have hread : Leaves stores offered s (s.shiftCycle op2) := (Leaves.refl s).shiftCycle op2
  rcases dataCompare_next h with rfl | rfl | ⟨-, p, m, -, -, rfl⟩ | ⟨-, rfl⟩
  · exact (Leaves.refl s).advance
  · exact hread.advance
  · exact (hread.status _ _).advance
  · exact (hread.setFlags _).advance

theorem multiplyResult_leaves {sBit : Bool} {rd rs : RegNum} {v : Word}
    (h : s.multiplyResult sBit rd rs v = .next t) : Leaves stores offered s t := by
  have hwritten : Leaves stores offered s ((s.passing (s.mulCycles rs)).setReg rd v) :=
    ((Leaves.refl s).passing _).setReg rd v
  cases h
  cases sBit with
  | true => exact (hwritten.setFlags _).advance
  | false => exact hwritten.advance

theorem loadSingle_leaves {byte user p u w : Bool} {rn rd : RegNum} {off : Offset}
    (h : loadSingle byte user c p u w rn rd off s = .next t) : Leaves stores offered s t := by
  have hread := (((Leaves.refl (stores := stores) (offered := offered) s).cycle
    (readCycle .n (s.singleAddress p u rn off) (s.transferAttrs user false byte))).internal).writeBack p w rn
      (s.modifiedBase u rn off)
  rcases loadSingle_next h with ⟨-, rfl⟩ | ⟨-, rfl | rfl⟩
  · exact (Leaves.refl s).advance
  · exact hread.dataAbort
  · exact hread.finish rd _

theorem storeSingle_leaves {byte user p u w : Bool} {rn rd : RegNum} {off : Offset}
    (h : storeSingle byte user c p u w rn rd off s = .next t) : Leaves true offered s t := by
  have hstored := ((Leaves.refl (offered := offered) s).store .n (s.singleAddress p u rn off)
    (s.transferAttrs user true byte) (s.reg rd 12#32)).writeBack p w rn (s.modifiedBase u rn off)
  rcases storeSingle_next h with ⟨-, rfl⟩ | ⟨-, rfl | rfl⟩
  · exact (Leaves.refl s).advance
  · exact hstored.dataAbort
  · exact hstored.advance

theorem swap_leaves {byte : Bool} {rn rd rm : RegNum} (h : swap byte c rn rd rm s = .next t) :
    Leaves true offered s t := by
  have hread := (Leaves.refl (stores := true) (offered := offered) s).cycle
    (readCycle .n (s.reg rn 8#32) (s.lockedAttrs false byte))
  rcases swap_next h with ⟨-, rfl⟩ | rfl | rfl
  · exact (Leaves.refl s).advance
  · exact (hread.lockedStore _ _ _ _).internal.dataAbort
  · exact ((hread.lockedStore _ _ _ _).internal.setReg rd _).advance

/-! ## What the PSR transfers leave -/

theorem writeSpsr_leaves {f : Word → Word} (h : s.writeSpsr f = .next t) : Leaves stores offered s t := by
  obtain ⟨p, -, rfl⟩ := writeSpsr_next h
  exact ((Leaves.refl s).status _ _).advance

theorem writeCpsrAll_leaves {v : Word} (h : s.writeCpsrAll v = .next t) : Leaves stores offered s t := by
  rcases writeCpsrAll_next h with ⟨-, rfl⟩ | ⟨-, m, -, rfl⟩
  · exact ((Leaves.refl s).status _ _).advance
  · exact ((Leaves.refl s).status _ _).advance

theorem writeCpsrFlags_leaves {v : Word} (h : s.writeCpsrFlags v = .next t) : Leaves stores offered s t := by
  cases h
  exact ((Leaves.refl s).status _ _).advance

theorem execMrs_leaves {ps : Bool} {rd : RegNum} (h : execMrs c ps rd s = .next t) : Leaves stores offered s t := by
  have hread : ∀ v, Leaves stores offered s (s.setReg rd v).advance := fun v => ((Leaves.refl s).setReg rd v).advance
  refine conditional_leaves h fun h => ?_
  split at h
  · cases h
  · split at h
    · split at h
      · cases h
      · cases h; exact hread _
    · cases h; exact hread _

theorem execMsrRegAll_leaves {pd : Bool} {rm : RegNum} (h : execMsrRegAll c pd rm s = .next t) :
    Leaves stores offered s t := by
  refine conditional_leaves h fun h => ?_
  split at h
  · cases h
  · cases pd with
    | true => exact writeSpsr_leaves h
    | false => exact writeCpsrAll_leaves h

/-- The two MSR forms of the flag bits, of a register and of an immediate (43_psr_transfer.md R234, R235). -/
theorem writeFlagBits_leaves {pd : Bool} {v : Word}
    (h : (if pd then s.writeSpsr (fun p => psrWithTop p (v.extractLsb' 28 4)) else s.writeCpsrFlags v) = .next t) :
    Leaves stores offered s t := by
  split at h
  · exact writeSpsr_leaves h
  · exact writeCpsrFlags_leaves h

theorem execMsrRegFlg_leaves {pd : Bool} {rm : RegNum} (h : execMsrRegFlg c pd rm s = .next t) :
    Leaves stores offered s t := by
  refine conditional_leaves h fun h => ?_
  split at h
  · cases h
  · exact writeFlagBits_leaves h

theorem execMsrImmFlg_leaves {pd : Bool} {rot : BitVec 4} {imm8 : BitVec 8}
    (h : execMsrImmFlg c pd rot imm8 s = .next t) : Leaves stores offered s t :=
  conditional_leaves h writeFlagBits_leaves

/-! ## What the other instructions leave -/

theorem execMul_leaves {sBit : Bool} {rd rn rs rm : RegNum} (h : execMul c sBit rd rn rs rm s = .next t) :
    Leaves stores offered s t := by
  refine conditional_leaves h fun h => ?_
  split at h
  · cases h
  · exact multiplyResult_leaves h

theorem execMla_leaves {sBit : Bool} {rd rn rs rm : RegNum} (h : execMla c sBit rd rn rs rm s = .next t) :
    Leaves stores offered s t := by
  refine conditional_leaves h fun h => ?_
  split at h
  · cases h
  · exact multiplyResult_leaves h

theorem execLdm_leaves {p u sBit w : Bool} {rn : RegNum} {list : BitVec 16}
    (h : execLdm c p u sBit w rn list s = .next t) : Leaves stores offered s t := by
  refine conditional_leaves h fun h => ?_
  split at h
  · cases h
  · dsimp only at h
    have hread := (((Leaves.refl (stores := stores) (offered := offered) s).readRun (s.dataAttrs false false) .n
      (listRegs list).length (s.blockFirst p u rn list)).internal).loadRegs (s.blockBank (sBit && !inList list 15#4))
        (listRegs list)
        (State.readRun (s.dataAttrs false false) .n (listRegs list).length (s.blockFirst p u rn list) s).1
    split at h
    · cases h; exact (hread.setReg rn _).dataAbort
    · generalize he : (if (w && !inList list rn) = true then State.setReg _ rn _ else _) = e at h
      have hloaded : Leaves stores offered s e := by
        rw [← he]
        split
        · exact hread.setReg rn _
        · exact hread
      split at h
      · split at h
        · obtain ⟨q, m, -, -, rfl⟩ := returnTo_next h
          exact (hloaded.status _ _).branchTo _
        · cases h; exact hloaded.branchTo _
      · split at h
        · cases h; exact hloaded.advance.update
        · cases h; exact hloaded.advance

theorem execStm_leaves {p u sBit w : Bool} {rn : RegNum} {list : BitVec 16}
    (h : execStm c p u sBit w rn list s = .next t) : Leaves true offered s t := by
  refine conditional_leaves h fun h => ?_
  split at h
  · cases h
  · dsimp only at h
    have hstored := ((Leaves.refl (offered := offered) s).writeRun (s.dataAttrs true false) .n
      (s.blockFirst p u rn list) (s.blockValues sBit w rn (s.baseOf rn) (s.blockBase u rn list) true
        (listRegs list))).cpWriteBack w rn (s.blockBase u rn list)
    split at h
    · cases h; exact hstored.dataAbort
    · cases h; exact hstored.advance

theorem execCdp_leaves {cpOpc crn crd cpNum : BitVec 4} {cp : BitVec 3} {crm : BitVec 4}
    (h : execCdp c cpOpc crn crd cpNum cp crm s = .next t) : Leaves stores true s t := by
  refine conditional_leaves h fun h => offer_leaves h fun u w ws hu h => ?_
  cases h
  exact (hu.cpTell cpNum _).advance

theorem execMrc_leaves {cpOpc : BitVec 3} {crn : BitVec 4} {rd : RegNum} {cpNum : BitVec 4} {cp : BitVec 3}
    {crm : BitVec 4} (h : execMrc c cpOpc crn rd cpNum cp crm s = .next t) : Leaves stores true s t := by
  refine conditional_leaves h fun h => offer_leaves h fun u w ws hu h => ?_
  have hmoved := ((hu.cpTell cpNum [.mrc (encode (.mrc c cpOpc crn rd cpNum cp crm))]).cycle
    (s.transferCycle false w)).internal
  cases h
  split
  · exact (hmoved.status _ _).advance
  · exact (hmoved.setReg rd w).advance

theorem execMcr_leaves {cpOpc : BitVec 3} {crn : BitVec 4} {rd : RegNum} {cpNum : BitVec 4} {cp : BitVec 3}
    {crm : BitVec 4} (h : execMcr c cpOpc crn rd cpNum cp crm s = .next t) : Leaves stores true s t := by
  refine conditional_leaves h fun h => offer_leaves h fun u w ws hu h => ?_
  cases h
  exact ((hu.cpTell cpNum _).cycle _).advance

theorem execLdc_leaves {p u n w : Bool} {rn : RegNum} {crd cpNum : BitVec 4} {offset : BitVec 8}
    (h : execLdc c p u n w rn crd cpNum offset s = .next t) : Leaves stores true s t := by
  refine conditional_leaves h fun h => offer_leaves h fun v word more hv h => ?_
  split at h
  · cases h
  · cases h
    exact (((hv.readRun _ _ _ _).cpTell cpNum _).cpWriteBack w rn _).cpFinish _

theorem execStc_leaves {p u n w : Bool} {rn : RegNum} {crd cpNum : BitVec 4} {offset : BitVec 8}
    (h : execStc c p u n w rn crd cpNum offset s = .next t) : Leaves true true s t := by
  refine conditional_leaves h fun h => offer_leaves h fun v word more hv h => ?_
  split at h
  · cases h
  · cases h
    exact (((hv.writeRun _ _ _ _).cpTell cpNum _).cpWriteBack w rn _).cpFinish _

end

/-- Every instruction stores only if it is one of those that may, and reaches a coprocessor only if it is offered. -/
theorem exec_leaves {i : Instr} {s t : State} (h : exec i s = .next t) :
    Leaves (storesMemory i) (isOffered i) s t := by
  cases i with
  | b => exact conditional_leaves h (by rintro ⟨⟩; exact (Leaves.refl s).branchTo _)
  | bl => exact conditional_leaves h (by rintro ⟨⟩; exact ((Leaves.refl s).setReg _ _).branchTo _)
  | swi => exact conditional_leaves h (by rintro ⟨⟩; exact (Leaves.refl s).enter _ _)
  | undefined => exact conditional_leaves h (by rintro ⟨⟩; exact ((Leaves.refl s).present _).enter _ _)
  | notDefinedA | notDefinedB => exact conditional_leaves h nofun
  | and | eor | sub | rsb | add | adc | sbc | rsc | orr | mov | bic | mvn => exact dataProcess_leaves h
  | tst | teq | cmp | cmn => exact dataCompare_leaves h
  | mul _ _ _ rn => exact execMul_leaves (rn := rn) h
  | mla => exact execMla_leaves h
  | mrs => exact execMrs_leaves h
  | msrRegAll => exact execMsrRegAll_leaves h
  | msrRegFlg => exact execMsrRegFlg_leaves h
  | msrImmFlg => exact execMsrImmFlg_leaves h
  | ldr | ldrb | ldrt | ldrbt => exact loadSingle_leaves h
  | str | strb | strt | strbt => exact storeSingle_leaves h
  | ldm => exact execLdm_leaves h
  | stm => exact execStm_leaves h
  | swp | swpb => exact swap_leaves h
  | cdp => exact execCdp_leaves h
  | mrc => exact execMrc_leaves h
  | mcr => exact execMcr_leaves h
  | ldc => exact execLdc_leaves h
  | stc => exact execStc_leaves h

/-- Settles O60: the cycles an instruction has made are those of `Leaves`, and the schedule and the counter wait for the
boundary. -/
theorem whatInstructionsLeave : Obligations.WhatInstructionsLeave := by
  intro i s t h
  obtain ⟨cycles, hbus, hinputs, hmoments, hmem, hcoprocs⟩ := exec_leaves h
  obtain ⟨hschedule, htick⟩ := exec_keepsSchedule h
  exact ⟨cycles, hbus, hinputs, hmoments, hmem, hschedule, htick, hcoprocs⟩

end Sys2Proof.Machine

/-! # The fetches of an instruction, of a new PC and of an interrupt entry -/

namespace Sys2Proof.Machine

/-! ## One fetch -/

/-- The attributes of a fetch depend on the mode bits alone (20_memory.md R63, R81). -/
theorem fetchAttrs_congr {s t : State} (h : t.cpsr = s.cpsr) : t.fetchAttrs = s.fetchAttrs := by
  simp only [State.fetchAttrs, State.nTRANS, State.nM, State.mode, h]

/-- After a fetch the next word is an S-cycle (21_bus_interface_and_signals.md R105). -/
@[simp] theorem fetchCycle_nextSeq (s : State) (nCPI : Bool) (a : Word) :
    (s.fetchCycle nCPI a).nextSeq = some (a + 4#32) := by
  have htype : (s.fetchCycle nCPI a).type ≠ .i := by
    simp only [State.fetchCycle]
    split <;> decide
  exact if_neg htype

@[simp] theorem fetchOne_bus (s : State) (nCPI : Bool) :
    (s.fetchOne nCPI).bus = s.bus ++ [s.fetchCycle nCPI s.fetchAddress] := cycle_bus _ _

@[simp] theorem fetchOne_seq (s : State) (nCPI : Bool) : (s.fetchOne nCPI).seq = some (s.fetchAddress + 4#32) :=
  fetchCycle_nextSeq s nCPI s.fetchAddress

theorem fetchAddress_empty {s : State} (h : s.pipe = []) : s.fetchAddress = s.pc := by
  simp [State.fetchAddress, h]

/-- Each fetch takes the address one word on (10_state.md R41). -/
theorem fetchAddress_fetchOne (s : State) (nCPI : Bool) : (s.fetchOne nCPI).fetchAddress = s.fetchAddress + 4#32 := by
  obtain ⟨slot, hslot⟩ := fetchOne_pipe s nCPI
  simp only [State.fetchAddress, hslot, fetchOne_pc, List.length_append, List.length_singleton, Nat.mul_add,
    BitVec.ofNat_add, BitVec.add_assoc, Nat.mul_one]

/-! ## The refill of a discarded pipeline -/

theorem fillTo_two_empty {s : State} (h : s.pipe = []) : s.fillTo 2 = (s.fetchOne true).fetchOne true := by
  simp only [State.fillTo, h, List.length_nil, State.fetchMany]

/-- A new PC fetches two words, an N- and an S-cycle (21_bus_interface_and_signals.md R105, R106). -/
theorem fillTo_two_bus {s : State} (hpipe : s.pipe = []) (hseq : s.seq = none) :
    (s.fillTo 2).bus = s.bus ++
      [{ type := .n, addr := s.pc, attrs := s.fetchAttrs, nCPI := true, data := none },
        { type := .s, addr := s.pc + 4#32, attrs := s.fetchAttrs, nCPI := true, data := none }] := by
  rw [fillTo_two_empty hpipe, fetchOne_bus, fetchOne_bus, fetchAddress_fetchOne, fetchAddress_empty hpipe]
  simp [State.fetchCycle, hseq, fetchAddress_empty hpipe, fetchAttrs_congr (fetchOne_cpsr s true)]

/-! ## The first cycle of an instruction -/

/-- With two words in the pipeline an instruction starts with one fetch (10_state.md R41). -/
theorem startCycle_two {s : State} {slot next : Slot} (h : s.pipe = [slot, next]) :
    s.startCycle = State.fetchOne { s with bus := [] } s.headCPI := by
  have hfilled : State.fillTo { s with bus := [] } 2 = { s with bus := [] } := by
    simp only [State.fillTo, h, List.length_cons, List.length_nil, Nat.sub_self, State.fetchMany]
  unfold State.startCycle
  rw [hfilled]
  exact if_pos (by simp [h])

/-- nCPI is LOW when the instruction at the head is offered (21_bus_interface_and_signals.md R106, 49_coprocessor.md
R342). -/
theorem headCPI_cons {s : State} {slot : Slot} {rest : List Slot} (h : s.pipe = slot :: rest) :
    s.headCPI = decide (slot.aborted = true ∨ isOffered (decodeWord slot.word) = false ∨
      condPasses (decodeWord slot.word).cond s.flags = false) := by
  simp [State.headCPI, State.headInstr, State.head, h, Bool.decide_or]

/-- The first cycle of an instruction is the fetch of the word 8 bytes on (21_bus_interface_and_signals.md R106). -/
theorem startCycle_bus {s : State} {slot next : Slot} (h : s.pipe = [slot, next]) :
    s.startCycle.bus = [s.fetchCycle s.headCPI (s.pc + 8#32)] := by
  have haddress : State.fetchAddress { s with bus := [] } = s.pc + 8#32 := by
    simp [State.fetchAddress, h]
  rw [startCycle_two h, fetchOne_bus, haddress]
  rfl

/-! ## An interrupt entry -/

/-- Every exception enters a privileged mode (60_exceptions.md R372). -/
theorem Exc.mode_ne_usr (e : Exc) : e.mode ≠ .usr := by cases e <;> decide

/-- The attributes of a fetch in the mode an exception enters, which is privileged (20_memory.md R81). -/
def Exc.fetchAttrs (e : Exc) : BusAttrs :=
  { nRW := false, nBW := true, nOPC := false, nTRANS := true, nM := ~~~e.mode.bits, LOCK := false }

theorem enter_fetchAttrs (s : State) (e : Exc) (ret : Word) : (s.enter e ret).fetchAttrs = e.fetchAttrs := by
  simp [State.fetchAttrs, Exc.fetchAttrs, nTRANS_eq, State.nM, psrMode_newCpsr, Exc.mode_ne_usr]

/-- Breaking off a busy-wait only tells the coprocessors (49_coprocessor.md R344). -/
theorem breakOff_eq (s : State) : s.breakOff = { s with coprocs := s.breakOff.coprocs } := by
  unfold State.breakOff
  split <;> rfl

/-- The entry's discarded fetch is the same whether or not a busy-wait is broken off (60_exceptions.md R383). -/
theorem breakOff_discardedFetch_bus (s : State) (a : Word) :
    (s.breakOff.discardedFetch a).bus = s.bus ++ [s.fetchCycle true a] := by
  rw [State.discardedFetch, cycle_bus, breakOff_eq]
  rfl

/-- An interrupt entry is a discarded fetch in the old mode and the refill in the new (60_exceptions.md R383, R392). -/
theorem takeInterrupt_bus (s : State) (e : Exc) :
    (s.takeInterrupt e).bus = s.bus ++
      [s.fetchCycle true (s.pc + 8#32),
        { type := .n, addr := e.vector, attrs := e.fetchAttrs, nCPI := true, data := none },
        { type := .s, addr := e.vector + 4#32, attrs := e.fetchAttrs, nCPI := true, data := none }] := by
  rw [State.takeInterrupt, fillTo_two_bus (enter_pipe _ _ _) (enter_seq _ _ _), enter_bus, breakOff_discardedFetch_bus,
    enter_pc, enter_fetchAttrs, List.append_assoc, List.singleton_append]

/-- Settles O9: the first cycle, the refill and the interrupt entry, each by its own lemma above. -/
theorem fetchCycles : Obligations.FetchCycles := by
  refine fun s => ⟨fun _ _ => rfl, fun slot next hpipe => ?_, fillTo_two_bus, takeInterrupt_bus s⟩
  rw [startCycle_bus hpipe, headCPI_cons hpipe]
  rfl

end Sys2Proof.Machine

/-! # The P forms of the comparing instructions -/

namespace Sys2Proof.Machine

/-! ## The CPSR from the SPSR -/

theorem restoreCpsr_saved {s : State} {p : Word} (h : s.canReturn p) (hp : psrDefined p = true) (inUser : Result)
    (after : State → State) : s.restoreCpsr inUser after = .next (after { s with cpsr := p }) := by
  obtain ⟨hsaved, hmode⟩ := h
  obtain ⟨m, hm⟩ := Option.isSome_iff_exists.mp hmode
  have hkeep : psrKeep p = p := by simpa [psrDefined] using hp
  simp [State.restoreCpsr, hsaved, hm, hkeep]

theorem restoreCpsr_user {s : State} (h : s.mode = .usr) (inUser : Result) (after : State → State) :
    s.restoreCpsr inUser after = inUser := by
  simp [State.restoreCpsr, spsr?_none.mpr h]

/-- An SPSR that holds no legal mode is refused (93_implementation_defined.md U2). -/
theorem restoreCpsr_illegal {s : State} {p : Word} (hsaved : s.spsr? = some p) (hmode : Mode.ofBits (psrMode p) = none)
    (inUser : Result) (after : State → State) : s.restoreCpsr inUser after = .refused .illegalMode := by
  simp [State.restoreCpsr, hsaved, hmode]

@[simp] theorem passing_spsr? (s : State) (cs : List BusCycle) : (s.passing cs).spsr? = s.spsr? := by
  simp [State.spsr?]

/-! ## The instructions that only set flags -/

/-- The cycles of operand 2 (21_bus_interface_and_signals.md R106), as the statements name them. -/
theorem shiftCycle_passing (s : State) (op2 : Operand2) : s.shiftCycle op2 = s.passing (s.shiftCycles op2) := by
  cases op2 <;> rfl

/-- TST, TEQ, CMP and CMN share one template (42_data_processing.md R198). -/
theorem exec_comparing {mk : Cond → RegNum → RegNum → Operand2 → Instr} (h : mk ∈ comparingOps) :
    ∃ alu, ∀ c rn rd op2 s, exec (mk c rn rd op2) s = dataCompare alu c rn rd op2 s := by
  simp only [comparingOps, List.mem_cons, List.not_mem_nil, or_false] at h
  rcases h with rfl | rfl | rfl | rfl
  · exact ⟨aluTst, fun _ _ _ _ _ => rfl⟩
  · exact ⟨aluTeq, fun _ _ _ _ _ => rfl⟩
  · exact ⟨aluCmp, fun _ _ _ _ _ => rfl⟩
  · exact ⟨aluCmn, fun _ _ _ _ _ => rfl⟩

/-- With Rd = R15 the flags of the comparison are not used: the CPSR comes from the SPSR (R199). -/
theorem dataCompare_pc {s : State} {c : Cond} {op2 : Operand2} (hc : condPasses c s.flags = true)
    (hop2 : amountIsPc op2 = false) (alu : AluOp) (rn : RegNum) :
    dataCompare alu c rn 15#4 op2 s =
      (s.passing (s.shiftCycles op2)).restoreCpsr (.next (s.passing (s.shiftCycles op2)).advance) State.advance := by
  simp [dataCompare, conditional_passes hc, hop2, shiftCycle_passing]

/-- Going on after some bus cycles, with another CPSR or the same, leaves the rest as those cycles left it. -/
theorem advance_withCpsr_frame (s : State) (cs : List BusCycle) (p : Word) :
    let t := State.advance { s.passing cs with cpsr := p }
    t.cpsr = p ∧ KeepsRegs s t ∧ GoesOn (s.passing cs) t ∧ KeepsBytes (s.passing cs) t ∧
      KeepsSystem (s.passing cs) t :=
  ⟨rfl, passing_gpr s cs, ⟨rfl, rfl, rfl, rfl, rfl⟩, fun _ => rfl, ⟨rfl, rfl, rfl, rfl, rfl, rfl⟩, rfl⟩

/-- Settles O32: every comparing instruction with Rd = R15 is `restoreCpsr`, which has a lemma for each of its cases. -/
theorem obsoleteForms : Obligations.ObsoleteForms := by
  intro mk hmk c rn op2 s hc hop2 e
  obtain ⟨alu, hexec⟩ := exec_comparing hmk
  rw [hexec, dataCompare_pc hc hop2]
  refine ⟨fun saved hsaved hdefined => ?_, fun huser => ?_, fun saved hsaved hmode => ?_⟩
  · have hreturn : e.canReturn saved := by rwa [State.canReturn, passing_spsr?]
    exact ⟨_, restoreCpsr_saved hreturn hdefined _ _, advance_withCpsr_frame s _ saved⟩
  · have hmode : e.mode = .usr := by rwa [passing_mode]
    obtain ⟨hcpsr, hframe⟩ := advance_withCpsr_frame s (s.shiftCycles op2) e.cpsr
    exact ⟨_, restoreCpsr_user hmode _ _, hcpsr.trans (passing_cpsr _ _), hframe⟩
  · exact restoreCpsr_illegal (by rwa [passing_spsr?]) hmode _ _

end Sys2Proof.Machine

/-! # Conditional execution -/

namespace Sys2Proof.Machine

/-- Every instruction is under its condition field (40_conditional_execution.md R160): what it does when the condition passes
is the body of `State.conditional`. -/
theorem exec_conditional (i : Instr) (s : State) : ∃ body, exec i s = s.conditional i.cond body := by
  cases i <;> exact ⟨_, rfl⟩

theorem exec_condition_fails {i : Instr} {s : State} (h : condPasses i.cond s.flags = false) :
    exec i s = .next s.advance := by
  obtain ⟨body, hexec⟩ := exec_conditional i s
  rw [hexec, conditional_fails h]

/-- Going on by itself changes only the place of execution (10_state.md R31). -/
theorem advance_frame (s : State) :
    GoesOn s s.advance ∧ KeepsRegs s s.advance ∧ s.advance.cpsr = s.cpsr ∧ KeepsBytes s s.advance ∧
      KeepsSystem s s.advance :=
  ⟨⟨rfl, rfl, rfl, rfl, rfl⟩, fun _ => rfl, rfl, fun _ => rfl, ⟨rfl, rfl, rfl, rfl, rfl, rfl⟩, rfl⟩

/-- Settles O22: with a failed condition every instruction is `State.advance`, whose frame is the one stated. -/
theorem conditionFails : Obligations.ConditionFails :=
  fun _ s h => ⟨s.advance, exec_condition_fails h, advance_frame s⟩

end Sys2Proof.Machine

/-! # Branches -/

namespace Sys2Proof.Machine

/-! ## The target -/

/-- Two zero bits below the offset and its sign above it (41_branch.md R170) make four times the signed offset. -/
theorem signExtend_append_zeros (offset : BitVec 24) :
    (offset ++ 0#2).signExtend 32 = 4#32 * offset.signExtend 32 := by
  have hmul : 4#32 * offset.signExtend 32 = offset.signExtend 32 <<< 2 := by
    rw [BitVec.shiftLeft_eq_mul_twoPow, BitVec.mul_comm]
    rfl
  rw [hmul]
  apply BitVec.eq_of_getLsbD_eq
  intro i hi
  rw [BitVec.getLsbD_shiftLeft, BitVec.getLsbD_signExtend, BitVec.getLsbD_signExtend]
  by_cases hlow : i < 2
  · rw [if_pos (by omega), bit_append_low hlow]
    simp [hlow]
  · have hmsb : (offset ++ 0#2).msb = offset.msb := by
      rw [BitVec.msb_eq_getLsbD_last, BitVec.msb_eq_getLsbD_last, bit_append_high (by decide)]
    rw [bit_append_high (by omega), hmsb]
    simp [hlow, hi, show i - 2 < 32 by omega, show i < 26 ↔ i - 2 < 24 by omega]

theorem branchTarget_eq (pc : Word) (offset : BitVec 24) :
    branchTarget pc offset = pc + 8#32 + 4#32 * offset.signExtend 32 := by
  rw [branchTarget, signExtend_append_zeros]

/-- Four times any word, added to a word address modulo 2^32 (R173), makes a word address. -/
theorem wordAddress_add_words {a : Word} (h : a.toNat % 4 = 0) (k : Word) : (a + 4#32 * k).toNat % 4 = 0 := by
  have hwords : 4#32 * k = BitVec.ofNat 32 (4 * k.toNat) := by
    rw [BitVec.ofNat_mul, BitVec.ofNat_toNat, BitVec.setWidth_eq]
  rw [hwords]
  exact wordAddress_add h k.toNat

/-- A word address has no bits 1 and 0 to drop (10_state.md R43). -/
theorem wordAddress_and {a : Word} (h : a.toNat % 4 = 0) : a &&& 0xFFFFFFFC#32 = a := by
  apply BitVec.eq_of_toNat_eq
  change wordKey a = a.toNat
  rw [wordKey_eq]
  omega

/-! ## The branch and the link -/

theorem exec_b {c : Cond} {s : State} (hc : condPasses c s.flags = true) (offset : BitVec 24) :
    exec (.b c offset) s = .next (s.branchTo (branchTarget s.pc offset)) := conditional_passes hc _

theorem exec_bl {c : Cond} {s : State} (hc : condPasses c s.flags = true) (offset : BitVec 24) :
    exec (.bl c offset) s = .next ((s.setReg 14#4 (s.pc + 4#32)).branchTo (branchTarget s.pc offset)) :=
  conditional_passes hc _

/-- A branch to a word address arrives at it, with the pipeline discarded (10_state.md R30). -/
theorem branchTo_word (s : State) {a : Word} (h : a.toNat % 4 = 0) :
    let t := s.branchTo a
    t.pc = a ∧ t.pipe = [] ∧ t.ldmShadow = false ∧ t.busyWait = false ∧ t.seq = none :=
  ⟨wordAddress_and h, rfl, rfl, rfl, rfl⟩

/-- A branch leaves everything but the place of execution as it was. -/
theorem branchTo_frame (s : State) (a : Word) :
    let t := s.branchTo a
    KeepsRegs s t ∧ t.cpsr = s.cpsr ∧ KeepsBytes s t ∧ KeepsSystem s t :=
  ⟨branchTo_gpr s a, rfl, branchTo_byteAt s a, ⟨rfl, rfl, rfl, rfl, rfl, rfl⟩, rfl⟩

/-- Writing a register of the current mode changes only that register. -/
theorem setReg_frame (s : State) (n : RegNum) (v : Word) :
    let t := s.setReg n v
    WritesReg s t n v ∧ t.cpsr = s.cpsr ∧ KeepsBytes s t ∧ KeepsSystem s t :=
  ⟨gpr_setReg s n v, setReg_cpsr s n v, setReg_byteAt s n v,
    ⟨setReg_spsrs s n v, setReg_inputs s n v, setReg_moments s n v, setReg_schedule s n v, setReg_tick s n v,
      setReg_bus s n v⟩, setReg_coprocs s n v⟩

/-- Settles O24: both branch to `branchTarget`, which is the stated sum and a word address, so that no bit is dropped. B has
the frame of the branch; BL that of writing the link, since the branch leaves all that `setReg_frame` speaks of. -/
theorem branchEffect : Obligations.BranchEffect := by
  intro c offset s hc hpc target
  have hword : target.toNat % 4 = 0 := wordAddress_add_words (wordAddress_add hpc 2) _
  rw [exec_b hc, exec_bl hc, branchTarget_eq]
  constructor
  · obtain ⟨hto, hpipe, hshadow, hbusy, hseq⟩ := branchTo_word s hword
    exact ⟨_, rfl, hto, hpipe, hshadow, hbusy, hseq, branchTo_frame s target⟩
  · obtain ⟨hto, hpipe, hshadow, hbusy, hseq⟩ := branchTo_word (s.setReg 14#4 (s.pc + 4#32)) hword
    exact ⟨_, rfl, hto, hpipe, hshadow, hbusy, hseq, setReg_frame s 14#4 (s.pc + 4#32)⟩

end Sys2Proof.Machine

/-! # The barrel shifter -/

namespace Sys2Proof.Machine

/-! ## The bits of a shifted word -/

theorem shiftLeft_bit (rm : Word) (n : Nat) {i : Nat} (hi : i < 32) :
    (shiftLeft rm n).1.getLsbD i = (decide (n ≤ i) && rm.getLsbD (i - n)) := by
  simp only [shiftLeft, BitVec.getLsbD_shiftLeft, hi, decide_true, Bool.true_and, ← decide_not, Nat.not_lt]

theorem shiftRight_bit (rm : Word) (n i : Nat) :
    (shiftRight rm n).1.getLsbD i = (decide (i + n < 32) && rm.getLsbD (i + n)) := by
  rw [shiftRight, BitVec.getLsbD_ushiftRight, Nat.add_comm n i]
  by_cases h : i + n < 32
  · simp [h]
  · simp [h, BitVec.getLsbD_of_ge rm (i + n) (by omega)]

/-- ASR fills with the sign, bit 31 (42_data_processing.md R185). -/
theorem shiftArith_bit (rm : Word) (n : Nat) {i : Nat} (hi : i < 32) :
    (shiftArith rm n).1.getLsbD i = rm.getLsbD (min (i + n) 31) := by
  rw [shiftArith, BitVec.getLsbD_sshiftRight, Nat.add_comm n i]
  by_cases h : i + n < 32
  · simp [h, hi, show min (i + n) 31 = i + n by omega]
  · simp [h, hi, show min (i + n) 31 = 31 by omega, BitVec.msb_eq_getLsbD_last]

theorem rotate_bit (rm : Word) {n i : Nat} (hn : n < 32) (hi : i < 32) :
    (rotate rm n).1.getLsbD i = rm.getLsbD ((i + n) % 32) := by
  rw [rotate, BitVec.getLsbD_rotateRight_of_lt hn, Nat.add_comm n i]
  by_cases h : i < 32 - n
  · simp [h, Nat.mod_eq_of_lt (show i + n < 32 by omega)]
  · simp [h, hi, show (i + n) % 32 = i - (32 - n) by omega]

/-- RRX shifts the carry in at the top (R187). -/
theorem rotateExtend_bit (rm : Word) (carry : Bool) {i : Nat} (hi : i < 31) :
    (rotateExtend rm carry).1.getLsbD i = rm.getLsbD (i + 1) := by
  rw [rotateExtend, bit_append_low hi, BitVec.getLsbD_extractLsb']
  simp [hi, Nat.add_comm]

theorem rotateExtend_top (rm : Word) (carry : Bool) : (rotateExtend rm carry).1.getLsbD 31 = carry := by
  rw [rotateExtend, bit_append_high (by decide)]
  exact bit_ofBool carry

/-- Settles O33: amount 0 is the form each type keeps it for, the others are the shift itself, whose bits the lemmas above
give. -/
theorem shiftsByAmount : Obligations.ShiftsByAmount := by
  intro rm carry amount n
  constructor
  · intro hzero
    have hror : shiftByImm .ror amount rm carry = rotateExtend rm carry := if_pos hzero
    rw [hror]
    exact ⟨if_pos hzero, if_pos hzero, if_pos hzero, fun i => rotateExtend_bit rm carry, rotateExtend_top rm carry, rfl⟩
  · intro hpos i hi
    have hne : n ≠ 0 := by omega
    have hlsl : shiftByImm .lsl amount rm carry = shiftLeft rm n := if_neg hne
    have hlsr : shiftByImm .lsr amount rm carry = shiftRight rm n := if_neg hne
    have hasr : shiftByImm .asr amount rm carry = shiftArith rm n := if_neg hne
    have hror : shiftByImm .ror amount rm carry = rotate rm n := if_neg hne
    rw [hlsl, hlsr, hasr, hror]
    exact ⟨shiftLeft_bit rm n hi, rfl, shiftRight_bit rm n i, rfl, shiftArith_bit rm n hi, rfl,
      rotate_bit rm amount.isLt hi, rfl⟩

/-! ## The amount in a register -/

/-- An amount of 1 to 31 shifts as that amount in the instruction (R189). -/
theorem shiftByReg_eq_shiftByImm {amount : Byte} (h1 : 1 ≤ amount.toNat) (h32 : amount.toNat < 32) (ty : ShiftType)
    (rm : Word) (carry : Bool) : shiftByReg ty amount rm carry = shiftByImm ty (BitVec.ofNat 5 amount.toNat) rm carry := by
  have hne : amount.toNat ≠ 0 := by omega
  have hamount : amount.toNat % 32 = amount.toNat := Nat.mod_eq_of_lt h32
  cases ty <;> simp [shiftByReg, shiftByImm, hne, h32, hamount]

/-- Beyond 32 a logical shift has pushed out every bit, and then zeros. -/
theorem shiftByReg_logical_beyond {amount : Byte} (h : 32 < amount.toNat) (rm : Word) (carry : Bool) :
    shiftByReg .lsl amount rm carry = (0#32, false) ∧ shiftByReg .lsr amount rm carry = (0#32, false) := by
  simp [shiftByReg, show amount.toNat ≠ 0 by omega, show ¬ amount.toNat < 32 by omega, show amount.toNat ≠ 32 by omega]

theorem shiftByReg_asr_beyond {amount : Byte} (h : 32 ≤ amount.toNat) (rm : Word) (carry : Bool) :
    shiftByReg .asr amount rm carry = signFill rm := by
  simp [shiftByReg, show amount.toNat ≠ 0 by omega, show ¬ amount.toNat < 32 by omega]

/-- ROR looks at an amount other than 0 modulo 32. -/
theorem shiftByReg_ror_mod {a b : Byte} (ha : a.toNat ≠ 0) (hb : b.toNat ≠ 0) (h : a.toNat % 32 = b.toNat % 32)
    (rm : Word) (carry : Bool) : shiftByReg .ror a rm carry = shiftByReg .ror b rm carry := by
  simp [shiftByReg, ha, hb, h]

/-- Settles O34: the cases of R189, each by its own lemma; by 32 the shift is a fixed amount that evaluates. -/
theorem shiftsByRegister : Obligations.ShiftsByRegister := by
  intro rm carry amount ty n
  refine ⟨fun hzero => if_pos hzero, fun h1 h32 => shiftByReg_eq_shiftByImm h1 h32 ty rm carry, fun h32 => ?_,
    fun hbeyond => ?_, fun hbeyond => shiftByReg_asr_beyond hbeyond rm carry⟩
  · obtain rfl : amount = 32#8 := BitVec.eq_of_toNat_eq h32
    exact ⟨rfl, rfl, rfl⟩
  · have hless : (amount - 32#8).toNat = amount.toNat - 32 := by
      have hle : 32#8 ≤ amount := BitVec.le_def.mpr (Nat.le_of_lt hbeyond)
      rw [BitVec.toNat_sub_of_le hle]
      rfl
    obtain ⟨hlsl, hlsr⟩ := shiftByReg_logical_beyond hbeyond rm carry
    exact ⟨hlsl, hlsr, shiftByReg_ror_mod (by omega) (by omega) (by omega) rm carry⟩

end Sys2Proof.Machine

/-! # The results of the ALU -/

namespace Sys2Proof.Machine

/-! ## Logical results -/

/-- The flags of a logical result as bits of the word (42_data_processing.md R196). -/
theorem logicalResult_eq (old : Flags) (shifterCarry : Bool) (v : Word) :
    logicalResult old shifterCarry v =
      { value := v, flags := { n := v.getLsbD 31, z := decide (v = 0#32), c := shifterCarry, v := old.v } } := rfl

/-! ## Arithmetic results -/

/-- A result whose flags are read off the exact integers (42_data_processing.md R197): C says that the unsigned one reaches
`bound`, V that the signed one does not fit. -/
def exactResult (bound exact signed : Int) : AluResult :=
  let v := BitVec.ofInt 32 exact
  { value := v
    flags :=
      { n := v.getLsbD 31
        z := decide (v = 0#32)
        c := decide (bound ≤ exact)
        v := decide (signed < -2 ^ 31 ∨ 2 ^ 31 ≤ signed) } }

/-- AddWithCarry is exact over the integers: its C is the carry out of 32 bits. -/
theorem addWithCarry_exact {x y : Word} {carry : Bool} {exact signed : Int}
    (hexact : exact = x.toNat + y.toNat + carry.toNat) (hsigned : signed = x.toInt + y.toInt + carry.toNat) :
    addWithCarry x y carry = exactResult (2 ^ 32) exact signed := by
  have hvalue : BitVec.ofInt 32 exact = BitVec.ofNat 32 (x.toNat + y.toNat + carry.toNat) := by
    rw [hexact]
    exact BitVec.ofInt_natCast 32 _
  have hcarry : 2 ^ 32 ≤ exact ↔ 2 ^ 32 ≤ x.toNat + y.toNat + carry.toNat := by omega
  simp only [exactResult, hvalue, hcarry, hsigned]
  rfl

/-- One turn of the 32 bits more, counted from a bound as much higher, is the same result. -/
theorem exactResult_turn (bound exact signed : Int) :
    exactResult (bound + 2 ^ 32) (exact + 2 ^ 32) signed = exactResult bound exact signed := by
  have hvalue : BitVec.ofInt 32 (exact + 2 ^ 32) = BitVec.ofInt 32 exact := by
    rw [BitVec.ofInt_add]
    exact BitVec.add_zero _
  simp only [exactResult, hvalue, Int.add_le_add_iff_right]

theorem toInt_complement (y : Word) : (~~~y).toInt = -1 - y.toInt := by
  have hlt := y.isLt
  rw [BitVec.toInt_eq_toNat_cond, BitVec.toInt_eq_toNat_cond, BitVec.toNat_not]
  omega

/-- Adding the complement subtracts, with carry minus 1 (90_conflicts.md C4): C then says that there is no borrow. -/
theorem addWithCarry_complement {x y : Word} {carry : Bool} {exact signed : Int}
    (hexact : exact = x.toNat - y.toNat + carry.toNat - 1) (hsigned : signed = x.toInt - y.toInt + carry.toNat - 1) :
    addWithCarry x (~~~y) carry = exactResult 0 exact signed := by
  have hlt := y.isLt
  have hturn : exact + 2 ^ 32 = x.toNat + (~~~y).toNat + carry.toNat := by
    rw [BitVec.toNat_not]
    omega
  have hsum : signed = x.toInt + (~~~y).toInt + carry.toNat := by
    rw [toInt_complement]
    omega
  rw [addWithCarry_exact hturn hsum]
  exact exactResult_turn 0 exact signed

/-- The carry as the statements add it. -/
theorem carry_toInt (carry : Bool) : (carry.toNat : Int) = if carry then 1 else 0 := by cases carry <;> rfl

/-! ## The flags of a comparison -/

/-- Reduced to 32 bits, a signed integer that does not fit is another one. -/
theorem bmod_ne_iff (x : Int) : x.bmod (2 ^ 32) ≠ x ↔ x < -2 ^ 31 ∨ 2 ^ 31 ≤ x := by
  rw [Int.bmod_def]
  omega

/-- The flags of CMP say how two words compare (42_data_processing.md R210). -/
theorem aluCmp_flags (old : Flags) (a b : Word) (shifterCarry : Bool) :
    (aluCmp old a b shifterCarry).flags =
      { n := (a - b).getLsbD 31
        z := decide (a = b)
        c := decide (b.toNat ≤ a.toNat)
        v := decide ((a - b).toInt ≠ a.toInt - b.toInt) } := by
  have hexact : aluCmp old a b shifterCarry = exactResult 0 (a.toNat - b.toNat) (a.toInt - b.toInt) :=
    addWithCarry_complement (by simp) (by simp)
  have hvalue : BitVec.ofInt 32 (a.toNat - b.toNat) = a - b := by
    apply BitVec.eq_of_toNat_eq
    rw [BitVec.toNat_ofInt, BitVec.toNat_sub]
    omega
  have hzero : a - b = 0#32 ↔ a = b := by
    rw [BitVec.sub_eq_iff_eq_add, BitVec.zero_add]
  have hborrow : (0 : Int) ≤ a.toNat - b.toNat ↔ b.toNat ≤ a.toNat := by omega
  have hfits : a.toInt - b.toInt < -2 ^ 31 ∨ 2 ^ 31 ≤ a.toInt - b.toInt ↔ (a - b).toInt ≠ a.toInt - b.toInt := by
    rw [BitVec.toInt_sub, bmod_ne_iff]
  simp only [hexact, exactResult, hvalue, hzero, hborrow, hfits]

/-- The flags of CMN are those of the sum (R211). -/
theorem aluCmn_flags (old : Flags) (a b : Word) (shifterCarry : Bool) :
    (aluCmn old a b shifterCarry).flags =
      { n := (a + b).getLsbD 31
        z := decide (a + b = 0#32)
        c := decide (2 ^ 32 ≤ a.toNat + b.toNat)
        v := decide ((a + b).toInt ≠ a.toInt + b.toInt) } := by
  have hexact : aluCmn old a b shifterCarry = exactResult (2 ^ 32) (a.toNat + b.toNat) (a.toInt + b.toInt) :=
    addWithCarry_exact (by simp) (by simp)
  have hvalue : BitVec.ofInt 32 (a.toNat + b.toNat) = a + b := by
    apply BitVec.eq_of_toNat_eq
    rw [BitVec.toNat_ofInt, BitVec.toNat_add]
    omega
  have hcarry : (2 : Int) ^ 32 ≤ a.toNat + b.toNat ↔ 2 ^ 32 ≤ a.toNat + b.toNat := by omega
  have hfits : a.toInt + b.toInt < -2 ^ 31 ∨ 2 ^ 31 ≤ a.toInt + b.toInt ↔ (a + b).toInt ≠ a.toInt + b.toInt := by
    rw [BitVec.toInt_add, bmod_ne_iff]
  simp only [hexact, exactResult, hvalue, hcarry, hfits]

theorem sign_eq_toInt_neg (x : Word) : x.getLsbD 31 = decide (x.toInt < 0) :=
  x.msb_eq_getLsbD_last.symm.trans BitVec.msb_eq_toInt

/-- N = V after a comparison says that the first word is signed greater or equal. -/
theorem sign_eq_overflow_iff (a b : Word) :
    ((a - b).getLsbD 31 = decide ((a - b).toInt ≠ a.toInt - b.toInt)) ↔ b.toInt ≤ a.toInt := by
  have ha := a.toInt_lt
  have ha' := a.le_toInt
  have hb := b.toInt_lt
  have hb' := b.le_toInt
  rw [sign_eq_toInt_neg, BitVec.toInt_sub, Int.bmod_def, decide_eq_decide]
  omega

end Sys2Proof.Machine

/-! # Data processing -/

namespace Sys2Proof.Machine

/-! ## With a destination other than R15 -/

/-- What writing `r` to `rd` makes of `s`: it goes on from `e`, the state after the cycles of operand 2
(42_data_processing.md R180, R192). -/
def WritesResult (s e t : State) (rd : RegNum) (sBit : Bool) (r : AluResult) : Prop :=
  WritesReg s t rd r.value ∧ (if sBit then SetsFlags s t r.flags else t.cpsr = s.cpsr) ∧ GoesOn e t ∧ KeepsBytes e t ∧
    KeepsSystem e t

/-- What writing the flags `f` alone makes of `s` (R198). -/
def WritesFlags (s e t : State) (f : Flags) : Prop :=
  KeepsRegs s t ∧ SetsFlags s t f ∧ GoesOn e t ∧ KeepsBytes e t ∧ KeepsSystem e t

/-- Other flags in a PSR leave its other bits. -/
theorem setsFlags_of_cpsr {s t : State} {f : Flags} (h : t.cpsr = psrWithFlags s.cpsr f) : SetsFlags s t f := by
  constructor
  · rw [State.flags, h, psrFlags_withFlags]
  · rw [h, psrWithFlags, extract_psrWithTop]

/-- The register written, and with S the flags, on top of what the cycles left. -/
theorem writesResult_advance (s : State) (cs : List BusCycle) (rd : RegNum) (sBit : Bool) (r : AluResult) :
    let w := (s.passing cs).setReg rd r.value
    WritesResult s (s.passing cs) (if sBit then w.setFlags r.flags else w).advance rd sBit r := by
  intro w
  obtain ⟨hwrites, hcpsr, hbytes, hsystem⟩ := setReg_frame (s.passing cs) rd r.value
  have hreg : WritesReg s w rd r.value := by simpa [WritesReg] using hwrites
  have hstatus : w.cpsr = s.cpsr := hcpsr.trans (passing_cpsr s cs)
  have hgoes : GoesOn (s.passing cs) w.advance := by simp [GoesOn, w]
  cases sBit with
  | false => exact ⟨hreg, hstatus, hgoes, hbytes, hsystem⟩
  | true => exact ⟨hreg, setsFlags_of_cpsr (by simp [hstatus]), hgoes, hbytes, hsystem⟩

theorem dataProcess_register {s : State} {c : Cond} {op2 : Operand2} {rd : RegNum} (hc : condPasses c s.flags = true)
    (hop2 : amountIsPc op2 = false) (hrd : rd ≠ 15#4) (alu : AluOp) (sBit : Bool) (rn : RegNum) {r : AluResult}
    (hr : s.aluOf alu rn op2 = r) :
    ∃ t, dataProcess alu c sBit rn rd op2 s = .next t ∧ WritesResult s (s.passing (s.shiftCycles op2)) t rd sBit r := by
  refine ⟨_, ?_, writesResult_advance s (s.shiftCycles op2) rd sBit r⟩
  simp [dataProcess, conditional_passes hc, hop2, hrd, hr, shiftCycle_passing]

theorem dataCompare_register {s : State} {c : Cond} {op2 : Operand2} {rd : RegNum} (hc : condPasses c s.flags = true)
    (hop2 : amountIsPc op2 = false) (hrd : rd ≠ 15#4) (alu : AluOp) (rn : RegNum) {f : Flags}
    (hf : (s.aluOf alu rn op2).flags = f) :
    ∃ t, dataCompare alu c rn rd op2 s = .next t ∧ WritesFlags s (s.passing (s.shiftCycles op2)) t f := by
  obtain ⟨hcpsr, hregs, hframe⟩ :=
    advance_withCpsr_frame s (s.shiftCycles op2) (psrWithFlags (s.passing (s.shiftCycles op2)).cpsr f)
  refine ⟨_, ?_, hregs, setsFlags_of_cpsr (by rw [hcpsr, passing_cpsr]), hframe⟩
  simp [dataCompare, conditional_passes hc, hop2, hrd, hf, shiftCycle_passing, State.setFlags]

/-- Settles O25: each of the six operations is `logicalResult` of its word, under the template of `dataProcess_register`. -/
theorem logicalOperations : Obligations.LogicalOperations := by
  intro x hx c sBit rn rd op2 s hc hop2 hrd
  simp only [List.mem_cons, List.not_mem_nil, or_false] at hx
  rcases hx with rfl | rfl | rfl | rfl | rfl | rfl
  · exact dataProcess_register hc hop2 hrd aluAnd sBit rn (logicalResult_eq _ _ _)
  · exact dataProcess_register hc hop2 hrd aluEor sBit rn (logicalResult_eq _ _ _)
  · exact dataProcess_register hc hop2 hrd aluOrr sBit rn (logicalResult_eq _ _ _)
  · exact dataProcess_register hc hop2 hrd aluMov sBit rn (logicalResult_eq _ _ _)
  · exact dataProcess_register hc hop2 hrd aluBic sBit rn (logicalResult_eq _ _ _)
  · exact dataProcess_register hc hop2 hrd aluMvn sBit rn (logicalResult_eq _ _ _)

/-- Settles O26: both are AddWithCarry, ADD without the carry. -/
theorem additions : Obligations.Additions := by
  intro x hx c sBit rn rd op2 s hc hop2 hrd
  simp only [List.mem_cons, List.not_mem_nil, or_false] at hx
  rcases hx with rfl | rfl
  · exact dataProcess_register hc hop2 hrd aluAdd sBit rn (addWithCarry_exact (by simp) (by simp))
  · exact dataProcess_register hc hop2 hrd aluAdc sBit rn
      (addWithCarry_exact (by simp [carry_toInt]) (by simp [carry_toInt]))

/-- Settles O27: all four add a complement, SUB and RSB with the carry set. -/
theorem subtractions : Obligations.Subtractions := by
  intro x hx c sBit rn rd op2 s hc hop2 hrd
  simp only [List.mem_cons, List.not_mem_nil, or_false] at hx
  rcases hx with rfl | rfl | rfl | rfl
  · exact dataProcess_register hc hop2 hrd aluSub sBit rn (addWithCarry_complement (by simp) (by simp))
  · exact dataProcess_register hc hop2 hrd aluRsb sBit rn (addWithCarry_complement (by simp) (by simp))
  · exact dataProcess_register hc hop2 hrd aluSbc sBit rn
      (addWithCarry_complement (by simp [carry_toInt]) (by simp [carry_toInt]))
  · exact dataProcess_register hc hop2 hrd aluRsc sBit rn
      (addWithCarry_complement (by simp [carry_toInt]) (by simp [carry_toInt]))

/-- Settles O28: the flags of the logical result, under the template of `dataCompare_register`. -/
theorem tests : Obligations.Tests := by
  intro x hx c rn rd op2 s hc hop2 hrd
  simp only [List.mem_cons, List.not_mem_nil, or_false] at hx
  rcases hx with rfl | rfl
  · exact dataCompare_register hc hop2 hrd aluTst rn (congrArg AluResult.flags (logicalResult_eq _ _ _))
  · exact dataCompare_register hc hop2 hrd aluTeq rn (congrArg AluResult.flags (logicalResult_eq _ _ _))

/-- Settles O29: CMP has the flags of the difference, CMN those of the sum. -/
theorem comparisons : Obligations.Comparisons := by
  intro c rn rd op2 s hc hop2 hrd e a b
  constructor
  · obtain ⟨t, hexec, hregs, ⟨hflags, hcontrol⟩, hframe⟩ :=
      dataCompare_register hc hop2 hrd aluCmp rn (aluCmp_flags _ a b _)
    refine ⟨t, hexec, hregs, ⟨hflags, hcontrol⟩, ?_, hframe⟩
    rw [hflags]
    exact sign_eq_overflow_iff a b
  · exact dataCompare_register hc hop2 hrd aluCmn rn (aluCmn_flags _ a b _)

/-! ## With R15 as the destination -/

/-- The twelve that write a result share one template (R180). -/
theorem exec_writing {x : (Cond → Bool → RegNum → RegNum → Operand2 → Instr) × AluOp} (h : x ∈ writingOps) (c : Cond)
    (sBit : Bool) (rn rd : RegNum) (op2 : Operand2) (s : State) :
    exec (x.1 c sBit rn rd op2) s = dataProcess x.2 c sBit rn rd op2 s := by
  simp only [writingOps, List.mem_cons, List.not_mem_nil, or_false] at h
  rcases h with rfl | rfl | rfl | rfl | rfl | rfl | rfl | rfl | rfl | rfl | rfl | rfl <;> rfl

theorem dataProcess_pc {s : State} {c : Cond} {op2 : Operand2} (hc : condPasses c s.flags = true)
    (hop2 : amountIsPc op2 = false) (alu : AluOp) (sBit : Bool) (rn : RegNum) :
    dataProcess alu c sBit rn 15#4 op2 s =
      let e := s.passing (s.shiftCycles op2)
      let v := (s.aluOf alu rn op2).value
      if sBit then e.returnTo v .returnInUserMode else .next (e.branchTo v) := by
  simp [dataProcess, conditional_passes hc, hop2, shiftCycle_passing]

/-- The PC drops bits 1 and 0 (10_state.md R30). -/
theorem clear_low_bits (a : Word) : a &&& 0xFFFFFFFC#32 = (a >>> 2) <<< 2 := by
  apply BitVec.eq_of_toNat_eq
  change wordKey a = _
  have hlt := a.isLt
  rw [wordKey_eq, BitVec.toNat_shiftLeft, BitVec.toNat_ushiftRight, Nat.shiftRight_eq_div_pow, Nat.shiftLeft_eq]
  omega

/-- A branch after some cycles, with another CPSR or the same, leaves the rest as those cycles left it. -/
theorem branchTo_withCpsr_frame (s : State) (cs : List BusCycle) (p a : Word) :
    let t := State.branchTo { s.passing cs with cpsr := p } a
    GoesTo t a ∧ KeepsRegs s t ∧ t.cpsr = p ∧ KeepsBytes (s.passing cs) t ∧ KeepsSystem (s.passing cs) t :=
  ⟨⟨clear_low_bits a, rfl, rfl, rfl, rfl⟩, passing_gpr s cs, rfl, fun _ => rfl, ⟨rfl, rfl, rfl, rfl, rfl, rfl⟩, rfl⟩

/-- Settles O30: without S the template branches, and the CPSR is the one the cycles leave. -/
theorem resultToPc : Obligations.ResultToPc := by
  intro x hx c rn op2 s hc hop2 e
  obtain ⟨hgoes, hregs, hcpsr, hframe⟩ :=
    branchTo_withCpsr_frame s (s.shiftCycles op2) e.cpsr (s.aluOf x.2 rn op2).value
  rw [exec_writing hx, dataProcess_pc hc hop2]
  exact ⟨_, rfl, hgoes, hregs, hcpsr.trans (passing_cpsr _ _), hframe⟩

/-- Settles O31: with S the template is `restoreCpsr`, which has a lemma for each of its cases. -/
theorem returnByResult : Obligations.ReturnByResult := by
  intro x hx c rn op2 s hc hop2 e
  rw [exec_writing hx, dataProcess_pc hc hop2, if_pos rfl]
  refine ⟨fun saved hsaved hdefined => ?_, fun huser => ?_, fun saved hsaved hmode => ?_⟩
  · have hreturn : e.canReturn saved := by rwa [State.canReturn, passing_spsr?]
    exact ⟨_, restoreCpsr_saved hreturn hdefined _ _, branchTo_withCpsr_frame s _ saved _⟩
  · exact restoreCpsr_user (by rwa [passing_mode]) _ _
  · exact restoreCpsr_illegal (by rwa [passing_spsr?]) hmode _ _

end Sys2Proof.Machine

/-! # Refused operands -/

namespace Sys2Proof.Machine

/-- R15 as the shift amount is refused (42_data_processing.md R188, 93_implementation_defined.md U6). -/
theorem dataProcess_pcAmount {s : State} {c : Cond} {op2 : Operand2} (hc : condPasses c s.flags = true)
    (hop2 : amountIsPc op2 = true) (alu : AluOp) (sBit : Bool) (rn rd : RegNum) :
    dataProcess alu c sBit rn rd op2 s = .refused .pcAsShiftAmount :=
  (conditional_passes hc _).trans (if_pos hop2)

theorem dataCompare_pcAmount {s : State} {c : Cond} {op2 : Operand2} (hc : condPasses c s.flags = true)
    (hop2 : amountIsPc op2 = true) (alu : AluOp) (rn rd : RegNum) :
    dataCompare alu c rn rd op2 s = .refused .pcAsShiftAmount :=
  (conditional_passes hc _).trans (if_pos hop2)

/-- User mode has no SPSR to read or write (43_psr_transfer.md R236, U8). -/
theorem writeSpsr_user {s : State} (h : s.mode = .usr) (f : Word → Word) :
    s.writeSpsr f = .refused .spsrInUserMode := by
  simp [State.writeSpsr, spsr?_none.mpr h]

theorem execMrs_spsr_user {s : State} {c : Cond} {rd : RegNum} (hc : condPasses c s.flags = true) (h : s.mode = .usr)
    (hrd : rd ≠ 15#4) : execMrs c true rd s = .refused .spsrInUserMode := by
  simp [execMrs, conditional_passes hc, hrd, spsr?_none.mpr h]

/-- Settles O39: each refusal is the first test of its instruction under the condition, or the missing SPSR. -/
theorem operandRefusals : Obligations.OperandRefusals := by
  intro c s hc
  refine ⟨fun rn rd rm ty => ⟨fun x hx sBit => ?_, fun mk hmk => ?_⟩, fun huser r rot imm8 hr => ⟨?_, ?_, ?_, ?_⟩,
    fun p => ⟨?_, ?_, ?_⟩⟩
  · rw [exec_writing hx]
    exact dataProcess_pcAmount hc rfl x.2 sBit rn rd
  · obtain ⟨alu, hexec⟩ := exec_comparing hmk
    rw [hexec]
    exact dataCompare_pcAmount hc rfl alu rn rd
  · exact execMrs_spsr_user hc huser hr
  · exact (conditional_passes hc _).trans ((if_neg hr).trans (writeSpsr_user huser _))
  · exact (conditional_passes hc _).trans ((if_neg hr).trans (writeSpsr_user huser _))
  · exact (conditional_passes hc _).trans (writeSpsr_user huser _)
  · exact (conditional_passes hc _).trans (if_pos rfl)
  · exact (conditional_passes hc _).trans (if_pos rfl)
  · exact (conditional_passes hc _).trans (if_pos rfl)

end Sys2Proof.Machine

/-! # PSR transfer -/

namespace Sys2Proof.Machine

/-! ## What each instruction does when its condition passes -/

/-- MRS puts all 32 bits of the PSR it names in Rd (43_psr_transfer.md R232). -/
theorem exec_mrs_cpsr {s : State} {c : Cond} {rd : RegNum} (hc : condPasses c s.flags = true) (hrd : rd ≠ 15#4) :
    exec (.mrs c false rd) s = .next (s.setReg rd s.cpsr).advance :=
  (conditional_passes hc _).trans (if_neg hrd)

theorem exec_mrs_spsr {s : State} {c : Cond} {rd : RegNum} {saved : Word} (hc : condPasses c s.flags = true)
    (hrd : rd ≠ 15#4) (hsaved : s.spsr? = some saved) :
    exec (.mrs c true rd) s = .next (s.setReg rd saved).advance := by
  refine (conditional_passes hc _).trans ((if_neg hrd).trans ?_)
  simp [hsaved]

/-- The value of an MSR is that of Rm, however far the PC runs ahead, since Rm is not R15 (R233). -/
theorem exec_msrRegAll {s : State} {c : Cond} {rm : RegNum} (hc : condPasses c s.flags = true) (hrm : rm ≠ 15#4)
    (pd : Bool) :
    exec (.msrRegAll c pd rm) s =
      if pd then s.writeSpsr (fun _ => psrKeep (s.reg rm 0#32)) else s.writeCpsrAll (s.reg rm 0#32) := by
  rw [reg_ahead s hrm 0#32 8#32]
  exact (conditional_passes hc _).trans (if_neg hrm)

/-- Write the flag bits of the SPSR of the current mode, or of the CPSR, from a word: what the MSR of a register and that of
an immediate share (R234, R235). -/
def State.writeFlagBits (s : State) (pd : Bool) (v : Word) : Result :=
  if pd then s.writeSpsr (fun p => psrWithTop p (v.extractLsb' 28 4)) else s.writeCpsrFlags v

theorem exec_msrRegFlg {s : State} {c : Cond} {rm : RegNum} (hc : condPasses c s.flags = true) (hrm : rm ≠ 15#4)
    (pd : Bool) : exec (.msrRegFlg c pd rm) s = s.writeFlagBits pd (s.reg rm 0#32) := by
  rw [reg_ahead s hrm 0#32 8#32]
  exact (conditional_passes hc _).trans (if_neg hrm)

theorem exec_msrImmFlg {s : State} {c : Cond} (hc : condPasses c s.flags = true) (pd : Bool) (rot : BitVec 4)
    (imm8 : BitVec 8) :
    exec (.msrImmFlg c pd rot imm8) s = s.writeFlagBits pd (s.operand2 (.imm rot imm8)).1 :=
  conditional_passes hc _

/-! ## Reading -/

/-- Going on after a register was written changes that register and the place of execution. -/
theorem setReg_advance_frame (s : State) (rd : RegNum) (v : Word) :
    let t := (s.setReg rd v).advance
    WritesReg s t rd v ∧ t.cpsr = s.cpsr ∧ GoesOn s t ∧ KeepsBytes s t ∧ KeepsSystem s t := by
  obtain ⟨hwrites, hcpsr, hbytes, hsystem⟩ := setReg_frame s rd v
  have hgoes : GoesOn s (s.setReg rd v).advance := by simp [GoesOn]
  exact ⟨hwrites, hcpsr, hgoes, hbytes, hsystem⟩

/-- Settles O36: both forms write a register and go on. -/
theorem readPsr : Obligations.ReadPsr := by
  intro c rd s hc hrd
  constructor
  · exact ⟨_, exec_mrs_cpsr hc hrd, setReg_advance_frame s rd s.cpsr⟩
  · intro saved hsaved
    exact ⟨_, exec_mrs_spsr hc hrd hsaved, setReg_advance_frame s rd saved⟩

/-! ## Writing the CPSR -/

/-- A PSR that gets the top four bits of a word gets its flags. -/
theorem psrFlags_withTop (p v : Word) : psrFlags (psrWithTop p (v.extractLsb' 28 4)) = psrFlags v := by
  simp only [psrFlags, psrWithTop_bit, BitVec.getLsbD_extractLsb']
  rfl

theorem setsFlags_of_top {s t : State} {v : Word} (h : t.cpsr = psrWithTop s.cpsr (v.extractLsb' 28 4)) :
    SetsFlags s t (psrFlags v) := by
  constructor
  · rw [State.flags, h, psrFlags_withTop]
  · rw [h, extract_psrWithTop]

/-- Writing the top four bits of a word to the CPSR sets its flags and leaves the rest (43_psr_transfer.md R234). -/
theorem writeCpsrFlags_effect (s : State) (v : Word) :
    ∃ t, s.writeCpsrFlags v = .next t ∧ SetsFlags s t (psrFlags v) ∧ KeepsRegs s t ∧ GoesOn s t ∧ KeepsBytes s t ∧
      KeepsSystem s t := by
  obtain ⟨hcpsr, hframe⟩ := advance_withCpsr_frame s [] (psrWithTop s.cpsr (v.extractLsb' 28 4))
  exact ⟨_, rfl, setsFlags_of_top hcpsr, hframe⟩

/-- In User mode only the flags are written (R239). -/
theorem writeCpsrAll_user {s : State} (h : s.mode = .usr) (v : Word) : s.writeCpsrAll v = s.writeCpsrFlags v := if_pos h

theorem writeCpsrAll_privileged {s : State} (h : s.mode ≠ .usr) {v : Word}
    (hmode : (Mode.ofBits (psrMode v)).isSome = true) :
    s.writeCpsrAll v = .next (State.advance { s with cpsr := psrKeep v }) := by
  obtain ⟨m, hm⟩ := Option.isSome_iff_exists.mp hmode
  simp [State.writeCpsrAll, h, hm]

/-- A mode that is none of the six is refused (93_implementation_defined.md U2). -/
theorem writeCpsrAll_illegal {s : State} (h : s.mode ≠ .usr) {v : Word} (hmode : Mode.ofBits (psrMode v) = none) :
    s.writeCpsrAll v = .refused .illegalMode := by
  simp [State.writeCpsrAll, h, hmode]

/-! ## Writing an SPSR -/

/-- From `s` to `t` the SPSR of the current mode gets the value `new`, and else only the place of execution moves. -/
def WritesSpsr (s t : State) (new : Word) : Prop :=
  t.spsrs.get? s.mode = some new ∧ (∀ m, m ≠ s.mode → t.spsrs.get? m = s.spsrs.get? m) ∧ t.cpsr = s.cpsr ∧
    KeepsRegs s t ∧ GoesOn s t ∧ KeepsBytes s t ∧ KeepsPlatform s t ∧ t.coprocs = s.coprocs

/-- A mode with an SPSR is privileged, so that `Spsrs.set` writes it and no other (10_state.md R22, R37). -/
theorem writeSpsr_effect {s : State} {old : Word} (h : s.spsr? = some old) (f : Word → Word) :
    ∃ t, s.writeSpsr f = .next t ∧ WritesSpsr s t (f old) := by
  have hpriv : s.mode ≠ .usr := fun huser => by simp [spsr?_none.mpr huser] at h
  refine ⟨State.advance { s with spsrs := s.spsrs.set s.mode (f old) }, by simp [State.writeSpsr, h], ?_, ?_, rfl,
    fun _ => rfl, ⟨rfl, rfl, rfl, rfl, rfl⟩, fun _ => rfl, ⟨rfl, rfl, rfl, rfl, rfl⟩, rfl⟩
  · exact (spsrs_get_set _ _ _ _).trans (if_pos ⟨rfl, hpriv⟩)
  · intro m hm
    exact (spsrs_get_set _ _ _ _).trans (if_neg fun hset => hm hset.1.symm)

/-- Settles O37: the whole CPSR by mode and by the mode written, each case by its lemma; a privileged mode has an SPSR. -/
theorem writePsr : Obligations.WritePsr := by
  intro c rm s hc hrm v
  rw [exec_msrRegAll hc hrm, exec_msrRegAll hc hrm, if_neg Bool.false_ne_true, if_pos rfl]
  refine ⟨fun huser => ?_, fun hpriv hmode => ?_, fun hpriv hmode => ?_, fun hpriv => ?_⟩
  · rw [writeCpsrAll_user huser]
    exact writeCpsrFlags_effect s v
  · exact ⟨_, writeCpsrAll_privileged hpriv hmode, advance_withCpsr_frame s [] (psrKeep v)⟩
  · exact writeCpsrAll_illegal hpriv hmode
  · obtain ⟨old, hold⟩ := Option.ne_none_iff_exists'.mp (mt spsr?_none.mp hpriv)
    exact writeSpsr_effect hold _

/-! ## Writing the flag bits -/

/-- Settles O38: the two forms of the instruction share `writeFlagBits`, which writes the top four bits of one PSR. -/
theorem writePsrFlags : Obligations.WritePsrFlags := by
  intro c s hc make v hform
  have hexec : ∀ pd, exec (make pd) s = s.writeFlagBits pd v := by
    rcases hform with ⟨rm, hrm, rfl, rfl⟩ | ⟨rot, imm8, rfl, rfl⟩
    · exact exec_msrRegFlg hc hrm
    · exact fun pd => exec_msrImmFlg hc pd rot imm8
  constructor
  · rw [hexec]
    exact writeCpsrFlags_effect s v
  · intro old hold
    obtain ⟨t, hwrite, hnew, hframe⟩ := writeSpsr_effect hold fun p => psrWithTop p (v.extractLsb' 28 4)
    exact ⟨t, _, (hexec true).trans hwrite, hnew, psrFlags_withTop old v, extract_psrWithTop old _, hframe⟩

end Sys2Proof.Machine

/-! # Multiply -/

namespace Sys2Proof.Machine

/-! ## The internal cycles -/

/-- From 2 on the cycles count the multiplier's bits two at a time, up to 16 (44_multiply.md R253). -/
theorem multiplyCycles_of_two_le {r : Word} (h : 2 ≤ r.toNat) :
    multiplyCycles r = min 16 ((Nat.log2 r.toNat + 3) / 2) := if_neg (by omega)

theorem multiplyCycles_of_lt_two {r : Word} (h : r.toNat < 2) : multiplyCycles r = 1 := if_pos h

/-- The cycles bound the multiplier (R253): it lies between the powers of two next to its logarithm. -/
theorem multiplyCycles_bounds (r : Word) :
    let m := multiplyCycles r
    1 ≤ m ∧ m ≤ 16 ∧ (m < 16 → r.toNat < 2 ^ (2 * m - 1)) ∧ (1 < m → 2 ^ (2 * m - 3) ≤ r.toNat) := by
  intro m
  by_cases hsmall : r.toNat < 2
  · have hm : m = 1 := multiplyCycles_of_lt_two hsmall
    rw [hm]
    omega
  · have hm : m = min 16 ((Nat.log2 r.toNat + 3) / 2) := multiplyCycles_of_two_le (by omega)
    have hlog : 1 ≤ Nat.log2 r.toNat := (Nat.le_log2 (by omega)).mpr (by omega)
    refine ⟨by omega, by omega, fun hfew => ?_, fun _ => ?_⟩
    · calc r.toNat < 2 ^ (Nat.log2 r.toNat + 1) := Nat.lt_log2_self
        _ ≤ 2 ^ (2 * m - 1) := Nat.pow_le_pow_right (by decide) (by omega)
    · calc 2 ^ (2 * m - 3) ≤ 2 ^ Nat.log2 r.toNat := Nat.pow_le_pow_right (by decide) (by omega)
        _ ≤ r.toNat := Nat.log2_self_le (by omega)

/-- The internal cycles of a multiply (R255) as the statements name them. -/
theorem mulCycles_eq (s : State) {rs : RegNum} (h : rs ≠ 15#4) :
    s.mulCycles rs = List.replicate (multiplyCycles (s.reg rs 0#32)) s.idle := by
  rw [State.mulCycles, reg_ahead s h 8#32 0#32]
  rfl

/-! ## The result and its flags -/

/-- The low 32 bits of a natural number with the flags a multiply sets on them (R252). -/
def productResult (old : Flags) (carry : Bool) (n : Nat) : AluResult :=
  { value := BitVec.ofNat 32 n
    flags := { n := (BitVec.ofNat 32 n).getLsbD 31, z := decide (n % 2 ^ 32 = 0), c := carry, v := old.v } }

theorem multiplyFlags_ofNat (old : Flags) (carry : Bool) (n : Nat) :
    multiplyFlags old carry (BitVec.ofNat 32 n) = (productResult old carry n).flags := by
  have hzero : BitVec.ofNat 32 n = 0#32 ↔ n % 2 ^ 32 = 0 := by
    rw [← BitVec.toNat_inj, BitVec.toNat_ofNat]
    rfl
  simp only [productResult, ← hzero]
  rfl

/-- The result of a multiply is written on top of what its internal cycles left (R252, R255). -/
theorem multiplyResult_effect (s : State) (sBit : Bool) (rd : RegNum) {rs : RegNum} (hrs : rs ≠ 15#4) (n : Nat) :
    ∃ t carry, s.multiplyResult sBit rd rs (BitVec.ofNat 32 n) = .next t ∧
      WritesResult s (s.passing (List.replicate (multiplyCycles (s.reg rs 0#32)) s.idle)) t rd sBit
        (productResult s.flags carry n) := by
  have hwrites := writesResult_advance s (s.mulCycles rs) rd sBit (productResult s.flags (Config.mulCarry s.tick) n)
  rw [← multiplyFlags_ofNat, mulCycles_eq s hrs] at hwrites
  refine ⟨_, _, ?_, hwrites⟩
  rw [State.multiplyResult, mulCycles_eq s hrs]
  rfl

/-! ## The two instructions -/

/-- MUL gives the low 32 bits of the product over the natural numbers (R250). -/
theorem exec_mul {c : Cond} {rd rs rm : RegNum} {s : State} (hc : condPasses c s.flags = true) (hrd : rd ≠ 15#4)
    (hrs : rs ≠ 15#4) (hrm : rm ≠ 15#4) (sBit : Bool) (rn : RegNum) :
    exec (.mul c sBit rd rn rs rm) s =
      s.multiplyResult sBit rd rs (BitVec.ofNat 32 ((s.reg rm 0#32).toNat * (s.reg rs 0#32).toNat)) := by
  rw [reg_ahead s hrm 0#32 8#32, reg_ahead s hrs 0#32 8#32, BitVec.ofNat_mul]
  simp only [BitVec.ofNat_toNat, BitVec.setWidth_eq]
  exact (conditional_passes hc _).trans (if_neg (by simp [hrd, hrs, hrm]))

/-- MLA adds Rn to the product before it takes the low 32 bits (R251). -/
theorem exec_mla {c : Cond} {rd rn rs rm : RegNum} {s : State} (hc : condPasses c s.flags = true) (hrd : rd ≠ 15#4)
    (hrs : rs ≠ 15#4) (hrm : rm ≠ 15#4) (hrn : rn ≠ 15#4) (sBit : Bool) :
    exec (.mla c sBit rd rn rs rm) s =
      s.multiplyResult sBit rd rs
        (BitVec.ofNat 32 ((s.reg rm 0#32).toNat * (s.reg rs 0#32).toNat + (s.reg rn 0#32).toNat)) := by
  rw [reg_ahead s hrm 0#32 8#32, reg_ahead s hrs 0#32 8#32, reg_ahead s hrn 0#32 8#32, BitVec.ofNat_add,
    BitVec.ofNat_mul]
  simp only [BitVec.ofNat_toNat, BitVec.setWidth_eq]
  exact (conditional_passes hc _).trans (if_neg (by simp [hrd, hrs, hrm, hrn]))

/-- Settles O40: the cycles by their bounds, each instruction by `multiplyResult_effect` of its number; R15 is the first
test under the condition. -/
theorem multiplyEffect : Obligations.MultiplyEffect := by
  intro c sBit rd rn rs rm s hc m e product
  refine ⟨multiplyCycles_bounds _, fun hrd hrs hrm => ?_, fun hrd hrs hrm hrn => ?_, fun hpc => ?_, fun hpc => ?_⟩
  · rw [exec_mul hc hrd hrs hrm]
    exact multiplyResult_effect s sBit rd hrs product
  · rw [exec_mla hc hrd hrs hrm hrn]
    exact multiplyResult_effect s sBit rd hrs (product + (s.reg rn 0#32).toNat)
  · exact (conditional_passes hc _).trans (if_pos hpc)
  · exact (conditional_passes hc _).trans (if_pos hpc)

end Sys2Proof.Machine

/-! # What writing general registers leaves -/

namespace Sys2Proof.Machine

/-- From `s` to `t` only general registers have changed. -/
def ChangesRegs (s t : State) : Prop := t = { s with regs := t.regs }

theorem setReg_changesRegs (s : State) (n : RegNum) (v : Word) : ChangesRegs s (s.setReg n v) := by
  unfold State.setReg State.setRegIn
  split <;> rfl

theorem writeBack_changesRegs (s : State) (p w : Bool) (rn : RegNum) (v : Word) :
    ChangesRegs s (s.writeBack p w rn v) := by
  unfold State.writeBack
  split
  · exact setReg_changesRegs s rn v
  · rfl

/-- Bus cycles do not look at the general registers. -/
theorem cycle_withRegs (s : State) (regs : Vector Word 30) (c : BusCycle) :
    State.cycle { s with regs } c = { s.cycle c with regs } := by
  cases h : s.moments <;> simp [State.cycle, State.environment, h]

namespace ChangesRegs

variable {s t : State}

theorem trans {u : State} (h : ChangesRegs s t) (g : ChangesRegs t u) : ChangesRegs s u := by
  rw [ChangesRegs, h] at g
  exact g

theorem mode (h : ChangesRegs s t) : t.mode = s.mode := by
  rw [h]
  rfl

theorem pc (h : ChangesRegs s t) : t.pc = s.pc := by rw [h]

theorem mem (h : ChangesRegs s t) : t.mem = s.mem := by rw [h]

theorem inputs (h : ChangesRegs s t) : t.inputs = s.inputs := by rw [h]

theorem frame (h : ChangesRegs s t) : t.cpsr = s.cpsr ∧ KeepsBytes s t ∧ KeepsSystem s t := by
  rw [h]
  exact ⟨rfl, fun _ => rfl, ⟨rfl, rfl, rfl, rfl, rfl, rfl⟩, rfl⟩

/-- Going on after registers were written also moves the place of execution. -/
theorem advance_frame (h : ChangesRegs s t) :
    t.advance.cpsr = s.cpsr ∧ GoesOn s t.advance ∧ KeepsBytes s t.advance ∧ KeepsSystem s t.advance := by
  rw [h]
  exact ⟨rfl, ⟨rfl, rfl, rfl, rfl, rfl⟩, fun _ => rfl, ⟨rfl, rfl, rfl, rfl, rfl, rfl⟩, rfl⟩

theorem branchTo_frame (h : ChangesRegs s t) (a : Word) :
    GoesTo (t.branchTo a) a ∧ (t.branchTo a).cpsr = s.cpsr ∧ KeepsBytes s (t.branchTo a) ∧
      KeepsSystem s (t.branchTo a) := by
  rw [h]
  exact ⟨⟨clear_low_bits a, rfl, rfl, rfl, rfl⟩, rfl, fun _ => rfl, ⟨rfl, rfl, rfl, rfl, rfl, rfl⟩, rfl⟩

/-- A fetch after registers were written is the fetch before it, since its cycle does not look at them. -/
theorem discardedFetch (h : ChangesRegs s t) (a : Word) : ChangesRegs (s.discardedFetch a) (t.discardedFetch a) := by
  have hfetched : t.discardedFetch a = { s.discardedFetch a with regs := t.regs } :=
    (congrArg (State.discardedFetch · a) h).trans (cycle_withRegs s t.regs (s.fetchCycle true a))
  rw [ChangesRegs, hfetched]

end ChangesRegs

end Sys2Proof.Machine

/-! # What an exception entry leaves -/

namespace Sys2Proof.Machine

/-- The bits of the CPSR beside the flags, I, F and the mode stay (60_exceptions.md R380). -/
theorem newCpsr_reserved (e : Exc) (p : Word) : e.newCpsr p &&& 0x0FFFFF20#32 = p &&& 0x0FFFFF20#32 := by
  have hmask : ∀ i : Fin 32, (0x0FFFFF20#32).getLsbD i.val = true →
      ¬ i.val < 5 ∧ (0x80#32).getLsbD i.val = false ∧ (0x40#32).getLsbD i.val = false := by decide
  apply BitVec.eq_of_getLsbD_eq
  intro i hi
  rw [BitVec.getLsbD_and, BitVec.getLsbD_and]
  cases hm : (0x0FFFFF20#32).getLsbD i with
  | false => rw [Bool.and_false, Bool.and_false]
  | true =>
    obtain ⟨hmode, hI, hF⟩ := hmask ⟨i, hi⟩ hm
    unfold Exc.newCpsr
    dsimp only
    split
    · rw [psrSetF_bit, psrSetI_bit, psrWithMode_bit, if_neg hmode, hI, hF, Bool.or_false, Bool.or_false]
    · rw [psrSetI_bit, psrWithMode_bit, if_neg hmode, hI, Bool.or_false]

/-- An exception entry changes the CPSR, R14 and the SPSR of its mode and the PC (R371, R372, R380, R381). -/
theorem enter_entersMode (s : State) (e : Exc) (ret : Word) :
    EntersMode s (s.enter e ret) e.mode e.vector ret (decide (e = .fiq)) := by
  refine ⟨rfl, psrMode_newCpsr e s.cpsr, psrI_newCpsr e s.cpsr, psrF_newCpsr e s.cpsr, psrFlags_newCpsr e s.cpsr,
    newCpsr_reserved e s.cpsr, ?_, fun q hq => ?_, ?_, fun k hk => ?_⟩
  · rw [gpr_enter, if_pos rfl]
  · rw [gpr_enter, if_neg hq.symm]
  · rw [enter_spsrs, spsrs_get_set, if_pos ⟨rfl, e.mode_ne_usr⟩]
  · rw [enter_spsrs, spsrs_get_set, if_neg fun hset => hk hset.1.symm]

/-- An exception that an instruction takes leaves the rest as it was, with the pipeline discarded. -/
theorem enter_entersAlone (s : State) {e : Exc} (he : e ≠ .fiq) (ret : Word) :
    EntersAlone s (s.enter e ret) e.mode e.vector ret := by
  have hmode := enter_entersMode s e ret
  rw [decide_eq_false he] at hmode
  exact ⟨⟨hmode, enter_byteAt s e ret⟩, rfl, rfl, rfl, rfl, rfl, rfl, rfl, rfl, rfl⟩

end Sys2Proof.Machine

/-! # Single data transfer -/

namespace Sys2Proof.Machine

/-! ## The offset and the address -/

theorem offsetValue_imm (s : State) (imm : BitVec 12) : (s.offsetValue (.imm imm)).toNat = imm.toNat :=
  BitVec.toNat_setWidth_of_le (by decide)

theorem offsetValue_reg (s : State) {rm : RegNum} (h : rm ≠ 15#4) (ty : ShiftType) (amount : BitVec 5) :
    s.offsetValue (.reg rm ty amount) = (shiftByImm ty amount (s.reg rm 0#32) s.flags.c).1 := by
  rw [State.offsetValue, reg_ahead s h 8#32 0#32]

/-- The modified base over the natural numbers, modulo 2^32 (45_single_data_transfer.md R261, 20_memory.md R83). -/
theorem indexed_toNat (u : Bool) (base offset : Word) :
    (indexed u base offset).toNat =
      (if u then base.toNat + offset.toNat else base.toNat + 2 ^ 32 - offset.toNat) % 2 ^ 32 := by
  have hlt := offset.isLt
  cases u with
  | true => exact BitVec.toNat_add base offset
  | false =>
    refine (BitVec.toNat_sub base offset).trans (congrArg (· % 2 ^ 32) ?_)
    simp only [Bool.false_eq_true, if_false]
    omega

/-- Settles O41: each part by its own lemma; the transfer address is its definition. -/
theorem singleAddresses : Obligations.SingleAddresses := fun s _ u rn _ off imm ty amount =>
  ⟨offsetValue_imm s imm, fun hrm => offsetValue_reg s hrm ty amount, indexed_toNat u (s.baseOf rn) (s.offsetValue off), rfl⟩

/-! ## The write-back -/

/-- From `s` to `t` register `rn` gets `v` when the indexing writes the base back, and no other register changes
(45_single_data_transfer.md R271). -/
def WritesBase (s t : State) (p w : Bool) (rn : RegNum) (v : Word) : Prop :=
  ∀ q, t.gpr q = if (p = false ∨ w = true) ∧ phys s.mode rn = some q then v else s.gpr q

theorem writesBack_iff (p w : Bool) : writesBack p w = true ↔ p = false ∨ w = true := by
  simp [writesBack]

theorem writeBack_writesBase (s : State) (p w : Bool) (rn : RegNum) (v : Word) :
    WritesBase s (s.writeBack p w rn v) p w rn v := by
  intro q
  simp only [State.writeBack, writesBack_iff]
  by_cases hback : p = false ∨ w = true
  · simp only [hback, if_true, true_and, gpr_setReg]
  · simp only [hback, if_false, false_and]

/-- Bus cycles and data writes before the write-back leave the registers to it. -/
theorem writesBase_congr {s e t : State} {p w : Bool} {rn : RegNum} {v : Word} (h : WritesBase e t p w rn v)
    (hmode : e.mode = s.mode) (hgpr : ∀ q, e.gpr q = s.gpr q) : WritesBase s t p w rn v := by
  intro q
  rw [h q, hmode, hgpr]

/-- The forms that the statements take are not refused (R272). -/
theorem singleRefusal_none {p w : Bool} {rn : RegNum} {off : Offset} (hrn : rn = 15#4 → p = true ∧ w = false)
    (hoff : offsetUsesPc off = false) : singleRefusal p w rn off = none := by
  have hback : ¬ (rn = 15#4 ∧ writesBack p w = true) := by
    rintro ⟨hpc, hback⟩
    obtain ⟨rfl, rfl⟩ := hrn hpc
    cases hback
  rw [singleRefusal, if_neg hback, if_neg (by simp [hoff])]

/-! ## The loads -/

/-- The four loads share one template (R262, R263, R266, R267). -/
theorem exec_singleLoad {p w : Bool} {x : SingleForm} (h : x ∈ singleLoads p w) (c : Cond) (u : Bool) (rn rd : RegNum)
    (off : Offset) (s : State) :
    exec (x.instr c u rn rd off) s = loadSingle x.byte x.user c x.p u x.w rn rd off s := by
  simp only [singleLoads, List.mem_cons, List.not_mem_nil, or_false] at h
  rcases h with rfl | rfl | rfl | rfl <;> rfl

/-- The internal cycle of an instruction that has made another cycle (21_bus_interface_and_signals.md R106). -/
theorem cycle_internal (s : State) (c : BusCycle) : (s.cycle c).internal = s.passing [c, s.idle] := by
  have hattrs : (s.cycle c).dataAttrs false false = s.dataAttrs false false := dataAttrs_congr (cycle_cpsr s c) _ _
  simp only [State.internal, State.internalCycle, State.ahead, State.idle, State.passing, List.foldl_cons, List.foldl_nil,
    hattrs, cycle_pc]

/-- A load after its two cycles (R262, R274, R276). -/
theorem loadSingle_eq {byte user p u w : Bool} {c : Cond} {rn : RegNum} {off : Offset} {s : State}
    (hc : condPasses c s.flags = true) (hform : singleRefusal p w rn off = none) (rd : RegNum) :
    loadSingle byte user c p u w rn rd off s =
      let a := s.singleAddress p u rn off
      let attrs := s.transferAttrs user false byte
      let r := s.passing [readCycle .n a attrs]
      let e := (s.passing (s.loadCycles a attrs)).writeBack p w rn (s.modifiedBase u rn off)
      if r.aborts a attrs then .next e.dataAbort else .next (e.finish rd (r.loaded a attrs)) := by
  rw [loadSingle, conditional_passes hc, hform]
  simp only [cycle_internal, readData_eq_loaded]
  rfl

/-! ## The stores -/

/-- The four stores share one template (R264, R265, R269, R270). -/
theorem exec_singleStore {p w : Bool} {x : SingleForm} (h : x ∈ singleStores p w) (c : Cond) (u : Bool) (rn rd : RegNum)
    (off : Offset) (s : State) :
    exec (x.instr c u rn rd off) s = storeSingle x.byte x.user c x.p u x.w rn rd off s := by
  simp only [singleStores, List.mem_cons, List.not_mem_nil, or_false] at h
  rcases h with rfl | rfl | rfl | rfl <;> rfl

/-- A stored R15 is the instruction's address plus 12 (R272). -/
theorem reg_stored (s : State) (rd : RegNum) :
    s.reg rd 12#32 = if rd = 15#4 then s.pc + 12#32 else s.reg rd 0#32 := by
  split
  · next h => rw [h, reg_pc]
  · next h => exact reg_ahead s h _ _

/-- An aborted write changes nothing (R67). -/
theorem busWrite_aborted {s : State} {a : Word} {t : BusAttrs} (h : s.aborts a t = true) (v : Word) :
    s.busWrite a t v = s := busWrite_of_reply ((aborts_iff s a t).mp h) v

/-- The cycle of a single store, as the statements name it, and its write (20_memory.md R60). -/
theorem store_eq_busWrite (s : State) (a : Word) (t : BusAttrs) (v : Word) :
    s.store .n a t v = (s.passing (storeCycles a t v)).busWrite a t v := rfl

/-- A store after its cycle: the memory system answers it, and an aborted one writes nothing (R264, R274). -/
theorem storeSingle_eq {byte user p u w : Bool} {c : Cond} {rn : RegNum} {off : Offset} {s : State}
    (hc : condPasses c s.flags = true) (hform : singleRefusal p w rn off = none) (rd : RegNum) :
    storeSingle byte user c p u w rn rd off s =
      let a := s.singleAddress p u rn off
      let attrs := s.transferAttrs user true byte
      let v := if rd = 15#4 then s.pc + 12#32 else s.reg rd 0#32
      let e := s.passing (storeCycles a attrs v)
      if e.aborts a attrs then .next (e.writeBack p w rn (s.modifiedBase u rn off)).dataAbort
      else .next ((e.busWrite a attrs v).writeBack p w rn (s.modifiedBase u rn off)).advance := by
  rw [storeSingle, conditional_passes hc, hform, reg_stored]
  dsimp only
  rw [aborts_congr (writeBack_changesRegs _ p w rn _).inputs, store_eq_busWrite, aborts_congr (busWrite_inputs _ _ _ _)]
  refine ite_congr rfl (fun habort => ?_) fun _ => rfl
  rw [busWrite_aborted habort]

/-- What a data write leaves in the memory, whatever the memory system answers (20_memory.md R60, R67, R68). -/
theorem stores_busWrite {s : State} (h : s.mem.wf = true) (a : Word) (t : BusAttrs) (v : Word) :
    Stores s s.mem (s.busWrite a t v).mem a t v := by
  cases hr : s.reply a t with
  | none => exact busWrite_stores hr h v
  | some x =>
    rw [busWrite_of_reply hr, Stores, if_neg (by simp [hr])]
    exact fun _ => rfl

/-- A data write changes nothing but the memory. -/
theorem busWrite_frame (s : State) (a : Word) (t : BusAttrs) (v : Word) :
    s.busWrite a t v = { s with mem := (s.busWrite a t v).mem } := by
  unfold State.busWrite State.writeData
  split
  · split <;> rfl
  · rfl

/-! ## A transfer that is not aborted -/

/-- The write-back after some bus cycles. -/
theorem passing_writeBack (s : State) (cs : List BusCycle) (p w : Bool) (rn : RegNum) (v : Word) :
    let t := (s.passing cs).writeBack p w rn v
    ChangesRegs (s.passing cs) t ∧ WritesBase s t p w rn v :=
  ⟨writeBack_changesRegs _ p w rn v,
    writesBase_congr (writeBack_writesBase _ p w rn v) (passing_mode s cs) (passing_gpr s cs)⟩

/-- Settles O42: the loaded value is written after the base, so that it wins. -/
theorem loadSingle_effect : Obligations.LoadSingle := by
  intro p w x hx c u rn rd off s hc hrd hrn hoff a attrs r e habort
  obtain ⟨hchanges, hbase⟩ := passing_writeBack s (s.loadCycles a attrs) x.p x.w rn (s.modifiedBase u rn off)
  have hmode := hchanges.mode.trans (passing_mode s _)
  obtain ⟨hcpsr, hframe⟩ := (hchanges.trans (setReg_changesRegs _ rd (r.loaded a attrs))).advance_frame
  refine ⟨_, ?_, fun q => ?_, hcpsr.trans (passing_cpsr s _), hframe⟩
  · rw [exec_singleLoad hx, loadSingle_eq hc (singleRefusal_none hrn hoff)]
    exact (if_neg (Bool.eq_false_iff.mp habort)).trans (congrArg Host.Outcome.next (if_neg hrd))
  · rw [advance_gpr, gpr_setReg, hmode, hbase q]

/-- Settles O43: with Rd = R15 the load ends in a branch to the value. -/
theorem loadPc : Obligations.LoadPc := by
  intro p w x hx c u rn off s hc hrn hoff a attrs r e habort
  obtain ⟨hchanges, hbase⟩ := passing_writeBack s (s.loadCycles a attrs) x.p x.w rn (s.modifiedBase u rn off)
  obtain ⟨hgoes, hcpsr, hframe⟩ := hchanges.branchTo_frame (r.loaded a attrs)
  refine ⟨_, ?_, hgoes, hbase, hcpsr.trans (passing_cpsr s _), hframe⟩
  rw [exec_singleLoad hx, loadSingle_eq hc (singleRefusal_none hrn hoff)]
  exact (if_neg (Bool.eq_false_iff.mp habort)).trans (congrArg Host.Outcome.next (if_pos rfl))

/-- Settles O44: the memory is what the write left, since the write-back changes only registers, and all else is as the write
found it. -/
theorem storeSingle_effect : Obligations.StoreSingle := by
  intro p w x hx c u rn rd off s hc hrn hoff hm a v attrs e habort
  let b := (e.busWrite a attrs v).writeBack x.p x.w rn (s.modifiedBase u rn off)
  have hchanges : ChangesRegs (e.busWrite a attrs v) b := writeBack_changesRegs _ _ _ _ _
  have hbase : WritesBase s b x.p x.w rn (s.modifiedBase u rn off) :=
    writesBase_congr (writeBack_writesBase (e.busWrite a attrs v) _ _ _ _) (by simp [e]) (by simp [e])
  obtain ⟨hcpsr, hgoes, -, hsystem⟩ := hchanges.advance_frame
  refine ⟨b.advance, ?_, ?_, hbase, hcpsr.trans (by simp [e]), ?_, ?_⟩
  · rw [exec_singleStore hx, storeSingle_eq hc (singleRefusal_none hrn hoff)]
    exact if_neg (Bool.eq_false_iff.mp habort)
  · rw [advance_mem, hchanges.mem]
    exact stores_busWrite (passing_wf hm _) a attrs v
  · rwa [busWrite_frame] at hgoes
  · rwa [busWrite_frame] at hsystem

/-! ## A transfer that is aborted -/

/-- The data abort after the write-back: the entry's fetch sees the bus as it was without the write-back (R274,
60_exceptions.md R380, R386). -/
theorem writeBack_dataAbort (s : State) (cs : List BusCycle) (p w : Bool) (rn : RegNum) (v : Word) :
    let t := ((s.passing cs).writeBack p w rn v).dataAbort
    ∃ before, EntersAlone before t .abt 0x00000010#32 (s.pc + 8#32) ∧ WritesBase s before p w rn v ∧
      before.cpsr = s.cpsr ∧ KeepsBytes (s.aborting cs) before ∧ KeepsSystem (s.aborting cs) before ∧
      t.coprocs = s.coprocs := by
  obtain ⟨hchanges, hbase⟩ := passing_writeBack s cs p w rn v
  have hpc := hchanges.pc.trans (passing_pc s cs)
  obtain ⟨hcpsr, hbytes, hsystem, hcoprocs⟩ := (hchanges.discardedFetch (s.pc + 8#32)).frame
  rw [State.dataAbort, hpc]
  refine ⟨_, enter_entersAlone _ (by decide) (s.pc + 8#32), fun q => ?_, hcpsr.trans (by simp), hbytes,
    ⟨hsystem, hcoprocs⟩, hcoprocs.trans (by simp)⟩
  rw [discardedFetch_gpr, hbase q]

/-- Settles O45: loads and stores both write the base back after their cycles and enter. -/
theorem singleAbort : Obligations.SingleAbort := by
  intro p w store x hx c u rn rd off s hc hrn hoff a v attrs cycles e habort
  obtain ⟨before, heffect⟩ := writeBack_dataAbort s cycles x.p x.w rn (s.modifiedBase u rn off)
  refine ⟨_, before, ?_, heffect⟩
  have hform := singleRefusal_none hrn hoff
  cases store with
  | false =>
    rw [exec_singleLoad hx, loadSingle_eq hc hform]
    exact if_pos habort
  | true =>
    rw [exec_singleStore hx, storeSingle_eq hc hform]
    exact if_pos habort

end Sys2Proof.Machine

/-! # The condition codes -/

namespace Sys2Proof.Machine

/-! The codes that test two flags (40_conditional_execution.md R161); the others are a flag or its complement. -/

theorem condPasses_hi (f : Flags) : condPasses .hi f = true ↔ f.c = true ∧ f.z = false := by simp [condPasses]

theorem condPasses_ls (f : Flags) : condPasses .ls f = true ↔ f.c = false ∨ f.z = true := by simp [condPasses]

theorem condPasses_ge (f : Flags) : condPasses .ge f = true ↔ f.n = f.v := by simp [condPasses]

theorem condPasses_lt (f : Flags) : condPasses .lt f = true ↔ f.n ≠ f.v := by simp [condPasses]

theorem condPasses_gt (f : Flags) : condPasses .gt f = true ↔ f.z = false ∧ f.n = f.v := by simp [condPasses]

theorem condPasses_le (f : Flags) : condPasses .le f = true ↔ f.z = true ∨ f.n ≠ f.v := by simp [condPasses]

/-- Settles O23: each code names its condition, and the six that test two flags have a lemma each. -/
theorem conditionTable : Obligations.ConditionTable := fun f =>
  ⟨rfl, rfl, rfl, rfl, rfl, rfl, rfl, rfl, condPasses_hi f, condPasses_ls f, condPasses_ge f, condPasses_lt f,
    condPasses_gt f, condPasses_le f, rfl, rfl⟩

end Sys2Proof.Machine

/-! # What an offer to the coprocessors does -/

namespace Sys2Proof.Machine

/-! ## What the coprocessors have seen -/

theorem coprocessor?_congr {s t : State} (h : t.coprocs = s.coprocs) (k : BitVec 4) :
    t.coprocessor? k = s.coprocessor? k := by
  simp only [State.coprocessor?, h]

/-- An answer changes neither the number of a coprocessor nor what it has seen. -/
theorem answered_number (cp : Coproc) (w : Word) (nTRANS : Bool) (nM : BitVec 5) :
    (cp.answered w nTRANS nM).number = cp.number := by
  unfold Coproc.answered
  split <;> rfl

/-- What a coprocessor answers does not depend on what it has seen (49_coprocessor.md R347). -/
theorem answered_tell (events : List CpEvent) (cp : Coproc) (w : Word) (nTRANS : Bool) (nM : BitVec 5) :
    (cp.tell events).answered w nTRANS nM = (cp.answered w nTRANS nM).tell events := by
  have hdeclines : (cp.tell events).declinesWord w nTRANS nM = cp.declinesWord w nTRANS nM := rfl
  unfold Coproc.answered
  rw [hdeclines]
  split <;> rfl

/-- An offer shows to every coprocessor (R341, 48_swi_and_undefined.md R335). -/
theorem present_coprocessor? (s : State) (w : Word) (k : BitVec 4) :
    (s.present w).coprocessor? k = (s.coprocessor? k).map (Coproc.tell (s.offerEvents w)) :=
  find_map (Coproc.tell _) (fun _ => rfl) s.coprocs k

theorem present_offers (s : State) (num : BitVec 4) (w : Word) : Offers s (s.present w) num w id := by
  intro k
  rw [present_coprocessor?]
  simp

/-- One coprocessor answers, and every one sees the offer (R342, R343). -/
theorem cpAnswered_offers (s : State) (num : BitVec 4) (w : Word) :
    Offers s ((s.present w).cpAnswered num w) num w (fun cp => cp.answered w s.nTRANS s.nM) := by
  intro k
  have hupdate : ((s.present w).cpAnswered num w).coprocessor? k =
      if k = num then ((s.present w).coprocessor? k).map (fun cp => cp.answered w s.nTRANS s.nM)
      else (s.present w).coprocessor? k :=
    find_cpUpdate _ (fun cp => answered_number cp _ _ _) _ num k
  rw [hupdate, present_coprocessor?]
  split <;> simp [Function.comp_def, answered_tell]

theorem Offers.congr {s t u : State} {num : BitVec 4} {w : Word} {f : Coproc → Coproc} (h : Offers s t num w f)
    (hu : u.coprocs = t.coprocs) : Offers s u num w f := fun k => (coprocessor?_congr hu k).trans (h k)

/-- A coprocessor that accepts is there, and gives its next answer (R345, R347). -/
theorem cpAnswer_accept {s : State} {num : BitVec 4} {w word : Word} {more : List Word}
    (h : s.cpAnswer num w = .accept word more) :
    ∃ cp, s.coprocessor? num = some cp ∧ cp.answered w s.nTRANS s.nM = { cp with answers := cp.answers.tail } := by
  unfold State.cpAnswer at h
  split at h
  · cases h
  · next cp hcp =>
    refine ⟨cp, hcp, if_neg fun hdeclines => ?_⟩
    rw [Coproc.answerTo, if_pos hdeclines] at h
    cases h

/-- A coprocessor that accepts and is then told of the transfer (R341, R347). -/
theorem tells_of_accept {s t : State} {num : BitVec 4} {w word : Word} {more : List Word} {events : List CpEvent}
    (h : s.cpAnswer num w = .accept word more)
    (ht : t.coprocs = (((s.present w).cpAnswered num w).cpTell num events).coprocs) : Tells s t num w events := by
  have htold : ∀ k, t.coprocessor? k =
      if k = num then (((s.present w).cpAnswered num w).coprocessor? k).map (Coproc.tell events)
      else ((s.present w).cpAnswered num w).coprocessor? k := by
    intro k
    rw [coprocessor?_congr ht]
    exact find_cpUpdate (Coproc.tell events) (fun _ => rfl) _ num k
  obtain ⟨cp, hcp, hanswered⟩ := cpAnswer_accept h
  refine ⟨⟨cp, hcp, ?_⟩, fun k hk => ?_⟩
  · rw [htold, if_pos rfl, cpAnswered_offers, hcp, Option.map_some, Option.map_some, if_pos rfl]
    exact congrArg (fun x => some (Coproc.tell events (Coproc.tell (s.offerEvents w) x))) hanswered
  · rw [htold, if_neg hk, cpAnswered_offers]
    simp only [if_neg hk]

/-! ## Traps -/

/-- Settles O53: both are an exception entry; the undefined instruction is shown to the coprocessors before. -/
theorem swiAndUndefined : Obligations.SwiAndUndefined := by
  intro c comment high low s hc
  exact ⟨⟨_, conditional_passes hc _, enter_entersAlone s (by decide) _, rfl⟩,
    ⟨_, conditional_passes hc _, enter_entersAlone (s.present _) (by decide) _, present_coprocessor? s _⟩⟩

end Sys2Proof.Machine

/-! # What changes registers, memory and coprocessors only -/

namespace Sys2Proof.Machine

/-- From `s` to `t` nothing has changed but general registers, the memory and the coprocessors. -/
def ChangesData (s t : State) : Prop := t = { s with regs := t.regs, mem := t.mem, coprocs := t.coprocs }

namespace ChangesData

variable {s t : State}

theorem refl (s : State) : ChangesData s s := rfl

theorem trans {u : State} (h : ChangesData s t) (g : ChangesData t u) : ChangesData s u := by
  rw [ChangesData, h] at g
  exact g

theorem of_regs (h : ChangesRegs s t) : ChangesData s t := by
  rw [h]
  rfl

/-- A bus cycle does not look at the data. -/
theorem cycle (h : ChangesData s t) (c : BusCycle) : ChangesData (s.cycle c) (t.cycle c) := by
  rw [h]
  cases hm : s.moments <;> simp [ChangesData, State.cycle, State.environment, hm]

theorem passing (h : ChangesData s t) (cs : List BusCycle) : ChangesData (s.passing cs) (t.passing cs) := by
  induction cs generalizing s t with
  | nil => exact h
  | cons c cs ih => exact ih (h.cycle c)

theorem pc (h : ChangesData s t) : t.pc = s.pc := by rw [h]

theorem cpsr (h : ChangesData s t) : t.cpsr = s.cpsr := by rw [h]

theorem seq (h : ChangesData s t) : t.seq = s.seq := by rw [h]

theorem inputs (h : ChangesData s t) : t.inputs = s.inputs := by rw [h]

theorem moments (h : ChangesData s t) : t.moments = s.moments := by rw [h]

theorem mode (h : ChangesData s t) : t.mode = s.mode := by
  simp only [State.mode, h.cpsr]

theorem outside (h : ChangesData s t) : KeepsOutside s t := by
  rw [h]
  exact ⟨rfl, rfl, rfl, rfl, rfl, rfl⟩

theorem keepsSystem (h : ChangesData s t) (hcoprocs : t.coprocs = s.coprocs) : KeepsSystem s t := ⟨h.outside, hcoprocs⟩

/-- A fetch does not look at the data. -/
theorem discardedFetch (h : ChangesData s t) (a : Word) : ChangesData (s.discardedFetch a) (t.discardedFetch a) := by
  have hfetch : t.fetchCycle true a = s.fetchCycle true a := by
    rw [State.fetchCycle, State.fetchCycle, h.seq, fetchAttrs_congr h.cpsr]
  rw [State.discardedFetch, State.discardedFetch, hfetch]
  exact h.cycle _

/-- With the memory kept, every byte reads as before. -/
theorem keepsBytes (h : ChangesData s t) (hmem : t.mem = s.mem) : KeepsBytes s t := by
  intro a
  rw [State.byteAt, State.byteAt, hmem, h.inputs]

theorem goesOn (h : ChangesData s t) : GoesOn s t.advance := by
  rw [h]
  exact ⟨rfl, rfl, rfl, rfl, rfl⟩

theorem keepsRegs_of_regs (h : t.regs = s.regs) : KeepsRegs s t := fun q => by
  rw [State.gpr, State.gpr, h]

/-- The same memory before some cycles is the same after them (20_memory.md R60). -/
theorem passing_mem (h : ChangesData s t) (hmem : t.mem = s.mem) (cs : List BusCycle) :
    (t.passing cs).mem = (s.passing cs).mem := by
  induction cs generalizing s t with
  | nil => exact hmem
  | cons c cs ih => exact ih (h.cycle c) (environment_mem_congr h.moments hmem)

end ChangesData

theorem present_changesData (s : State) (w : Word) : ChangesData s (s.present w) := rfl

theorem cpAnswered_changesData (s : State) (num : BitVec 4) (w : Word) : ChangesData s (s.cpAnswered num w) := rfl

theorem cpTell_changesData (s : State) (num : BitVec 4) (events : List CpEvent) :
    ChangesData s (s.cpTell num events) := rfl

theorem setReg_changesData (s : State) (n : RegNum) (v : Word) : ChangesData s (s.setReg n v) :=
  .of_regs (setReg_changesRegs s n v)

theorem busWrite_changesData (s : State) (a : Word) (t : BusAttrs) (v : Word) : ChangesData s (s.busWrite a t v) := by
  rw [busWrite_frame]
  rfl

end Sys2Proof.Machine

/-! # Coprocessor instructions that end in the offer -/

namespace Sys2Proof.Machine

/-- The five coprocessor instructions are an offer under a condition (49_coprocessor.md R340, R342). -/
theorem exec_offers {i : Instr} {num : BitVec 4} (h : coprocessorOf i = some num) (s : State) :
    ∃ accepted, exec i s = s.conditional i.cond (s.offer num (encode i) accepted) := by
  cases i with
  | cdp | mrc | mcr | ldc | stc => cases h; exact ⟨_, rfl⟩
  | _ => cases h

/-- No coprocessor of the number: the word is declined (R343). -/
theorem cpAnswer_absent {s : State} {num : BitVec 4} (h : ∀ cp ∈ s.coprocs, cp.number ≠ num) (w : Word) :
    s.cpAnswer num w = .decline := by
  have hfind : s.coprocessor? num = none := List.find?_eq_none.mpr fun cp hcp => by simpa using h cp hcp
  rw [State.cpAnswer, hfind]

/-- Bus cycles do not look at the coprocessors. -/
theorem cycle_withCoprocs (s : State) (coprocs : List Coproc) (c : BusCycle) :
    State.cycle { s with coprocs } c = { s.cycle c with coprocs } := by
  cases h : s.moments <;> simp [State.cycle, State.environment, h]

theorem passing_withCoprocs (s : State) (coprocs : List Coproc) (cs : List BusCycle) :
    State.passing { s with coprocs } cs = { s.passing cs with coprocs } := by
  induction cs generalizing s with
  | nil => rfl
  | cons c cs ih =>
    change State.passing (State.cycle { s with coprocs } c) cs = _
    rw [cycle_withCoprocs]
    exact ih (s.cycle c)

/-- From `s` to `t` one cycle of the busy-wait has been made (R344): an internal cycle, and the instruction stays where it
is. The coprocessors have seen the offer of `w`, and coprocessor `num` has done what `f` says. -/
def Waits (s t : State) (num : BitVec 4) (w : Word) (f : Coproc → Coproc) : Prop :=
  let e := s.passing [s.internalCycle false (s.pc + 8#32)]
  KeepsRegs s t ∧ t.cpsr = s.cpsr ∧ t.pc = s.pc ∧ t.pipe = s.pipe ∧ t.ldmShadow = s.ldmShadow ∧ t.busyWait = true ∧
    t.seq = e.seq ∧ KeepsBytes e t ∧ KeepsOutside e t ∧ Offers s t num w f

theorem waitCycle_waits {s t : State} (ht : t = { s with coprocs := t.coprocs }) {num : BitVec 4} {w : Word}
    {f : Coproc → Coproc} (h : Offers s t num w f) : Waits s t.waitCycle num w f := by
  have hcycle : t.waitCycle =
      { s.cycle (s.internalCycle false (s.pc + 8#32)) with busyWait := true, coprocs := t.coprocs } := by
    rw [ht]
    exact congrArg (fun u : State => { u with busyWait := true }) (cycle_withCoprocs s t.coprocs _)
  rw [hcycle]
  let c := s.internalCycle false (s.pc + 8#32)
  exact ⟨cycle_gpr s c, cycle_cpsr s c, cycle_pc s c, cycle_pipe s c, cycle_ldmShadow s c, rfl, rfl, fun _ => rfl,
    ⟨rfl, rfl, rfl, rfl, rfl, rfl⟩, h.congr rfl⟩

/-! ## The answers that are no acceptance -/

section

variable {s : State} {num : BitVec 4} {w : Word} (f : State → Word → List Word → Result)

theorem offer_decline (h : s.cpAnswer num w = .decline) :
    s.offer num w f = .next (((s.present w).cpAnswered num w).enter .undefined (s.pc + 4#32)) := by
  simp only [State.offer, h]

theorem offer_busy (h : s.cpAnswer num w = .busy) :
    s.offer num w f = .next ((s.present w).cpAnswered num w).waitCycle := by
  simp only [State.offer, h]

theorem offer_hang (h : s.cpAnswer num w = .hang) : s.offer num w f = .next (s.present w).waitCycle := by
  simp only [State.offer, h]

end

/-- Settles O55: the offer has one case for each answer, and each is a trap or a cycle of the busy-wait. -/
theorem coprocessorAbsentOrBusy : Obligations.CoprocessorAbsentOrBusy := by
  intro i num s hnum hc w answered waits
  obtain ⟨accepted, hexec⟩ := exec_offers hnum s
  rw [conditional_passes hc] at hexec
  rw [hexec]
  have hanswered := cpAnswered_offers s num w
  refine ⟨fun h => cpAnswer_absent h w, by rw [← nTRANS_eq]; rfl, fun h => ?_, fun h => ?_, fun h => ?_⟩
  · exact ⟨_, offer_decline accepted h, enter_entersAlone ((s.present w).cpAnswered num w) (by decide) _, hanswered⟩
  · exact ⟨_, offer_busy accepted h, waitCycle_waits rfl hanswered⟩
  · exact ⟨_, offer_hang accepted h, waitCycle_waits rfl (present_offers s num w)⟩

end Sys2Proof.Machine

/-! # CDP, MRC and MCR -/

namespace Sys2Proof.Machine

/-- The coprocessors after coprocessor `num` has accepted `w` and has been told `events` (49_coprocessor.md R345, R347). -/
def State.acceptedCoprocs (s : State) (num : BitVec 4) (w : Word) (events : List CpEvent) : List Coproc :=
  (((s.present w).cpAnswered num w).cpTell num events).coprocs

/-- The state in which the transfer cycles of an accepted instruction have been made. -/
def State.transferred (s : State) (num : BitVec 4) (w : Word) (events : List CpEvent) (cs : List BusCycle) : State :=
  { s.passing cs with coprocs := s.acceptedCoprocs num w events }

/-- A coprocessor that has accepted is told before the transfer cycles, which do not look at it. -/
theorem cpTell_passing (s : State) (num : BitVec 4) (w : Word) (events : List CpEvent) (cs : List BusCycle) :
    (((s.present w).cpAnswered num w).cpTell num events).passing cs = s.transferred num w events cs :=
  passing_withCoprocs s (s.acceptedCoprocs num w events) cs

@[simp] theorem transferred_mode (s : State) (num : BitVec 4) (w : Word) (events : List CpEvent) (cs : List BusCycle) :
    (s.transferred num w events cs).mode = s.mode := passing_mode s cs

@[simp] theorem transferred_gpr (s : State) (num : BitVec 4) (w : Word) (events : List CpEvent) (cs : List BusCycle)
    (q : PhysReg) : (s.transferred num w events cs).gpr q = s.gpr q := passing_gpr s cs q

/-- Going on after the transfer cycles. -/
theorem transferred_advance_frame (s : State) (num : BitVec 4) (w : Word) (events : List CpEvent) (cs : List BusCycle) :
    let e := s.passing cs
    let t := (s.transferred num w events cs).advance
    KeepsRegs s t ∧ t.cpsr = s.cpsr ∧ GoesOn e t ∧ KeepsBytes e t ∧ KeepsOutside e t :=
  ⟨passing_gpr s cs, passing_cpsr s cs, ⟨rfl, rfl, rfl, rfl, rfl⟩, fun _ => rfl, rfl, rfl, rfl, rfl, rfl, rfl⟩

section

variable {s : State} {c : Cond} {num : BitVec 4} {word : Word} {more : List Word}

theorem exec_cdp {opc crn crd crm : BitVec 4} {cp : BitVec 3} (hc : condPasses c s.flags = true)
    (h : s.cpAnswer num (encode (.cdp c opc crn crd num cp crm)) = .accept word more) :
    exec (.cdp c opc crn crd num cp crm) s =
      let w := encode (.cdp c opc crn crd num cp crm)
      .next (s.transferred num w [.cdp w] []).advance :=
  (conditional_passes hc _).trans (offer_accept h _)

/-- MRC after its transfer cycle and its internal one (R353, 21_bus_interface_and_signals.md R106). -/
theorem exec_mrc {opc : BitVec 3} {crn crm : BitVec 4} {rd : RegNum} {cp : BitVec 3} (hc : condPasses c s.flags = true)
    (h : s.cpAnswer num (encode (.mrc c opc crn rd num cp crm)) = .accept word more) :
    exec (.mrc c opc crn rd num cp crm) s =
      let w := encode (.mrc c opc crn rd num cp crm)
      let e := s.transferred num w [.mrc w] [s.transferCycle false word, s.idle]
      .next ((if rd = 15#4 then { e with cpsr := psrWithTop s.cpsr (word.extractLsb' 28 4) }
        else e.setReg rd word).advance) := by
  refine (conditional_passes hc _).trans ((offer_accept h _).trans ?_)
  dsimp only
  rw [cycle_internal, ← cpTell_passing]
  rfl

/-- MCR after its transfer cycle (R354). -/
theorem exec_mcr {opc : BitVec 3} {crn crm : BitVec 4} {rd : RegNum} {cp : BitVec 3} (hc : condPasses c s.flags = true)
    (h : s.cpAnswer num (encode (.mcr c opc crn rd num cp crm)) = .accept word more) :
    exec (.mcr c opc crn rd num cp crm) s =
      let w := encode (.mcr c opc crn rd num cp crm)
      let v := s.reg rd 12#32
      .next (s.transferred num w [.mcr w v] [s.transferCycle true v]).advance := by
  refine (conditional_passes hc _).trans ((offer_accept h _).trans ?_)
  dsimp only
  rw [← cpTell_passing]
  rfl

end

/-- Settles O56: each is told to the coprocessor and makes its transfer cycles; MRC then writes Rd, or the flags. -/
theorem coprocessorRegisters : Obligations.CoprocessorRegisters := by
  intro c opc4 crn crd num crm opc3 cp rd s word more hc
  refine ⟨?_, ?_, ?_⟩
  · intro w h
    obtain ⟨hregs, hcpsr, hgoes, hbytes, houtside⟩ := transferred_advance_frame s num w [.cdp w] []
    exact ⟨_, exec_cdp hc h, hregs, hcpsr, tells_of_accept h rfl, hgoes, hbytes, houtside⟩
  · intro w e h
    refine ⟨_, exec_mrc hc h, ?_⟩
    split
    · obtain ⟨hregs, -, hgoes, hbytes, houtside⟩ :=
        transferred_advance_frame s num w [.mrc w] [s.transferCycle false word, s.idle]
      exact ⟨⟨hregs, setsFlags_of_top rfl⟩, tells_of_accept h rfl, hgoes, hbytes, houtside⟩
    · obtain ⟨hcpsr, hgoes, hbytes, houtside, hcoprocs⟩ :=
        (setReg_changesRegs (s.transferred num w [.mrc w] [s.transferCycle false word, s.idle]) rd word).advance_frame
      refine ⟨⟨fun q => ?_, hcpsr.trans (passing_cpsr s _)⟩, tells_of_accept h hcoprocs, hgoes, hbytes, houtside⟩
      rw [advance_gpr, gpr_setReg, transferred_mode, transferred_gpr]
  · intro w v e h
    have hv : v = s.reg rd 12#32 := (reg_stored s rd).symm
    obtain ⟨hregs, hcpsr, hgoes, hbytes, houtside⟩ :=
      transferred_advance_frame s num w [.mcr w v] [s.transferCycle true v]
    refine ⟨_, ?_, hregs, hcpsr, tells_of_accept h rfl, hgoes, hbytes, houtside⟩
    rw [exec_mcr hc h, hv]

end Sys2Proof.Machine

/-! # Register lists and runs of words -/

namespace Sys2Proof.Machine

/-! ## The registers of a list -/

theorem listRank_succ (list : BitVec 16) (n : Nat) :
    listRank list (n + 1) = listRank list n + (if list.getLsbD n then 1 else 0) := by
  rw [listRank, List.range_succ, List.countP_append, List.countP_singleton]
  rfl

theorem listFrom_append (list : BitVec 16) (n j k : Nat) :
    listFrom list n (j + k) = listFrom list n j ++ listFrom list (n + j) k := by
  induction j generalizing n with
  | zero => rw [Nat.zero_add, Nat.add_zero, listFrom, List.nil_append]
  | succ j ih =>
    rw [Nat.succ_add, listFrom, listFrom, ih, Nat.succ_add_eq_add_succ]
    split <;> rfl

/-- The registers of a list below number `n`. -/
def listBelow (list : BitVec 16) (n : Nat) : List RegNum := listFrom list 0 n

theorem listBelow_succ (list : BitVec 16) (n : Nat) :
    listBelow list (n + 1) = listBelow list n ++ (if list.getLsbD n then [BitVec.ofNat 4 n] else []) := by
  rw [listBelow, listFrom_append, Nat.zero_add]
  rfl

theorem toNat_regNum {n : Nat} (h : n < 16) : (BitVec.ofNat 4 n).toNat = n := by
  rw [BitVec.toNat_ofNat]
  omega

theorem ofNat_toNat_regNum (r : RegNum) : BitVec.ofNat 4 r.toNat = r := by
  rw [BitVec.ofNat_toNat, BitVec.setWidth_eq]

/-- The registers of a list below a number are those whose bit is set (46_block_data_transfer.md R290). -/
theorem mem_listBelow (list : BitVec 16) {n : Nat} (h : n ≤ 16) (r : RegNum) :
    r ∈ listBelow list n ↔ list.getLsbD r.toNat = true ∧ r.toNat < n := by
  induction n with
  | zero => simp [listBelow, listFrom]
  | succ n ih =>
    have heq : r = BitVec.ofNat 4 n ↔ r.toNat = n := by
      rw [← BitVec.toNat_inj, toNat_regNum (by omega)]
    rw [listBelow_succ, List.mem_append, ih (by omega)]
    split
    · next hbit =>
      rw [List.mem_singleton, heq]
      constructor
      · rintro (⟨hr, hlt⟩ | rfl)
        · exact ⟨hr, by omega⟩
        · exact ⟨hbit, by omega⟩
      · rintro ⟨hr, hlt⟩
        by_cases hn : r.toNat = n
        · exact .inr hn
        · exact .inl ⟨hr, by omega⟩
    · next hbit =>
      have hne : list.getLsbD r.toNat = true → r.toNat ≠ n := fun hr hn => hbit (hn ▸ hr)
      simp only [List.not_mem_nil, or_false]
      constructor
      · rintro ⟨hr, hlt⟩
        exact ⟨hr, by omega⟩
      · rintro ⟨hr, hlt⟩
        have := hne hr
        exact ⟨hr, by omega⟩

theorem mem_listRegs (list : BitVec 16) (r : RegNum) : r ∈ listRegs list ↔ list.getLsbD r.toNat = true :=
  (mem_listBelow list (Nat.le_refl 16) r).trans (and_iff_left r.isLt)

/-- The place of a register in its list is its rank (R290). -/
theorem map_rank_listBelow (list : BitVec 16) {n : Nat} (h : n ≤ 16) :
    (listBelow list n).map (fun r => listRank list r.toNat) = List.range (listRank list n) := by
  induction n with
  | zero => rfl
  | succ n ih =>
    rw [listBelow_succ, List.map_append, ih (by omega), listRank_succ]
    split
    · rw [List.map_singleton, toNat_regNum (by omega), List.range_succ]
    · rw [List.map_nil, List.append_nil, Nat.add_zero]

theorem map_rank_listRegs (list : BitVec 16) :
    (listRegs list).map (fun r => listRank list r.toNat) = List.range (listRank list 16) :=
  map_rank_listBelow list (Nat.le_refl 16)

theorem length_listBelow (list : BitVec 16) {n : Nat} (h : n ≤ 16) : (listBelow list n).length = listRank list n := by
  have := congrArg List.length (map_rank_listBelow list h)
  rwa [List.length_map, List.length_range] at this

theorem length_listRegs (list : BitVec 16) : (listRegs list).length = listRank list 16 :=
  length_listBelow list (Nat.le_refl 16)

/-- A list around one of its registers. -/
theorem listRegs_split {list : BitVec 16} {r : RegNum} (h : list.getLsbD r.toNat = true) :
    listRegs list = listBelow list r.toNat ++ r :: listFrom list (r.toNat + 1) (15 - r.toNat) := by
  have hlt : r.toNat < 16 := r.isLt
  have hsum : 16 = r.toNat + (15 - r.toNat + 1) := by omega
  rw [listRegs, hsum, listFrom_append, Nat.zero_add, listFrom, if_pos h, ofNat_toNat_regNum]
  rfl

theorem listRegs_rank {list : BitVec 16} {r : RegNum} (h : list.getLsbD r.toNat = true) :
    (listRegs list)[listRank list r.toNat]? = some r := by
  have hle : r.toNat ≤ 16 := Nat.le_of_lt r.isLt
  rw [listRegs_split h, ← length_listBelow list hle, List.getElem?_append_right (Nat.le_refl _), Nat.sub_self]
  rfl

theorem listRank_lt {list : BitVec 16} {r : RegNum} (h : list.getLsbD r.toNat = true) :
    listRank list r.toNat < listRank list 16 := by
  obtain ⟨hlt, -⟩ := List.getElem?_eq_some_iff.mp (listRegs_rank h)
  rwa [length_listRegs] at hlt

theorem listRank_le (list : BitVec 16) (n : Nat) : listRank list n ≤ n := by
  rw [listRank]
  exact Nat.le_trans List.countP_le_length (Nat.le_of_eq List.length_range)

/-- Every cycle of the run of a list is that of one of its registers. -/
theorem exists_listRank {list : BitVec 16} {i : Nat} (h : i < listRank list 16) :
    ∃ r : RegNum, list.getLsbD r.toNat = true ∧ listRank list r.toNat = i := by
  have hmem : i ∈ List.range (listRank list 16) := List.mem_range.mpr h
  rw [← map_rank_listRegs] at hmem
  obtain ⟨r, hr, hi⟩ := List.mem_map.mp hmem
  exact ⟨r, (mem_listRegs list r).mp hr, hi⟩

/-- An empty list has no register. -/
theorem list_ne_zero {list : BitVec 16} {n : Nat} (h : list.getLsbD n = true) : list ≠ 0#16 := by
  rintro rfl
  simp at h

/-! ## The addresses of a list -/

theorem blockBytes_eq (list : BitVec 16) : listBytes list = 4#32 * BitVec.ofNat 32 (listRank list 16) := by
  rw [listBytes, length_listRegs, BitVec.ofNat_mul]

/-- The base of a block data transfer is no R15, so that it reads the same however far the PC runs ahead (R301). -/
theorem baseOf_eq (s : State) {rn : RegNum} (h : rn ≠ 15#4) : s.baseOf rn = s.reg rn 0#32 := reg_ahead s h _ _

theorem add_words (a : Word) (i : Nat) : a + 4#32 + BitVec.ofNat 32 (4 * i) = a + BitVec.ofNat 32 (4 * (i + 1)) := by
  rw [BitVec.add_assoc, Nat.mul_add, BitVec.ofNat_add, BitVec.add_comm 4#32]

theorem add_zero_words (a : Word) : a + BitVec.ofNat 32 (4 * 0) = a := BitVec.add_zero a

/-! ## The cycles of a run -/

theorem length_readCycles (t : BusAttrs) (ty : CycleType) (k : Nat) (a : Word) : (readCycles t ty k a).length = k := by
  induction k generalizing ty a with
  | zero => rfl
  | succ k ih => rw [readCycles, List.length_cons, ih]

theorem length_writeCycles (t : BusAttrs) (ty : CycleType) (a : Word) (vs : List Word) :
    (writeCycles t ty a vs).length = vs.length := by
  induction vs generalizing ty a with
  | nil => rfl
  | cons v vs ih => rw [writeCycles, List.length_cons, ih, List.length_cons]

/-- The first cycles of a run of reads are a run of reads. -/
theorem take_readCycles (t : BusAttrs) (ty : CycleType) {i k : Nat} (h : i ≤ k) (a : Word) :
    (readCycles t ty k a).take i = readCycles t ty i a := by
  induction i generalizing ty k a with
  | zero => rfl
  | succ i ih =>
    obtain ⟨k, rfl⟩ : ∃ j, k = j + 1 := ⟨k - 1, by omega⟩
    rw [readCycles, List.take_succ_cons, ih .s (by omega), readCycles]

/-- The type of a cycle of a run: after the first all are S-cycles (21_bus_interface_and_signals.md R105). -/
def runType (ty : CycleType) (i : Nat) : CycleType := if i = 0 then ty else .s

theorem runType_s (i : Nat) : runType .s i = .s := by
  unfold runType
  split <;> rfl

theorem getElem?_readCycles (t : BusAttrs) (ty : CycleType) {i k : Nat} (h : i < k) (a : Word) :
    (readCycles t ty k a)[i]? = some (readCycle (runType ty i) (a + BitVec.ofNat 32 (4 * i)) t) := by
  induction i generalizing ty k a with
  | zero =>
    obtain ⟨k, rfl⟩ : ∃ j, k = j + 1 := ⟨k - 1, by omega⟩
    rw [add_zero_words]
    rfl
  | succ i ih =>
    obtain ⟨k, rfl⟩ : ∃ j, k = j + 1 := ⟨k - 1, by omega⟩
    rw [readCycles, List.getElem?_cons_succ, ih .s (by omega), add_words, runType_s]
    rfl

theorem getElem?_writeCycles (t : BusAttrs) (ty : CycleType) {vs : List Word} {i : Nat} {v : Word}
    (h : vs[i]? = some v) (a : Word) :
    (writeCycles t ty a vs)[i]? = some (writeCycle (runType ty i) (a + BitVec.ofNat 32 (4 * i)) t v) := by
  induction i generalizing ty vs a with
  | zero =>
    obtain ⟨vs, rfl⟩ := List.head?_eq_some_iff.mp (List.head?_eq_getElem? ▸ h)
    rw [add_zero_words]
    rfl
  | succ i ih =>
    cases vs with
    | nil => simp at h
    | cons x vs =>
      rw [writeCycles, List.getElem?_cons_succ, ih .s (by simpa using h), add_words, runType_s]
      rfl

/-- Settles O46: the number and the order of the registers, the two addresses by cases over P and U, and the cycles of the
two runs. -/
theorem blockAddresses : Obligations.BlockAddresses := by
  intro s p u rn list n base hrn
  refine ⟨length_listRegs list, fun r hr => listRegs_rank hr, ?_, ?_, fun t a k i hi => getElem?_readCycles t .n hi a,
    fun t a vs i v hv => getElem?_writeCycles t .n hv a⟩
  · rw [State.blockFirst, baseOf_eq s hrn, blockBytes_eq]
    cases p <;> cases u <;> rfl
  · rw [State.blockBase, baseOf_eq s hrn, blockBytes_eq]
    rfl

end Sys2Proof.Machine

/-! # Runs of reads -/

namespace Sys2Proof.Machine

/-- The word a read cycle gets, none when it is aborted (20_memory.md R60, R82). `s` is the state in the cycle. -/
def State.wordRead (s : State) (a : Word) (t : BusAttrs) : Option Word :=
  if s.aborts a t then none else some (s.busWord a t)

theorem wordRead_aborted {s : State} {a : Word} {t : BusAttrs} (h : s.aborts a t = true) : s.wordRead a t = none := if_pos h

theorem wordRead_answered {s : State} {a : Word} {t : BusAttrs} (h : s.aborts a t = false) :
    s.wordRead a t = some (s.busWord a t) := if_neg (by rw [h]; decide)

theorem wordRead_isNone (s : State) (a : Word) (t : BusAttrs) : (s.wordRead a t).isNone = s.aborts a t := by
  unfold State.wordRead
  cases s.aborts a t <;> rfl

/-- What a run of reads gets: the i-th word in the state after i + 1 of its cycles (20_memory.md R72). -/
theorem readRun_words (t : BusAttrs) (ty : CycleType) (k : Nat) (a : Word) (s : State) :
    (State.readRun t ty k a s).1 =
      (List.range k).map fun i => (s.passing ((readCycles t ty k a).take (i + 1))).wordRead (a + BitVec.ofNat 32 (4 * i)) t := by
  refine List.ext_getElem? fun i => ?_
  by_cases hi : i < k
  · rw [readRun_get t ty k i a s hi, List.getElem?_map, List.getElem?_range hi, Option.map_some, take_readCycles t ty hi]
    rfl
  · rw [List.getElem?_eq_none (by rw [readRun_length]; omega),
      List.getElem?_eq_none (by rw [List.length_map, List.length_range]; omega)]

/-- An internal cycle after the cycles of a run (21_bus_interface_and_signals.md R106). -/
theorem passing_internal (s : State) (cs : List BusCycle) : (s.passing cs).internal = s.passing (cs ++ [s.idle]) := by
  have hattrs : (s.passing cs).dataAttrs false false = s.dataAttrs false false := dataAttrs_congr (passing_cpsr s cs) _ _
  rw [passing_concat]
  simp only [State.internal, State.internalCycle, State.ahead, State.idle, hattrs, passing_pc]

/-! ## The entry of a data abort after some cycles -/

/-- The state in which the entry of a data abort begins, the instruction's own work having changed the data only: the
entry's fetch sees the bus as it would have been without it (60_exceptions.md R383, R386). -/
theorem ChangesData.dataAbort_frame {s b : State} {cs : List BusCycle} (h : ChangesData (s.passing cs) b) :
    let before := b.discardedFetch (s.pc + 8#32)
    EntersAlone before b.dataAbort .abt 0x00000010#32 (s.pc + 8#32) ∧ ChangesData (s.aborting cs) before ∧
      (∀ q, before.gpr q = b.gpr q) ∧ before.coprocs = b.coprocs ∧ before.cpsr = s.cpsr ∧
      (b.mem = (s.passing cs).mem → before.mem = (s.aborting cs).mem) := by
  have hpc : b.pc = s.pc := h.pc.trans (passing_pc s cs)
  have habort : b.dataAbort = (b.discardedFetch (s.pc + 8#32)).enter .dataAbort (s.pc + 8#32) := by
    rw [State.dataAbort, hpc]
  rw [habort]
  exact ⟨enter_entersAlone _ (by decide) _, h.discardedFetch _, discardedFetch_gpr b _, discardedFetch_coprocs b _,
    (discardedFetch_cpsr b _).trans (h.cpsr.trans (passing_cpsr s cs)), environment_mem_congr h.moments⟩

end Sys2Proof.Machine

/-! # LDM -/

namespace Sys2Proof.Machine

/-! ## The words it reads -/

/-- The state in the cycle of register `r` of an LDM (46_block_data_transfer.md R291). -/
def State.ldmAfter (s : State) (first : Word) (list : BitVec 16) (r : RegNum) : State :=
  s.passing ((s.ldmCycles first list).take (listRank list r.toNat + 1))

/-- The word on the bus in the cycle of register `r`. -/
def State.ldmWord (s : State) (first : Word) (list : BitVec 16) (r : RegNum) : Word :=
  (s.ldmAfter first list r).busWord (listAddress first list r) (s.dataAttrs false false)

/-- The cycle of register `r` is aborted. -/
def State.ldmAborts (s : State) (first : Word) (list : BitVec 16) (r : RegNum) : Bool :=
  (s.ldmAfter first list r).aborts (listAddress first list r) (s.dataAttrs false false)

/-- What the cycle of register `r` gets. -/
def State.ldmRead (s : State) (first : Word) (list : BitVec 16) (r : RegNum) : Option Word :=
  (s.ldmAfter first list r).wordRead (listAddress first list r) (s.dataAttrs false false)

/-- The run of an LDM reads one word for each register of the list, in its order (R290, R293). -/
theorem readRun_list (s : State) (first : Word) (list : BitVec 16) :
    (State.readRun (s.dataAttrs false false) .n (listRegs list).length first s).1 =
      (listRegs list).map (s.ldmRead first list) := by
  rw [readRun_words, length_listRegs, ← map_rank_listRegs, List.map_map]
  refine List.map_congr_left fun r hr => ?_
  have hcycle := listRank_lt ((mem_listRegs list r).mp hr)
  rw [Function.comp_apply, State.ldmRead, State.ldmAfter, State.ldmCycles,
    List.take_append_of_le_length (by rw [length_readCycles]; exact hcycle)]
  rfl

theorem readRun_internal (s : State) (first : Word) (list : BitVec 16) :
    (State.readRun (s.dataAttrs false false) .n (listRegs list).length first s).2.internal =
      s.passing (s.ldmCycles first list) := by
  rw [readRun_state, passing_internal, length_listRegs]
  rfl

/-! ## The registers it loads -/

theorem loadRegs_changesRegs (bank : Mode) (l : List RegNum) (vs : List (Option Word)) (s : State) :
    ChangesRegs s (State.loadRegs bank l vs s) := by
  obtain ⟨r, hr⟩ := loadRegs_frame bank l vs s
  rw [hr]
  rfl

/-- Words that have all been read are loaded, each into the register of the bank that its number names (R291, R297). -/
theorem gpr_loadRegs (bank : Mode) (f : RegNum → Word) (l : List RegNum) (s : State) :
    let t := State.loadRegs bank l (l.map fun r => some (f r)) s
    (∀ r ∈ l, ∀ q, phys bank r = some q → t.gpr q = f r) ∧
      (∀ q, (∀ r ∈ l, phys bank r ≠ some q) → t.gpr q = s.gpr q) := by
  induction l generalizing s with
  | nil => exact ⟨nofun, fun _ _ => rfl⟩
  | cons x l ih =>
    obtain ⟨hin, hout⟩ := ih (s.setRegIn bank x (f x))
    refine ⟨fun r hr q hq => ?_, fun q hq => ?_⟩
    · by_cases hl : r ∈ l
      · exact hin r hl q hq
      · obtain rfl : r = x := (List.mem_cons.mp hr).resolve_right hl
        refine (hout q fun r' hr' hq' => hl (phys_inj hq hq' ▸ hr')).trans ?_
        rw [gpr_setRegIn, if_pos hq]
    · obtain ⟨hx, hl⟩ := List.forall_mem_cons.mp hq
      refine (hout q hl).trans ?_
      rw [gpr_setRegIn, if_neg hx]

/-- Nothing is loaded from the first aborted cycle on (R305). -/
theorem loadRegs_stop (bank : Mode) (f : RegNum → Word) (l : List RegNum) (x : RegNum) (rest : List RegNum)
    (vs : List (Option Word)) (s : State) :
    State.loadRegs bank (l ++ x :: rest) ((l.map fun r => some (f r)) ++ none :: vs) s =
      State.loadRegs bank l (l.map fun r => some (f r)) s := by
  induction l generalizing s with
  | nil => rfl
  | cons y l ih => exact ih (s.setRegIn bank y (f y))

/-- From `s` to `t` the registers of the list have got the words `f` gives, in the bank, and the base of the current mode is
written back with W = 1 unless it is loaded (R291, R300). -/
def LoadsList (s t : State) (bank : Mode) (w : Bool) (rn : RegNum) (base : Word) (list : BitVec 16) (f : RegNum → Word) :
    Prop :=
  (∀ r q, list.getLsbD r.toNat = true → phys bank r = some q → t.gpr q = f r) ∧
    (∀ q, (∀ r : RegNum, list.getLsbD r.toNat = true → phys bank r ≠ some q) →
      t.gpr q = if w = true ∧ phys s.mode rn = some q then base else s.gpr q)

/-- The state after an LDM has loaded the words `f` gives and has written back its base. -/
def State.ldmLoaded (s : State) (bank : Mode) (w : Bool) (rn : RegNum) (base : Word) (list : BitVec 16)
    (f : RegNum → Word) : State :=
  let t := State.loadRegs bank (listRegs list) ((listRegs list).map fun r => some (f r)) s
  if w && !inList list rn then t.setReg rn base else t

theorem ldmLoaded_changesRegs (s : State) (bank : Mode) (w : Bool) (rn : RegNum) (base : Word) (list : BitVec 16)
    (f : RegNum → Word) : ChangesRegs s (s.ldmLoaded bank w rn base list f) := by
  have hloaded := loadRegs_changesRegs bank (listRegs list) ((listRegs list).map fun r => some (f r)) s
  unfold State.ldmLoaded
  dsimp only
  split
  · exact hloaded.trans (setReg_changesRegs _ rn base)
  · exact hloaded

/-- The base is written back only when it is not loaded, so that the two writes never meet. -/
theorem ldmLoaded_loadsList {s : State} {bank : Mode} {w : Bool} (hbank : w = true → bank = s.mode) (rn : RegNum)
    (base : Word) (list : BitVec 16) (f : RegNum → Word) :
    LoadsList s (s.ldmLoaded bank w rn base list f) bank w rn base list f := by
  obtain ⟨hin, hout⟩ := gpr_loadRegs bank f (listRegs list) s
  have hmode := (loadRegs_changesRegs bank (listRegs list) ((listRegs list).map fun r => some (f r)) s).mode
  unfold State.ldmLoaded
  dsimp only
  split
  · next hwrites =>
    obtain ⟨hw, hrn⟩ : w = true ∧ list.getLsbD rn.toNat = false := by simpa [inList] using hwrites
    refine ⟨fun r q hr hq => ?_, fun q hq => ?_⟩ <;> rw [gpr_setReg, hmode]
    · refine (if_neg fun hbase => ?_).trans (hin r ((mem_listRegs list r).mpr hr) q hq)
      rw [← hbank hw] at hbase
      rw [phys_inj hq hbase, hrn] at hr
      cases hr
    · rw [hout q fun r hr => hq r ((mem_listRegs list r).mp hr)]
      simp only [hw, true_and]
  · next hkeeps =>
    refine ⟨fun r q hr hq => hin r ((mem_listRegs list r).mpr hr) q hq, fun q hq => ?_⟩
    refine (hout q fun r hr => hq r ((mem_listRegs list r).mp hr)).trans (if_neg ?_).symm
    rintro ⟨hw, hbase⟩
    have hrn : list.getLsbD rn.toNat = true := by simpa [inList, hw] using hkeeps
    rw [← hbank hw] at hbase
    exact hq rn hrn hbase

theorem LoadsList.congr {s e t : State} {bank : Mode} {w : Bool} {rn : RegNum} {base : Word} {list : BitVec 16}
    {f : RegNum → Word} (h : LoadsList e t bank w rn base list f) (hmode : e.mode = s.mode)
    (hgpr : ∀ q, e.gpr q = s.gpr q) : LoadsList s t bank w rn base list f := by
  refine ⟨h.1, fun q hq => ?_⟩
  rw [h.2 q hq, hmode, hgpr]

end Sys2Proof.Machine

/-! # LDM: what it does -/

namespace Sys2Proof.Machine

/-- The block transfers that the statements take are not refused (46_block_data_transfer.md R297, R301, R302). -/
theorem blockRefusal_none {s : State} {userBank sBit w : Bool} {rn : RegNum} {list : BitVec 16} (hrn : rn ≠ 15#4)
    (hlist : list ≠ 0#16) (hmode : sBit = true → s.mode ≠ .usr) (hw : userBank = true → w = false) :
    s.blockRefusal userBank sBit w rn list = none := by
  have hback : ¬ (userBank = true ∧ w = true) := by
    rintro ⟨hbank, hback⟩
    rw [hw hbank] at hback
    cases hback
  rw [State.blockRefusal, if_neg hrn, if_neg hlist, if_neg fun h => hmode h.1 h.2, if_neg hback]

/-- The last word of a list with R15 in it is R15's (R290, R296). -/
theorem lastWord_listRegs {list : BitVec 16} (h : list.getLsbD 15 = true) (f : RegNum → Word) :
    lastWord ((listRegs list).map fun r => some (f r)) = f 15#4 := by
  have hlast : listRegs list = listBelow list 15 ++ [15#4] := listRegs_split (r := 15#4) h
  rw [hlast, List.map_append, List.map_singleton, lastWord, List.getLastD_concat, Option.getD_some]

section

variable {c : Cond} {p u sBit w : Bool} {rn : RegNum} {list : BitVec 16} {s : State}

/-- An LDM of which no cycle is aborted (R291, R296, R297, R306). -/
theorem exec_ldm_answered (hc : condPasses c s.flags = true)
    (hform : s.blockRefusal (sBit && !inList list 15#4) sBit w rn list = none)
    (hread : ∀ r : RegNum, list.getLsbD r.toNat = true → s.ldmAborts (s.blockFirst p u rn list) list r = false) :
    exec (.ldm c p u sBit w rn list) s =
      let f := s.ldmWord (s.blockFirst p u rn list) list
      let b := (s.passing (s.ldmCycles (s.blockFirst p u rn list) list)).ldmLoaded
        (s.blockBank (sBit && !inList list 15#4)) w rn (s.blockBase u rn list) list f
      if inList list 15#4 then
        if sBit then b.returnTo (f 15#4) .blockSInUserMode else .next (b.branchTo (f 15#4))
      else if sBit then .next { b.advance with ldmShadow := true } else .next b.advance := by
  have hwords : (listRegs list).map (s.ldmRead (s.blockFirst p u rn list) list) =
      (listRegs list).map fun r => some (s.ldmWord (s.blockFirst p u rn list) list r) :=
    List.map_congr_left fun r hr => wordRead_answered (hread r ((mem_listRegs list r).mp hr))
  have hany : ∀ f : RegNum → Word, ((listRegs list).map fun r => some (f r)).any Option.isNone = false := fun f => by
    rw [List.any_map]
    exact List.any_eq_false.mpr fun _ _ => by simp
  refine (conditional_passes hc _).trans ?_
  rw [hform]
  dsimp only
  rw [readRun_list, readRun_internal, hwords, hany]
  cases hpc : inList list 15#4 with
  | true =>
    rw [lastWord_listRegs hpc]
    rfl
  | false => cases sBit <;> rfl

/-- An LDM whose first aborted cycle is that of register `bad` (R305): the registers below it are loaded. -/
theorem exec_ldm_aborted (hc : condPasses c s.flags = true)
    (hform : s.blockRefusal (sBit && !inList list 15#4) sBit w rn list = none) {bad : RegNum}
    (hbad : list.getLsbD bad.toNat = true) (haborts : s.ldmAborts (s.blockFirst p u rn list) list bad = true)
    (hread : ∀ r ∈ listBelow list bad.toNat, s.ldmAborts (s.blockFirst p u rn list) list r = false) :
    exec (.ldm c p u sBit w rn list) s =
      let f := s.ldmWord (s.blockFirst p u rn list) list
      let t := State.loadRegs (s.blockBank (sBit && !inList list 15#4)) (listBelow list bad.toNat)
        ((listBelow list bad.toNat).map fun r => some (f r)) (s.passing (s.ldmCycles (s.blockFirst p u rn list) list))
      .next (t.setReg rn (if w then s.blockBase u rn list else s.baseOf rn)).dataAbort := by
  have hbelow : (listBelow list bad.toNat).map (s.ldmRead (s.blockFirst p u rn list) list) =
      (listBelow list bad.toNat).map fun r => some (s.ldmWord (s.blockFirst p u rn list) list r) :=
    List.map_congr_left fun r hr => wordRead_answered (hread r hr)
  have hnone : s.ldmRead (s.blockFirst p u rn list) list bad = none := wordRead_aborted haborts
  refine (conditional_passes hc _).trans ?_
  rw [hform]
  dsimp only
  rw [readRun_list, readRun_internal, listRegs_split hbad, List.map_append, List.map_cons, hbelow, hnone, loadRegs_stop]
  exact if_pos (by simp)

end

/-! ## The three statements -/

/-- Settles O47: without R15 the registers are loaded into the bank, and the hazard of R432 begins after a User bank LDM. -/
theorem loadMultiple : Obligations.LoadMultiple := by
  intro c p u sBit w rn list s hc hrn hlist hpc hS first attrs address after bank e hread
  have hnoPc : inList list 15#4 = false := hpc
  have huser : (sBit && !inList list 15#4) = sBit := by rw [hnoPc, Bool.not_false, Bool.and_true]
  have hform := blockRefusal_none (s := s) (userBank := sBit && !inList list 15#4) (sBit := sBit) (w := w) hrn hlist
    (fun h => (hS h).1) (fun h => (hS (huser ▸ h)).2)
  have hexec := exec_ldm_answered hc hform hread
  have hbank : w = true → bank = e.mode := fun hw => by
    have hS' : sBit ≠ true := fun h => by
      rw [(hS h).2] at hw
      cases hw
    exact (if_neg hS').trans (passing_mode s _).symm
  let b := e.ldmLoaded bank w rn (s.blockBase u rn list) list (s.ldmWord first list)
  obtain ⟨hloaded, hkept⟩ := (ldmLoaded_loadsList hbank rn (s.blockBase u rn list) list (s.ldmWord first list)).congr
    (passing_mode s _) (passing_gpr s _)
  obtain ⟨hcpsr, ⟨hnext, hpipe, hshadow, hbusy, hseq⟩, hbytes, hsystem⟩ :=
    (ldmLoaded_changesRegs e bank w rn (s.blockBase u rn list) list (s.ldmWord first list)).advance_frame
  refine ⟨{ b.advance with ldmShadow := sBit }, ?_, hloaded, hkept, hcpsr.trans (passing_cpsr s _),
    hnext.trans (by rw [passing_pc]), hpipe.trans (by rw [passing_pipe]), rfl, hbusy, hseq, hbytes, hsystem⟩
  rw [hexec, huser, hnoPc]
  cases sBit <;> rfl

/-- Settles O48: with R15 in the list the LDM ends in a branch, with S = 1 in the return from an exception. -/
theorem loadMultiplePc : Obligations.LoadMultiplePc := by
  intro c p u sBit w rn list s hc hrn hpc first attrs address after e hread
  have hinList : inList list 15#4 = true := hpc
  have huser : (sBit && !inList list 15#4) = false := by rw [hinList, Bool.not_true, Bool.and_false]
  let b := e.ldmLoaded s.mode w rn (s.blockBase u rn list) list (s.ldmWord first list)
  have hchanges : ChangesRegs e b := ldmLoaded_changesRegs e s.mode w rn _ list _
  obtain ⟨hloaded, hkept⟩ := (ldmLoaded_loadsList (fun _ => (passing_mode s _).symm) rn (s.blockBase u rn list) list
    (s.ldmWord first list)).congr (passing_mode s (s.ldmCycles first list)) (passing_gpr s _)
  have hexec : (sBit = true → s.mode ≠ .usr) → exec (.ldm c p u sBit w rn list) s =
      if sBit then b.returnTo (s.ldmWord first list 15#4) .blockSInUserMode
      else .next (b.branchTo (s.ldmWord first list 15#4)) := fun hmode => by
    have hform := blockRefusal_none (s := s) (userBank := sBit && !inList list 15#4) (sBit := sBit) (w := w) hrn
      (list_ne_zero hpc) hmode (fun h => by rw [huser] at h; cases h)
    rw [exec_ldm_answered hc hform hread, huser]
    exact if_pos hinList
  have hspsr : b.spsr? = s.spsr? := by
    rw [hchanges]
    exact passing_spsr? s _
  refine ⟨fun cpsr hcase => ?_, fun hS saved hsaved hillegal => ?_⟩
  · obtain ⟨hgoes, hcpsr, hbytes, hsystem⟩ := hchanges.branchTo_frame (s.ldmWord first list 15#4)
    rcases hcase with ⟨rfl, rfl⟩ | ⟨rfl, hreturn, hdefined⟩
    · exact ⟨_, hexec nofun, hgoes, hcpsr.trans (passing_cpsr s _), hloaded, hkept, hbytes, hsystem⟩
    · have hsaved : b.canReturn cpsr := ⟨hspsr.trans hreturn.1, hreturn.2⟩
      have hrestored : b.returnTo (s.ldmWord first list 15#4) .blockSInUserMode =
          .next (State.branchTo { b with cpsr } (s.ldmWord first list 15#4)) := restoreCpsr_saved hsaved hdefined _ _
      exact ⟨_, (hexec fun _ => spsr?_privileged hreturn.1).trans hrestored, hgoes, rfl, hloaded, hkept, hbytes, hsystem⟩
  · subst hS
    have hillegalReturn : b.returnTo (s.ldmWord first list 15#4) .blockSInUserMode = .refused .illegalMode :=
      restoreCpsr_illegal (hspsr.trans hsaved) hillegal _ _
    exact (hexec fun _ => spsr?_privileged hsaved).trans hillegalReturn

/-- Settles O49: the loading stops at the first aborted cycle, and the base is written after it, so that it is restored where
it was loaded. -/
theorem loadMultipleAbort : Obligations.LoadMultipleAbort := by
  intro c p u sBit w rn bad list s hc hrn hmode hw first attrs address after bank e hbad haborts hread
  have hbelow : ∀ r, r ∈ listBelow list bad.toNat ↔ list.getLsbD r.toNat = true ∧ r < bad := fun r =>
    mem_listBelow list (Nat.le_of_lt bad.isLt) r
  have hbank : s.blockBank (sBit && !inList list 15#4) = bank := by
    refine ite_congr ?_ (fun _ => rfl) fun _ => rfl
    simp [inList]
  have hform := blockRefusal_none (s := s) (userBank := sBit && !inList list 15#4) (sBit := sBit) (w := w) hrn
    (list_ne_zero hbad) hmode fun h => by
      obtain ⟨hS, hnoPc⟩ : sBit = true ∧ list.getLsbD 15 = false := by simpa [inList] using h
      exact hw hS hnoPc
  have hexec := exec_ldm_aborted hc hform hbad haborts fun r hr =>
    let ⟨hin, hlt⟩ := (hbelow r).mp hr
    hread r hlt hin
  rw [hbank, baseOf_eq s hrn] at hexec
  dsimp only at hexec
  let passed := s.passing (s.ldmCycles first list)
  let loaded := State.loadRegs bank (listBelow list bad.toNat)
    ((listBelow list bad.toNat).map fun r => some (s.ldmWord first list r)) passed
  let base := if w then s.blockBase u rn list else s.reg rn 0#32
  have hloaded : ChangesRegs passed loaded := loadRegs_changesRegs _ _ _ _
  have hchanges : ChangesRegs passed (loaded.setReg rn base) := hloaded.trans (setReg_changesRegs loaded rn base)
  have hgpr : ∀ q, (loaded.setReg rn base).gpr q = if phys s.mode rn = some q then base else loaded.gpr q := fun q => by
    rw [gpr_setReg, hloaded.mode, passing_mode]
  obtain ⟨hin, hout⟩ := gpr_loadRegs bank (s.ldmWord first list) (listBelow list bad.toNat) passed
  obtain ⟨henters, hbefore, hbeforeGpr, hcoprocs, hcpsr, hmem⟩ :=
    ChangesData.dataAbort_frame (ChangesData.of_regs hchanges)
  obtain ⟨-, -, -, hpassed⟩ := hchanges.frame
  have hkeeps : (loaded.setReg rn base).coprocs = s.coprocs := hpassed.trans (passing_coprocs s _)
  refine ⟨_, (loaded.setReg rn base).discardedFetch (s.pc + 8#32), hexec, henters, fun q hq => ?_,
    fun r q hr hlt hq hbase => ?_, fun q hbase hq => ?_, hcpsr, hbefore.keepsBytes (hmem hchanges.mem),
    hbefore.keepsSystem ?_, ?_⟩
  · rw [hbeforeGpr, hgpr, if_pos hq]
  · rw [hbeforeGpr, hgpr, if_neg hbase]
    exact hin r ((hbelow r).mpr ⟨hr, hlt⟩) q hq
  · rw [hbeforeGpr, hgpr, if_neg hbase, hout q fun r hr => let ⟨hin, hlt⟩ := (hbelow r).mp hr; hq r hin hlt]
    exact passing_gpr s _ q
  · refine (hcoprocs.trans hkeeps).trans ?_
    rw [State.aborting, discardedFetch_coprocs, passing_coprocs]
  · exact hcoprocs.trans hkeeps

end Sys2Proof.Machine

/-! # Runs of writes -/

namespace Sys2Proof.Machine

/-! ## Beside the memory -/

/-- A word write drives the word itself (20_memory.md R67), and beside its cycle changes the memory only. -/
theorem store_changesData (s : State) (ty : CycleType) (a : Word) {t : BusAttrs} (ht : t.nBW = true) (v : Word) :
    ChangesData (s.cycle (writeCycle ty a t v)) (s.store ty a t v) := by
  rw [State.store, dataOut, if_pos ht]
  exact busWrite_changesData _ a t v

theorem writeRun_changesData {t : BusAttrs} (ht : t.nBW = true) (ty : CycleType) (a : Word) (vs : List Word) (s : State) :
    ChangesData (s.passing (writeCycles t ty a vs)) (State.writeRun t ty a vs s).2 := by
  induction vs generalizing ty a s with
  | nil => exact .refl s
  | cons v vs ih => exact ((store_changesData s ty a ht v).passing _).trans (ih .s (a + 4#32) (s.store ty a t v))

/-- The state in the i-th cycle of a run of writes (46_block_data_transfer.md R292, 49_coprocessor.md R352). -/
def State.writeAfter (s : State) (t : BusAttrs) (ty : CycleType) (a : Word) (vs : List Word) (i : Nat) : State :=
  s.passing ((writeCycles t ty a vs).take (i + 1))

/-- After its first write a run goes on as the run of the other words. -/
theorem writeAfter_succ (s : State) {t : BusAttrs} (ht : t.nBW = true) (ty : CycleType) (a v : Word) (vs : List Word)
    (i : Nat) :
    ChangesData (s.writeAfter t ty a (v :: vs) (i + 1)) ((s.store ty a t v).writeAfter t .s (a + 4#32) vs i) :=
  (store_changesData s ty a ht v).passing _

theorem writeRun_aborts {t : BusAttrs} (ht : t.nBW = true) (ty : CycleType) (a : Word) (vs : List Word) (s : State) :
    (State.writeRun t ty a vs s).1 =
      (List.range vs.length).map fun i => (s.writeAfter t ty a vs i).aborts (a + BitVec.ofNat 32 (4 * i)) t := by
  induction vs generalizing ty a s with
  | nil => rfl
  | cons v vs ih =>
    rw [List.length_cons, List.range_succ_eq_map, List.map_cons, List.map_map, add_zero_words]
    refine List.cons_eq_cons.mpr ⟨aborts_congr (store_changesData s ty a ht v).inputs a t, (ih .s _ _).trans ?_⟩
    refine List.map_congr_left fun i _ => ?_
    rw [Function.comp_apply, add_words, aborts_congr (writeAfter_succ s ht ty a v vs i).inputs]

/-! ## The memory -/

theorem word_of_get {m m' : Memory} {a : Word} (h : ∀ k, k / 4 = a.toNat / 4 → m'.get k = m.get k) :
    m'.word a = m.word a := by
  have hkey := wordKey_eq a
  rw [Memory.word, Memory.word, h _ (by omega), h _ (by omega), h _ (by omega), h _ (by omega)]

/-- The words of a run of up to 2^30 are at different places, though the addresses wrap (20_memory.md R83). -/
theorem add_words_ne (a : Word) {i : Nat} (h : i + 1 < 2 ^ 30) :
    (a + BitVec.ofNat 32 (4 * (i + 1))).toNat / 4 ≠ a.toNat / 4 := by
  have hlt := a.isLt
  rw [BitVec.toNat_add, BitVec.toNat_ofNat]
  omega

/-- A word write that is served stores its word; one that is not, and every other byte, is left (R60, R67). -/
theorem store_mem {s : State} (hm : s.mem.wf = true) (hq : s.noBusWrites = true) (ty : CycleType) (a : Word)
    {t : BusAttrs} (ht : t.nBW = true) (v : Word) :
    ((s.cycle (writeCycle ty a t v)).reply a t = none → (s.store ty a t v).mem.word a = v) ∧
      ∀ k, ((s.cycle (writeCycle ty a t v)).reply a t = none → k / 4 ≠ a.toNat / 4) →
        (s.store ty a t v).mem.get k = s.mem.get k := by
  have hstores := stores_busWrite (cycle_wf hm (writeCycle ty a t v)) a t v
  have hstore : s.store ty a t v = (s.cycle (writeCycle ty a t v)).busWrite a t v := by
    rw [State.store, dataOut, if_pos ht]
  rw [hstore]
  have hmem : (s.cycle (writeCycle ty a t v)).mem = s.mem := (environment_mem hq).1
  rw [Stores, hmem, if_pos ht] at hstores
  split at hstores
  · next hr =>
    obtain ⟨hword, hother⟩ := hstores
    exact ⟨fun _ => hword, fun k hk => hother k (hk hr)⟩
  · next hr => exact ⟨fun h => absurd h hr, fun k _ => hstores k⟩

theorem noBusWrites_congr {s t : State} (h : t.moments = s.moments) : t.noBusWrites = s.noBusWrites := by
  rw [State.noBusWrites, State.noBusWrites, h]

theorem passing_noBusWrites {s : State} (h : s.noBusWrites = true) (cs : List BusCycle) :
    (s.passing cs).noBusWrites = true := by
  induction cs generalizing s with
  | nil => exact h
  | cons c cs ih => exact ih (s := s.cycle c) (environment_mem h).2

/-- What a run of word writes leaves in the memory: each word whose cycle the reference memory serves, and every other byte
as it was (R60, R67). -/
def StoresRun (s : State) (t : BusAttrs) (ty : CycleType) (a : Word) (vs : List Word) (m : Memory) : Prop :=
  (∀ i v, vs[i]? = some v → (s.writeAfter t ty a vs i).reply (a + BitVec.ofNat 32 (4 * i)) t = none →
    m.word (a + BitVec.ofNat 32 (4 * i)) = v) ∧
  ∀ k, (∀ i, i < vs.length → (s.writeAfter t ty a vs i).reply (a + BitVec.ofNat 32 (4 * i)) t = none →
    k / 4 ≠ (a + BitVec.ofNat 32 (4 * i)).toNat / 4) → m.get k = s.mem.get k

/-- The first word of a run stays when the others are written, which are at other places. -/
theorem writeRun_storesRun {s : State} (hm : s.mem.wf = true) (hq : s.noBusWrites = true) {t : BusAttrs}
    (ht : t.nBW = true) (ty : CycleType) (a : Word) {vs : List Word} (hlen : vs.length ≤ 2 ^ 30) :
    StoresRun s t ty a vs (State.writeRun t ty a vs s).2.mem := by
  induction vs generalizing ty a s with
  | nil => exact ⟨nofun, fun _ _ => rfl⟩
  | cons v vs ih =>
    rw [List.length_cons] at hlen
    have hreply : ∀ i, (s.writeAfter t ty a (v :: vs) (i + 1)).reply (a + BitVec.ofNat 32 (4 * (i + 1))) t =
        ((s.store ty a t v).writeAfter t .s (a + 4#32) vs i).reply (a + 4#32 + BitVec.ofNat 32 (4 * i)) t := fun i => by
      rw [add_words, reply_congr (writeAfter_succ s ht ty a v vs i).inputs]
    have hrest : (s.store ty a t v).noBusWrites = true :=
      (noBusWrites_congr (store_changesData s ty a ht v).moments).trans (environment_mem hq).2
    obtain ⟨hword, hother⟩ := store_mem hm hq ty a ht v
    obtain ⟨hwords, hothers⟩ := ih (store_wf hm ty a t v) hrest .s (a + 4#32) (by omega)
    refine ⟨fun i v' hi hserved => ?_, fun k hk => ?_⟩
    · cases i with
      | zero =>
        obtain rfl : v = v' := by simpa using hi
        rw [add_zero_words] at hserved ⊢
        refine (word_of_get fun k hk => hothers k fun i hi _ => ?_).trans (hword hserved)
        rw [hk, add_words]
        exact (add_words_ne a (by omega)).symm
      | succ i =>
        rw [hreply] at hserved
        rw [← add_words]
        exact hwords i v' (by simpa using hi) hserved
    · refine (hothers k fun i hi hserved => ?_).trans (hother k fun hserved => ?_)
      · rw [← hreply] at hserved
        rw [add_words]
        exact hk (i + 1) (by rw [List.length_cons]; omega) hserved
      · have := hk 0 (Nat.succ_pos _)
        rw [add_zero_words] at this
        exact this hserved

/-! ## The base written back -/

theorem cpWriteBack_changesRegs (s : State) (w : Bool) (rn : RegNum) (v : Word) : ChangesRegs s (s.cpWriteBack w rn v) := by
  unfold State.cpWriteBack
  split
  · exact setReg_changesRegs s rn v
  · rfl

theorem gpr_cpWriteBack (s : State) (w : Bool) (rn : RegNum) (v : Word) (q : PhysReg) :
    (s.cpWriteBack w rn v).gpr q = if w = true ∧ phys s.mode rn = some q then v else s.gpr q := by
  cases w with
  | true => simp only [State.cpWriteBack, if_true, true_and, gpr_setReg]
  | false => simp only [State.cpWriteBack, Bool.false_eq_true, if_false, false_and]

end Sys2Proof.Machine

/-! # STM -/

namespace Sys2Proof.Machine

/-! ## The words it stores -/

theorem regIn_ahead (s : State) (bank : Mode) {n : RegNum} (h : n ≠ 15#4) (a b : Word) :
    s.regIn bank n a = s.regIn bank n b := by
  cases hq : phys bank n with
  | none => exact absurd ((phys_eq_none bank n).mp hq) h
  | some q => simp only [State.regIn, hq]

/-- The word of one register (46_block_data_transfer.md R297, R298, R300): R15 runs ahead by 12, and the base is the old one
when it is the first to be stored. -/
theorem blockValue_eq (s : State) {sBit w first : Bool} {rn : RegNum} (hrn : rn ≠ 15#4) (hS : sBit = true → w = false)
    (u : Bool) (list : BitVec 16) {r : RegNum} (hfirst : first = true ↔ listRank list r.toNat = 0) :
    (if r = rn ∧ sBit = false then (if first ∨ w = false then s.baseOf rn else s.blockBase u rn list)
      else s.regIn (s.blockBank sBit) r 12#32) = s.storedWord u sBit w rn list r := by
  by_cases hpc : r = 15#4
  · rw [State.storedWord, if_pos hpc, hpc, if_neg fun h => hrn h.1.symm, regIn_pc]
  · rw [State.storedWord, if_neg hpc]
    cases sBit with
    | true =>
      rw [if_neg (by simp)]
      exact regIn_ahead s .usr hpc _ _
    | false =>
      by_cases hbase : r = rn
      · subst hbase
        rw [if_pos ⟨rfl, rfl⟩, baseOf_eq s hpc]
        simp only [hfirst]
        by_cases h0 : listRank list r.toNat = 0 <;> cases w <;> simp [h0]
      · rw [if_neg fun h => hbase h.1]
        simp only [hbase, false_and, if_false, Bool.false_eq_true]
        exact regIn_ahead s s.mode hpc _ _

/-- The words of the registers of a list in its order (R290, R298). -/
theorem blockValues_eq (s : State) {sBit w : Bool} {rn : RegNum} (hrn : rn ≠ 15#4) (hS : sBit = true → w = false)
    (u : Bool) (list : BitVec 16) :
    s.blockValues sBit w rn (s.baseOf rn) (s.blockBase u rn list) true (listRegs list) =
      (listRegs list).map (s.storedWord u sBit w rn list) := by
  have hlater : ∀ l : List RegNum, (∀ r ∈ l, listRank list r.toNat ≠ 0) →
      s.blockValues sBit w rn (s.baseOf rn) (s.blockBase u rn list) false l =
        l.map (s.storedWord u sBit w rn list) := by
    intro l hl
    induction l with
    | nil => rfl
    | cons r l ih =>
      obtain ⟨hr, hl⟩ := List.forall_mem_cons.mp hl
      exact List.cons_eq_cons.mpr ⟨blockValue_eq s hrn hS u list (by simp [hr]), ih hl⟩
  have hranks := map_rank_listRegs list
  cases hregs : listRegs list with
  | nil => rfl
  | cons r l =>
    have hlen : listRank list 16 = l.length + 1 := by rw [← length_listRegs, hregs, List.length_cons]
    rw [hregs, hlen, List.range_succ_eq_map, List.map_cons] at hranks
    obtain ⟨h0, hl⟩ := List.cons.inj hranks
    refine List.cons_eq_cons.mpr ⟨blockValue_eq s hrn hS u list (by simp [h0]), hlater l fun x hx hx0 => ?_⟩
    have hmem : listRank list x.toNat ∈ (List.range l.length).map Nat.succ := hl ▸ List.mem_map_of_mem hx
    obtain ⟨i, -, hi⟩ := List.mem_map.mp hmem
    omega

/-! ## What it leaves in the memory -/

/-- The words an STM stores, in the order of its list. -/
def State.stmWords (s : State) (u sBit w : Bool) (rn : RegNum) (list : BitVec 16) : List Word :=
  (listRegs list).map (s.storedWord u sBit w rn list)

/-- The run of writes of an STM: whether each cycle was aborted, and the state after it. -/
def State.stmRun (s : State) (u sBit w : Bool) (rn : RegNum) (first : Word) (list : BitVec 16) : List Bool × State :=
  State.writeRun (s.dataAttrs true false) .n first (s.stmWords u sBit w rn list) s

/-- The state in the cycle of register `r`. -/
def State.stmAfter (s : State) (u sBit w : Bool) (rn : RegNum) (first : Word) (list : BitVec 16) (r : RegNum) : State :=
  s.passing ((s.stmCycles u sBit w rn first list).take (listRank list r.toNat + 1))

/-- The memory `m` holds the word of each register whose cycle the reference memory serves, and every other byte as `s` has
it (R292, R298). -/
def StoresList (s : State) (u sBit w : Bool) (rn : RegNum) (first : Word) (list : BitVec 16) (m : Memory) : Prop :=
  (∀ r : RegNum, list.getLsbD r.toNat = true →
    (s.stmAfter u sBit w rn first list r).reply (listAddress first list r) (s.dataAttrs true false) = none →
    m.word (listAddress first list r) = s.storedWord u sBit w rn list r) ∧
  ∀ k, (∀ r : RegNum, list.getLsbD r.toNat = true →
    (s.stmAfter u sBit w rn first list r).reply (listAddress first list r) (s.dataAttrs true false) = none →
    k / 4 ≠ (listAddress first list r).toNat / 4) → m.get k = s.mem.get k

section

variable (s : State) (u sBit w : Bool) (rn : RegNum) (first : Word) (list : BitVec 16)

theorem length_stmWords : (s.stmWords u sBit w rn list).length = listRank list 16 := by
  rw [State.stmWords, List.length_map, length_listRegs]

theorem stmRun_storesList (hm : s.mem.wf = true) (hq : s.noBusWrites = true) :
    StoresList s u sBit w rn first list (s.stmRun u sBit w rn first list).2.mem := by
  have hlen : (s.stmWords u sBit w rn list).length ≤ 2 ^ 30 := by
    have := listRank_le list 16
    rw [length_stmWords]
    omega
  obtain ⟨hwords, hothers⟩ := writeRun_storesRun hm hq (t := s.dataAttrs true false) rfl .n first hlen
  refine ⟨fun r hr hserved => hwords _ _ ?_ hserved, fun k hk => hothers k fun i hi hserved => ?_⟩
  · rw [State.stmWords, List.getElem?_map, listRegs_rank hr, Option.map_some]
  · rw [length_stmWords] at hi
    obtain ⟨r, hr, rfl⟩ := exists_listRank hi
    exact hk r hr hserved

theorem stmRun_changesData :
    ChangesData (s.passing (s.stmCycles u sBit w rn first list)) (s.stmRun u sBit w rn first list).2 :=
  writeRun_changesData rfl .n first _ s

/-- A cycle of the run is aborted exactly when that of a register is (R304). -/
theorem stmRun_any : (s.stmRun u sBit w rn first list).1.any id = true ↔
    ∃ r : RegNum, list.getLsbD r.toNat = true ∧
      (s.stmAfter u sBit w rn first list r).aborts (listAddress first list r) (s.dataAttrs true false) = true := by
  rw [State.stmRun, writeRun_aborts rfl, length_stmWords, ← map_rank_listRegs, List.map_map, List.any_map, List.any_eq_true]
  simp only [mem_listRegs]
  rfl

end

/-! ## What it does -/

/-- The state after an STM has made its run and has written back its base (R292, R300). -/
def State.stmDone (s : State) (u sBit w : Bool) (rn : RegNum) (first : Word) (list : BitVec 16) : State :=
  (s.stmRun u sBit w rn first list).2.cpWriteBack w rn (s.blockBase u rn list)

theorem exec_stm {c : Cond} {p u sBit w : Bool} {rn : RegNum} {list : BitVec 16} {s : State}
    (hc : condPasses c s.flags = true) (hrn : rn ≠ 15#4) (hlist : list ≠ 0#16)
    (hS : sBit = true → s.mode ≠ .usr ∧ w = false) :
    exec (.stm c p u sBit w rn list) s =
      let first := s.blockFirst p u rn list
      if (s.stmRun u sBit w rn first list).1.any id then .next (s.stmDone u sBit w rn first list).dataAbort
      else .next (s.stmDone u sBit w rn first list).advance := by
  refine (conditional_passes hc _).trans ?_
  rw [blockRefusal_none hrn hlist (fun h => (hS h).1) (fun h => (hS h).2)]
  dsimp only
  rw [blockValues_eq s hrn fun h => (hS h).2]
  rfl

section

variable (s : State) (u sBit w : Bool) (rn : RegNum) (first : Word) (list : BitVec 16)

/-- An STM changes the memory, and its base with W = 1. -/
theorem stmDone_frame :
    let b := s.stmDone u sBit w rn first list
    ChangesData (s.passing (s.stmCycles u sBit w rn first list)) b ∧ b.coprocs = s.coprocs ∧
      (∀ q, b.gpr q = if w = true ∧ phys s.mode rn = some q then s.blockBase u rn list else s.gpr q) ∧
      (s.mem.wf = true → s.noBusWrites = true → StoresList s u sBit w rn first list b.mem) := by
  obtain ⟨hregs, -, -, -, -, -, -, -, hcoprocs, -⟩ :=
    writeRun_frame (s.dataAttrs true false) .n (s.stmWords u sBit w rn list) first s
  have hback := cpWriteBack_changesRegs (s.stmRun u sBit w rn first list).2 w rn (s.blockBase u rn list)
  obtain ⟨-, -, -, hkeeps⟩ := hback.frame
  refine ⟨(stmRun_changesData s u sBit w rn first list).trans (.of_regs hback), hkeeps.trans hcoprocs, fun q => ?_,
    fun hm hq => ?_⟩
  · have hgpr : (s.stmRun u sBit w rn first list).2.gpr q = s.gpr q := ChangesData.keepsRegs_of_regs hregs q
    have hmode : (s.stmRun u sBit w rn first list).2.mode = s.mode := ((KeepsControl.refl s).writeRun _ _ _ _).mode
    rw [State.stmDone, gpr_cpWriteBack, hgpr, hmode]
  · rw [State.stmDone, hback.mem]
    exact stmRun_storesList s u sBit w rn first list hm hq

end

/-- Settles O50: without an abort the STM goes on after its run. -/
theorem storeMultiple : Obligations.StoreMultiple := by
  intro c p u sBit w rn list s hc hrn hlist hS hm first attrs address cycles after e hserved
  obtain ⟨hdata, hcoprocs, hgpr, hstores⟩ := stmDone_frame s u sBit w rn first list
  have hany : ¬ (s.stmRun u sBit w rn first list).1.any id = true := by
    rw [stmRun_any]
    rintro ⟨r, hr, haborts⟩
    exact absurd (hserved r hr) (by rw [Bool.not_eq_false]; exact haborts)
  refine ⟨(s.stmDone u sBit w rn first list).advance, (exec_stm hc hrn hlist hS).trans (if_neg hany), hstores hm, hgpr,
    hdata.cpsr.trans (passing_cpsr s _), hdata.goesOn, hdata.outside, hcoprocs.trans (passing_coprocs s _).symm⟩

/-- Settles O51: with an abort the STM takes the data abort after its run, which is the same. -/
theorem storeMultipleAbort : Obligations.StoreMultipleAbort := by
  intro c p u sBit w rn bad list s hc hrn hS hm first attrs address cycles after e hbad haborts
  obtain ⟨hdata, hcoprocs, hgpr, hstores⟩ := stmDone_frame s u sBit w rn first list
  obtain ⟨henters, hbefore, hbeforeGpr, hbeforeCoprocs, hcpsr, -⟩ := hdata.dataAbort_frame
  have hany : (s.stmRun u sBit w rn first list).1.any id = true := (stmRun_any ..).mpr ⟨bad, hbad, haborts⟩
  refine ⟨(s.stmDone u sBit w rn first list).dataAbort, _,
    (exec_stm hc hrn (list_ne_zero hbad) hS).trans (if_pos hany), henters, fun hq => ?_, fun q => ?_, hcpsr,
    hbefore.keepsSystem ?_, hbeforeCoprocs.trans hcoprocs⟩
  · have hquiet : (s.stmDone u sBit w rn first list).noBusWrites = true :=
      (noBusWrites_congr hdata.moments).trans (passing_noBusWrites hq _)
    have hmem : (s.stmDone u sBit w rn first list).dataAbort.mem = (s.stmDone u sBit w rn first list).mem :=
      (environment_mem hquiet).1
    rw [hmem]
    exact hstores hm hq
  · rw [hbeforeGpr, hgpr]
  · rw [hbeforeCoprocs, hcoprocs, State.aborting, discardedFetch_coprocs, passing_coprocs]

end Sys2Proof.Machine

/-! # Swap -/

namespace Sys2Proof.Machine

/-! ## The locked write -/

/-- Holding writes back changes the moments only. -/
theorem holdWrites_eq (s : State) : s.holdWrites = { s with moments := s.holdWrites.moments } := by
  unfold State.holdWrites
  split <;> rfl

/-- The locked write beside the memory is one write cycle (47_swap.md R322): what other masters would write before it waits,
and the memory is the only thing they reach. -/
theorem lockedStore_changesData (s : State) (perform : Bool) (a : Word) {t : BusAttrs} (v : Word) :
    ChangesData (s.cycle (writeCycle .n a t (dataOut t v))) (s.lockedStore perform a t v) := by
  have hheld : ChangesData (s.cycle (writeCycle .n a t (dataOut t v)))
      (s.holdWrites.cycle (writeCycle .n a t (dataOut t v))) := by
    cases h : s.moments <;> simp [ChangesData, State.holdWrites, State.cycle, State.environment, h]
  have hwrites : ∀ u : State, ChangesData u { u with mem := u.mem.setAll s.heldWrites } := fun _ => rfl
  unfold State.lockedStore
  cases perform with
  | true => exact (hheld.trans (busWrite_changesData _ a t v)).trans (hwrites _)
  | false => exact hheld.trans (hwrites _)

theorem lockedStore_coprocs (s : State) (perform : Bool) (a : Word) (t : BusAttrs) (v : Word) :
    (s.lockedStore perform a t v).coprocs = s.coprocs := by
  have hheld : s.holdWrites.coprocs = s.coprocs := by rw [holdWrites_eq]
  unfold State.lockedStore
  cases perform <;> simp [hheld]

theorem lockedStore_gpr (s : State) (perform : Bool) (a : Word) (t : BusAttrs) (v : Word) (q : PhysReg) :
    (s.lockedStore perform a t v).gpr q = s.gpr q := by
  have hheld : s.holdWrites.regs = s.regs := by rw [holdWrites_eq]
  unfold State.lockedStore
  cases perform <;> simp [State.gpr, hheld]

/-- Without other masters' writes the locked write is a write as any other. -/
theorem lockedStore_quiet {s : State} (h : s.noBusWrites = true) (perform : Bool) (a : Word) (t : BusAttrs) (v : Word) :
    s.lockedStore perform a t v =
      if perform then (s.cycle (writeCycle .n a t (dataOut t v))).busWrite a t v
      else s.cycle (writeCycle .n a t (dataOut t v)) := by
  have hheld : s.holdWrites = s ∧ s.heldWrites = [] := by
    cases hm : s.moments with
    | nil => simp only [State.holdWrites, State.heldWrites, hm, and_self]
    | cons m rest =>
      rw [State.noBusWrites, hm, List.all_cons, Bool.and_eq_true, List.isEmpty_iff] at h
      obtain ⟨hnone, -⟩ := h
      have hsame : { m with busWrites := [] } = m := by rw [← hnone]
      simp only [State.holdWrites, State.heldWrites, hm, hnone, hsame, and_true]
      rw [← hm]
  obtain ⟨hhold, hnone⟩ := hheld
  rw [State.lockedStore, hhold, hnone]
  cases perform <;> rfl

/-- An internal cycle after other cycles, the data having changed. -/
theorem ChangesData.internal {s t : State} {cs : List BusCycle} (h : ChangesData (s.passing cs) t) :
    ChangesData (s.passing (cs ++ [s.idle])) t.internal := by
  have hcpsr : t.cpsr = s.cpsr := h.cpsr.trans (passing_cpsr s cs)
  have hpc : t.pc = s.pc := h.pc.trans (passing_pc s cs)
  have hidle : t.internalCycle true t.ahead = s.idle := by
    rw [State.idle, State.internalCycle, State.internalCycle, State.ahead, dataAttrs_congr hcpsr, hpc]
  rw [passing_concat, State.internal, hidle]
  exact h.cycle _

/-! ## What a swap does -/

/-- The state after the three cycles of a swap (R320, R323). -/
def State.swapped (s : State) (byte : Bool) (a v : Word) : State :=
  let r := s.cycle (readCycle .n a (s.lockedAttrs false byte))
  (r.lockedStore (!r.aborts a (s.lockedAttrs false byte)) a (s.lockedAttrs true byte) v).internal

section

variable (s : State) (byte : Bool) (a v : Word)

/-- One of the two data cycles of a swap is aborted. -/
def State.swapAborts : Bool :=
  (s.passing ((s.swapCycles byte a v).take 1)).aborts a (s.lockedAttrs false byte) ||
    (s.passing ((s.swapCycles byte a v).take 2)).aborts a (s.lockedAttrs true byte)

theorem swapped_frame :
    ChangesData (s.passing (s.swapCycles byte a v)) (s.swapped byte a v) ∧ (s.swapped byte a v).coprocs = s.coprocs ∧
      ∀ q, (s.swapped byte a v).gpr q = s.gpr q := by
  refine ⟨ChangesData.internal (cs := (s.swapCycles byte a v).take 2) (lockedStore_changesData _ _ a v), ?_, fun q => ?_⟩
  · rw [State.swapped, internal_coprocs, lockedStore_coprocs, cycle_coprocs]
  · rw [State.swapped, internal_gpr, lockedStore_gpr, cycle_gpr]

/-- The memory after a swap that is not aborted holds what was written, and after an aborted one is as it was (R323). -/
theorem swapped_mem (hm : s.mem.wf = true) (hq : s.noBusWrites = true) :
    (s.swapAborts byte a v = false →
      Stores (s.passing ((s.swapCycles byte a v).take 2)) s.mem (s.swapped byte a v).mem a (s.lockedAttrs true byte) v) ∧
    (s.swapAborts byte a v = true → (s.swapped byte a v).mem = s.mem) := by
  let r := s.cycle (readCycle .n a (s.lockedAttrs false byte))
  let tw := s.lockedAttrs true byte
  let wr := r.cycle (writeCycle .n a tw (dataOut tw v))
  have hr : r.noBusWrites = true := (environment_mem hq).2
  have hwr : wr.mem = s.mem := passing_mem hq ((s.swapCycles byte a v).take 2)
  have hlocked := lockedStore_quiet hr (!r.aborts a (s.lockedAttrs false byte)) a tw v
  have hquiet : (r.lockedStore (!r.aborts a (s.lockedAttrs false byte)) a tw v).noBusWrites = true :=
    (noBusWrites_congr (lockedStore_changesData r _ a v).moments).trans (environment_mem hr).2
  have hmem : (s.swapped byte a v).mem = (r.lockedStore (!r.aborts a (s.lockedAttrs false byte)) a tw v).mem :=
    (environment_mem hquiet).1
  have hcases : s.swapAborts byte a v = (r.aborts a (s.lockedAttrs false byte) || wr.aborts a tw) := rfl
  rw [hmem, hlocked, hcases]
  cases hread : r.aborts a (s.lockedAttrs false byte) with
  | true => exact ⟨nofun, fun _ => hwr⟩
  | false =>
    refine ⟨fun _ => ?_, fun hwrite => ?_⟩
    · rw [← hwr]
      exact stores_busWrite (passing_wf hm _) a tw v
    · change (wr.busWrite a tw v).mem = s.mem
      rw [busWrite_aborted (by simpa using hwrite), hwr]

end

theorem exec_swap {x : (Cond → RegNum → RegNum → RegNum → Instr) × Bool}
    (hx : x ∈ ([(.swp, false), (.swpb, true)] : List ((Cond → RegNum → RegNum → RegNum → Instr) × Bool))) {c : Cond}
    {rn rd rm : RegNum} {s : State} (hc : condPasses c s.flags = true) (hrn : rn ≠ 15#4) (hrd : rd ≠ 15#4)
    (hrm : rm ≠ 15#4) :
    exec (x.1 c rn rd rm) s =
      let a := s.reg rn 0#32
      let e := s.swapped x.2 a (s.reg rm 0#32)
      let r := s.passing ((s.swapCycles x.2 a (s.reg rm 0#32)).take 1)
      if s.swapAborts x.2 a (s.reg rm 0#32) then .next e.dataAbort
      else .next (e.setReg rd (r.loaded a (s.lockedAttrs false x.2))).advance := by
  have hswap : exec (x.1 c rn rd rm) s = swap x.2 c rn rd rm s := by
    simp only [List.mem_cons, List.not_mem_nil, or_false] at hx
    rcases hx with rfl | rfl <;> rfl
  rw [hswap, swap, conditional_passes hc, if_neg (by simp [hrn, hrd, hrm]), reg_ahead s hrn 8#32 0#32,
    reg_ahead s hrm 8#32 0#32]
  dsimp only
  rw [aborts_congr (lockedStore_changesData _ _ _ _).inputs, readData_eq_loaded]
  rfl

/-! ## When another master's writes are made -/

/-- Writes are answered by the pins, whatever the moments to come. -/
theorem busWrite_withMoments (s : State) (moments : List Moment) (a : Word) (t : BusAttrs) (v : Word) :
    State.busWrite { s with moments } a t v = { s.busWrite a t v with moments } := by
  unfold State.busWrite State.writeData
  change (match s.reply a t with | none => _ | some _ => _) = _
  cases s.reply a t with
  | none => dsimp only; split <;> rfl
  | some x => rfl

/-- The state after the locked write in the moment `m`, its other writes left out and with no moment to come. -/
def State.lockedWrite (s : State) (m : Moment) (perform : Bool) (a : Word) (t : BusAttrs) (v : Word) : State :=
  let c : State :=
    { s with
      inputs := { s.inputs with BIGEND := m.BIGEND, memoryRules := m.memoryRules }
      moments := []
      bus := s.bus ++ [writeCycle .n a t (dataOut t v)]
      seq := (writeCycle .n a t (dataOut t v)).nextSeq }
  if perform then c.busWrite a t v else c

theorem lockedWrite_inputs (s : State) (m : Moment) (perform : Bool) (a : Word) (t : BusAttrs) (v : Word) :
    (s.lockedWrite m perform a t v).inputs = { s.inputs with BIGEND := m.BIGEND, memoryRules := m.memoryRules } := by
  unfold State.lockedWrite
  cases perform <;> simp

/-- The locked write comes first, and what the moment held back after it (47_swap.md R322, notes/assumptions/29.md). -/
theorem lockedStore_cons {s : State} {m : Moment} {rest : List Moment} (h : s.moments = m :: rest) (perform : Bool)
    (a : Word) (t : BusAttrs) (v : Word) :
    s.lockedStore perform a t v =
      let w := s.lockedWrite m perform a t v
      { w with moments := rest, mem := w.mem.setAll m.busWrites } := by
  have hheld : s.holdWrites.moments = { m with busWrites := [] } :: rest := by rw [State.holdWrites, h]
  have hcycle : s.holdWrites.cycle (writeCycle .n a t (dataOut t v)) =
      { s.lockedWrite m false a t v with moments := rest } := by
    rw [cycle_cons hheld, holdWrites_eq]
    rfl
  have hwrites : s.heldWrites = m.busWrites := by rw [State.heldWrites, h]
  rw [State.lockedStore, hcycle, hwrites]
  cases perform with
  | true =>
    dsimp only [if_true]
    rw [busWrite_withMoments]
    rfl
  | false => rfl

/-- The moments of a swap with what the one of its write would have another master write moved behind it. -/
def laterWrites (m : Moment) (rest : List Moment) : List Moment :=
  match rest with
  | [] => [m]
  | n :: rest => { n with busWrites := m.busWrites ++ n.busWrites } :: rest

/-- What is held back in the locked write is made before the next cycle all the same. -/
theorem lockedStore_later {s : State} {m : Moment} {rest : List Moment} (h : s.moments = m :: rest) (perform : Bool)
    (a : Word) (t : BusAttrs) (v : Word) :
    let s' := { s with moments := { m with busWrites := [] } :: laterWrites m rest }
    (State.lockedStore s' perform a t v).internal = (s.lockedStore perform a t v).internal ∧
      (State.lockedStore s' perform a t v).inputs = (s.lockedStore perform a t v).inputs := by
  intro s'
  have hwrite : State.lockedWrite s' { m with busWrites := [] } perform a t v = s.lockedWrite m perform a t v := rfl
  rw [lockedStore_cons h, lockedStore_cons (s := s') rfl, hwrite]
  have hinputs := lockedWrite_inputs s m perform a t v
  generalize s.lockedWrite m perform a t v = w at hinputs ⊢
  refine ⟨?_, rfl⟩
  cases rest with
  | nil =>
    have hsame : { w.inputs with BIGEND := m.BIGEND, memoryRules := m.memoryRules } = w.inputs := by rw [hinputs]
    refine Eq.trans (b := { State.internal { w with moments := [], mem := w.mem.setAll m.busWrites } with
      inputs := { w.inputs with BIGEND := m.BIGEND, memoryRules := m.memoryRules } }) rfl ?_
    rw [hsame]
    rfl
  | cons n rest =>
    refine (cycle_cons rfl _).trans (Eq.trans ?_ (cycle_cons rfl _).symm)
    dsimp only
    rw [setAll_append]
    rfl

/-- A swap is the same when what another master would write before its write cycle comes before the cycle after it. -/
theorem swapped_later (s : State) (m0 m1 : Moment) (rest : List Moment) (byte : Bool) (a v : Word) :
    let s' := { s with moments := m0 :: m1 :: rest }
    let s'' := { s with moments := m0 :: { m1 with busWrites := [] } :: laterWrites m1 rest }
    State.swapped s'' byte a v = State.swapped s' byte a v ∧ State.swapAborts s'' byte a v = State.swapAborts s' byte a v ∧
      ∀ t, (State.passing s'' ((State.swapCycles s byte a v).take 1)).loaded a t =
        (State.passing s' ((State.swapCycles s byte a v).take 1)).loaded a t := by
  let r := State.cycle { s with moments := m0 :: m1 :: rest } (readCycle .n a (s.lockedAttrs false byte))
  obtain ⟨hswapped, -⟩ := lockedStore_later (s := r) rfl (!r.aborts a (s.lockedAttrs false byte)) a
    (s.lockedAttrs true byte) v
  exact ⟨hswapped, rfl, fun _ => rfl⟩

theorem next_setReg_congr {s t : State} {v w : Word} (hs : s = t) (hv : v = w) (rd : RegNum) :
    (Host.Outcome.next (s.setReg rd v).advance : Result) = .next (t.setReg rd w).advance := by rw [hs, hv]

/-- Settles O52: the swap is its three cycles, and its end, whose frames are those of any data access and of any data
abort. -/
theorem swapEffect : Obligations.SwapEffect := by
  intro x hx c rn rd rm s hc hrn hrd hrm hm a cycles tr tw r wr e aborted
  have hexec := exec_swap hx hc hrn hrd hrm
  obtain ⟨hdata, hcoprocs, hgpr⟩ := swapped_frame s x.2 a (s.reg rm 0#32)
  have hcoprocs' : (s.swapped x.2 a (s.reg rm 0#32)).coprocs = (s.passing cycles).coprocs := by
    rw [hcoprocs, passing_coprocs]
  have hmode : (s.swapped x.2 a (s.reg rm 0#32)).mode = s.mode := hdata.mode.trans (passing_mode s _)
  refine ⟨fun habort => ?_, fun habort => ?_, fun m0 m1 rest hmoments => ?_⟩
  · have hchanges := setReg_changesRegs (s.swapped x.2 a (s.reg rm 0#32)) rd (r.loaded a tr)
    have hend := hdata.trans (.of_regs hchanges)
    obtain ⟨-, -, -, hkeeps⟩ := hchanges.frame
    refine ⟨_, hexec.trans (if_neg (Bool.eq_false_iff.mp habort)), fun q => ?_, fun hq => ?_,
      hend.cpsr.trans (passing_cpsr s _), hend.goesOn, hend.outside, hkeeps.trans hcoprocs'⟩
    · rw [advance_gpr, gpr_setReg, hmode, hgpr]
    · rw [advance_mem, setReg_mem]
      exact (swapped_mem s x.2 a _ hm hq).1 habort
  · obtain ⟨henters, hbefore, hbeforeGpr, hbeforeCoprocs, hcpsr, -⟩ := hdata.dataAbort_frame
    refine ⟨_, _, hexec.trans (if_pos habort), henters, fun q => (hbeforeGpr q).trans (hgpr q), hcpsr, fun hq => ?_,
      hbefore.keepsSystem ?_, hbeforeCoprocs.trans hcoprocs⟩
    · have hquiet := (noBusWrites_congr hdata.moments).trans (passing_noBusWrites hq _)
      exact (environment_mem hquiet).1.trans ((swapped_mem s x.2 a _ hm hq).2 habort)
    · rw [hbeforeCoprocs, hcoprocs', State.aborting, discardedFetch_coprocs]
  · have hs : s = { s with moments := m0 :: m1 :: rest } := by rw [← hmoments]
    obtain ⟨hswapped, haborts, hloaded⟩ := swapped_later s m0 m1 rest x.2 a (s.reg rm 0#32)
    rw [← hs] at hswapped haborts hloaded
    have hlater := exec_swap hx (s := { s with moments := m0 :: { m1 with busWrites := [] } :: laterWrites m1 rest })
      hc hrn hrd hrm
    refine hexec.trans (Eq.trans ?_ hlater.symm)
    refine ite_congr (congrArg (· = true) haborts.symm) (fun _ => ?_) fun _ => ?_
    · exact congrArg (fun u => Host.Outcome.next u.dataAbort) hswapped.symm
    · exact next_setReg_congr hswapped.symm (hloaded _).symm rd

end Sys2Proof.Machine

/-! # LDC and STC -/

namespace Sys2Proof.Machine

/-! ## Runs that do not look at the coprocessors -/

theorem readRun_withCoprocs (t : BusAttrs) (ty : CycleType) (k : Nat) (a : Word) (s : State) (coprocs : List Coproc) :
    State.readRun t ty k a { s with coprocs } =
      ((State.readRun t ty k a s).1, { (State.readRun t ty k a s).2 with coprocs }) := by
  induction k generalizing ty a s with
  | zero => rfl
  | succ k ih =>
    simp only [State.readRun, cycle_withCoprocs, ih]
    rfl

theorem busWrite_withCoprocs (s : State) (coprocs : List Coproc) (a : Word) (t : BusAttrs) (v : Word) :
    State.busWrite { s with coprocs } a t v = { s.busWrite a t v with coprocs } := by
  unfold State.busWrite State.writeData
  change (match s.reply a t with | none => _ | some _ => _) = _
  cases s.reply a t with
  | none => dsimp only; split <;> rfl
  | some x => rfl

theorem writeRun_withCoprocs (t : BusAttrs) (ty : CycleType) (a : Word) (vs : List Word) (s : State)
    (coprocs : List Coproc) :
    State.writeRun t ty a vs { s with coprocs } =
      ((State.writeRun t ty a vs s).1, { (State.writeRun t ty a vs s).2 with coprocs }) := by
  have hstore : ∀ (s : State) (ty : CycleType) (a v : Word),
      State.store { s with coprocs } ty a t v = { s.store ty a t v with coprocs } := fun s ty a v => by
    rw [State.store, State.store, cycle_withCoprocs, busWrite_withCoprocs]
  induction vs generalizing ty a s with
  | nil => rfl
  | cons v vs ih =>
    simp only [State.writeRun, hstore, ih]
    rfl

/-! ## What the coprocessor is told -/

theorem loadEvents_range (code : Word) (f : Nat → Option Word) (k : Nat) :
    loadEvents code 0 ((List.range k).map f) = (List.range k).map fun i => .load code i (f i) := by
  have hfrom : ∀ j, loadEvents code j ((List.range' j k).map f) = (List.range' j k).map fun i => .load code i (f i) := by
    induction k with
    | zero => exact fun _ => rfl
    | succ k ih => exact fun j => congrArg (_ :: ·) (ih (j + 1))
  rw [List.range_eq_range', hfrom]

theorem storeEvents_range (code : Word) (f : Nat → Bool) (k : Nat) :
    storeEvents code 0 ((List.range k).map f) = (List.range k).map fun i => .store code i (f i) := by
  have hfrom : ∀ j, storeEvents code j ((List.range' j k).map f) =
      (List.range' j k).map fun i => .store code i (f i) := by
    induction k with
    | zero => exact fun _ => rfl
    | succ k ih => exact fun j => congrArg (_ :: ·) (ih (j + 1))
  rw [List.range_eq_range', hfrom]

/-! ## The address -/

/-- The offset counts words (49_coprocessor.md R355). -/
theorem cpModified_eq (s : State) (u : Bool) (rn : RegNum) (offset : BitVec 8) :
    s.cpModified u rn offset =
      if u then s.reg rn 8#32 + BitVec.ofNat 32 (4 * offset.toNat) else s.reg rn 8#32 - BitVec.ofNat 32 (4 * offset.toNat) := by
  have hwords : offset.zeroExtend 32 <<< 2 = BitVec.ofNat 32 (4 * offset.toNat) := by
    have hlt := offset.isLt
    apply BitVec.eq_of_toNat_eq
    simp only [BitVec.toNat_shiftLeft, BitVec.toNat_setWidth, BitVec.toNat_ofNat, Nat.shiftLeft_eq, BitVec.zeroExtend]
    omega
  rw [State.cpModified, hwords]
  rfl

/-! ## The end of a transfer -/

/-- What a coprocessor data transfer leaves after its cycles and before its end (R351, R352, R355): the base, and what the
coprocessor has been told; `e` is the state in which the cycles have been made. -/
structure TransfersData (s e t : State) (w : Bool) (rn : RegNum) (base : Word) (num : BitVec 4) (code : Word)
    (told : List CpEvent) : Prop where
  data : ChangesData e t
  gpr : ∀ q, t.gpr q = if w = true ∧ phys s.mode rn = some q then base else s.gpr q
  tells : Tells s t num code told

theorem transferred_changesData (s : State) (num : BitVec 4) (w : Word) (events : List CpEvent) (cs : List BusCycle) :
    ChangesData (s.passing cs) (s.transferred num w events cs) := rfl

/-- The base is written back after the cycles, aborted or not (R355, R358). -/
theorem cpWriteBack_transfersData {s b : State} {cs : List BusCycle} {num : BitVec 4} {code word : Word}
    {more : List Word} {told : List CpEvent} (h : s.cpAnswer num code = .accept word more)
    (hdata : ChangesData (s.passing cs) b) (hregs : b.regs = s.regs) (hcoprocs : b.coprocs = s.acceptedCoprocs num code told)
    (w : Bool) (rn : RegNum) (base : Word) :
    TransfersData s (s.passing cs) (b.cpWriteBack w rn base) w rn base num code told := by
  have hback := cpWriteBack_changesRegs b w rn base
  obtain ⟨-, -, -, hkeeps⟩ := hback.frame
  refine ⟨hdata.trans (.of_regs hback), fun q => ?_, tells_of_accept h (hkeeps.trans hcoprocs)⟩
  rw [gpr_cpWriteBack, hdata.mode, passing_mode, ChangesData.keepsRegs_of_regs hregs q]

namespace TransfersData

variable {s b : State} {cs : List BusCycle} {w : Bool} {rn : RegNum} {base : Word} {num : BitVec 4} {code : Word}
  {told : List CpEvent}

theorem tells_congr {t u : State} (h : Tells s t num code told) (hu : u.coprocs = t.coprocs) : Tells s u num code told := by
  obtain ⟨⟨cp, hcp, htold⟩, hothers⟩ := h
  exact ⟨⟨cp, hcp, (coprocessor?_congr hu num).trans htold⟩, fun k hk => (coprocessor?_congr hu k).trans (hothers k hk)⟩

theorem noBusWrites (h : TransfersData s (s.passing cs) b w rn base num code told) (hq : s.noBusWrites = true) :
    b.noBusWrites = true := (noBusWrites_congr h.data.moments).trans (passing_noBusWrites hq cs)

/-- The transfer goes on to the next instruction. -/
theorem advance (h : TransfersData s (s.passing cs) b w rn base num code told) :
    (∀ q, b.advance.gpr q = if w = true ∧ phys s.mode rn = some q then base else s.gpr q) ∧
      b.advance.cpsr = s.cpsr ∧ KeepsOutside (s.passing cs) b.advance ∧ Tells s b.advance num code told ∧
      GoesOn (s.passing cs) b.advance := by
  obtain ⟨hdata, hgpr, htells⟩ := h
  exact ⟨hgpr, hdata.cpsr.trans (passing_cpsr s cs), hdata.outside, htells, hdata.goesOn⟩

/-- The transfer ends in a data abort after its last cycle (R358). -/
theorem dataAbort (h : TransfersData s (s.passing cs) b w rn base num code told) :
    let before := b.discardedFetch (s.pc + 8#32)
    (∀ q, before.gpr q = if w = true ∧ phys s.mode rn = some q then base else s.gpr q) ∧ before.cpsr = s.cpsr ∧
      KeepsOutside (s.aborting cs) before ∧ Tells s before num code told ∧
      EntersAlone before b.dataAbort .abt 0x00000010#32 (s.pc + 8#32) ∧ b.dataAbort.coprocs = before.coprocs := by
  obtain ⟨hdata, hgpr, htells⟩ := h
  obtain ⟨henters, hbefore, hbeforeGpr, hcoprocs, hcpsr, -⟩ := hdata.dataAbort_frame
  exact ⟨fun q => (hbeforeGpr q).trans (hgpr q), hcpsr, hbefore.outside, tells_congr htells hcoprocs, henters,
    (discardedFetch_coprocs b (b.pc + 8#32)).trans hcoprocs.symm⟩

end TransfersData

theorem any_range_false {f : Nat → Bool} {n : Nat} (h : ∀ k, k ≤ n → f k = false) : (List.range (n + 1)).any f = false :=
  List.any_eq_false.mpr fun k hk => Bool.eq_false_iff.mp (h k (Nat.le_of_lt_succ (List.mem_range.mp hk)))

theorem any_range_true {f : Nat → Bool} {n k : Nat} (hk : k ≤ n) (h : f k = true) : (List.range (n + 1)).any f = true :=
  List.any_eq_true.mpr ⟨k, List.mem_range.mpr (Nat.lt_succ_of_le hk), h⟩

/-! ## LDC -/

section

variable (s : State) (code first : Word) (n : Nat)

/-- The read cycles of an LDC. -/
def State.ldcCycles : List BusCycle := readCycles (s.dataAttrs false false) .n n first

/-- What its k-th cycle gets. -/
def State.ldcRead (k : Nat) : Option Word :=
  (s.passing ((s.ldcCycles first n).take (k + 1))).wordRead (first + BitVec.ofNat 32 (4 * k)) (s.dataAttrs false false)

/-- What its coprocessor is told (R351, R358). -/
def State.ldcTold : List CpEvent := (List.range n).map fun k => .load code k (s.ldcRead first n k)

end

theorem pcWriteBack_not {rn : RegNum} {w : Bool} (h : rn = 15#4 → w = false) : ¬ (rn = 15#4 ∧ w = true) := by
  rintro ⟨hrn, hw⟩
  rw [h hrn] at hw
  cases hw

theorem exec_ldc {c : Cond} {p u n w : Bool} {rn : RegNum} {crd num : BitVec 4} {offset : BitVec 8} {s : State}
    {word : Word} {more : List Word} (hc : condPasses c s.flags = true)
    (h : s.cpAnswer num (encode (.ldc c p u n w rn crd num offset)) = .accept word more)
    (hpc : rn = 15#4 → w = false) :
    exec (.ldc c p u n w rn crd num offset) s =
      let code := encode (.ldc c p u n w rn crd num offset)
      let first := s.cpAddress p u rn offset
      let k := more.length + 1
      let e := s.transferred num code (s.ldcTold code first k) (s.ldcCycles first k)
      .next ((e.cpWriteBack w rn (s.cpModified u rn offset)).cpFinish
        ((List.range k).any fun i => (s.ldcRead first k i).isNone)) := by
  refine (conditional_passes hc _).trans ((offer_accept h _).trans ?_)
  rw [if_neg (pcWriteBack_not hpc)]
  dsimp only
  have hrun : State.readRun (s.dataAttrs false false) .n (1 + more.length) (s.cpAddress p u rn offset)
      ((s.present (encode (.ldc c p u n w rn crd num offset))).cpAnswered num
        (encode (.ldc c p u n w rn crd num offset))) = _ := readRun_withCoprocs _ _ _ _ s _
  rw [hrun, readRun_state, readRun_words, Nat.add_comm 1, List.any_map, loadEvents_range]
  rfl

/-- Settles O57: the coprocessor is told of every cycle, the base is written back, and the end is the next instruction or the
data abort. -/
theorem loadCoprocessor : Obligations.LoadCoprocessor := by
  intro c p u n w rn crd num offset s word more hc code hacc hpc modified
  have hmodified : modified = s.cpModified u rn offset := (cpModified_eq s u rn offset).symm
  clear_value modified
  subst hmodified
  intro address attrs cycles
  have hcycles : cycles = s.ldcCycles (s.cpAddress p u rn offset) (more.length + 1) :=
    congrArg (readCycles attrs .n (more.length + 1)) (add_zero_words _)
  clear_value cycles
  subst hcycles
  intro after aborted told kept
  let e := s.passing (s.ldcCycles (s.cpAddress p u rn offset) (more.length + 1))
  let b := (s.transferred num code told (s.ldcCycles (s.cpAddress p u rn offset) (more.length + 1))).cpWriteBack w rn
    (s.cpModified u rn offset)
  have hexec : exec (.ldc c p u n w rn crd num offset) s =
      .next (b.cpFinish ((List.range (more.length + 1)).any aborted)) := by
    rw [exec_ldc hc hacc hpc]
    simp only [State.ldcRead, wordRead_isNone]
    rfl
  have hdata : TransfersData s e b w rn (s.cpModified u rn offset) num code told :=
    cpWriteBack_transfersData hacc (transferred_changesData s num code told _) (passing_regs s _) rfl w rn _
  have hmem : b.mem = e.mem := (cpWriteBack_changesRegs _ w rn _).mem
  refine ⟨fun hnone => ?_, fun ⟨k, hk, habort⟩ => ?_⟩
  · have hany : (List.range (more.length + 1)).any aborted = false := any_range_false hnone
    obtain ⟨hgpr, hcpsr, houtside, htells, hgoes⟩ := hdata.advance
    rw [hany] at hexec
    exact ⟨b.advance, hexec, ⟨hgpr, hcpsr, hdata.data.keepsBytes hmem, houtside, htells⟩, hgoes⟩
  · have hany : (List.range (more.length + 1)).any aborted = true := any_range_true hk habort
    obtain ⟨hgpr, hcpsr, houtside, htells, henters, hcoprocs⟩ := hdata.dataAbort
    rw [hany] at hexec
    have hbytes := (hdata.data.discardedFetch (s.pc + 8#32)).keepsBytes (environment_mem_congr hdata.data.moments hmem)
    exact ⟨b.dataAbort, _, hexec, ⟨hgpr, hcpsr, hbytes, houtside, htells⟩, henters, hcoprocs⟩

/-! ## STC -/

section

variable (s : State) (code first : Word) (vs : List Word)

/-- The run of writes of an STC: whether each cycle was aborted, and the state after it (R352). -/
def State.stcRun : List Bool × State := State.writeRun (s.dataAttrs true false) .n first vs s

/-- The k-th cycle of an STC is aborted. -/
def State.stcAborts (k : Nat) : Bool :=
  (s.writeAfter (s.dataAttrs true false) .n first vs k).aborts (first + BitVec.ofNat 32 (4 * k)) (s.dataAttrs true false)

/-- What its coprocessor is told (R352, R358). -/
def State.stcTold : List CpEvent := (List.range vs.length).map fun k => .store code k (s.stcAborts first vs k)

end

theorem exec_stc {c : Cond} {p u n w : Bool} {rn : RegNum} {crd num : BitVec 4} {offset : BitVec 8} {s : State}
    {word : Word} {more : List Word} (hc : condPasses c s.flags = true)
    (h : s.cpAnswer num (encode (.stc c p u n w rn crd num offset)) = .accept word more)
    (hpc : rn = 15#4 → w = false) :
    exec (.stc c p u n w rn crd num offset) s =
      let code := encode (.stc c p u n w rn crd num offset)
      let first := s.cpAddress p u rn offset
      let told := s.stcTold code first (word :: more)
      let e := { (s.stcRun first (word :: more)).2 with coprocs := s.acceptedCoprocs num code told }
      .next ((State.cpWriteBack e w rn (s.cpModified u rn offset)).cpFinish
        ((List.range (more.length + 1)).any (s.stcAborts first (word :: more)))) := by
  refine (conditional_passes hc _).trans ((offer_accept h _).trans ?_)
  rw [if_neg (pcWriteBack_not hpc)]
  dsimp only
  have hrun : State.writeRun (s.dataAttrs true false) .n (s.cpAddress p u rn offset) (word :: more)
      ((s.present (encode (.stc c p u n w rn crd num offset))).cpAnswered num
        (encode (.stc c p u n w rn crd num offset))) = _ := writeRun_withCoprocs _ _ _ _ s _
  rw [hrun, writeRun_aborts rfl, List.any_map, storeEvents_range]
  rfl

/-- Settles O58: the run stores its words, the coprocessor is told of every cycle, and the end is that of an LDC. -/
theorem storeCoprocessor : Obligations.StoreCoprocessor := by
  intro c p u n w rn crd num offset s word more hc code hacc hpc hm hlen modified
  have hmodified : modified = s.cpModified u rn offset := (cpModified_eq s u rn offset).symm
  clear_value modified
  subst hmodified
  intro address attrs cycles
  have hcycles : cycles = writeCycles attrs .n (s.cpAddress p u rn offset) (word :: more) :=
    congrArg (writeCycles attrs .n · (word :: more)) (add_zero_words _)
  clear_value cycles
  subst hcycles
  intro after aborted told kept
  let cycles := writeCycles attrs .n (s.cpAddress p u rn offset) (word :: more)
  let run := (s.stcRun (s.cpAddress p u rn offset) (word :: more)).2
  let b := State.cpWriteBack { run with coprocs := s.acceptedCoprocs num code told } w rn (s.cpModified u rn offset)
  have hexec : exec (.stc c p u n w rn crd num offset) s =
      .next (b.cpFinish ((List.range (more.length + 1)).any aborted)) := exec_stc hc hacc hpc
  obtain ⟨hregs, -⟩ := writeRun_frame attrs .n (word :: more) (s.cpAddress p u rn offset) s
  have hrun : ChangesData (s.passing cycles) { run with coprocs := s.acceptedCoprocs num code told } :=
    (writeRun_changesData rfl .n _ _ s).trans rfl
  have hdata : TransfersData s (s.passing cycles) b w rn (s.cpModified u rn offset) num code told :=
    cpWriteBack_transfersData hacc hrun hregs rfl w rn _
  have hmem : b.mem = run.mem := (cpWriteBack_changesRegs _ w rn _).mem
  have hstores : s.noBusWrites = true →
      (∀ k v, (word :: more)[k]? = some v → (after k).reply (address k) attrs = none → run.mem.word (address k) = v) ∧
        ∀ j, (∀ k, k ≤ more.length → (after k).reply (address k) attrs = none → j / 4 ≠ (address k).toNat / 4) →
          run.mem.get j = s.mem.get j := fun hq => by
    obtain ⟨hwords, hothers⟩ := writeRun_storesRun hm hq (t := attrs) rfl .n (s.cpAddress p u rn offset)
      (vs := word :: more) hlen
    exact ⟨hwords, fun j hj => hothers j fun k hk => hj k (Nat.le_of_lt_succ hk)⟩
  refine ⟨fun hnone => ?_, fun ⟨k, hk, habort⟩ => ?_⟩
  · have hany : (List.range (more.length + 1)).any aborted = false := any_range_false hnone
    obtain ⟨hgpr, hcpsr, houtside, htells, hgoes⟩ := hdata.advance
    rw [hany] at hexec
    refine ⟨b.advance, hexec, ⟨hgpr, hcpsr, houtside, htells, fun hq => ?_⟩, hgoes⟩
    rw [advance_mem, hmem]
    exact hstores hq
  · have hany : (List.range (more.length + 1)).any aborted = true := any_range_true hk habort
    obtain ⟨hgpr, hcpsr, houtside, htells, henters, hcoprocs⟩ := hdata.dataAbort
    rw [hany] at hexec
    refine ⟨b.dataAbort, _, hexec, ⟨hgpr, hcpsr, houtside, htells, fun hq => ?_⟩, henters, hcoprocs⟩
    have hbefore : (b.discardedFetch (s.pc + 8#32)).mem = run.mem := (environment_mem (hdata.noBusWrites hq)).1.trans hmem
    rw [hbefore]
    exact hstores hq

end Sys2Proof.Machine

/-! # The boundary -/

namespace Sys2Proof.Machine

/-! ## The pins that only a boundary changes -/

/-- The pins without what changes at bus cycles too: BIGEND and the memory system (00_scope.md R18). -/
def Inputs.pins (i : Inputs) : Inputs := { i with BIGEND := false, memoryRules := [] }

theorem pins_eq {i j : Inputs} (h : i.pins = j.pins) :
    i.nFIQ = j.nFIQ ∧ i.nIRQ = j.nIRQ ∧ i.nRESET = j.nRESET ∧ i.supported = j.supported := by
  simp only [Inputs.pins, Inputs.mk.injEq] at h
  obtain ⟨hfiq, hirq, hreset, -, hprog, hdata, -⟩ := h
  exact ⟨hfiq, hirq, hreset, by rw [Inputs.supported, Inputs.supported, hprog, hdata]⟩

section

variable (s : State)

@[simp] theorem environment_pins : s.environment.inputs.pins = s.inputs.pins := by
  unfold State.environment
  split <;> rfl

@[simp] theorem cycle_pins (c : BusCycle) : (s.cycle c).inputs.pins = s.inputs.pins := environment_pins s

@[simp] theorem discardedFetch_pins (a : Word) : (s.discardedFetch a).inputs.pins = s.inputs.pins := environment_pins s

@[simp] theorem dataAbort_pins : s.dataAbort.inputs.pins = s.inputs.pins := environment_pins s

@[simp] theorem fetchMany_pins (k : Nat) : (State.fetchMany k s).inputs.pins = s.inputs.pins := by
  induction k generalizing s with
  | zero => rfl
  | succ k ih => exact (ih (s.fetchOne true)).trans (environment_pins s)

@[simp] theorem fillTo_pins (n : Nat) : (s.fillTo n).inputs.pins = s.inputs.pins := fetchMany_pins s _

@[simp] theorem breakOff_inputs : s.breakOff.inputs = s.inputs := by rw [breakOff_eq]

@[simp] theorem takeInterrupt_pins (e : Exc) : (s.takeInterrupt e).inputs.pins = s.inputs.pins := by
  rw [State.takeInterrupt, fillTo_pins, enter_inputs, discardedFetch_pins, breakOff_inputs]

end

/-- The pins at the next boundary, when neither they nor the events have changed. -/
theorem nextInputs_pins {s t : State} (hsched : t.schedule = s.schedule) (hpins : t.inputs.pins = s.inputs.pins) :
    t.nextInputs.pins = s.nextInputs.pins := by
  unfold State.nextInputs
  rw [hsched]
  split
  · exact hpins
  · rfl

theorem fillTo_nextInputs_pins (s : State) (n : Nat) : (s.fillTo n).nextInputs.pins = s.nextInputs.pins :=
  nextInputs_pins (fillTo_schedule s n) (fillTo_pins s n)

/-! ## What the interrupt check takes -/

theorem pendingInterrupt_fiq {s : State} (h : s.inputs.nFIQ = false) (hF : psrF s.cpsr = false) :
    s.pendingInterrupt = some .fiq := if_pos (by rw [h, hF]; rfl)

theorem pendingInterrupt_irq {s : State} (hfiq : s.inputs.nFIQ = true ∨ psrF s.cpsr = true) (h : s.inputs.nIRQ = false)
    (hI : psrI s.cpsr = false) : s.pendingInterrupt = some .irq := by
  have hno : (!s.inputs.nFIQ && !psrF s.cpsr) = false := by rcases hfiq with h | h <;> simp [h]
  rw [State.pendingInterrupt, hno, h, hI]
  rfl

theorem pendingInterrupt_none {s : State} (hfiq : s.inputs.nFIQ = true ∨ psrF s.cpsr = true)
    (hirq : s.inputs.nIRQ = true ∨ psrI s.cpsr = true) : s.pendingInterrupt = none := by
  have hno : (!s.inputs.nFIQ && !psrF s.cpsr) = false := by rcases hfiq with h | h <;> simp [h]
  have hno' : (!s.inputs.nIRQ && !psrI s.cpsr) = false := by rcases hirq with h | h <;> simp [h]
  rw [State.pendingInterrupt, hno, hno']
  rfl

/-- With no enabled request the check leaves what the environment has done (60_exceptions.md R390). -/
theorem checkInterrupts_none {s : State} (hreset : s.nextInputs.nRESET = true)
    (hfiq : s.nextInputs.nFIQ = true ∨ psrF s.cpsr = true) (hirq : s.nextInputs.nIRQ = true ∨ psrI s.cpsr = true)
    (k : Nat) : State.checkInterrupts (k + 1) s = s.sample := by
  obtain ⟨-, -, hcpsr, -⟩ := sample_frame s
  have hnone : s.sample.pendingInterrupt = none :=
    pendingInterrupt_none (by rwa [sample_inputs, hcpsr]) (by rwa [sample_inputs, hcpsr])
  rw [State.checkInterrupts, sample_inputs, hreset, hnone]
  simp

/-- An enabled request is taken, and the check is made again (R390). -/
theorem checkInterrupts_some {s : State} {e : Exc} (hsupported : s.nextInputs.supported = true)
    (hreset : s.nextInputs.nRESET = true) (h : s.sample.pendingInterrupt = some e) (k : Nat) :
    State.checkInterrupts (k + 1) s = State.checkInterrupts k (s.sample.takeInterrupt e) := by
  rw [State.checkInterrupts, sample_inputs, hreset, hsupported, h]
  rfl

theorem boundary_running {s : State} (h : s.nextInputs.nRESET = true) (start : State) :
    start.boundary s =
      { State.checkInterrupts 3 (s.fillTo 2) with tick := (State.checkInterrupts 3 (s.fillTo 2)).tick + 1 } := by
  rw [State.boundary, if_pos h]

/-- A boundary at which no enabled interrupt is requested: the refill and what the environment does (R390, R392). -/
theorem boundary_none {s : State} (hreset : s.nextInputs.nRESET = true)
    (hfiq : s.nextInputs.nFIQ = true ∨ psrF s.cpsr = true) (hirq : s.nextInputs.nIRQ = true ∨ psrI s.cpsr = true)
    (start : State) : start.boundary s = { (s.fillTo 2).sample with tick := (s.fillTo 2).sample.tick + 1 } := by
  obtain ⟨hnFIQ, hnIRQ, hnRESET, -⟩ := pins_eq (fillTo_nextInputs_pins s 2)
  have hcheck : State.checkInterrupts 3 (s.fillTo 2) = (s.fillTo 2).sample :=
    checkInterrupts_none (hnRESET.trans hreset) (by rwa [hnFIQ, fillTo_cpsr]) (by rwa [hnIRQ, fillTo_cpsr]) 2
  rw [boundary_running hreset, hcheck]

/-! ## The environment at a boundary -/

theorem sample_schedule (s : State) : s.sample.schedule = s.schedule.tail := by
  unfold State.sample
  split
  · next h => rw [h]; rfl
  · next h => rw [h]; rfl

theorem sample_event {s : State} {e : Event} {rest : List Event} (h : s.schedule = e :: rest) :
    s.sample.inputs = e.inputs ∧ s.sample.moments = e.moments ∧ s.sample.mem = s.mem.setAll e.busWrites := by
  rw [sample_cons h]
  exact ⟨rfl, rfl, rfl⟩

/-- Settles O11: the boundary is the refill and the event, and the refill keeps all but the pipeline and what bus cycles
change. -/
theorem boundaryWithoutInterrupt : Obligations.BoundaryWithoutInterrupt := by
  intro start s hreset hfiq hirq t
  have ht : t = { (s.fillTo 2).sample with tick := (s.fillTo 2).sample.tick + 1 } := boundary_none hreset hfiq hirq start
  clear_value t
  subst ht
  obtain ⟨hfill, hprefix, hlength⟩ := fillTo_same s 2
  obtain ⟨hregs, hpc, hcpsr, hspsrs, hpipe, hshadow, hbusy, -, hcoprocs, htick, -⟩ := sample_frame (s.fillTo 2)
  refine ⟨hregs.trans hfill.regs, hpc.trans hfill.pc, hcpsr.trans hfill.cpsr, hspsrs.trans hfill.spsrs,
    hshadow.trans hfill.ldmShadow, hbusy.trans hfill.busyWait, hcoprocs.trans hfill.coprocs,
    congrArg (· + 1) (htick.trans hfill.tick), hpipe ▸ hprefix, (congrArg List.length hpipe).trans hlength,
    (sample_schedule _).trans (congrArg List.tail hfill.schedule), fun e rest hsched => ?_, fun hsched hmoments => ?_⟩
  · obtain ⟨hinputs, hmoments, hmem⟩ := sample_event (hfill.schedule.trans hsched)
    exact ⟨hinputs, hmoments, fun hq => hmem.trans (congrArg (Memory.setAll · e.busWrites) (fetchMany_mem hq _).1)⟩
  · obtain ⟨hmem, hinputs, hnone⟩ := fillTo_quiet hmoments 2
    rw [sample_nil (hfill.schedule.trans hsched)]
    exact ⟨hinputs, hnone, hmem⟩

end Sys2Proof.Machine

/-! # Exceptions at a boundary -/

namespace Sys2Proof.Machine

/-! ## The same registers -/

/-- The registers, the PC and the status registers are the same. -/
def SameProcessor (s t : State) : Prop := t.regs = s.regs ∧ t.pc = s.pc ∧ t.cpsr = s.cpsr ∧ t.spsrs = s.spsrs

theorem SameButBus.processor {s t : State} (h : SameButBus s t) : SameProcessor s t := ⟨h.regs, h.pc, h.cpsr, h.spsrs⟩

/-- An entry is about the processor alone: before it but for the PC, after it with the PC. -/
theorem EntersMode.congr {s s' t t' : State} {m : Mode} {vector ret : Word} {fiq : Bool}
    (h : EntersMode s t m vector ret fiq) (hs : SameProcessor s s') (ht : SameProcessor t t') :
    EntersMode s' t' m vector ret fiq := by
  obtain ⟨hsregs, -, hscpsr, hsspsrs⟩ := hs
  obtain ⟨htregs, htpc, htcpsr, htspsrs⟩ := ht
  simpa only [EntersMode, State.flags, State.gpr, hsregs, hscpsr, hsspsrs, htregs, htpc, htcpsr, htspsrs] using h

/-! ## The prefetch abort -/

theorem quiet_iff (s : State) : s.quiet = true ↔
    s.schedule = [] ∧ s.moments = [] ∧ s.inputs.nRESET = true ∧ s.inputs.nFIQ = true ∧ s.inputs.nIRQ = true := by
  simp [State.quiet, and_assoc]

/-- With no moment left, starting an instruction leaves memory and pins. -/
theorem startCycle_quiet {s : State} (h : s.moments = []) :
    s.startCycle.mem = s.mem ∧ s.startCycle.inputs = s.inputs ∧ s.startCycle.moments = [] := by
  obtain ⟨cs, hcs⟩ := startCycle_fetches s
  rw [hcs]
  exact passing_nil_mem (s := { s with bus := [] }) h cs

/-- Settles O12: the head of the pipeline is marked, so that the step is the entry, whose boundary is a quiet one. -/
theorem prefetchAbort : Obligations.PrefetchAbort := by
  intro s hrun hquiet hhead
  obtain ⟨hsched, hmoments, hreset, hfiq, hirq⟩ := (quiet_iff s).mp hquiet
  obtain ⟨hsame, -⟩ := startCycle_same s
  obtain ⟨hmem, hinputs, hnone⟩ := startCycle_quiet hmoments
  have haborted : s.startCycle.head.aborted = true := by
    rw [startCycle_head]
    cases hp : s.pipe with
    | nil =>
      rw [hp] at hhead
      exact (aborts_congr (by rw [cycle_inputs, environment_nil hmoments]) _ _).trans hhead
    | cons slot rest => rwa [hp] at hhead
  let u := s.startCycle.enter .prefetchAbort (s.startCycle.pc + 4#32)
  have hu : s.startCycle.runHead = .next u := if_pos haborted
  have husched : u.schedule = [] := hsame.schedule.trans hsched
  have hpins : u.nextInputs = s.inputs := by
    rw [State.nextInputs, husched]
    exact hinputs
  obtain ⟨hregs, hpc, hcpsr, hspsrs, -, -, -, -, -, -, -, -, hlast⟩ := boundaryWithoutInterrupt s.startCycle u
    (by rw [hpins, hreset]) (.inl (by rw [hpins, hfiq])) (.inl (by rw [hpins, hirq]))
  obtain ⟨htinputs, -, htmem⟩ := hlast husched hnone
  have hsupported : (s.startCycle.boundary u).inputs.supported = true := by
    rw [htinputs, show u.inputs = s.inputs from hinputs]
    simp only [State.running, Bool.and_eq_true] at hrun
    obtain ⟨⟨hconfiguration, -⟩, -⟩ := hrun
    exact (supported_iff _).mpr hconfiguration
  have hstep : step s = .next (s.startCycle.boundary u) := by
    rw [step_running hrun, State.runStep, hu]
    exact if_pos hsupported
  refine ⟨_, hstep, ?_, fun a => ?_⟩
  · have henters := enter_entersMode s.startCycle .prefetchAbort (s.startCycle.pc + 4#32)
    rw [hsame.pc] at henters
    refine henters.congr ⟨hsame.regs.symm, hsame.pc.symm, hsame.cpsr.symm, hsame.spsrs.symm⟩ ?_
    rw [← hsame.pc]
    exact ⟨hregs, hpc, hcpsr, hspsrs⟩
  · rw [State.byteAt, State.byteAt, htinputs, htmem]
    change (s.startCycle.mem).get (laneKey s.startCycle.inputs.BIGEND a) = _
    rw [hmem, hinputs]

/-! ## An interrupt entry beside the registers -/

/-- An interrupt is shown to every coprocessor when it breaks off a busy-wait (49_coprocessor.md R344). -/
theorem takeInterrupt_coprocs (s : State) (e : Exc) :
    (s.takeInterrupt e).coprocs = if s.busyWait then s.coprocs.map (Coproc.tell [.brokenOff]) else s.coprocs := by
  rw [State.takeInterrupt, fillTo_coprocs, enter_coprocs, discardedFetch_coprocs, State.breakOff]
  split <;> rfl

theorem takeInterrupt_entersMode (s : State) (e : Exc) :
    EntersMode s (s.takeInterrupt e) e.mode e.vector (s.pc + 4#32) (decide (e = .fiq)) := by
  obtain ⟨hregs, hpc, hcpsr, hspsrs, -⟩ := takeInterrupt_same s e
  exact (enter_entersMode s e (s.pc + 4#32)).congr ⟨rfl, rfl, rfl, rfl⟩ ⟨hregs, hpc, hcpsr, hspsrs⟩

/-- No other master ever writes, and the memory is `m`. -/
structure SoleMemory (m : Memory) (s : State) : Prop where
  sole : s.soleMaster = true
  mem : s.mem = m

namespace SoleMemory

variable {m : Memory} {s t : State}

theorem congr (h : SoleMemory m s) (hmem : t.mem = s.mem) (hmoments : t.moments = s.moments)
    (hsched : t.schedule = s.schedule) : SoleMemory m t :=
  ⟨by rw [← h.sole, State.soleMaster, State.soleMaster, State.noBusWrites, State.noBusWrites, hmoments, hsched],
    hmem.trans h.mem⟩

theorem noBusWrites (h : SoleMemory m s) : s.noBusWrites = true := (Bool.and_eq_true_iff.mp h.sole).1

theorem of_noBusWrites (h : SoleMemory m s) (hmem : t.mem = s.mem) (hmoments : t.noBusWrites = true)
    (hsched : t.schedule = s.schedule) : SoleMemory m t :=
  ⟨by
    have hsole := h.sole
    rw [State.soleMaster, h.noBusWrites] at hsole
    rw [State.soleMaster, hmoments, hsched]
    exact hsole, hmem.trans h.mem⟩

theorem cycle (h : SoleMemory m s) (c : BusCycle) : SoleMemory m (s.cycle c) := by
  obtain ⟨hmem, hquiet⟩ := environment_mem h.noBusWrites
  exact h.of_noBusWrites hmem hquiet (cycle_schedule s c)

theorem fillTo (h : SoleMemory m s) (n : Nat) : SoleMemory m (s.fillTo n) := by
  obtain ⟨hmem, hquiet⟩ := fetchMany_mem h.noBusWrites (n - s.pipe.length)
  exact h.of_noBusWrites hmem hquiet (fillTo_schedule s n)

/-- An event of a sole master brings no writes, and neither do the moments after it. -/
theorem sample (h : SoleMemory m s) : SoleMemory m s.sample := by
  cases hs : s.schedule with
  | nil => rwa [sample_nil hs]
  | cons e rest =>
    have hsole := h.sole
    rw [State.soleMaster, hs, List.all_cons, Bool.and_eq_true, Bool.and_eq_true, Bool.and_eq_true,
      List.isEmpty_iff] at hsole
    obtain ⟨-, ⟨hnone, hmoments⟩, hrest⟩ := hsole
    rw [sample_cons hs, hnone]
    exact ⟨Bool.and_eq_true_iff.mpr ⟨hmoments, hrest⟩, h.mem⟩

theorem takeInterrupt (h : SoleMemory m s) (e : Exc) : SoleMemory m (s.takeInterrupt e) := by
  have hbreak : SoleMemory m s.breakOff := by
    rw [breakOff_eq]
    exact h.congr rfl rfl rfl
  have hfetched : SoleMemory m (s.breakOff.discardedFetch (s.pc + 8#32)) := hbreak.cycle _
  have hentered : SoleMemory m ((s.breakOff.discardedFetch (s.pc + 8#32)).enter e (s.pc + 4#32)) :=
    hfetched.congr rfl rfl rfl
  exact hentered.fillTo 2

end SoleMemory

/-! ## An interrupt that is taken -/

/-- The pins at the check after an interrupt entry: those of the event after the next, if there is one (R390). -/
def State.laterInputs (s : State) : Inputs :=
  match s.schedule[1]? with
  | some e => e.inputs
  | none => s.nextInputs

theorem laterInputs_of {P : Inputs → Prop} {s : State} (hnext : P s.nextInputs)
    (hlater : ∀ e, s.schedule[1]? = some e → P e.inputs) : P s.laterInputs := by
  unfold State.laterInputs
  split
  · next e he => exact hlater e he
  · exact hnext

theorem takeInterrupt_nextInputs (s : State) (e : Exc) :
    ((s.fillTo 2).sample.takeInterrupt e).nextInputs.pins = s.laterInputs.pins := by
  obtain ⟨-, -, -, -, -, -, hsched, -⟩ := takeInterrupt_same (s.fillTo 2).sample e
  rw [sample_schedule, fillTo_schedule] at hsched
  have hpins : ((s.fillTo 2).sample.takeInterrupt e).inputs.pins = s.nextInputs.pins := by
    rw [takeInterrupt_pins, sample_inputs, fillTo_nextInputs_pins]
  unfold State.laterInputs
  rw [State.nextInputs, hsched]
  match s.schedule with
  | [] | [_] => exact hpins
  | _ :: _ :: _ => rfl

/-- A boundary that takes the interrupt `e`, after which none is enabled (R390, R391, R394). -/
theorem boundary_takes {start s : State} {e : Exc} (hsupported : s.nextInputs.supported = true)
    (hreset : s.nextInputs.nRESET = true) (hpending : (s.fillTo 2).sample.pendingInterrupt = some e)
    (hlater : s.laterInputs.nRESET = true ∧ (s.laterInputs.nFIQ = true ∨ psrF (e.newCpsr s.cpsr) = true)) :
    let t := start.boundary s
    EntersMode s t e.mode e.vector (s.pc + 4#32) (decide (e = .fiq)) ∧ t.pipe.length = 2 ∧ t.ldmShadow = false ∧
      t.busyWait = false ∧
      t.coprocs = (if s.busyWait then s.coprocs.map (Coproc.tell [.brokenOff]) else s.coprocs) ∧
      (s.soleMaster = true → t.mem = s.mem) := by
  let u := (s.fillTo 2).sample
  let v := u.takeInterrupt e
  obtain ⟨hfill, -⟩ := fillTo_same s 2
  obtain ⟨hregs, hpc, hcpsr, hspsrs, -, -, hbusy, -, hcoprocs, -⟩ := sample_frame (s.fillTo 2)
  obtain ⟨-, -, hnewCpsr, -, hshadow, hnoWait, -, -, hlength⟩ := takeInterrupt_same u e
  obtain ⟨hvregs, hvpc, hvcpsr, hvspsrs, hvpipe, hvshadow, hvbusy, -, hvcoprocs, -⟩ := sample_frame v
  have hu : u.cpsr = s.cpsr := hcpsr.trans hfill.cpsr
  have hv : v.cpsr = e.newCpsr s.cpsr := hnewCpsr.trans (congrArg e.newCpsr hu)
  have hcheck : State.checkInterrupts 3 (s.fillTo 2) = v.sample := by
    obtain ⟨-, -, hnRESET, hsupp⟩ := pins_eq (fillTo_nextInputs_pins s 2)
    obtain ⟨hvFIQ, -, hvRESET, -⟩ := pins_eq (takeInterrupt_nextInputs s e)
    rw [checkInterrupts_some (hsupp.trans hsupported) (hnRESET.trans hreset) hpending]
    refine checkInterrupts_none (hvRESET.trans hlater.1) ?_ (.inr ?_) 1
    · rw [hvFIQ, hv]
      exact hlater.2
    · rw [hv, psrI_newCpsr]
  intro t
  have ht : t = { v.sample with tick := v.sample.tick + 1 } := by rw [← hcheck]; exact boundary_running hreset start
  clear_value t
  subst ht
  have hsame : SameProcessor u s := ⟨(hregs.trans hfill.regs).symm, (hpc.trans hfill.pc).symm, hu.symm,
    (hspsrs.trans hfill.spsrs).symm⟩
  refine ⟨?_, (congrArg List.length hvpipe).trans hlength, hvshadow.trans hshadow, hvbusy.trans hnoWait, ?_, fun hq => ?_⟩
  · have henters : EntersMode u v e.mode e.vector (s.pc + 4#32) (decide (e = .fiq)) := by
      have := takeInterrupt_entersMode u e
      rwa [hpc, hfill.pc] at this
    exact henters.congr hsame ⟨hvregs, hvpc, hvcpsr, hvspsrs⟩
  · refine hvcoprocs.trans ((takeInterrupt_coprocs u e).trans ?_)
    rw [hbusy, hfill.busyWait, hcoprocs, hfill.coprocs]
  · have hmem : SoleMemory s.mem v.sample := (((SoleMemory.mk hq rfl).fillTo 2).sample.takeInterrupt e).sample
    exact hmem.mem

/-- Settles O19: the request is pending after the refill, and the entry sets I and F, so that none is pending after it. -/
theorem fiqTaken : Obligations.FiqTaken := by
  intro start s hsupported hreset hfiq hF hlater
  obtain ⟨hnFIQ, -⟩ := pins_eq (fillTo_nextInputs_pins s 2)
  obtain ⟨-, -, hcpsr, -⟩ := sample_frame (s.fillTo 2)
  have hpending : (s.fillTo 2).sample.pendingInterrupt = some .fiq :=
    pendingInterrupt_fiq (by rw [sample_inputs, hnFIQ, hfiq]) (by rw [hcpsr, fillTo_cpsr, hF])
  refine boundary_takes hsupported hreset hpending ⟨?_, .inr ?_⟩
  · exact laterInputs_of (P := fun i => i.nRESET = true) hreset hlater
  · rw [psrF_newCpsr]
    simp

/-- Settles O20: the same with an IRQ, whose entry sets I, while no FIQ is requested or enabled. -/
theorem irqTaken : Obligations.IrqTaken := by
  intro start s hsupported hreset hfiq hirq hI hlater
  obtain ⟨hnFIQ, hnIRQ, -⟩ := pins_eq (fillTo_nextInputs_pins s 2)
  obtain ⟨-, -, hcpsr, -⟩ := sample_frame (s.fillTo 2)
  have hpending : (s.fillTo 2).sample.pendingInterrupt = some .irq :=
    pendingInterrupt_irq (by rwa [sample_inputs, hnFIQ, hcpsr, fillTo_cpsr]) (by rw [sample_inputs, hnIRQ, hirq])
      (by rw [hcpsr, fillTo_cpsr, hI])
  have hF : psrF (Exc.irq.newCpsr s.cpsr) = psrF s.cpsr := by
    rw [psrF_newCpsr]
    simp
  refine boundary_takes hsupported hreset hpending ?_
  rw [hF]
  exact laterInputs_of (P := fun i => i.nRESET = true ∧ (i.nFIQ = true ∨ psrF s.cpsr = true)) ⟨hreset, hfiq⟩ hlater

/-- A data abort enters as if its discarded fetch had not been made (R383, R386). -/
theorem dataAbort_entersMode (s : State) :
    EntersMode s s.dataAbort .abt 0x00000010#32 (s.pc + 8#32) false := by
  have hsame := cycle_same s (s.fetchCycle true (s.pc + 8#32))
  exact (enter_entersMode (s.discardedFetch (s.pc + 8#32)) .dataAbort (s.pc + 8#32)).congr
    ⟨hsame.regs.symm, hsame.pc.symm, hsame.cpsr.symm, hsame.spsrs.symm⟩ ⟨rfl, rfl, rfl, rfl⟩

/-- Settles O21: the FIQ entry after the data abort's own, whose R14 and SPSR it does not touch. -/
theorem abortThenFiq : Obligations.AbortThenFiq := by
  intro start s hsupported hreset hfiq hF hlater t
  have hsched : s.dataAbort.schedule = s.schedule := discardedFetch_schedule s (s.pc + 8#32)
  obtain ⟨-, habtMode, habtI, habtF, habtFlags, -, habtLink, habtRegs, habtSaved, habtSpsrs⟩ := dataAbort_entersMode s
  rw [hF, Bool.or_false] at habtF
  obtain ⟨hnFIQ, -, hnRESET, hsupp⟩ := pins_eq (nextInputs_pins hsched (dataAbort_pins s))
  obtain ⟨⟨hpc, hmode, hI, hsetsF, -, -, hlink, hregs, hsaved, hspsrs⟩, -⟩ :=
    fiqTaken start s.dataAbort (hsupp.trans hsupported) (hnRESET.trans hreset) (hnFIQ.trans hfiq) habtF (by rwa [hsched])
  exact ⟨hpc, hmode, hI, hsetsF.trans (Bool.or_true _), (hregs _ (by decide)).trans habtLink, hlink,
    fun q habt hq => (hregs q hq).trans (habtRegs q habt), (hspsrs .abt (by decide)).trans habtSaved,
    ⟨_, hsaved, habtMode, habtI, habtF, habtFlags⟩, fun m habt hm => (hspsrs m hm).trans (habtSpsrs m habt)⟩

end Sys2Proof.Machine

/-! # Reset -/

namespace Sys2Proof.Machine

/-! ## The dummy fetch of a step with nRESET LOW -/

/-- The state after the dummy fetch, before the environment acts at the boundary (70_reset_and_hazards.md R421). -/
def State.dummyFetched (s : State) : State :=
  { { s with bus := [] }.discardedFetch s.pc with pc := s.pc + 4#32, pipe := [], ldmShadow := false, busyWait := false }

theorem heldInReset_eq (s : State) :
    s.heldInReset =
      if s.dummyFetched.sample.inputs.nRESET then
        { s.dummyFetched.sample.resetEntry.fillTo 2 with tick := (s.dummyFetched.sample.resetEntry.fillTo 2).tick + 1 }
      else { s.dummyFetched.sample with tick := s.dummyFetched.sample.tick + 1 } := by
  change (let t := if s.dummyFetched.sample.inputs.nRESET then s.dummyFetched.sample.resetEntry.fillTo 2 else
      s.dummyFetched.sample
    { t with tick := t.tick + 1 } : State) = _
  split <;> rfl

/-- The pins the step reads at its boundary: the dummy fetch changes neither them nor the events. -/
theorem dummyFetched_sample_pins (s : State) : s.dummyFetched.sample.inputs.pins = s.nextInputs.pins := by
  rw [sample_inputs]
  exact nextInputs_pins (s := s) (discardedFetch_schedule { s with bus := [] } s.pc)
    (discardedFetch_pins { s with bus := [] } s.pc)

/-- What the dummy fetch and the boundary leave. -/
theorem dummyFetched_sample_frame (s : State) :
    SameProcessor { s with pc := s.pc + 4#32 } s.dummyFetched.sample ∧ s.dummyFetched.sample.pipe = [] ∧
      s.dummyFetched.sample.coprocs = s.coprocs ∧ s.dummyFetched.sample.bus = [s.fetchCycle true s.pc] := by
  obtain ⟨hregs, hpc, hcpsr, hspsrs, hpipe, -, -, -, hcoprocs, -, hbus⟩ := sample_frame s.dummyFetched
  have hsame := cycle_same { s with bus := [] } (s.fetchCycle true s.pc)
  exact ⟨⟨hregs.trans hsame.regs, hpc, hcpsr.trans hsame.cpsr, hspsrs.trans hsame.spsrs⟩, hpipe,
    hcoprocs.trans hsame.coprocs, hbus.trans (cycle_bus { s with bus := [] } (s.fetchCycle true s.pc))⟩

theorem dummyFetched_sample_soleMemory {s : State} (h : s.soleMaster = true) :
    SoleMemory s.mem s.dummyFetched.sample := by
  have hstart : SoleMemory s.mem { s with bus := [] } := (SoleMemory.mk h rfl).congr rfl rfl rfl
  have hfetched : SoleMemory s.mem s.dummyFetched := (hstart.cycle (s.fetchCycle true s.pc)).congr rfl rfl rfl
  exact hfetched.sample

theorem step_held {s : State} (hprog : s.inputs.PROG32 = true) (hdata : s.inputs.DATA32 = true)
    (hmode : (Mode.ofBits (psrMode s.cpsr)).isSome = true) (hreset : s.inputs.nRESET = false)
    (hsupported : s.heldInReset.inputs.supported = true) : step s = .next s.heldInReset := by
  obtain ⟨m, hm⟩ := Option.isSome_iff_exists.mp hmode
  rw [step, State.stepOnce, (supported_iff _).mpr ⟨hprog, hdata⟩, hm, hreset]
  exact if_pos hsupported

/-- Settles O16: the step is the dummy fetch and the environment. -/
theorem heldInReset : Obligations.HeldInReset := by
  intro s hprog hdata hmode hreset hnext hsupported
  obtain ⟨-, -, hnRESET, hsupp⟩ := pins_eq (dummyFetched_sample_pins s)
  have hheld := heldInReset_eq s
  rw [hnRESET, hnext, if_neg Bool.false_ne_true] at hheld
  obtain ⟨⟨hregs, hpc, hcpsr, hspsrs⟩, hpipe, hcoprocs, hbus⟩ := dummyFetched_sample_frame s
  have hstep := step_held hprog hdata hmode hreset (by rw [hheld]; exact hsupp.trans hsupported)
  rw [hheld] at hstep
  exact ⟨_, hstep, hpc, hpipe, hbus, ChangesData.keepsRegs_of_regs hregs, hcpsr, hspsrs, hcoprocs,
    fun hsole => (dummyFetched_sample_soleMemory hsole).mem⟩

/-! ## The reset sequence -/

theorem psrI_resetEntry (s : State) : psrI s.resetEntry.cpsr = true := by
  rw [resetEntry_cpsr, psrI, psrSetF_bit, psrSetI_bit]
  simp

theorem psrF_resetEntry (s : State) : psrF s.resetEntry.cpsr = true := by
  rw [resetEntry_cpsr, psrF, psrSetF_bit]
  simp

theorem psrMode_resetEntry (s : State) : psrMode s.resetEntry.cpsr = Mode.svc.bits := by
  rw [resetEntry_cpsr, psrMode_setF, psrMode_setI, psrMode_withMode]

/-- The sequence writes the mode, I and F, none of which is a flag (R422, R423). -/
theorem flags_resetEntry (s : State) : s.resetEntry.flags = s.flags := by
  rw [State.flags, State.flags, resetEntry_cpsr, psrFlags, psrFlags]
  simp only [psrSetF_bit, psrSetI_bit, psrWithMode_bit]
  simp

theorem spsrs_resetEntry (s : State) {m : Mode} (h : m ≠ .svc) : s.resetEntry.spsrs.get? m = s.spsrs.get? m := by
  cases m with
  | svc => exact absurd rfl h
  | usr | fiq | irq | abt | und => rfl

/-- Settles O17: after the dummy fetch and the environment, the reset sequence and the refill at address 0. -/
theorem resetSequence : Obligations.ResetSequence := by
  intro s hprog hdata hmode hreset hnext hsupported
  obtain ⟨-, -, hnRESET, hsupp⟩ := pins_eq (dummyFetched_sample_pins s)
  have hheld := heldInReset_eq s
  rw [hnRESET, hnext, if_pos rfl] at hheld
  obtain ⟨⟨hregs, -, hcpsr, hspsrs⟩, -, hcoprocs, -⟩ := dummyFetched_sample_frame s
  obtain ⟨hfill, -⟩ := fillTo_same s.dummyFetched.sample.resetEntry 2
  have hstep := step_held hprog hdata hmode hreset (by
    rw [hheld]
    exact (fillTo_supported _ 2).trans (hsupp.trans hsupported))
  rw [hheld] at hstep
  refine ⟨_, hstep, hfill.pc, ?_, ?_, ?_, ?_, fun q hq => ?_, fun m hm => ?_, hfill.coprocs.trans hcoprocs, fun hsole => ?_⟩
  · exact (congrArg psrMode hfill.cpsr).trans (psrMode_resetEntry _)
  · exact (congrArg psrI hfill.cpsr).trans (psrI_resetEntry _)
  · exact (congrArg psrF hfill.cpsr).trans (psrF_resetEntry _)
  · exact (congrArg psrFlags hfill.cpsr).trans ((flags_resetEntry _).trans (congrArg psrFlags hcpsr))
  · have hother := gpr_resetEntry s.dummyFetched.sample q
    rw [if_neg (Ne.symm hq)] at hother
    exact (fillTo_gpr _ 2 q).trans (hother.trans (ChangesData.keepsRegs_of_regs hregs q))
  · refine (congrArg (Spsrs.get? · m) hfill.spsrs).trans ((spsrs_resetEntry _ hm).trans ?_)
    exact congrArg (Spsrs.get? · m) hspsrs
  · have hentered : SoleMemory s.mem s.dummyFetched.sample.resetEntry :=
      (dummyFetched_sample_soleMemory hsole).congr rfl rfl rfl
    exact (hentered.fillTo 2).mem

/-! ## nRESET going LOW -/

/-- The bytes a cycle stores: the four of the aligned word, or one, of a write that the reference memory serves
(20_memory.md R67, R68). -/
theorem mem_storedKeys {s : State} {c : BusCycle} {k : Nat} (h : k ∈ s.storedKeys c) :
    (c.attrs.nOPC = true ∧ c.attrs.nRW = true ∧ c.type ≠ .c ∧ s.reply c.addr c.attrs = none) ∧ k < 2 ^ 32 ∧
      if c.attrs.nBW then k / 4 = c.addr.toNat / 4 else k = laneKey s.inputs.BIGEND c.addr := by
  unfold State.storedKeys at h
  split at h
  · next hstores =>
    have hserved : c.attrs.nOPC = true ∧ c.attrs.nRW = true ∧ c.type ≠ .c ∧ s.reply c.addr c.attrs = none := by
      simpa [and_assoc] using hstores
    refine ⟨hserved, ?_⟩
    split at h
    · next hword =>
      have hkey := wordKey_eq c.addr
      have hlt := wordKey_lt c.addr
      have hk : wordKey c.addr ≤ k ∧ k ≤ wordKey c.addr + 3 := by
        simp only [List.mem_cons, List.not_mem_nil, or_false] at h
        omega
      rw [if_pos hword]
      omega
    · next hbyte =>
      obtain rfl := List.mem_singleton.mp h
      rw [if_neg hbyte]
      exact ⟨laneKey_lt _ _, rfl⟩
  · exact absurd h List.not_mem_nil

/-- An instruction that nRESET LOW abandons (R421), whose cycles stored the bytes of some keys: what keeps a known value. -/
theorem abandon_frame {start s : State} {e : Event} {rest : List Event} (hsched : s.schedule = e :: rest)
    (keys : List Nat) :
    let t := s.sample.abandon start keys
    t.pc = start.fetchAddress ∧ t.pipe = [] ∧ t.cpsr.extractLsb' 0 28 = start.cpsr.extractLsb' 0 28 ∧
      t.inputs = e.inputs ∧ t.moments = e.moments ∧ t.schedule = rest ∧ t.coprocs = s.coprocs ∧ t.bus = s.bus ∧
      ∀ c ∈ s.bus.getLast?, t.seq = c.nextSeq := by
  obtain ⟨-, -, -, -, -, -, -, -, hcoprocs, -, hbus⟩ := sample_frame s
  obtain ⟨hinputs, hmoments, -⟩ := sample_event hsched
  have hrest : s.sample.schedule = rest := (sample_schedule s).trans (congrArg List.tail hsched)
  simp only [abandon_pc, abandon_pipe, abandon_cpsr, extract_psrWithTop, abandon_inputs, abandon_moments,
    abandon_schedule, abandon_coprocs, abandon_bus, abandon_seq, hinputs, hmoments, hrest, hcoprocs, hbus, true_and]
  intro c hc
  rw [Option.mem_def.mp hc]

/-- A byte that neither the event writes nor a cycle since `start` stores is as it was. -/
theorem abandon_get {start s : State} {e : Event} {rest : List Event} (hsched : s.schedule = e :: rest)
    (hwf : s.mem.wf = true) {cs : List BusCycle} {k : Nat} (hwrites : ∀ w ∈ e.busWrites, w.1 % 2 ^ 32 ≠ k)
    (hk : k ∉ State.writtenKeys false cs start) :
    (s.sample.abandon start (State.writtenKeys false cs start)).mem.get k = s.mem.get k := by
  have hfree : ∀ cell ∈ (State.writtenKeys false cs start).map (fun k => (k, Config.abandonedByte s.sample.tick k)),
      cell.1 % 2 ^ 32 ≠ k := by
    intro cell hcell
    obtain ⟨key, hkey, rfl⟩ := List.mem_map.mp hcell
    obtain ⟨i, c, -, -, -, hstores⟩ := mem_writtenKeys hkey
    obtain ⟨-, hlt, -⟩ := mem_storedKeys hstores
    rw [Nat.mod_eq_of_lt hlt]
    exact fun heq => hk (heq ▸ hkey)
  obtain ⟨-, -, hmem⟩ := sample_event hsched
  calc (s.sample.abandon start (State.writtenKeys false cs start)).mem.get k
      = s.sample.mem.get k := by rw [abandon_mem, get_setAll_other (sample_wf hwf) _ hfree]
    _ = s.mem.get k := by rw [hmem, get_setAll_other hwf _ hwrites]

/-- Settles O18: the boundary is the event and the abandoned instruction, whose free bytes are those its cycles store. -/
theorem resetGoesLow : Obligations.ResetGoesLow := by
  intro start s e rest hsched hreset hwf t cycles during
  have hlow : s.nextInputs.nRESET = false := by rw [State.nextInputs, hsched, hreset]
  obtain ⟨hpc, hpipe, hcpsr, hinputs, hmoments, hrest, hcoprocs, hbus, hseq⟩ :=
    abandon_frame (start := start) hsched (State.writtenKeys false cycles start)
  have hmem := fun k => abandon_get (start := start) (cs := cycles) (k := k) hsched hwf
  have ht : t = { s.sample.abandon start (State.writtenKeys false cycles start) with tick := s.sample.tick + 1 } := by
    rcases boundary_eq start s with ⟨hhigh, -⟩ | ⟨-, h⟩
    · exact absurd (hhigh.symm.trans hlow) (by decide)
    · exact h
  clear_value t
  subst ht
  generalize s.sample.abandon start _ = u at *
  refine ⟨hpc, hpipe, hcpsr, hinputs, hmoments, hrest, hcoprocs, hbus, hseq, fun k hwrites hstored => ?_⟩
  refine hmem k hwrites fun hk => ?_
  obtain ⟨i, c, hc, -, hnotCancelled, hkey⟩ := mem_writtenKeys hk
  obtain ⟨⟨hdata, hwrite, htype, hserved⟩, -, hat⟩ := mem_storedKeys hkey
  have hother := hstored i c hc hwrite hdata htype hserved fun d hd hpos hlock hread => by
    have hnot := hnotCancelled d hd hpos
    rw [State.cancelsWrite, hlock, hread] at hnot
    change (start.passing (cycles.take (i - 1 + 1))).aborts d.addr d.attrs = false
    rwa [Nat.sub_add_cancel hpos]
  split at hat
  · next hword => exact (if_pos hword ▸ hother) hat
  · next hbyte => exact (if_neg hbyte ▸ hother) hat

end Sys2Proof.Machine

/-! # The fields of an instruction word -/

namespace Sys2Proof

/-! ## Ranges of bits -/

/-- A range of bits of a range of bits. -/
theorem extract_extract {n lo len start k : Nat} (x : BitVec n) (h : lo + len ≤ k) :
    (x.extractLsb' start k).extractLsb' lo len = x.extractLsb' (start + lo) len := by
  apply BitVec.eq_of_getLsbD_eq
  intro i hi
  simp only [BitVec.getLsbD_extractLsb', hi, show lo + i < k by omega, decide_true, Bool.true_and, Nat.add_assoc]

theorem ofBool_bit {n : Nat} (x : BitVec n) (i : Nat) : BitVec.ofBool (x.getLsbD i) = x.extractLsb' i 1 := by
  apply BitVec.eq_of_getLsbD_eq
  intro j hj
  obtain rfl : j = 0 := by omega
  simp

/-- A bit is a range of length 1. -/
theorem bit_eq_iff {n : Nat} (x : BitVec n) (i : Nat) (b : Bool) :
    x.getLsbD i = b ↔ x.extractLsb' i 1 = BitVec.ofBool b := by
  rw [← ofBool_bit]
  cases x.getLsbD i <;> cases b <;> decide

theorem bit_eq_one {n : Nat} (x : BitVec n) (i : Nat) : x.getLsbD i = true ↔ x.extractLsb' i 1 = 1#1 :=
  bit_eq_iff x i true

theorem bit_eq_zero {n : Nat} (x : BitVec n) (i : Nat) : x.getLsbD i = false ↔ x.extractLsb' i 1 = 0#1 :=
  bit_eq_iff x i false

theorem bit_zero : (0#1).getLsbD 0 = false := rfl

theorem bit_one : (1#1).getLsbD 0 = true := rfl

/-- A range has a pattern when the part above a place and the part below it have the pattern's parts. -/
theorem extract_eq_append_iff {n lo m k : Nat} (x : BitVec n) (a : BitVec m) (b : BitVec k) :
    x.extractLsb' lo (m + k) = a ++ b ↔ x.extractLsb' (lo + k) m = a ∧ x.extractLsb' lo k = b := by
  rw [← BitVec.extractLsb'_append_extractLsb'_eq_extractLsb' rfl]
  constructor
  · intro h
    have hhigh := congrArg (fun y => y.extractLsb' k m) h
    have hlow := congrArg (fun y => y.extractLsb' 0 k) h
    simp only [BitVec.extractLsb'_append_eq_left, BitVec.extractLsb'_append_eq_right] at hhigh hlow
    exact ⟨hhigh, hlow⟩
  · rintro ⟨rfl, rfl⟩
    rfl

/-- A bit of a word with a pattern from `lo` on. -/
theorem bit_of_pattern {n lo len : Nat} {w : BitVec n} {p : BitVec len} (h : w.extractLsb' lo len = p) {i : Nat}
    (hlo : lo ≤ i) (hlen : i < lo + len) : w.getLsbD i = p.getLsbD (i - lo) := by
  rw [← h, BitVec.getLsbD_extractLsb', decide_eq_true (by omega), Bool.true_and, Nat.add_sub_cancel' hlo]

/-! ## The patterns of the decode order (30_encoding.md R123) -/

section

variable (w : BitVec 28)

/-- The rows of SWI and of the coprocessor operations among the words with bits 27 to 25 all 1 (priorities 2 to 4). -/
theorem top4_iff (b : Bool) :
    w.extractLsb' 24 4 = 0b111#3 ++ BitVec.ofBool b ↔ w.extractLsb' 25 3 = 0b111#3 ∧ w.getLsbD 24 = b := by
  rw [extract_eq_append_iff w 0b111#3 (BitVec.ofBool b), ← bit_eq_iff]

theorem top4_swi : w.extractLsb' 24 4 = 0b1111#4 ↔ w.extractLsb' 25 3 = 0b111#3 ∧ w.getLsbD 24 = true := top4_iff w true

theorem top4_coprocessor : w.extractLsb' 24 4 = 0b1110#4 ↔ w.extractLsb' 25 3 = 0b111#3 ∧ w.getLsbD 24 = false :=
  top4_iff w false

theorem top2_eq : w.extractLsb' 26 2 = (w.extractLsb' 25 3).extractLsb' 1 2 := 
  (extract_extract (lo := 1) (k := 3) w (by decide)).symm

theorem isMultiplySpace_iff :
    isMultiplySpace w = true ↔ w.extractLsb' 25 3 = 0#3 ∧ w.getLsbD 7 = true ∧ w.getLsbD 4 = true := by
  simp [isMultiplySpace, and_assoc]

theorem isPsrSpace_iff :
    isPsrSpace w = true ↔ w.extractLsb' 26 2 = 0#2 ∧ w.extractLsb' 23 2 = 2#2 ∧ w.getLsbD 20 = false := by
  simp [isPsrSpace, and_assoc]

/-- The pattern 1001 of bits 7 to 4, which the multiplies and the swaps share. -/
theorem extract_1001_iff :
    w.extractLsb' 4 4 = 0b1001#4 ↔ w.getLsbD 7 = true ∧ w.extractLsb' 5 2 = 0#2 ∧ w.getLsbD 4 = true := by
  rw [show 0b1001#4 = 1#1 ++ 0#2 ++ 1#1 from rfl, extract_eq_append_iff w (1#1 ++ 0#2) 1#1,
    extract_eq_append_iff w 1#1 0#2, ← bit_eq_one, ← bit_eq_one, and_assoc]

theorem isMultiply_iff : isMultiply w = true ↔ w.extractLsb' 22 6 = 0#6 ∧ w.extractLsb' 4 4 = 0b1001#4 := by
  have htop := extract_eq_append_iff (lo := 22) w 0#3 0#3
  rw [show 0#6 = 0#3 ++ 0#3 from rfl, htop, extract_1001_iff, isMultiply]
  simp only [Bool.and_eq_true, isMultiplySpace_iff, beq_iff_eq]
  tauto

theorem isSwap_iff :
    isSwap w = true ↔
      w.extractLsb' 23 5 = 0b00010#5 ∧ w.extractLsb' 20 2 = 0#2 ∧ w.extractLsb' 4 8 = 0b00001001#8 := by
  have htop := extract_eq_append_iff (lo := 23) w 0#3 2#2
  have hlow := extract_eq_append_iff (lo := 4) w 0#4 0b1001#4
  rw [show 0b00010#5 = 0#3 ++ 2#2 from rfl, htop, show 0b00001001#8 = 0#4 ++ 0b1001#4 from rfl, hlow, extract_1001_iff,
    isSwap]
  simp only [Bool.and_eq_true, isMultiplySpace_iff, beq_iff_eq]
  tauto

/-- The space of the PSR transfers with the I bit `b`; their other patterns `P` fix the S bit too (43_psr_transfer.md R232 to
R235). -/
theorem psrPattern_iff {w : BitVec 28} {P : Prop} (b : Bool) (hP : P → w.getLsbD 20 = false) :
    (isPsrSpace w = true ∧ w.getLsbD 25 = b) ∧ P ↔ w.extractLsb' 23 5 = 0#2 ++ BitVec.ofBool b ++ 2#2 ∧ P := by
  rw [extract_eq_append_iff w (0#2 ++ BitVec.ofBool b) 2#2, extract_eq_append_iff w 0#2 (BitVec.ofBool b), ← bit_eq_iff,
    isPsrSpace_iff]
  tauto

theorem isMrs_iff :
    isMrs w = true ↔
      w.extractLsb' 23 5 = 0b00010#5 ∧ w.extractLsb' 16 6 = 0b001111#6 ∧ w.extractLsb' 0 12 = 0#12 := by
  simp only [isMrs, Bool.and_eq_true, Bool.not_eq_true', beq_iff_eq]
  rw [and_assoc]
  exact psrPattern_iff false fun ⟨hmid, _⟩ => bit_of_pattern hmid (by decide) (by decide)

theorem isMsrRegAll_iff :
    isMsrRegAll w = true ↔
      w.extractLsb' 23 5 = 0b00010#5 ∧ w.extractLsb' 12 10 = 0b1010011111#10 ∧ w.extractLsb' 4 8 = 0#8 := by
  simp only [isMsrRegAll, Bool.and_eq_true, Bool.not_eq_true', beq_iff_eq]
  rw [and_assoc]
  exact psrPattern_iff false fun ⟨hmid, _⟩ => bit_of_pattern hmid (by decide) (by decide)

theorem isMsrRegFlg_iff :
    isMsrRegFlg w = true ↔
      w.extractLsb' 23 5 = 0b00010#5 ∧ w.extractLsb' 12 10 = 0b1010001111#10 ∧ w.extractLsb' 4 8 = 0#8 := by
  simp only [isMsrRegFlg, Bool.and_eq_true, Bool.not_eq_true', beq_iff_eq]
  rw [and_assoc]
  exact psrPattern_iff false fun ⟨hmid, _⟩ => bit_of_pattern hmid (by decide) (by decide)

theorem isMsrImmFlg_iff :
    isMsrImmFlg w = true ↔ w.extractLsb' 23 5 = 0b00110#5 ∧ w.extractLsb' 12 10 = 0b1010001111#10 := by
  simp only [isMsrImmFlg, Bool.and_eq_true, beq_iff_eq]
  exact psrPattern_iff true fun hmid => bit_of_pattern hmid (by decide) (by decide)

theorem plainIndexing_iff (p wb : Bool) : plainIndexing p wb = true ↔ (!p && wb) = false := by
  cases p <;> cases wb <;> decide

end

/-! ## Which patterns exclude each other -/

section

variable {w : BitVec 28}

theorem isMultiplySpace_of_isMultiply (h : isMultiply w = true) : isMultiplySpace w = true := by
  simp only [isMultiply, Bool.and_eq_true] at h
  exact h.1.1

theorem isMultiplySpace_of_isSwap (h : isSwap w = true) : isMultiplySpace w = true := by
  simp only [isSwap, Bool.and_eq_true] at h
  exact h.1.1.1.1

theorem not_multiplySpace (h : w.getLsbD 4 = false) : isMultiplySpace w = false := by
  rw [isMultiplySpace, h, Bool.and_false]

/-- A swap has bit 24 set, a multiply clear. -/
theorem not_multiply_of_swap (h : isSwap w = true) : isMultiply w = false := by
  refine Bool.eq_false_iff.mpr fun hmul => ?_
  obtain ⟨hmul, -⟩ := (isMultiply_iff w).mp hmul
  obtain ⟨hswap, -⟩ := (isSwap_iff w).mp h
  have hbit := bit_of_pattern (i := 24) hmul (by decide) (by decide)
  rw [bit_of_pattern hswap (by decide) (by decide)] at hbit
  exact absurd hbit (by decide)

theorem not_mrs (h : w.getLsbD 21 = true) : isMrs w = false := by
  refine Bool.eq_false_iff.mpr fun hmrs => ?_
  obtain ⟨-, hmid, -⟩ := (isMrs_iff w).mp hmrs
  rw [bit_of_pattern hmid (by decide) (by decide)] at h
  exact absurd h (by decide)

theorem not_msrRegAll (h : w.getLsbD 16 = false) : isMsrRegAll w = false := by
  refine Bool.eq_false_iff.mpr fun hall => ?_
  obtain ⟨-, hmid, -⟩ := (isMsrRegAll_iff w).mp hall
  rw [bit_of_pattern hmid (by decide) (by decide)] at h
  exact absurd h (by decide)

/-- With the I bit set a PSR transfer is the MSR of an immediate. -/
theorem not_psrRegister (h : w.getLsbD 25 = true) :
    isMrs w = false ∧ isMsrRegAll w = false ∧ isMsrRegFlg w = false := by
  simp only [isMrs, isMsrRegAll, isMsrRegFlg, h, Bool.not_true, Bool.and_false, Bool.false_and, and_self]

theorem not_psrTransfer (h : isPsrSpace w = false) :
    isMrs w = false ∧ isMsrRegAll w = false ∧ isMsrRegFlg w = false ∧ isMsrImmFlg w = false := by
  simp only [isMrs, isMsrRegAll, isMsrRegFlg, isMsrImmFlg, h, Bool.false_and, and_self]

theorem top2_of_psr {b : Bool} (h : w.extractLsb' 23 5 = 0#2 ++ BitVec.ofBool b ++ 2#2) : w.extractLsb' 26 2 = 0#2 :=
  ((extract_eq_append_iff w 0#2 (BitVec.ofBool b)).mp
    ((extract_eq_append_iff w (0#2 ++ BitVec.ofBool b) 2#2).mp h).1).1

end

/-! ## The rows of the decode order below the data transfers -/

section

variable (c : Cond) {w : BitVec 28}

/-- Priorities 9 to 11: the multiply space. -/
theorem decodeBody_multiplySpace (h : isMultiplySpace w = true) :
    decodeBody c w =
      if isMultiply w then
        if w.getLsbD 21 then
          .mla c (w.getLsbD 20) (w.extractLsb' 16 4) (w.extractLsb' 12 4) (w.extractLsb' 8 4) (w.extractLsb' 0 4)
        else
          .mul c (w.getLsbD 20) (w.extractLsb' 16 4) (w.extractLsb' 12 4) (w.extractLsb' 8 4) (w.extractLsb' 0 4)
      else if isSwap w then
        if w.getLsbD 22 then .swpb c (w.extractLsb' 16 4) (w.extractLsb' 12 4) (w.extractLsb' 0 4)
        else .swp c (w.extractLsb' 16 4) (w.extractLsb' 12 4) (w.extractLsb' 0 4)
      else .notDefinedA c w := by
  obtain ⟨hclass, -⟩ := (isMultiplySpace_iff w).mp h
  simp [decodeBody, top4_swi, top4_coprocessor, top2_eq, hclass, h]

/-- Priorities 12 to 17: PSR transfers and data processing. -/
theorem decodeBody_low (htop : w.extractLsb' 26 2 = 0#2) (hspace : isMultiplySpace w = false) :
    decodeBody c w =
      if isMrs w then .mrs c (w.getLsbD 22) (w.extractLsb' 12 4)
      else if isMsrRegAll w then .msrRegAll c (w.getLsbD 22) (w.extractLsb' 0 4)
      else if isMsrRegFlg w then .msrRegFlg c (w.getLsbD 22) (w.extractLsb' 0 4)
      else if isMsrImmFlg w then .msrImmFlg c (w.getLsbD 22) (w.extractLsb' 8 4) (w.extractLsb' 0 8)
      else if isPsrSpace w then .notDefinedB c w
      else decodeDataProcessing c w := by
  have hmul : isMultiply w = false := Bool.eq_false_iff.mpr fun h =>
    Bool.eq_false_iff.mp hspace (isMultiplySpace_of_isMultiply h)
  have hswap : isSwap w = false := Bool.eq_false_iff.mpr fun h =>
    Bool.eq_false_iff.mp hspace (isMultiplySpace_of_isSwap h)
  have hclass : w.extractLsb' 25 3 = 0#3 ∨ w.extractLsb' 25 3 = 1#3 := by
    rw [top2_eq] at htop
    generalize w.extractLsb' 25 3 = t at htop ⊢
    revert t
    decide
  rcases hclass with hclass | hclass <;>
    simp only [decodeBody, top4_swi, top4_coprocessor, hclass, htop, hspace, hmul, hswap, beq_iff_eq, Bool.and_eq_true,
      BitVec.reduceEq, false_and, if_false, Bool.false_eq_true]

theorem decodeBody_dataProcessing (htop : w.extractLsb' 26 2 = 0#2) (hspace : isMultiplySpace w = false)
    (hpsr : isPsrSpace w = false) : decodeBody c w = decodeDataProcessing c w := by
  obtain ⟨hmrs, hall, hflg, himm⟩ := not_psrTransfer hpsr
  simp only [decodeBody_low c htop hspace, hmrs, hall, hflg, himm, hpsr, Bool.false_eq_true, if_false]

end

end Sys2Proof

/-! # Decoding an encoded instruction -/

namespace Sys2Proof

/-! ## The patterns of the formats (30_encoding.md R122) -/

section

variable (p u b w l : Bool) (rn rd : RegNum)

@[simp] theorem encodeCdt_class (crd cpNum : BitVec 4) (x : BitVec 8) :
    (encodeCdt p u b w l rn crd cpNum x).extractLsb' 25 3 = 0b110#3 := by
  unfold encodeCdt
  simp (disch := omega) only [extract_append_high, extract_all, Nat.reduceSub]

@[simp] theorem encodeBdt_class (list : BitVec 16) : (encodeBdt p u b w l rn list).extractLsb' 25 3 = 0b100#3 := by
  unfold encodeBdt
  simp (disch := omega) only [extract_append_high, extract_all, Nat.reduceSub]

@[simp] theorem encodeCrt_top (cpOpc : BitVec 3) (crn cpNum : BitVec 4) (cp : BitVec 3) (crm : BitVec 4) :
    (encodeCrt cpOpc l crn rd cpNum cp crm).extractLsb' 24 4 = 0b1110#4 := by
  unfold encodeCrt
  simp (disch := omega) only [extract_append_high, extract_all, Nat.reduceSub]

@[simp] theorem encodeCrt_bit4 (cpOpc : BitVec 3) (crn cpNum : BitVec 4) (cp : BitVec 3) (crm : BitVec 4) :
    (encodeCrt cpOpc l crn rd cpNum cp crm).getLsbD 4 = true := by
  unfold encodeCrt
  simp (disch := omega) only [bit_append_low, bit_append_high, Nat.reduceSub, bit_one]

theorem encodeMul_isMultiply (rs rm : RegNum) : isMultiply (encodeMul b l rd rn rs rm) = true := by
  rw [isMultiply_iff, encodeMul]
  simp (disch := omega) only [extract_append_low, extract_append_high, extract_all, Nat.reduceSub, and_self]

theorem encodeSwp_isSwap (rm : RegNum) : isSwap (encodeSwp b rn rd rm) = true := by
  rw [isSwap_iff, encodeSwp]
  simp (disch := omega) only [extract_append_low, extract_append_high, extract_all, Nat.reduceSub, and_self]

/-! ## The offset of a single data transfer -/

@[simp] theorem encodeSdt_class (x : Offset) :
    (encodeSdt p u b w l rn rd x).extractLsb' 25 3 = 0b01#2 ++ x.register := by
  unfold encodeSdt
  simp (disch := omega) only [extract_append_high, extract_all, Nat.reduceSub]

@[simp] theorem encodeSdt_register (x : Offset) : (encodeSdt p u b w l rn rd x).getLsbD 25 = x.register.getLsbD 0 := by
  unfold encodeSdt
  simp (disch := omega) only [bit_append_low, bit_append_high, Nat.reduceSub]

theorem encodeSdt_low {lo len : Nat} (h : lo + len ≤ 12) (x : Offset) :
    (encodeSdt p u b w l rn rd x).extractLsb' lo len = x.bits.extractLsb' lo len := extract_append_low h

theorem encodeSdt_low_bit {i : Nat} (h : i < 12) (x : Offset) :
    (encodeSdt p u b w l rn rd x).getLsbD i = x.bits.getLsbD i := bit_append_low h

/-- Bit 4 tells a register offset from the undefined instruction (R123, priority 7). -/
theorem offset_bits_bit4 (rm : RegNum) (ty : ShiftType) (amount : BitVec 5) :
    (Offset.bits (.reg rm ty amount)).getLsbD 4 = false := by
  simp (disch := omega) only [Offset.bits, bit_append_low, bit_append_high, Nat.reduceSub, bit_zero]

theorem offset_ofBody_encodeSdt (x : Offset) : Offset.ofBody (encodeSdt p u b w l rn rd x) = x := by
  simp (disch := decide) only [Offset.ofBody, encodeSdt_register, encodeSdt_low]
  cases x with
  | imm offset => rw [Offset.register, bit_zero, if_neg Bool.false_ne_true, Offset.bits, extract_all]
  | reg rm ty amount =>
    rw [Offset.register, bit_one, if_pos rfl]
    simp (disch := omega) only [Offset.bits, extract_append_low, extract_append_high, extract_all, Nat.reduceSub,
      shiftType_ofBits_bits]

end

/-! ## Operand 2 of a data processing instruction -/

section

variable (o : BitVec 4) (s : BitVec 1) (rn rd : RegNum)

@[simp] theorem encodeDp_class (x : Operand2) : (encodeDp o s rn rd x).extractLsb' 25 3 = 0b00#2 ++ x.immediate := by
  unfold encodeDp
  simp (disch := omega) only [extract_append_high, extract_all, Nat.reduceSub]

@[simp] theorem encodeDp_top (x : Operand2) : (encodeDp o s rn rd x).extractLsb' 26 2 = 0b00#2 := by
  unfold encodeDp
  simp (disch := omega) only [extract_append_high, extract_all, Nat.reduceSub]

@[simp] theorem encodeDp_immediate (x : Operand2) :
    (encodeDp o s rn rd x).getLsbD 25 = x.immediate.getLsbD 0 := by
  unfold encodeDp
  simp (disch := omega) only [bit_append_low, bit_append_high, Nat.reduceSub]

@[simp] theorem encodeDp_s_bit (x : Operand2) : (encodeDp o s rn rd x).getLsbD 20 = s.getLsbD 0 := by
  unfold encodeDp
  simp (disch := omega) only [bit_append_low, bit_append_high, Nat.reduceSub]

/-- Bits 24 and 23 are those of the operation: 10 for the comparing ones. -/
@[simp] theorem encodeDp_compares (x : Operand2) : (encodeDp o s rn rd x).extractLsb' 23 2 = o.extractLsb' 2 2 := by
  unfold encodeDp
  simp (disch := omega) only [extract_append_low, extract_append_high, Nat.reduceSub]

theorem encodeDp_low {lo len : Nat} (h : lo + len ≤ 12) (x : Operand2) :
    (encodeDp o s rn rd x).extractLsb' lo len = x.bits.extractLsb' lo len := extract_append_low h

theorem encodeDp_low_bit {i : Nat} (h : i < 12) (x : Operand2) :
    (encodeDp o s rn rd x).getLsbD i = x.bits.getLsbD i := bit_append_low h

theorem operand2_bits_shiftImm (rm : RegNum) (ty : ShiftType) (amount : BitVec 5) :
    (Operand2.bits (.shiftImm rm ty amount)).getLsbD 4 = false := by
  simp (disch := omega) only [Operand2.bits, bit_append_low, bit_append_high, Nat.reduceSub, bit_zero]

theorem operand2_bits_shiftReg (rm : RegNum) (ty : ShiftType) (rs : RegNum) :
    (Operand2.bits (.shiftReg rm ty rs)).getLsbD 4 = true ∧ (Operand2.bits (.shiftReg rm ty rs)).getLsbD 7 = false := by
  simp (disch := omega) only [Operand2.bits, bit_append_low, bit_append_high, Nat.reduceSub, bit_zero, bit_one, and_self]

theorem operand2_ofBody_encodeDp (x : Operand2) : Operand2.ofBody (encodeDp o s rn rd x) = x := by
  simp (disch := decide) only [Operand2.ofBody, encodeDp_immediate, encodeDp_low, encodeDp_low_bit]
  cases x with
  | imm rotate imm8 =>
    rw [Operand2.immediate, bit_one, if_pos rfl]
    simp (disch := omega) only [Operand2.bits, extract_append_low, extract_append_high, extract_all, Nat.reduceSub]
  | shiftImm rm ty amount =>
    rw [Operand2.immediate, bit_zero, if_neg Bool.false_ne_true, operand2_bits_shiftImm, if_neg Bool.false_ne_true]
    simp (disch := omega) only [Operand2.bits, extract_append_low, extract_append_high, extract_all, Nat.reduceSub,
      shiftType_ofBits_bits]
  | shiftReg rm ty rs =>
    obtain ⟨hreg, -⟩ := operand2_bits_shiftReg rm ty rs
    rw [Operand2.immediate, bit_zero, if_neg Bool.false_ne_true, hreg, if_pos rfl]
    simp (disch := omega) only [Operand2.bits, extract_append_low, extract_append_high, extract_all, Nat.reduceSub,
      shiftType_ofBits_bits]

/-- No operand 2 sets bits 7 and 4 with the I bit clear. -/
theorem encodeDp_not_multiplySpace (x : Operand2) : isMultiplySpace (encodeDp o s rn rd x) = false := by
  rw [isMultiplySpace, encodeDp_class, encodeDp_low_bit _ _ _ _ (by decide), encodeDp_low_bit _ _ _ _ (by decide)]
  cases x with
  | imm => simp [Operand2.immediate]
  | shiftImm rm ty amount => rw [operand2_bits_shiftImm, Bool.and_false]
  | shiftReg rm ty rs =>
    obtain ⟨-, hbit7⟩ := operand2_bits_shiftReg rm ty rs
    rw [hbit7, Bool.and_false, Bool.false_and]

end

/-! ## Decoding each format -/

section

variable (c : Cond)

theorem decodeBody_b (offset : BitVec 24) : decodeBody c (0b1010#4 ++ offset) = .b c offset := by
  have hclass : (0b1010#4 ++ offset).extractLsb' 25 3 = 0b101#3 := extract_append_high (by decide)
  have hlink : (0b1010#4 ++ offset).getLsbD 24 = false := bit_append_high (by decide)
  simp only [decodeBody, hclass, hlink, BitVec.extractLsb'_append_eq_right, beq_self_eq_true, if_true,
    Bool.false_eq_true, if_false]

theorem decodeBody_bl (offset : BitVec 24) : decodeBody c (0b1011#4 ++ offset) = .bl c offset := by
  have hclass : (0b1011#4 ++ offset).extractLsb' 25 3 = 0b101#3 := extract_append_high (by decide)
  have hlink : (0b1011#4 ++ offset).getLsbD 24 = true := bit_append_high (by decide)
  simp only [decodeBody, hclass, hlink, BitVec.extractLsb'_append_eq_right, beq_self_eq_true, if_true]

theorem decodeBody_swi (comment : BitVec 24) : decodeBody c (0b1111#4 ++ comment) = .swi c comment := by
  have htop : (0b1111#4 ++ comment).extractLsb' 24 4 = 0b1111#4 := BitVec.extractLsb'_append_eq_left
  have hcomment : (0b1111#4 ++ comment).extractLsb' 0 24 = comment := BitVec.extractLsb'_append_eq_right
  obtain ⟨hclass, -⟩ := (top4_swi _).mp htop
  simp [decodeBody, hclass, htop, hcomment]

theorem decodeBody_cdp (cpOpc crn crd cpNum : BitVec 4) (cp : BitVec 3) (crm : BitVec 4) :
    decodeBody c (Instr.cdp c cpOpc crn crd cpNum cp crm).body = .cdp c cpOpc crn crd cpNum cp crm := by
  let w := (Instr.cdp c cpOpc crn crd cpNum cp crm).body
  have htop : w.extractLsb' 24 4 = 0b1110#4 := by
    simp (disch := omega) only [w, Instr.body, extract_append_high, extract_all, Nat.reduceSub]
  have hbit : w.getLsbD 4 = false := by
    simp (disch := omega) only [w, Instr.body, bit_append_low, bit_append_high, Nat.reduceSub, bit_zero]
  obtain ⟨hclass, -⟩ := (top4_coprocessor w).mp htop
  have hrow : decodeBody c w = .cdp c (w.extractLsb' 20 4) (w.extractLsb' 16 4) (w.extractLsb' 12 4) (w.extractLsb' 8 4)
      (w.extractLsb' 5 3) (w.extractLsb' 0 4) := by
    simp [decodeBody, htop, hclass, hbit, -BitVec.getLsbD_eq_getElem]
  rw [hrow]
  simp (disch := omega) only [w, Instr.body, extract_append_low, extract_append_high, extract_all, Nat.reduceSub]

theorem decodeBody_encodeCrt (cpOpc : BitVec 3) (l : Bool) (crn rd cpNum : BitVec 4) (cp : BitVec 3) (crm : BitVec 4) :
    decodeBody c (encodeCrt cpOpc l crn rd cpNum cp crm) =
      if l then .mrc c cpOpc crn rd cpNum cp crm else .mcr c cpOpc crn rd cpNum cp crm := by
  obtain ⟨hclass, -⟩ := (top4_coprocessor _).mp (encodeCrt_top l rd cpOpc crn cpNum cp crm)
  simp [decodeBody, hclass, -BitVec.getLsbD_eq_getElem]

theorem decodeBody_encodeCdt (p u n w l : Bool) (rn : RegNum) (crd cpNum : BitVec 4) (offset : BitVec 8) :
    decodeBody c (encodeCdt p u n w l rn crd cpNum offset) =
      if l then .ldc c p u n w rn crd cpNum offset else .stc c p u n w rn crd cpNum offset := by
  simp [decodeBody, top4_swi, top4_coprocessor, -BitVec.getLsbD_eq_getElem]

theorem decodeBody_encodeBdt (p u s w l : Bool) (rn : RegNum) (list : BitVec 16) :
    decodeBody c (encodeBdt p u s w l rn list) =
      if l then .ldm c p u s w rn list else .stm c p u s w rn list := by
  simp [decodeBody, top4_swi, top4_coprocessor, -BitVec.getLsbD_eq_getElem]

theorem decodeBody_undefined (high : BitVec 20) (low : BitVec 4) :
    decodeBody c (Instr.undefined c high low).body = .undefined c high low := by
  let w := (Instr.undefined c high low).body
  have hclass : w.extractLsb' 25 3 = 0b011#3 := by
    simp (disch := omega) only [w, Instr.body, extract_append_high, extract_all, Nat.reduceSub]
  have hbit : w.getLsbD 4 = true := by
    simp (disch := omega) only [w, Instr.body, bit_append_low, bit_append_high, Nat.reduceSub, bit_one]
  have hrow : decodeBody c w = .undefined c (w.extractLsb' 5 20) (w.extractLsb' 0 4) := by
    simp [decodeBody, top4_swi, top4_coprocessor, hclass, hbit, -BitVec.getLsbD_eq_getElem]
  rw [hrow]
  simp (disch := omega) only [w, Instr.body, extract_append_low, extract_append_high, extract_all, Nat.reduceSub]

theorem decodeBody_encodeSdt (p u b w l : Bool) (rn rd : RegNum) (x : Offset) :
    decodeBody c (encodeSdt p u b w l rn rd x) = decodeSingleTransfer c (encodeSdt p u b w l rn rd x) := by
  have hbit := encodeSdt_low_bit (i := 4) p u b w l rn rd (by decide) x
  cases x with
  | imm => simp [decodeBody, top4_swi, top4_coprocessor, top2_eq, Offset.register]
  | reg rm ty amount =>
    rw [offset_bits_bit4] at hbit
    simp [decodeBody, top4_swi, top4_coprocessor, top2_eq, Offset.register, hbit, -BitVec.getLsbD_eq_getElem]

theorem decodeBody_encodeMul (a s : Bool) (rd rn rs rm : RegNum) :
    decodeBody c (encodeMul a s rd rn rs rm) = if a then .mla c s rd rn rs rm else .mul c s rd rn rs rm := by
  have hmul := encodeMul_isMultiply a s rn rd rs rm
  rw [decodeBody_multiplySpace c (isMultiplySpace_of_isMultiply hmul), if_pos hmul]
  simp only [encodeMul_a, encodeMul_s, encodeMul_rd, encodeMul_rn, encodeMul_rs, encodeMul_rm]

theorem decodeBody_encodeSwp (b : Bool) (rn rd rm : RegNum) :
    decodeBody c (encodeSwp b rn rd rm) = if b then .swpb c rn rd rm else .swp c rn rd rm := by
  have hswap := encodeSwp_isSwap b rn rd rm
  rw [decodeBody_multiplySpace c (isMultiplySpace_of_isSwap hswap), not_multiply_of_swap hswap,
    if_neg Bool.false_ne_true, if_pos hswap]
  simp only [encodeSwp_b, encodeSwp_rn, encodeSwp_rd, encodeSwp_rm]

theorem decodeBody_notDefinedA {w : BitVec 28} (h : isNotDefinedA w = true) : decodeBody c w = .notDefinedA c w := by
  simp only [isNotDefinedA, Bool.and_eq_true, Bool.not_eq_true'] at h
  obtain ⟨⟨hspace, hmul⟩, hswap⟩ := h
  rw [decodeBody_multiplySpace c hspace, hmul, hswap, if_neg Bool.false_ne_true, if_neg Bool.false_ne_true]

theorem decodeBody_mrs (ps : Bool) (rd : RegNum) : decodeBody c (Instr.mrs c ps rd).body = .mrs c ps rd := by
  have hmrs : isMrs (Instr.mrs c ps rd).body = true := by
    rw [isMrs_iff, Instr.body]
    simp (disch := omega) only [extract_append_low, extract_append_high, extract_all, Nat.reduceSub, and_self]
  obtain ⟨htop, -, hlow⟩ := (isMrs_iff _).mp hmrs
  have hspace := not_multiplySpace (bit_of_pattern hlow (i := 4) (by decide) (by decide))
  rw [decodeBody_low c (top2_of_psr (b := false) htop) hspace, if_pos hmrs, Instr.body]
  simp (disch := omega) only [bit_append_low, bit_append_high, bit_ofBool, extract_append_low, extract_append_high,
    extract_all, Nat.reduceSub]

theorem decodeBody_msrRegAll (pd : Bool) (rm : RegNum) :
    decodeBody c (Instr.msrRegAll c pd rm).body = .msrRegAll c pd rm := by
  have hall : isMsrRegAll (Instr.msrRegAll c pd rm).body = true := by
    rw [isMsrRegAll_iff, Instr.body]
    simp (disch := omega) only [extract_append_low, extract_append_high, extract_all, Nat.reduceSub, and_self]
  obtain ⟨htop, hmid, hlow⟩ := (isMsrRegAll_iff _).mp hall
  have hspace := not_multiplySpace (bit_of_pattern hlow (i := 4) (by decide) (by decide))
  have hmrs := not_mrs (bit_of_pattern hmid (i := 21) (by decide) (by decide))
  rw [decodeBody_low c (top2_of_psr (b := false) htop) hspace, hmrs, if_neg Bool.false_ne_true, if_pos hall, Instr.body]
  simp (disch := omega) only [bit_append_low, bit_append_high, bit_ofBool, extract_append_low, extract_all, Nat.reduceSub]

theorem decodeBody_msrRegFlg (pd : Bool) (rm : RegNum) :
    decodeBody c (Instr.msrRegFlg c pd rm).body = .msrRegFlg c pd rm := by
  have hflg : isMsrRegFlg (Instr.msrRegFlg c pd rm).body = true := by
    rw [isMsrRegFlg_iff, Instr.body]
    simp (disch := omega) only [extract_append_low, extract_append_high, extract_all, Nat.reduceSub, and_self]
  obtain ⟨htop, hmid, hlow⟩ := (isMsrRegFlg_iff _).mp hflg
  have hspace := not_multiplySpace (bit_of_pattern hlow (i := 4) (by decide) (by decide))
  have hmrs := not_mrs (bit_of_pattern hmid (i := 21) (by decide) (by decide))
  have hall := not_msrRegAll (bit_of_pattern hmid (i := 16) (by decide) (by decide))
  rw [decodeBody_low c (top2_of_psr (b := false) htop) hspace, hmrs, hall, if_neg Bool.false_ne_true,
    if_neg Bool.false_ne_true, if_pos hflg, Instr.body]
  simp (disch := omega) only [bit_append_low, bit_append_high, bit_ofBool, extract_append_low, extract_all, Nat.reduceSub]

theorem decodeBody_msrImmFlg (pd : Bool) (rotate : BitVec 4) (imm8 : BitVec 8) :
    decodeBody c (Instr.msrImmFlg c pd rotate imm8).body = .msrImmFlg c pd rotate imm8 := by
  have himm : isMsrImmFlg (Instr.msrImmFlg c pd rotate imm8).body = true := by
    rw [isMsrImmFlg_iff, Instr.body]
    simp (disch := omega) only [extract_append_low, extract_append_high, extract_all, Nat.reduceSub, and_self]
  obtain ⟨htop, -⟩ := (isMsrImmFlg_iff _).mp himm
  have hbit : (Instr.msrImmFlg c pd rotate imm8).body.getLsbD 25 = true :=
    bit_of_pattern htop (by decide) (by decide)
  have hspace : isMultiplySpace (Instr.msrImmFlg c pd rotate imm8).body = false := by
    refine Bool.eq_false_iff.mpr fun h => ?_
    obtain ⟨hclass, -⟩ := (isMultiplySpace_iff _).mp h
    rw [bit_of_pattern hclass (by decide) (by decide)] at hbit
    exact absurd hbit (by decide)
  obtain ⟨hmrs, hall, hflg⟩ := not_psrRegister hbit
  rw [decodeBody_low c (top2_of_psr (b := true) htop) hspace, hmrs, hall, hflg, if_neg Bool.false_ne_true,
    if_neg Bool.false_ne_true, if_neg Bool.false_ne_true, if_pos himm, Instr.body]
  simp (disch := omega) only [bit_append_low, bit_append_high, bit_ofBool, extract_append_low, extract_append_high,
    extract_all, Nat.reduceSub]

theorem decodeBody_notDefinedB {w : BitVec 28} (h : isNotDefinedB w = true) : decodeBody c w = .notDefinedB c w := by
  simp only [isNotDefinedB, Bool.and_eq_true, Bool.not_eq_true'] at h
  obtain ⟨⟨⟨⟨⟨hpsr, hspace⟩, hmrs⟩, hall⟩, hflg⟩, himm⟩ := h
  obtain ⟨htop, -⟩ := (isPsrSpace_iff w).mp hpsr
  simp only [decodeBody_low c htop hspace, hmrs, hall, hflg, himm, hpsr, Bool.false_eq_true, if_false, if_true]

/-- A data processing instruction is no PSR transfer: it is not a comparing operation, or it has S = 1. -/
theorem decodeBody_encodeDp {o : BitVec 4} {s : BitVec 1} (h : o.extractLsb' 2 2 ≠ 2#2 ∨ s = 1#1) (rn rd : RegNum)
    (x : Operand2) : decodeBody c (encodeDp o s rn rd x) = decodeDataProcessing c (encodeDp o s rn rd x) := by
  have hpsr : isPsrSpace (encodeDp o s rn rd x) = false := by
    rw [isPsrSpace, encodeDp_compares, encodeDp_s_bit]
    rcases h with hop | rfl
    · rw [beq_eq_false_iff_ne.mpr hop, Bool.and_false, Bool.false_and]
    · rw [bit_one, Bool.not_true, Bool.and_false]
  exact decodeBody_dataProcessing c (encodeDp_top o s rn rd x) (encodeDp_not_multiplySpace o s rn rd x) hpsr

end

/-- Decoding gives a well-formed instruction back from its body: each by its format. -/
theorem decodeBody_body {i : Instr} (h : i.wf = true) : decodeBody i.cond i.body = i := by
  cases i with
  | b => exact decodeBody_b ..
  | bl => exact decodeBody_bl ..
  | swi => exact decodeBody_swi ..
  | cdp => exact decodeBody_cdp ..
  | mrc | mcr => exact decodeBody_encodeCrt ..
  | ldc | stc => exact decodeBody_encodeCdt ..
  | ldm | stm => exact decodeBody_encodeBdt ..
  | undefined => exact decodeBody_undefined ..
  | mul | mla => exact decodeBody_encodeMul ..
  | swp | swpb => exact decodeBody_encodeSwp ..
  | notDefinedA => exact decodeBody_notDefinedA _ h
  | mrs => exact decodeBody_mrs ..
  | msrRegAll => exact decodeBody_msrRegAll ..
  | msrRegFlg => exact decodeBody_msrRegFlg ..
  | msrImmFlg => exact decodeBody_msrImmFlg ..
  | notDefinedB => exact decodeBody_notDefinedB _ h
  | ldrt | ldrbt | strt | strbt =>
    rw [Instr.body, decodeBody_encodeSdt]
    simp only [decodeSingleTransfer, encodeSdt_p, encodeSdt_u, encodeSdt_b, encodeSdt_w, encodeSdt_l, encodeSdt_rn,
      encodeSdt_rd, offset_ofBody_encodeSdt]
    rfl
  | ldr c p u w | ldrb c p u w | str c p u w | strb c p u w =>
    have hplain := (plainIndexing_iff p w).mp h
    rw [Instr.body, decodeBody_encodeSdt]
    simp only [decodeSingleTransfer, encodeSdt_p, encodeSdt_u, encodeSdt_b, encodeSdt_w, encodeSdt_l, encodeSdt_rn,
      encodeSdt_rd, offset_ofBody_encodeSdt, hplain]
    rfl
  | and | eor | sub | rsb | add | adc | sbc | rsc | orr | mov | bic | mvn =>
    rw [Instr.body, decodeBody_encodeDp _ (.inl (by decide))]
    simp only [decodeDataProcessing, encodeDp_opcode, encodeDp_s_bit, encodeDp_rn, encodeDp_rd, operand2_ofBody_encodeDp,
      bit_ofBool]
    rfl
  | tst | teq | cmp | cmn =>
    rw [Instr.body, decodeBody_encodeDp _ (.inr rfl)]
    simp only [decodeDataProcessing, encodeDp_opcode, encodeDp_rn, encodeDp_rd, operand2_ofBody_encodeDp]
    rfl

/-- Settles O1: decoding the word decodes its body under its condition. -/
theorem decodeOfEncode : Obligations.DecodeOfEncode := fun i h => (decodeWord_encode i).trans (decodeBody_body h)

end Sys2Proof

/-! # Decoding a word -/

namespace Sys2Proof

/-! ## The fields of each row (30_encoding.md R123, R144)

Each format, filled with the fields of a word that has the row's pattern, gives the word back. -/

section

variable {w : BitVec 28}

theorem encodeCdt_fields (h : w.extractLsb' 25 3 = 0b110#3) :
    encodeCdt (w.getLsbD 24) (w.getLsbD 23) (w.getLsbD 22) (w.getLsbD 21) (w.getLsbD 20) (w.extractLsb' 16 4)
      (w.extractLsb' 12 4) (w.extractLsb' 8 4) (w.extractLsb' 0 8) = w := by
  rw [encodeCdt, ← h]
  simp (disch := omega) only [ofBool_bit, BitVec.extractLsb'_append_extractLsb'_eq_extractLsb']
  exact extract_all w

theorem encodeBdt_fields (h : w.extractLsb' 25 3 = 0b100#3) :
    encodeBdt (w.getLsbD 24) (w.getLsbD 23) (w.getLsbD 22) (w.getLsbD 21) (w.getLsbD 20) (w.extractLsb' 16 4)
      (w.extractLsb' 0 16) = w := by
  rw [encodeBdt, ← h]
  simp (disch := omega) only [ofBool_bit, BitVec.extractLsb'_append_extractLsb'_eq_extractLsb']
  exact extract_all w

theorem encodeCrt_fields (htop : w.extractLsb' 24 4 = 0b1110#4) (hbit : w.getLsbD 4 = true) :
    encodeCrt (w.extractLsb' 21 3) (w.getLsbD 20) (w.extractLsb' 16 4) (w.extractLsb' 12 4) (w.extractLsb' 8 4)
      (w.extractLsb' 5 3) (w.extractLsb' 0 4) = w := by
  rw [encodeCrt, ← htop, ← (bit_eq_one w 4).mp hbit]
  simp (disch := omega) only [ofBool_bit, BitVec.extractLsb'_append_extractLsb'_eq_extractLsb']
  exact extract_all w

theorem encodeMul_fields (h : isMultiply w = true) :
    encodeMul (w.getLsbD 21) (w.getLsbD 20) (w.extractLsb' 16 4) (w.extractLsb' 12 4) (w.extractLsb' 8 4)
      (w.extractLsb' 0 4) = w := by
  obtain ⟨htop, hmid⟩ := (isMultiply_iff w).mp h
  rw [encodeMul, ← htop, ← hmid]
  simp (disch := omega) only [ofBool_bit, BitVec.extractLsb'_append_extractLsb'_eq_extractLsb']
  exact extract_all w

theorem encodeSwp_fields (h : isSwap w = true) :
    encodeSwp (w.getLsbD 22) (w.extractLsb' 16 4) (w.extractLsb' 12 4) (w.extractLsb' 0 4) = w := by
  obtain ⟨htop, hmid, hlow⟩ := (isSwap_iff w).mp h
  rw [encodeSwp, ← htop, ← hmid, ← hlow]
  simp (disch := omega) only [ofBool_bit, BitVec.extractLsb'_append_extractLsb'_eq_extractLsb']
  exact extract_all w

theorem mrs_fields (h : isMrs w = true) (c : Cond) :
    (Instr.mrs c (w.getLsbD 22) (w.extractLsb' 12 4)).body = w := by
  obtain ⟨htop, hmid, hlow⟩ := (isMrs_iff w).mp h
  rw [Instr.body, ← htop, ← hmid, ← hlow]
  simp (disch := omega) only [ofBool_bit, BitVec.extractLsb'_append_extractLsb'_eq_extractLsb']
  exact extract_all w

theorem msrRegAll_fields (h : isMsrRegAll w = true) (c : Cond) :
    (Instr.msrRegAll c (w.getLsbD 22) (w.extractLsb' 0 4)).body = w := by
  obtain ⟨htop, hmid, hlow⟩ := (isMsrRegAll_iff w).mp h
  rw [Instr.body, ← htop, ← hmid, ← hlow]
  simp (disch := omega) only [ofBool_bit, BitVec.extractLsb'_append_extractLsb'_eq_extractLsb']
  exact extract_all w

theorem msrRegFlg_fields (h : isMsrRegFlg w = true) (c : Cond) :
    (Instr.msrRegFlg c (w.getLsbD 22) (w.extractLsb' 0 4)).body = w := by
  obtain ⟨htop, hmid, hlow⟩ := (isMsrRegFlg_iff w).mp h
  rw [Instr.body, ← htop, ← hmid, ← hlow]
  simp (disch := omega) only [ofBool_bit, BitVec.extractLsb'_append_extractLsb'_eq_extractLsb']
  exact extract_all w

theorem msrImmFlg_fields (h : isMsrImmFlg w = true) (c : Cond) :
    (Instr.msrImmFlg c (w.getLsbD 22) (w.extractLsb' 8 4) (w.extractLsb' 0 8)).body = w := by
  obtain ⟨htop, hmid⟩ := (isMsrImmFlg_iff w).mp h
  rw [Instr.body, ← htop, ← hmid]
  simp (disch := omega) only [ofBool_bit, BitVec.extractLsb'_append_extractLsb'_eq_extractLsb']
  exact extract_all w

/-- The branches and SWI: four bits of operation and 24 bits (R134, R138). -/
theorem top4_fields {p : BitVec 4} (htop : w.extractLsb' 24 4 = p) : p ++ w.extractLsb' 0 24 = w := by
  rw [← htop, BitVec.extractLsb'_append_extractLsb'_eq_extractLsb' (Nat.zero_add 24).symm]
  exact extract_all w

theorem cdp_fields (htop : w.extractLsb' 24 4 = 0b1110#4) (hbit : w.getLsbD 4 = false) (c : Cond) :
    (Instr.cdp c (w.extractLsb' 20 4) (w.extractLsb' 16 4) (w.extractLsb' 12 4) (w.extractLsb' 8 4)
        (w.extractLsb' 5 3) (w.extractLsb' 0 4)).body = w := by
  have hzero : w.extractLsb' 4 1 = 0#1 := (bit_eq_zero w 4).mp hbit
  rw [Instr.body, ← htop, ← hzero]
  simp (disch := omega) only [BitVec.extractLsb'_append_extractLsb'_eq_extractLsb']
  exact extract_all w

theorem undefined_fields (hclass : w.extractLsb' 25 3 = 0b011#3) (hbit : w.getLsbD 4 = true) (c : Cond) :
    (Instr.undefined c (w.extractLsb' 5 20) (w.extractLsb' 0 4)).body = w := by
  rw [Instr.body, ← hclass, ← (bit_eq_one w 4).mp hbit]
  simp (disch := omega) only [BitVec.extractLsb'_append_extractLsb'_eq_extractLsb']
  exact extract_all w

/-- A register offset has bit 4 clear: with bit 4 set the word is the undefined instruction (R123, priority 7). -/
theorem offset_ofBody_fields (h : w.getLsbD 25 = true → w.getLsbD 4 = false) :
    (Offset.ofBody w).register = w.extractLsb' 25 1 ∧ (Offset.ofBody w).bits = w.extractLsb' 0 12 := by
  unfold Offset.ofBody
  cases hreg : w.getLsbD 25 with
  | false => exact ⟨((bit_eq_zero w 25).mp hreg).symm, rfl⟩
  | true =>
    have hzero : w.extractLsb' 4 1 = 0#1 := (bit_eq_zero w 4).mp (h hreg)
    refine ⟨((bit_eq_one w 25).mp hreg).symm, ?_⟩
    rw [if_pos rfl, Offset.bits, shiftType_bits_ofBits, ← hzero]
    simp (disch := omega) only [BitVec.extractLsb'_append_extractLsb'_eq_extractLsb']

/-- A shift by a register has bit 7 clear: with bits 7 and 4 set the word is in the multiply space. -/
theorem operand2_ofBody_fields (h : w.getLsbD 25 = false → w.getLsbD 4 = true → w.getLsbD 7 = false) :
    (Operand2.ofBody w).immediate = w.extractLsb' 25 1 ∧ (Operand2.ofBody w).bits = w.extractLsb' 0 12 := by
  unfold Operand2.ofBody
  cases himm : w.getLsbD 25 with
  | true =>
    refine ⟨((bit_eq_one w 25).mp himm).symm, ?_⟩
    rw [if_pos rfl, Operand2.bits, BitVec.extractLsb'_append_extractLsb'_eq_extractLsb' (Nat.zero_add 8).symm]
  | false =>
    rw [if_neg Bool.false_ne_true]
    have hI : 0#1 = w.extractLsb' 25 1 := ((bit_eq_zero w 25).mp himm).symm
    cases hreg : w.getLsbD 4 with
    | true =>
      have hzero : w.extractLsb' 7 1 = 0#1 := (bit_eq_zero w 7).mp (h himm hreg)
      refine ⟨hI, ?_⟩
      rw [if_pos rfl, Operand2.bits, shiftType_bits_ofBits, ← hzero, ← (bit_eq_one w 4).mp hreg]
      simp (disch := omega) only [BitVec.extractLsb'_append_extractLsb'_eq_extractLsb']
    | false =>
      have hzero : w.extractLsb' 4 1 = 0#1 := (bit_eq_zero w 4).mp hreg
      refine ⟨hI, ?_⟩
      rw [if_neg Bool.false_ne_true, Operand2.bits, shiftType_bits_ofBits, ← hzero]
      simp (disch := omega) only [BitVec.extractLsb'_append_extractLsb'_eq_extractLsb']

theorem encodeSdt_fields (htop : w.extractLsb' 26 2 = 0b01#2) (h : w.getLsbD 25 = true → w.getLsbD 4 = false) :
    encodeSdt (w.getLsbD 24) (w.getLsbD 23) (w.getLsbD 22) (w.getLsbD 21) (w.getLsbD 20) (w.extractLsb' 16 4)
      (w.extractLsb' 12 4) (Offset.ofBody w) = w := by
  obtain ⟨hreg, hbits⟩ := offset_ofBody_fields h
  rw [encodeSdt, hreg, hbits, ← htop]
  simp (disch := omega) only [ofBool_bit, BitVec.extractLsb'_append_extractLsb'_eq_extractLsb']
  exact extract_all w

theorem encodeDp_fields (htop : w.extractLsb' 26 2 = 0b00#2)
    (h : w.getLsbD 25 = false → w.getLsbD 4 = true → w.getLsbD 7 = false) :
    encodeDp (w.extractLsb' 21 4) (BitVec.ofBool (w.getLsbD 20)) (w.extractLsb' 16 4) (w.extractLsb' 12 4)
      (Operand2.ofBody w) = w := by
  obtain ⟨himm, hbits⟩ := operand2_ofBody_fields h
  rw [encodeDp, himm, hbits, ← htop]
  simp (disch := omega) only [ofBool_bit, BitVec.extractLsb'_append_extractLsb'_eq_extractLsb']
  exact extract_all w

end

/-! ## Every word is the word of an instruction -/

/-- The word with the condition `c` and the bits `w` below it stands for the well-formed instruction `i`. -/
def StandsFor (c : Cond) (w : BitVec 28) (i : Instr) : Prop := i.wf = true ∧ i.cond = c ∧ i.body = w

section

variable {w : BitVec 28} (c : Cond)

/-- The rows of the decode order by bits 27 to 24. -/
theorem rows_cases (w : BitVec 28) :
    w.extractLsb' 25 3 = 0b101#3 ∨ w.extractLsb' 24 4 = 0b1111#4 ∨ w.extractLsb' 24 4 = 0b1110#4 ∨
      w.extractLsb' 25 3 = 0b110#3 ∨ w.extractLsb' 25 3 = 0b100#3 ∨ w.extractLsb' 26 2 = 0b01#2 ∨
      w.extractLsb' 26 2 = 0b00#2 := by
  have hclass := extract_extract (lo := 1) (len := 3) (start := 24) (k := 4) w (by decide)
  have htop := extract_extract (lo := 2) (len := 2) (start := 24) (k := 4) w (by decide)
  rw [← hclass, ← htop]
  generalize w.extractLsb' 24 4 = t
  revert t
  decide

theorem exists_branch (hclass : w.extractLsb' 25 3 = 0b101#3) : ∃ i, StandsFor c w i := by
  cases hlink : w.getLsbD 24 with
  | false =>
    have htop := (extract_eq_append_iff w 0b101#3 0#1).mpr ⟨hclass, (bit_eq_zero w 24).mp hlink⟩
    exact ⟨.b c _, rfl, rfl, top4_fields htop⟩
  | true =>
    have htop := (extract_eq_append_iff w 0b101#3 1#1).mpr ⟨hclass, (bit_eq_one w 24).mp hlink⟩
    exact ⟨.bl c _, rfl, rfl, top4_fields htop⟩

theorem exists_coprocessorOperation (htop : w.extractLsb' 24 4 = 0b1110#4) : ∃ i, StandsFor c w i := by
  cases hbit : w.getLsbD 4 with
  | false => exact ⟨_, rfl, rfl, cdp_fields htop hbit c⟩
  | true =>
    have hw := encodeCrt_fields htop hbit
    cases hl : w.getLsbD 20 with
    | false => exact ⟨.mcr c _ _ _ _ _ _, rfl, rfl, by rwa [hl] at hw⟩
    | true => exact ⟨.mrc c _ _ _ _ _ _, rfl, rfl, by rwa [hl] at hw⟩

theorem exists_coprocessorTransfer (hclass : w.extractLsb' 25 3 = 0b110#3) : ∃ i, StandsFor c w i := by
  have hw := encodeCdt_fields hclass
  cases hl : w.getLsbD 20 with
  | false => exact ⟨.stc c _ _ _ _ _ _ _ _, rfl, rfl, by rwa [hl] at hw⟩
  | true => exact ⟨.ldc c _ _ _ _ _ _ _ _, rfl, rfl, by rwa [hl] at hw⟩

theorem exists_blockTransfer (hclass : w.extractLsb' 25 3 = 0b100#3) : ∃ i, StandsFor c w i := by
  have hw := encodeBdt_fields hclass
  cases hl : w.getLsbD 20 with
  | false => exact ⟨.stm c _ _ _ _ _ _, rfl, rfl, by rwa [hl] at hw⟩
  | true => exact ⟨.ldm c _ _ _ _ _ _, rfl, rfl, by rwa [hl] at hw⟩

theorem decodeSingleTransfer_standsFor (htop : w.extractLsb' 26 2 = 0b01#2)
    (h : w.getLsbD 25 = true → w.getLsbD 4 = false) : StandsFor c w (decodeSingleTransfer c w) := by
  have hw := encodeSdt_fields htop h
  dsimp only [decodeSingleTransfer]
  split
  case h_1 hl hb ht | h_2 hl hb ht | h_3 hl hb ht | h_4 hl hb ht =>
    obtain ⟨hp, hwb⟩ : w.getLsbD 24 = false ∧ w.getLsbD 21 = true := by
      rwa [Bool.and_eq_true, Bool.not_eq_true'] at ht
    rw [hl, hb, hp, hwb] at hw
    exact ⟨rfl, rfl, hw⟩
  case h_5 hl hb hplain | h_6 hl hb hplain | h_7 hl hb hplain | h_8 hl hb hplain =>
    rw [hl, hb] at hw
    exact ⟨(plainIndexing_iff _ _).mpr hplain, rfl, hw⟩

theorem decodeDataProcessing_standsFor (htop : w.extractLsb' 26 2 = 0b00#2)
    (h : w.getLsbD 25 = false → w.getLsbD 4 = true → w.getLsbD 7 = false)
    (hcompare : (w.extractLsb' 21 4).extractLsb' 2 2 = 2#2 → w.getLsbD 20 = true) :
    StandsFor c w (decodeDataProcessing c w) := by
  have hw := encodeDp_fields htop h
  unfold decodeDataProcessing
  split
  case h_9 ho | h_10 ho | h_11 ho | h_12 ho =>
    rw [ho] at hw hcompare
    rw [hcompare (by decide)] at hw
    exact ⟨rfl, rfl, hw⟩
  case h_16 =>
    have ho : w.extractLsb' 21 4 = 15#4 := by
      clear hw hcompare
      generalize w.extractLsb' 21 4 = o at *
      simp only [imp_false] at *
      bv_omega
    rw [ho] at hw
    exact ⟨rfl, rfl, hw⟩
  all_goals
    next ho =>
    rw [ho] at hw
    exact ⟨rfl, rfl, hw⟩


/-- The undefined instruction is what bit 4 takes from the register offsets. -/
theorem exists_singleTransfer (htop : w.extractLsb' 26 2 = 0b01#2) : ∃ i, StandsFor c w i := by
  by_cases h : w.getLsbD 25 = true ∧ w.getLsbD 4 = true
  · obtain ⟨hreg, hbit⟩ := h
    have hclass : w.extractLsb' 25 3 = 0b011#3 :=
      (extract_eq_append_iff w 0b01#2 1#1).mpr ⟨htop, (bit_eq_one w 25).mp hreg⟩
    exact ⟨_, rfl, rfl, undefined_fields hclass hbit c⟩
  · exact ⟨_, decodeSingleTransfer_standsFor c htop fun hreg => Bool.eq_false_iff.mpr fun hbit => h ⟨hreg, hbit⟩⟩

theorem exists_multiplySpace (h : isMultiplySpace w = true) : ∃ i, StandsFor c w i := by
  cases hmul : isMultiply w with
  | true =>
    have hw := encodeMul_fields hmul
    cases ha : w.getLsbD 21 with
    | false => exact ⟨.mul c _ _ _ _ _, rfl, rfl, by rwa [ha] at hw⟩
    | true => exact ⟨.mla c _ _ _ _ _, rfl, rfl, by rwa [ha] at hw⟩
  | false =>
    cases hswap : isSwap w with
    | true =>
      have hw := encodeSwp_fields hswap
      cases hb : w.getLsbD 22 with
      | false => exact ⟨.swp c _ _ _, rfl, rfl, by rwa [hb] at hw⟩
      | true => exact ⟨.swpb c _ _ _, rfl, rfl, by rwa [hb] at hw⟩
    | false => exact ⟨.notDefinedA c w, by simp [Instr.wf, isNotDefinedA, h, hmul, hswap], rfl, rfl⟩

theorem exists_psrSpace (hpsr : isPsrSpace w = true) (hspace : isMultiplySpace w = false) : ∃ i, StandsFor c w i := by
  by_cases hmrs : isMrs w = true
  · exact ⟨_, rfl, rfl, mrs_fields hmrs c⟩
  by_cases hall : isMsrRegAll w = true
  · exact ⟨_, rfl, rfl, msrRegAll_fields hall c⟩
  by_cases hflg : isMsrRegFlg w = true
  · exact ⟨_, rfl, rfl, msrRegFlg_fields hflg c⟩
  by_cases himm : isMsrImmFlg w = true
  · exact ⟨_, rfl, rfl, msrImmFlg_fields himm c⟩
  exact ⟨.notDefinedB c w, by simp [Instr.wf, isNotDefinedB, hpsr, hspace, hmrs, hall, hflg, himm], rfl, rfl⟩

theorem exists_dataProcessing (htop : w.extractLsb' 26 2 = 0b00#2) (hspace : isMultiplySpace w = false)
    (hpsr : isPsrSpace w = false) : ∃ i, StandsFor c w i := by
  refine ⟨_, decodeDataProcessing_standsFor c htop (fun himm hreg => ?_) fun hop => ?_⟩
  · refine Bool.eq_false_iff.mpr fun hbit => Bool.eq_false_iff.mp hspace ((isMultiplySpace_iff w).mpr ⟨?_, hbit, hreg⟩)
    exact (extract_eq_append_iff w 0#2 0#1).mpr ⟨htop, (bit_eq_zero w 25).mp himm⟩
  · rw [extract_extract w (by decide)] at hop
    by_contra hs
    exact Bool.eq_false_iff.mp hpsr ((isPsrSpace_iff w).mpr ⟨htop, hop, Bool.eq_false_iff.mpr hs⟩)

/-- The rows of the decode order leave no word out (R123). -/
theorem exists_instr (w : BitVec 28) : ∃ i, StandsFor c w i := by
  rcases rows_cases w with hclass | htop | htop | hclass | hclass | htop | htop
  · exact exists_branch c hclass
  · exact ⟨.swi c _, rfl, rfl, top4_fields htop⟩
  · exact exists_coprocessorOperation c htop
  · exact exists_coprocessorTransfer c hclass
  · exact exists_blockTransfer c hclass
  · exact exists_singleTransfer c htop
  · cases hspace : isMultiplySpace w with
    | true => exact exists_multiplySpace c hspace
    | false =>
      cases hpsr : isPsrSpace w with
      | true => exact exists_psrSpace c hpsr hspace
      | false => exact exists_dataProcessing c htop hspace hpsr

end

/-- Settles O2: the word is that of some well-formed instruction, which decoding gives back. -/
theorem encodeOfDecode : Obligations.EncodeOfDecode := by
  intro w
  obtain ⟨i, hwf, hcond, hbody⟩ := exists_instr (Cond.ofBits (w.extractLsb' 28 4)) (w.extractLsb' 0 28)
  have hdecode : decodeWord w = i := by rw [decodeWord, ← hcond, ← hbody, decodeBody_body hwf]
  rw [hdecode, encode, hcond, hbody, cond_bits_ofBits,
    BitVec.extractLsb'_append_extractLsb'_eq_extractLsb' (Nat.zero_add 28).symm]
  exact ⟨hwf, extract_all w⟩

end Sys2Proof

/-! # Words written out -/

namespace Sys2Proof

/-- Settles O3: each word is decoded by the table. -/
theorem decodedWords : Obligations.DecodedWords :=
  ⟨by decide, by decide, by decide, by decide, by decide, by decide, by decide, by decide⟩

end Sys2Proof

/-! # The rotated immediate -/

namespace Sys2Proof.Machine

/-- The rotation of R127 (30_encoding.md) by `2 * rot`, and beyond the immediate zeros. -/
theorem rotatedImm_bit (rot : BitVec 4) (imm8 : BitVec 8) {i : Nat} (hi : i < 32) :
    (rotatedImm rot imm8).getLsbD i = imm8.getLsbD ((i + 2 * rot.toNat) % 32) := by
  have hrot : 2 * rot.toNat < 32 := by have := rot.isLt; omega
  have hmod : (i + 2 * rot.toNat) % 32 < 32 := Nat.mod_lt _ (by decide)
  calc (rotatedImm rot imm8).getLsbD i
    _ = (imm8.zeroExtend 32).getLsbD ((i + 2 * rot.toNat) % 32) := rotate_bit _ hrot hi
    _ = imm8.getLsbD ((i + 2 * rot.toNat) % 32) := by rw [BitVec.getLsbD_setWidth, decide_eq_true hmod, Bool.true_and]

/-- Settles O35: the value is the rotation, and the carry the two cases of its definition. -/
theorem rotatedImmediate : Obligations.RotatedImmediate := fun rot imm8 _ =>
  ⟨fun _ hi => rotatedImm_bit rot imm8 hi, fun hzero => if_pos hzero,
    fun hne => (if_neg hne).trans (BitVec.msb_eq_getLsbD_last _)⟩

end Sys2Proof.Machine

/-! # Forbidden forms of transfers -/

namespace Sys2Proof.Machine

/-! ## Single data transfers (45_single_data_transfer.md R272) -/

theorem singleRefusal_pcWriteBack {p w : Bool} {rn : RegNum} (h : rn = 15#4 ∧ (p = false ∨ w = true)) (off : Offset) :
    singleRefusal p w rn off = some .pcWriteBack := by
  rw [← writesBack_iff] at h
  exact if_pos h

theorem singleRefusal_pcAsOffset {p w : Bool} {rn : RegNum} {off : Offset}
    (h : ¬ (rn = 15#4 ∧ (p = false ∨ w = true))) (hoff : offsetUsesPc off = true) : singleRefusal p w rn off = some .pcAsOffset := by
  rw [← writesBack_iff] at h
  exact (if_neg h).trans (if_pos hoff)

section

variable {s : State} {c : Cond} (hc : condPasses c s.flags = true)

include hc

theorem exec_single_refused {p w : Bool} {x : SingleForm} (hx : x ∈ singleLoads p w ++ singleStores p w) {rn : RegNum}
    {off : Offset} {r : Refusal} (h : singleRefusal x.p x.w rn off = some r) (u : Bool) (rd : RegNum) :
    exec (x.instr c u rn rd off) s = .refused r := by
  rcases List.mem_append.mp hx with hload | hstore
  · rw [exec_singleLoad hload, loadSingle, conditional_passes hc, h]
  · rw [exec_singleStore hstore, storeSingle, conditional_passes hc, h]

/-! ## Block data transfers (46_block_data_transfer.md R297, R301, R302) -/

theorem exec_ldm_refused {p u sBit w : Bool} {rn : RegNum} {list : BitVec 16} {r : Refusal}
    (h : s.blockRefusal (sBit && !inList list 15#4) sBit w rn list = some r) :
    exec (.ldm c p u sBit w rn list) s = .refused r := by
  refine (conditional_passes hc _).trans ?_
  rw [h]

theorem exec_stm_refused {p u sBit w : Bool} {rn : RegNum} {list : BitVec 16} {r : Refusal}
    (h : s.blockRefusal sBit sBit w rn list = some r) : exec (.stm c p u sBit w rn list) s = .refused r := by
  refine (conditional_passes hc _).trans ?_
  rw [h]

/-- A refusal that does not look at the bank refuses LDM and STM alike. -/
theorem exec_block_refused {sBit w : Bool} {rn : RegNum} {list : BitVec 16} {r : Refusal}
    (h : ∀ userBank, s.blockRefusal userBank sBit w rn list = some r) (p u : Bool) :
    exec (.ldm c p u sBit w rn list) s = .refused r ∧ exec (.stm c p u sBit w rn list) s = .refused r :=
  ⟨exec_ldm_refused hc (h _), exec_stm_refused hc (h _)⟩

/-! ## Swaps and coprocessor data transfers (47_swap.md R324, 49_coprocessor.md R357) -/

theorem swap_pc {rn rd rm : RegNum} (h : rn = 15#4 ∨ rd = 15#4 ∨ rm = 15#4) (byte : Bool) :
    swap byte c rn rd rm s = .refused .pcInSwap := (conditional_passes hc _).trans (if_pos h)

theorem exec_ldc_pcWriteBack {p u n : Bool} {crd num : BitVec 4} {offset : BitVec 8} {word : Word} {more : List Word}
    (h : s.cpAnswer num (encode (.ldc c p u n true 15#4 crd num offset)) = .accept word more) :
    exec (.ldc c p u n true 15#4 crd num offset) s = .refused .coprocessorPcWriteBack :=
  (conditional_passes hc _).trans ((offer_accept h _).trans (if_pos ⟨rfl, rfl⟩))

theorem exec_stc_pcWriteBack {p u n : Bool} {crd num : BitVec 4} {offset : BitVec 8} {word : Word} {more : List Word}
    (h : s.cpAnswer num (encode (.stc c p u n true 15#4 crd num offset)) = .accept word more) :
    exec (.stc c p u n true 15#4 crd num offset) s = .refused .coprocessorPcWriteBack :=
  (conditional_passes hc _).trans ((offer_accept h _).trans (if_pos ⟨rfl, rfl⟩))

end

/-! ## The tests of a block data transfer, in their order -/

section

variable {s : State} (userBank : Bool) {sBit w : Bool} {rn : RegNum} {list : BitVec 16}

theorem blockRefusal_pc (hrn : rn = 15#4) : s.blockRefusal userBank sBit w rn list = some .pcAsBlockBase := if_pos hrn

theorem blockRefusal_empty (hrn : rn ≠ 15#4) (hlist : list = 0#16) :
    s.blockRefusal userBank sBit w rn list = some .emptyRegisterList := (if_neg hrn).trans (if_pos hlist)

theorem blockRefusal_user (hrn : rn ≠ 15#4) (hlist : list ≠ 0#16) (hs : sBit = true) (hmode : s.mode = .usr) :
    s.blockRefusal userBank sBit w rn list = some .blockSInUserMode :=
  (if_neg hrn).trans ((if_neg hlist).trans (if_pos ⟨hs, hmode⟩))

theorem blockRefusal_writeBack (hrn : rn ≠ 15#4) (hlist : list ≠ 0#16) (hmode : s.mode ≠ .usr)
    (hbank : userBank = true) (hw : w = true) :
    s.blockRefusal userBank sBit w rn list = some .userBankWriteBack :=
  (if_neg hrn).trans ((if_neg hlist).trans ((if_neg fun h => hmode h.2).trans (if_pos ⟨hbank, hw⟩)))

end

/-- Settles O54: each form by the first test it meets under its condition. -/
theorem transferRefusals : Obligations.TransferRefusals := by
  intro c s hc
  refine ⟨fun body => ⟨conditional_passes hc _, conditional_passes hc _⟩, fun p w u rn rd off x hx => ⟨fun h => ?_, ?_⟩,
    fun p u sBit w rn list => ⟨fun hrn => ?_, ?_, ?_, ?_⟩, fun rn rd rm h => ⟨swap_pc hc h false, swap_pc hc h true⟩,
    fun p u n crd num offset word more => ⟨exec_ldc_pcWriteBack hc, exec_stc_pcWriteBack hc⟩⟩
  · exact exec_single_refused hc hx (singleRefusal_pcWriteBack h off) u rd
  · rintro ⟨hback, hoff⟩
    exact exec_single_refused hc hx (singleRefusal_pcAsOffset hback hoff) u rd
  · exact exec_block_refused hc (fun bank => blockRefusal_pc bank hrn) p u
  · rintro ⟨hrn, hlist⟩
    exact exec_block_refused hc (fun bank => blockRefusal_empty bank hrn hlist) p u
  · rintro ⟨hrn, hlist, hs, hmode⟩
    exact exec_block_refused hc (fun bank => blockRefusal_user bank hrn hlist hs hmode) p u
  · rintro ⟨hrn, hlist, hs, hmode, hw⟩
    refine ⟨fun hpc => exec_ldm_refused hc (blockRefusal_writeBack _ hrn hlist hmode ?_ hw),
      exec_stm_refused hc (blockRefusal_writeBack _ hrn hlist hmode hs hw)⟩
    have hnotIn : inList list 15#4 = false := hpc
    rw [hs, hnotIn]
    rfl

end Sys2Proof.Machine
